-- ==== Sys2Proof/Word.lean ====
section
/-! DEFINITION. The FC24's elementary types: bytes of frames and of the phone line, wrapping cell time, slot and port
numbers, and the bit sets the message reference (R184) names. -/

namespace Sys2Proof

/-- One byte of a frame, of a phone line or of a payload. -/
abbrev Byte := BitVec 8

/-- Cell time in milliseconds: a 32-bit count that wraps (00_scope.md, Conventions, "Cell time"). -/
abbrev Time := BitVec 32

/-- A slot, 0 to 23. -/
abbrev Slot := Fin 24

/-- An instrument port, P0 to P3. -/
abbrev Port := Fin 4

/-- A set of instrument ports, bit k for Pk (R184). -/
abbrev PortMask := BitVec 4

/-- A set of key lines: bit 0 POWER, bit 1 VOLDOWN, bit 2 STRAP (R184). -/
abbrev KeyMask := BitVec 3

/-- A set of slots, bit k for slot k (R184, the guard's slot mask). -/
abbrev SlotMask := BitVec 24

/-- A converter code, 0 to 4095 (R96). -/
abbrev AdcCode := BitVec 12

end Sys2Proof
end

