-- ==== Sys2Proof/Syntax.lean ====
section
/-! DEFINITION. The commands of the FC24: one constructor per row of spec/opcode_table.json. A request row carries the
request frame as the host sends it (R183), less its length and CRC fields, which follow from it; an event row carries what
the outside supplies with the event (a byte, a sample, a transfer) and names the slot or port it concerns. -/

namespace Sys2Proof

/-- What a request frame carries beside its kind, length and CRC (R183): the frame tag, the slot field, the flags field and
the body, each raw, so that every check of R170 and every encoding check of R184 is made by the machine. -/
structure Request where
  tag   : Byte
  slot  : Byte
  flags : Byte
  body  : List Byte
deriving DecidableEq, Repr

/-- The rows of spec/opcode_table.json, in its order. -/
inductive Instr where
  /-- Power-on reset (R182). -/
  | powerOnReset
  | cellInfo (r : Request)
  | cellStatus (r : Request)
  | cellReset (r : Request)
  | noticeSet (r : Request)
  | guardWrite (r : Request)
  | guardRead (r : Request)
  | guardDefault (r : Request)
  | limitWrite (r : Request)
  | limitRead (r : Request)
  | objOpen (r : Request)
  | objData (r : Request)
  | objSeal (r : Request)
  | objDelete (r : Request)
  | objList (r : Request)
  | instrStatus (r : Request)
  | slotConfig (r : Request)
  | slotFilter (r : Request)
  | slotTrigger (r : Request)
  | slotBlock (r : Request)
  /-- The STEP request (R1). -/
  | stepRequest (r : Request)
  | abort (r : Request)
  | results (r : Request)
  | slotStatus (r : Request)
  | captureRead (r : Request)
  | captureRelease (r : Request)
  | clearFault (r : Request)
  | slotReset (r : Request)
  /-- A request frame whose kind byte is none of the request kinds (R170, R186). -/
  | unknownKind (kind : Byte) (r : Request)
  /-- The USB layer presents an OUT transfer (R166). -/
  | outTransfer (bytes : List Byte)
  | usbConfigured
  | busReset
  /-- The USB layer reports that the host has taken the frame in transmission (R173). -/
  | frameTaken
  | uplinkChoice
  | stepStart (i : Slot)
  | drain (i : Slot)
  | abortingComplete (i : Slot)
  | stepDeadlineExpiry (i : Slot)
  | measureDurationEnd (i : Slot)
  | pressDurationEnd (i : Slot)
  | settleEnd (i : Slot)
  | pressRelease (i : Slot)
  | bootWaitExpiry (i : Slot)
  | leaveRun (i : Slot)
  | parkHoldExpiry (i : Slot)
  /-- One sample: the current code and the voltage code the converters give (R96). -/
  | sample (i : Slot) (current voltage : AdcCode)
  /-- The sample on which the overcurrent count reaches 4 (R100, R102). -/
  | overcurrentTrip (i : Slot) (current voltage : AdcCode)
  /-- The sample on which the undervoltage count reaches 20 (R101, R102). -/
  | undervoltTrip (i : Slot) (current voltage : AdcCode)
  | lidInputOpens
  | lidInputCloses
  | lidRecognisedOpen
  | waitDeadlineExpiry (i : Slot)
  | holdExpiry (p : Port)
  | grant (i : Slot)
  /-- A byte received in STANDBY SETTLED (R89), with its framing error if it has one (R37, R39). -/
  | wake (i : Slot) (byte : Byte) (framingError : Bool)
  /-- The LF that ends a line is received (R38), with its framing error if it has one (R39). -/
  | lineReceived (i : Slot) (framingError : Bool)
  | itemSent (i : Slot)
  | transmitWaitingItem (i : Slot)
  /-- A byte other than LF is received (R36, R38), with its framing error if it has one (R39). -/
  | byteReceived (i : Slot) (byte : Byte) (framingError : Bool)
deriving DecidableEq, Repr

end Sys2Proof
end

