-- ==== Sys2Proof/Config.lean ====
section
/-! DEFINITION. What one part fixes: its identity and its sizes (R188), the numeric limits the rules name, and the one value
the spec leaves open (a constant with no body, so that nothing can be proved of it). -/

namespace Sys2Proof.Config

/-- Vendor code 0x1E7C (R188). -/
def vendorCode : Nat := 0x1E7C
/-- Part code 0x0F24 (R188). -/
def partCode : Nat := 0x0F24
/-- Revision 1 (R188). -/
def revision : Nat := 1

/-- The places of a slot's step queue, the step in flight counted (R2). -/
def queuePlaces : Nat := 16
/-- The places of a slot's completion list (R3, R25). -/
def listPlaces : Nat := 8
/-- The bytes a slot's capture ring may use (R51). -/
def ringBytes : Nat := 4096
/-- The pages of the payload store (R142). -/
def pageCount : Nat := 512
/-- The bytes of one page (R142). -/
def pageSize : Nat := 256
/-- The places of the reply buffer (R169). -/
def replyPlaces : Nat := 8
/-- The bytes of the inbound buffer, and the longest OUT transfer (R166). -/
def inboundBytes : Nat := 4096
/-- The samples a window holds at most (R106). -/
def windowCap : Nat := 6050000
/-- The rail settle time in ms (R71). -/
def settleTime : Nat := 20
/-- The time in ms for which the lid input must read open (R90). -/
def lidTime : Nat := 10

/-- DESIGN CHOICE (notes/assumptions/3.md). A FREE VALUE: the voltage, in mV, that the settle check compares when no sample
has been taken since the rail was switched on. R97 says the check always finds a sample; a model whose samples are commands
can meet the settle end without one. The argument is a counter of State, so that each use is fresh. -/
opaque openSettleVoltage : Nat → Nat

end Sys2Proof.Config
end

