-- ==== Sys2Proof/Machine/State.lean ====
section
/-! DEFINITION. The state of the FC24 as plain data: every piece of state the chapters' "Held" tables name, block by block,
with the model's own three fields (the order of the free pages, the counter of free values, the waiting commands) marked as
such; the faults and refusals a step can end in; and the state after power-on reset. -/

namespace Sys2Proof.Machine

/-! ### Steps and their records (chapter 1) -/

/-- A POWER step's target (R8). -/
inductive Target where
  | off | standby | listen | run | park
deriving DecidableEq, Repr

/-- A POWER step's key combination (R8). -/
inductive KeyCombo where
  | none | voldown | strap
deriving DecidableEq, Repr

/-- A step's kind with its kind parameters, as the STEP request clamps them (R1, R6 to R13, R198). -/
inductive StepKind where
  | exchange (code : BitVec 16) (argument : List Byte)
  | push (object : Fin 16)
  | power (target : Target) (keys : KeyCombo)
  | measure (duration : Nat)
  | press (keys : KeyMask) (duration : Nat)
  | attach (ports : PortMask) (hold : Nat)
  | detach (ports : PortMask)
  | await (trigger : Fin 4)
deriving DecidableEq, Repr

/-- The doom reasons (R18). -/
inductive Doom where
  | aborted | faulted | interlocked | skipped
deriving DecidableEq, Repr

/-- The outcomes (R24). -/
inductive Outcome where
  | pass | advisory | fail | notRun
deriving DecidableEq, Repr

/-- The reasons (R24). -/
inductive Reason where
  | none | timeout | phoneError | denied | state | notEnabled | trigger | limit | aborted | skipped | faulted | interlocked
deriving DecidableEq, Repr

/-- A step record (section 1.1). -/
structure StepRecord where
  number     : BitVec 16
  kind       : StepKind
  stopOnFail : Bool
  lamp       : Bool
  timeout    : Nat
  limitSet   : Option (Fin 16)
  doom       : Option Doom
deriving DecidableEq, Repr

/-- The progress of a PUSH in flight (R4, R45): block size taken at start, block count, block in progress, acked blocks, whether
the step is in the ABORTING phase (R23), and whether the abort taken had scope ALL, which its STOP_ON_FAIL does not follow (R20). -/
structure PushProgress where
  blockSize : Nat
  count     : Nat
  current   : Nat
  acked     : Nat
  aborting  : Bool
  abortAll  : Bool
deriving DecidableEq, Repr

/-- An open measurement window (section 5.5): N, S, peak and min (unset in an empty window, shown as 0), open time and the
SATURATED flag. -/
structure Window where
  n         : Nat
  sum       : Nat
  peak      : Nat
  min       : Nat
  openTime  : Time
  saturated : Bool
deriving DecidableEq, Repr

/-- The in-flight context (R4). `deadline` is the engine's own: the whole-step deadline of EXCHANGE, PUSH and AWAIT, the
duration end of MEASURE and PRESS. A slot's measurement window stands here, since it exists only with its step (R104). -/
structure Flight where
  step     : StepRecord
  start    : Time
  deadline : Option Time
  tag      : Option Byte
  push     : Option PushProgress
  window   : Option Window
deriving DecidableEq, Repr

/-- The results of a closed window (R107 to R109); `values` is mean, peak, min and charge, absent when N = 0. -/
structure Measurement where
  n         : Nat
  values    : Option (Nat × Nat × Nat × Nat)
  duration  : Nat
  saturated : Bool
deriving DecidableEq, Repr

/-- The results of a limit entry (R122). -/
inductive GradeResult where
  | pass | fail | noData
deriving DecidableEq, Repr

/-- One item of a grade list (R125). -/
structure GradeItem where
  index  : Fin 64
  score  : Nat
  result : GradeResult
deriving DecidableEq, Repr

/-- The reply part of a record (R24, R203): the status, and for an EXCHANGE the payload kept with its TRUNCATED flag. -/
structure ReplyPart where
  status  : Byte
  payload : Option (List Byte × Bool)
deriving DecidableEq, Repr

/-- A completion record (R24). -/
structure Record where
  number      : BitVec 16
  kind        : StepKind
  outcome     : Outcome
  reason      : Reason
  start       : Time
  finish      : Time
  reply       : Option ReplyPart
  measurement : Option Measurement
  grades      : Option (List GradeItem)
  push        : Option (Nat × Option Nat)
  released    : Option PortMask
deriving DecidableEq, Repr

/-- A place of the completion list: the record and whether it is in transmission (R25). -/
structure ListEntry where
  record : Record
  inTx   : Bool
deriving DecidableEq, Repr

/-- The status lamp (R27). -/
inductive Lamp where
  | off | green | amber | red
deriving DecidableEq, Repr

/-- A Slot Step Engine. The queue of R2 is the step in flight, if any, followed by `waiting`. -/
structure Engine where
  flight  : Option Flight
  waiting : List StepRecord
  done    : List ListEntry
  lamp    : Lamp
deriving DecidableEq, Repr

/-! ### The phone line (chapter 2) -/

/-- The four bauds (R29). -/
inductive Baud where
  | b115200 | b460800 | b921600 | b3000000
deriving DecidableEq, Repr

/-- To whom the transmitter reports "item sent" (R33, R34). -/
inductive Owner where
  | step | controller | nobody
deriving DecidableEq, Repr

/-- What an item sends: a command line's bytes (R31), or a push block as its header bytes and the place of its data in the
payload store, which is read as the block is sent (R32, R45, R151). -/
inductive ItemContent where
  | line (bytes : List Byte)
  | block (header : List Byte) (pages : List Nat) (offset length : Nat)
deriving DecidableEq, Repr

/-- An item of the transmitter (R33). -/
structure TxItem where
  owner   : Owner
  content : ItemContent
deriving DecidableEq, Repr

/-- The line assembler (R38, R39): the kept bytes, the LONG and DAMAGED marks, and whether the one byte beyond the 250 kept
is a CR, which R38 removes when the LF follows at once. -/
structure Assembler where
  kept     : List Byte
  long     : Bool
  damaged  : Bool
  beyondCr : Bool
deriving DecidableEq, Repr

/-- A Phone Line Unit. The transmitter is IDLE when `tx` is none and SENDING otherwise (R33). -/
structure PhoneLine where
  baud      : Baud
  blockSize : Nat
  nextTag   : Byte
  tx        : Option TxItem
  txWaiting : Option TxItem
  assembler : Assembler
deriving DecidableEq, Repr

/-! ### Capture (chapter 3) -/

/-- The kinds of capture record (R52). -/
inductive CaptureKind where
  | log | stale
deriving DecidableEq, Repr

/-- A capture record (R52). -/
structure CaptureRecord where
  time         : Time
  kind         : CaptureKind
  truncated    : Bool
  damaged      : Bool
  afterOverrun : Bool
  content      : List Byte
deriving DecidableEq, Repr

/-- The filter modes (R58). -/
inductive FilterMode where
  | single | dual
deriving DecidableEq, Repr

/-- The acceptance filter (R58). -/
structure Filter where
  mode : FilterMode
  code : Vector Byte 4
  mask : Vector Byte 4
deriving DecidableEq, Repr

/-- The trigger modes (R61). -/
inductive TriggerMode where
  | atStart | anywhere
deriving DecidableEq, Repr

/-- The trigger actions (R61). -/
inductive TriggerAction where
  | count | note | failStep | boot
deriving DecidableEq, Repr

/-- A match trigger (R61). -/
structure Trigger where
  enabled : Bool
  pattern : List Byte
  mode    : TriggerMode
  action  : TriggerAction
  hits    : Nat
deriving DecidableEq, Repr

/-- A Capture Unit. -/
structure Capture where
  ring     : List CaptureRecord
  overrun  : Bool
  filter   : Filter
  triggers : Vector Trigger 4
deriving DecidableEq, Repr

/-! ### Slot power (chapter 4) -/

/-- The power states (R70). -/
inductive PowerState where
  | off | standby | starting | run | listen | parking | fault
deriving DecidableEq, Repr

/-- The power phases (section 4, "Held per slot"). -/
inductive PowerPhase where
  | none | settling | settled | pressing | bootWait | leaving
deriving DecidableEq, Repr

/-- The fault cause (R87): which trips put the slot into FAULT. -/
structure FaultCause where
  overcurrent : Bool
  undervolt   : Bool
deriving DecidableEq, Repr

/-- The power settings (R93). -/
structure PowerSettings where
  railVoltage  : Nat
  pressTime    : Nat
  parkHold     : Nat
  parkLevel    : Nat
  shutdownCode : BitVec 16
deriving DecidableEq, Repr

/-- A Slot Power Controller. The rail is on exactly in the rail-on states (R70), so it has no field of its own.
`lineSinceRelease` says whether a LOG or STALE line has arrived since the key release (R66, "the first"). -/
structure Power where
  state            : PowerState
  phase            : PowerPhase
  target           : Option Target
  settle           : Option Time
  keys             : KeyMask
  pressRelease     : Option Time
  bootWait         : Option Time
  lineSinceRelease : Bool
  parkHold         : Option Time
  parkLevel        : Nat
  cause            : FaultCause
  woke             : Bool
  interlock        : Bool
  forced           : Bool
  settings         : PowerSettings
deriving DecidableEq, Repr

/-! ### Sampling (chapter 5) -/

/-- A Sampling and Window Unit. Sampling runs exactly while the rail is on (R96). The park history's count and sum are those
of `parkHistory`, oldest first; the open window stands with its step (`Flight.window`). -/
structure Sampler where
  gain         : Nat
  offset       : Int
  tripLevel    : Nat
  lastSample   : Option (Nat × Nat)
  overcurrent  : Nat
  undervolt    : Nat
  parkHistory  : List Nat
deriving DecidableEq, Repr

/-! ### Notices (chapter 10) -/

/-- The slot notice kinds (R174). -/
inductive SlotNotice where
  | stepDone | lines | trigger | power | fault | grant | expiry
deriving DecidableEq, Repr

/-- A slot's notice pending flags (R174). -/
structure Pending where
  stepDone : Bool
  lines    : Bool
  trigger  : Bool
  power    : Bool
  fault    : Bool
  grant    : Bool
  expiry   : Bool
deriving DecidableEq, Repr

/-- Everything held once per slot. -/
structure SlotState where
  engine  : Engine
  line    : PhoneLine
  capture : Capture
  power   : Power
  sampler : Sampler
  notices : Pending
  granted : PortMask
  expired : PortMask
deriving DecidableEq, Repr

/-! ### Limits (chapter 6) -/

/-- The metrics (R113). -/
inductive Metric where
  | mean | peak | min | charge | duration | replyNumber
deriving DecidableEq, Repr

/-- The limit classes (R113). -/
inductive LimitClass where
  | gate | watch
deriving DecidableEq, Repr

/-- A limit table entry (R113). -/
structure LimitEntry where
  valid     : Bool
  set       : Fin 16
  metric    : Metric
  lo        : Int
  hi        : Int
  threshold : Nat
  cls       : LimitClass
deriving DecidableEq, Repr

/-! ### The instrument matrix (chapter 7) -/

/-- A held port: its holder and its hold deadline, which is armed exactly while the port is held (R129). -/
structure Hold where
  slot     : Slot
  deadline : Time
deriving DecidableEq, Repr

/-- A wait-list entry (R130). `hold` is the hold limit of its ATTACH step, which its grant needs (R132). -/
structure WaitEntry where
  slot     : Slot
  mask     : PortMask
  deadline : Time
  hold     : Nat
deriving DecidableEq, Repr

/-! ### The payload store (chapter 8) -/

/-- The object states (R143). -/
inductive ObjectState where
  | empty | filling | sealed | condemned
deriving DecidableEq, Repr

/-- An object record (R143). -/
structure ObjectRecord where
  state  : ObjectState
  length : Nat
  fill   : Nat
  pages  : List Nat
  refs   : Nat
  check  : Option (BitVec 16)
deriving DecidableEq, Repr

/-- The bytes of the page pool: one cell for each byte that is not 0, page p's byte k at address 256·p + k, addresses
strictly rising (`Memory.wf` in Machine/Store.lean). -/
abbrev Memory := List Host.Cell

/-- The payload store: the object table, the free pages in the order in which OBJ_OPEN will take them (the order is the
MODEL's, notes/assumptions/4.md), and the bytes of the pages. -/
structure Store where
  objects : Vector ObjectRecord 16
  free    : List Nat
  bytes   : Memory
deriving DecidableEq, Repr

/-! ### The command guard (chapter 9) -/

/-- The guard actions (R155). -/
inductive GuardAction where
  | allow | deny
deriving DecidableEq, Repr

/-- A guard entry (R155). -/
structure GuardEntry where
  valid  : Bool
  codeLo : BitVec 16
  codeHi : BitVec 16
  slots  : SlotMask
  action : GuardAction
  locked : Bool
deriving DecidableEq, Repr

/-! ### The host link (chapter 10) -/

/-- The USB condition (R165). -/
inductive UsbCondition where
  | configured | notConfigured
deriving DecidableEq, Repr

/-- The reset causes HELLO carries (R179). -/
inductive ResetCause where
  | powerOn | commanded
deriving DecidableEq, Repr

/-- A frame less its length and CRC (R183). -/
structure Frame where
  kind  : Byte
  tag   : Byte
  slot  : Byte
  flags : Byte
  body  : List Byte
deriving DecidableEq, Repr

/-- What a frame in transmission is, which R173 and R181 act on. A GRANT or EXPIRY notice keeps the mask it carries. -/
inductive FrameSource where
  | reply
  | hello (cause : ResetCause)
  | linkError
  | slotNotice (kind : SlotNotice) (slot : Slot) (mask : PortMask)
deriving DecidableEq, Repr

/-- The frame in transmission. `voided` records that a reset has come since its choice and has emptied what it carried, so
that a bus reset restores nothing (R181). -/
structure TxFrame where
  frame  : Frame
  source : FrameSource
  voided : Bool
deriving DecidableEq, Repr

/-- The Host Link Interface and the Notice Scheduler. `held` is the OUT transfer presented and held off (R166); priorities
stand in the order STEP_DONE, LINES, TRIGGER, POWER, FAULT, GRANT, EXPIRY, LINK_ERROR (R175). -/
structure Link where
  usb         : UsbCondition
  inbound     : List Frame
  held        : Option (List Byte)
  replies     : List Frame
  tx          : Option TxFrame
  linkLength  : Bool
  linkCrc     : Bool
  unknownSeen : Bool
  hello       : Option ResetCause
  linkError   : Bool
  priorities  : Vector Nat 8
  threshold   : Nat
deriving DecidableEq, Repr

/-- The lid states (R90). -/
inductive LidState where
  | closed | opened
deriving DecidableEq, Repr

/-- The lid interlock: the recognised state, what the input reads, and the recognition deadline (R90). -/
structure Lid where
  state    : LidState
  input    : Bool
  deadline : Option Time
deriving DecidableEq, Repr

/-- The whole part. `freeCount` (the uses of free values so far) and `pending` (the commands that wait, first in, first out)
are the MODEL's own. -/
structure State where
  time         : Time
  slots        : Vector SlotState 24
  ports        : Vector (Option Hold) 4
  waitList     : List WaitEntry
  limits       : Vector LimitEntry 64
  store        : Store
  guard        : Vector GuardEntry 8
  guardDefault : GuardAction
  link         : Link
  lid          : Lid
  freeCount    : Nat
  pending      : List Instr
deriving DecidableEq, Repr

/-- The faults a step can end in: none. The block reports every failure in its own state (a reply code, a record, a notice),
so no command of the table stops the machine, and the type has no constructor. Safe: nothing is stopped by it. -/
inductive Fault where
deriving DecidableEq, Repr

/-- The refusals. -/
inductive Refusal where
  /-- Raised by an arm of exec for a command that has no meaning yet. Safe: the machine stops where the part goes on. No arm
  raises it. -/
  | notModelled (mnemonic : String)
deriving DecidableEq, Repr

/-! ### After power-on reset -/

/-- The empty assembler (R40). -/
def Assembler.empty : Assembler := ⟨[], false, false, false⟩

/-- The power settings' defaults (R93). -/
def PowerSettings.default : PowerSettings := ⟨3800, 1500, 10000, 20, 0x00F0#16⟩

/-- A trigger after POR (R61). -/
def Trigger.reset : Trigger := ⟨false, [], .atStart, .count, 0⟩

/-- The filter after POR, which accepts every line (R58). -/
def Filter.reset : Filter := ⟨.single, Vector.replicate 4 0#8, Vector.replicate 4 0xFF#8⟩

/-- A slot after POR (R28, R50, R69, R95, R112, R141, R182). The park level in force has no stated reset value: it is the
setting's default (notes/assumptions/6.md). -/
def SlotState.reset : SlotState where
  engine  := { flight := none, waiting := [], done := [], lamp := .off }
  line    := { baud := .b921600, blockSize := 0, nextTag := 1#8, tx := none, txWaiting := none, assembler := .empty }
  capture := { ring := [], overrun := false, filter := .reset, triggers := Vector.replicate 4 .reset }
  power   := { state := .off, phase := .none, target := none, settle := none, keys := 0#3, pressRelease := none,
               bootWait := none, lineSinceRelease := false, parkHold := none, parkLevel := 20, cause := ⟨false, false⟩,
               woke := false, interlock := false, forced := false, settings := .default }
  sampler := { gain := 1024, offset := 0, tripLevel := 3000, lastSample := none, overcurrent := 0, undervolt := 0,
               parkHistory := [] }
  notices := ⟨false, false, false, false, false, false, false⟩
  granted := 0#4
  expired := 0#4

/-- A limit entry after POR (R128). -/
def LimitEntry.reset : LimitEntry := ⟨false, 0, .mean, 0, 0, 0, .gate⟩

/-- A guard entry after POR (R164). -/
def GuardEntry.reset : GuardEntry := ⟨false, 0#16, 0#16, 0#24, .allow, false⟩

/-- An EMPTY object (R143, R150). -/
def ObjectRecord.empty : ObjectRecord := ⟨.empty, 0, 0, [], 0, none⟩

/-- The store after POR: every object EMPTY, 512 pages free (R154). Their order and their bytes (all 0) are the model's
(notes/assumptions/4.md, notes/assumptions/5.md). -/
def Store.reset : Store := ⟨Vector.replicate 16 .empty, List.range Config.pageCount, []⟩

/-- The link after POR (R182), with the default priorities and the threshold 0 (R175). -/
def Link.reset : Link where
  usb := .notConfigured
  inbound := []
  held := none
  replies := []
  tx := none
  linkLength := false
  linkCrc := false
  unknownSeen := false
  hello := some .powerOn
  linkError := false
  priorities := #v[8, 4, 7, 6, 12, 5, 9, 10]
  threshold := 0

/-- The part right after power-on reset with the lid input reading closed (R182 and the reset table of each chapter) and no
command waiting. -/
def State.reset : State where
  time := 0#32
  slots := Vector.replicate 24 .reset
  ports := Vector.replicate 4 none
  waitList := []
  limits := Vector.replicate 64 .reset
  store := .reset
  guard := Vector.replicate 8 .reset
  guardDefault := .allow
  link := .reset
  lid := ⟨.closed, false, none⟩
  freeCount := 0
  pending := []

end Sys2Proof.Machine
end

