-- ==== Sys2Proof/Machine/Ops.lean ====
section
/-! DEFINITION. The named operations over State that every block uses: access to one slot, cell time and deadlines, the power
states that have the rail on, and the outputs derived from the slots (lamp, rail and keys stand in State itself). -/

namespace Sys2Proof.Machine

/-! ### Slots -/

/-- What slot i holds. -/
def State.slot (s : State) (i : Slot) : SlotState := s.slots[i]

/-- The state with slot i holding x. -/
def State.setSlot (s : State) (i : Slot) (x : SlotState) : State := { s with slots := s.slots.set i x }

/-- The state with slot i changed by f. -/
def State.modSlot (s : State) (i : Slot) (f : SlotState → SlotState) : State := s.setSlot i (f (s.slot i))

/-- The slots in rising order. -/
def allSlots : List Slot := List.finRange 24

/-- The ports in rising order. -/
def allPorts : List Port := List.finRange 4

/-! ### Cell time (00_scope.md, Conventions) -/

/-- The deadline "start + T", taken modulo 2^32. -/
def Time.after (t : Time) (ms : Nat) : Time := t + BitVec.ofNat 32 ms

/-- Whether cell time `now` is at or after the deadline `d`, compared modulo 2^32: `now` lies in the half of the circle that
begins at `d` (DEDUCED, notes/assumptions/7.md). -/
def Time.due (now d : Time) : Bool := decide ((now - d).toNat < 2147483648)

/-- Whether a deadline is armed and due. -/
def Time.expired (now : Time) : Option Time → Bool
  | none => false
  | some d => Time.due now d

/-- The time left to a deadline, modulo 2^32 (R138). -/
def Time.left (now d : Time) : Nat := (d - now).toNat

/-- x limited to the range a to b (00_scope.md, Number notation). -/
def clampNat (x a b : Nat) : Nat := max a (min x b)

/-- x limited to the range a to b (00_scope.md, Number notation). -/
def clampInt (x a b : Int) : Int := max a (min x b)

/-! ### What the state says by itself -/

/-- The rail-on states (R70). -/
def PowerState.railOn : PowerState → Bool
  | .standby | .starting | .run | .listen | .parking => true
  | .off | .fault => false

/-- The queue of a slot, head first (R2): the step in flight, then the waiting steps. -/
def Engine.queue (e : Engine) : List StepRecord := (e.flight.map Flight.step).toList ++ e.waiting

/-- The queue count (R2). -/
def Engine.queueCount (e : Engine) : Nat := e.queue.length

/-- The reservation (R3): one exactly while a step is in flight. -/
def Engine.reservation (e : Engine) : Nat := if e.flight.isSome then 1 else 0

/-- Whether the step in flight is a PUSH in the ABORTING phase (R23). -/
def Flight.aborting (f : Flight) : Bool :=
  match f.push with
  | some p => p.aborting
  | none => false

/-- Whether the abort a PUSH in the ABORTING phase waits under had scope ALL (R20, R21). -/
def Flight.abortedAll (f : Flight) : Bool :=
  match f.push with
  | some p => p.abortAll
  | none => false

/-- The cell output ALERT (R94). -/
def State.alert (s : State) : Bool := allSlots.any fun i => decide ((s.slot i).power.state = .fault)

/-- The cell output ACTIVE (R94). -/
def State.active (s : State) : Bool := allSlots.any fun i => decide ((s.slot i).engine.queueCount ≠ 0)

/-- The ports slot i holds (R129, R139). -/
def State.portsHeld (s : State) (i : Slot) : PortMask :=
  (allPorts.filter fun p => match s.ports[p] with
    | some h => decide (h.slot = i)
    | none => false).foldl (fun m p => m ||| (1#4 <<< p.val)) 0#4

/-- The wait entry of slot i (R130). -/
def State.waitEntry (s : State) (i : Slot) : Option WaitEntry := s.waitList.find? fun e => decide (e.slot = i)

end Sys2Proof.Machine
end

