-- ==== Sys2Proof/Machine/Flags.lean ====
section
/-! DEFINITION. The flags: the notice pending flags of a slot and of the cell (R174), the sticky link flags (R178), and the
bit sets in which flags travel (R184). -/

namespace Sys2Proof.Machine

/-- One pending flag of a slot. -/
def Pending.get (p : Pending) : SlotNotice → Bool
  | .stepDone => p.stepDone
  | .lines => p.lines
  | .trigger => p.trigger
  | .power => p.power
  | .fault => p.fault
  | .grant => p.grant
  | .expiry => p.expiry

/-- The pending flags with one of them set to b. -/
def Pending.put (p : Pending) (k : SlotNotice) (b : Bool) : Pending :=
  match k with
  | .stepDone => { p with stepDone := b }
  | .lines => { p with lines := b }
  | .trigger => { p with trigger := b }
  | .power => { p with power := b }
  | .fault => { p with fault := b }
  | .grant => { p with grant := b }
  | .expiry => { p with expiry := b }

/-- No flag pending (R182). -/
def Pending.clear : Pending := ⟨false, false, false, false, false, false, false⟩

/-- The notice scheduler marks a notice pending for a slot (R174). -/
def State.mark (s : State) (i : Slot) (k : SlotNotice) : State :=
  s.modSlot i fun x => { x with notices := x.notices.put k true }

/-- The cell's LINK_ERROR is marked pending (R174). -/
def State.markLinkError (s : State) : State := { s with link.linkError := true }

/-- The STEP_DONE flag of a slot is cleared when its list holds no record that is not in transmission (R25). -/
def SlotState.settleStepDone (x : SlotState) : SlotState :=
  if x.engine.done.all ListEntry.inTx then { x with notices := x.notices.put .stepDone false } else x

/-- A bit set, bit 0 first, as a number (R184). -/
def bitSet : List Bool → Nat
  | [] => 0
  | b :: bs => (if b then 1 else 0) + 2 * bitSet bs

/-- The fault cause as a bit set (R184). -/
def FaultCause.bits (c : FaultCause) : Nat := bitSet [c.overcurrent, c.undervolt]

/-- The power flags as a bit set (R184). -/
def Power.flagBits (p : Power) : Nat := bitSet [p.woke, p.interlock, p.forced]

/-- The sticky link flags as a bit set (R184). -/
def Link.stickyBits (l : Link) : Nat := bitSet [l.linkLength, l.linkCrc, l.unknownSeen]

/-- The cell outputs as a bit set (R184). -/
def State.outputBits (s : State) : Nat := bitSet [s.alert, s.active]

end Sys2Proof.Machine
end

