-- ==== Sys2Proof/Machine/Operands.lean ====
section
/-! DEFINITION. How fields stand in frames: little-endian numbers (R184), the enumerations' codes in both directions (R185),
and the CRC-16 that checks frames and payload objects (R168, R146). -/

namespace Sys2Proof.Machine

/-! ### Numbers -/

/-- The number a little-endian field holds. -/
def leNat : List Byte → Nat
  | [] => 0
  | b :: bs => b.toNat + 256 * leNat bs

/-- A number as w little-endian bytes. -/
def le : Nat → Nat → List Byte
  | 0, _ => []
  | w + 1, n => BitVec.ofNat 8 n :: le w (n / 256)

/-- The field of w bytes at an offset of a body. -/
def field (body : List Byte) (offset w : Nat) : Nat := leNat ((body.drop offset).take w)

/-- The byte at an offset of a body. -/
def byteAt (body : List Byte) (offset : Nat) : Byte := body.getD offset 0#8

/-- The byte at an offset of a body, as a number. -/
def byteNat (body : List Byte) (offset : Nat) : Nat := (byteAt body offset).toNat

/-- A two's complement field of w bytes read as an integer. -/
def signedOf (w n : Nat) : Int := if n < 256 ^ w / 2 then (n : Int) else (n : Int) - (256 ^ w : Nat)

/-- An integer as w little-endian two's complement bytes. -/
def leInt (w : Nat) (z : Int) : List Byte := le w (z % (256 ^ w : Nat)).toNat

/-- One byte of a number below 256. -/
def byte (n : Nat) : Byte := BitVec.ofNat 8 n

/-! ### Enumerations (R184, R185) -/

/-- A boolean byte; a value other than 0 and 1 is none. -/
def boolOf : Nat → Option Bool
  | 0 => some false
  | 1 => some true
  | _ => none

/-- A boolean as its byte. -/
def boolCode (b : Bool) : Nat := if b then 1 else 0

/-- The slot a slot field names. -/
def slotOf (b : Byte) : Option Slot := if h : b.toNat < 24 then some ⟨b.toNat, h⟩ else none

/-- A number read as an index below n, where it is one. -/
def finOf (n k : Nat) : Option (Fin n) := if h : k < n then some ⟨k, h⟩ else none

def Target.ofCode : Nat → Option Target
  | 0 => some .off | 1 => some .standby | 2 => some .listen | 3 => some .run | 4 => some .park | _ => none

def KeyCombo.ofCode : Nat → Option KeyCombo
  | 0 => some .none | 1 => some .voldown | 2 => some .strap | _ => Option.none

def StepKind.code : StepKind → Nat
  | .exchange _ _ => 0 | .push _ => 1 | .power _ _ => 2 | .measure _ => 3
  | .press _ _ => 4 | .attach _ _ => 5 | .detach _ => 6 | .await _ => 7

def Outcome.code : Outcome → Nat
  | .pass => 0 | .advisory => 1 | .fail => 2 | .notRun => 3

def Reason.code : Reason → Nat
  | .none => 0 | .timeout => 1 | .phoneError => 2 | .denied => 3 | .state => 4 | .notEnabled => 5 | .trigger => 6
  | .limit => 7 | .aborted => 8 | .skipped => 9 | .faulted => 10 | .interlocked => 11

def GradeResult.code : GradeResult → Nat
  | .pass => 0 | .fail => 1 | .noData => 2

def PowerState.code : PowerState → Nat
  | .off => 0 | .standby => 1 | .starting => 2 | .run => 3 | .listen => 4 | .parking => 5 | .fault => 6

def PowerPhase.code : PowerPhase → Nat
  | .none => 0 | .settling => 1 | .settled => 2 | .pressing => 3 | .bootWait => 4 | .leaving => 5

def Lamp.code : Lamp → Nat
  | .off => 0 | .green => 1 | .amber => 2 | .red => 3

def FilterMode.code : FilterMode → Nat
  | .single => 0 | .dual => 1

def FilterMode.ofCode : Nat → Option FilterMode
  | 0 => some .single | 1 => some .dual | _ => none

def TriggerMode.ofCode : Nat → Option TriggerMode
  | 0 => some .atStart | 1 => some .anywhere | _ => none

def TriggerAction.ofCode : Nat → Option TriggerAction
  | 0 => some .count | 1 => some .note | 2 => some .failStep | 3 => some .boot | _ => none

def CaptureKind.code : CaptureKind → Nat
  | .log => 0 | .stale => 1

def Metric.code : Metric → Nat
  | .mean => 0 | .peak => 1 | .min => 2 | .charge => 3 | .duration => 4 | .replyNumber => 5

def Metric.ofCode : Nat → Option Metric
  | 0 => some .mean | 1 => some .peak | 2 => some .min | 3 => some .charge | 4 => some .duration
  | 5 => some .replyNumber | _ => none

def LimitClass.code : LimitClass → Nat
  | .gate => 0 | .watch => 1

def LimitClass.ofCode : Nat → Option LimitClass
  | 0 => some .gate | 1 => some .watch | _ => none

def GuardAction.code : GuardAction → Nat
  | .allow => 0 | .deny => 1

def GuardAction.ofCode : Nat → Option GuardAction
  | 0 => some .allow | 1 => some .deny | _ => none

def ObjectState.code : ObjectState → Nat
  | .empty => 0 | .filling => 1 | .sealed => 2 | .condemned => 3

def LidState.code : LidState → Nat
  | .closed => 0 | .opened => 1

def ResetCause.code : ResetCause → Nat
  | .powerOn => 0 | .commanded => 1

/-- A baud as its value in bits per second (R185). -/
def Baud.value : Baud → Nat
  | .b115200 => 115200 | .b460800 => 460800 | .b921600 => 921600 | .b3000000 => 3000000

/-- The baud a value names (R29). -/
def Baud.ofValue (n : Nat) : Option Baud :=
  if n = 115200 then some .b115200
  else if n = 460800 then some .b460800
  else if n = 921600 then some .b921600
  else if n = 3000000 then some .b3000000
  else none

/-- The code of a slot notice kind (R174). -/
def SlotNotice.code : SlotNotice → Nat
  | .stepDone => 0x61 | .lines => 0x62 | .trigger => 0x63 | .power => 0x64 | .fault => 0x65 | .grant => 0x66
  | .expiry => 0x67

/-- The place of a slot notice kind among the priorities (R175). -/
def SlotNotice.index : SlotNotice → Fin 8
  | .stepDone => 0 | .lines => 1 | .trigger => 2 | .power => 3 | .fault => 4 | .grant => 5 | .expiry => 6

/-- The slot notice kinds, lowest kind code first. -/
def allNotices : List SlotNotice := [.stepDone, .lines, .trigger, .power, .fault, .grant, .expiry]

/-! ### Reply codes (R187) -/

inductive ReplyCode where
  | ok | clamped | unknownKind | badSlot | badLength | badValue | wrongState | queueFull | slotFaulted | noObject
  | objectState | poolFull | locked | incomplete
deriving DecidableEq, Repr

def ReplyCode.code : ReplyCode → Nat
  | .ok => 0x00 | .clamped => 0x01 | .unknownKind => 0x10 | .badSlot => 0x11 | .badLength => 0x12 | .badValue => 0x13
  | .wrongState => 0x14 | .queueFull => 0x15 | .slotFaulted => 0x16 | .noObject => 0x17 | .objectState => 0x18
  | .poolFull => 0x19 | .locked => 0x1A | .incomplete => 0x1B

/-- A reply body: the code, then what follows it (R171, R183). -/
def replyBody (c : ReplyCode) (rest : List Byte) : List Byte := byte c.code :: rest

/-- OK, or CLAMPED when a value was clamped (R187). -/
def okOr (clamped : Bool) : ReplyCode := if clamped then .clamped else .ok

/-! ### The CRC-16 (R168) -/

/-- One bit of the check: shift left, and take in the polynomial x^16 + x^12 + x^5 + 1 when a one leaves the register. -/
def crcShift (r : BitVec 16) : BitVec 16 := if r.msb then (r <<< 1) ^^^ 0x1021#16 else r <<< 1

/-- One byte of the check, most significant bit first. -/
def crcByte (r : BitVec 16) (b : Byte) : BitVec 16 :=
  crcShift (crcShift (crcShift (crcShift (crcShift (crcShift (crcShift (crcShift (r ^^^ (b.zeroExtend 16 <<< 8)))))))))

/-- The check over a run of bytes, from 0xFFFF, not reflected and with no final XOR. -/
def crc16 (bytes : List Byte) : BitVec 16 := bytes.foldl crcByte 0xFFFF#16

end Sys2Proof.Machine
end

