-- ==== Sys2Proof/Machine/Limits.lean ====
section
/-! DEFINITION. Limits and Grading (chapter 6): the limit table requests, REPLY_NUMBER, the score, entry results and the
verdict. -/

namespace Sys2Proof.Machine

/-! ### The table (R113 to R115) -/

/-- A limit entry in its 14-byte layout (R191). -/
def LimitEntry.bytes (k : Fin 64) (e : LimitEntry) : List Byte :=
  [byte k.val, byte (boolCode e.valid), byte e.set.val, byte e.metric.code] ++ leInt 4 e.lo ++ leInt 4 e.hi
    ++ [byte e.threshold, byte e.cls.code]

/-- The entry a LIMIT_WRITE body holds, where its checks pass (R114, R191). -/
def limitEntryOf (body : List Byte) : Option (Fin 64 × LimitEntry) :=
  match finOf 64 (byteNat body 0), boolOf (byteNat body 1), finOf 16 (byteNat body 2), Metric.ofCode (byteNat body 3),
    LimitClass.ofCode (byteNat body 13) with
  | some k, some valid, some set, some metric, some cls =>
    let lo := signedOf 4 (field body 4 4)
    let hi := signedOf 4 (field body 8 4)
    if hi < lo ∨ byteNat body 12 = 254 then none
    else some (k, { valid := valid, set := set, metric := metric, lo := lo, hi := hi, threshold := byteNat body 12, cls := cls })
  | _, _, _, _, _ => none

/-- LIMIT_WRITE (R114). -/
def limitWrite (body : List Byte) (s : State) : State × List Byte :=
  match limitEntryOf body with
  | none => (s, replyBody .badValue [])
  | some (k, e) => ({ s with limits := s.limits.set k e }, replyBody .ok (e.bytes k))

/-- LIMIT_READ (R115). -/
def limitRead (body : List Byte) (s : State) : State × List Byte :=
  match finOf 64 (byteNat body 0) with
  | none => (s, replyBody .badValue [])
  | some k => (s, replyBody .ok (s.limits[k].bytes k))

/-! ### Raw values (section 6.3) -/

/-- A decimal digit, 0x30 to 0x39. -/
def isDigit (b : Byte) : Bool := decide (0x30 ≤ b.toNat) && decide (b.toNat ≤ 0x39)

/-- The decimal value of a run of digits, at most n of them, after the digits already taken (R119, steps 2 and 3). -/
def digitRun : Nat → Nat → List Byte → Nat
  | 0, acc, _ => acc
  | _ + 1, acc, [] => acc
  | n + 1, acc, b :: bs => if isDigit b then digitRun n (10 * acc + (b.toNat - 0x30)) bs else acc

/-- The signed value of the first run of digits; `minus` says whether the byte before is `-` (R119, steps 1 to 4). -/
def firstNumber (minus : Bool) : List Byte → Option Int
  | [] => none
  | b :: bs =>
    if isDigit b then some (if minus then -(digitRun 10 0 (b :: bs) : Int) else (digitRun 10 0 (b :: bs) : Int))
    else firstNumber (decide (b = 0x2D#8)) bs

/-- REPLY_NUMBER of a payload, saturated to the signed 32-bit range (R119). -/
def replyNumber (payload : List Byte) : Option Int :=
  (firstNumber false payload).map fun z => clampInt z (-2147483648) 2147483647

/-- The payload a reply part carries (R118). -/
def ReplyPart.numberPayload (p : Option ReplyPart) : Option (List Byte) :=
  match p with
  | some q => q.payload.map Prod.fst
  | none => none

/-- The raw value of a metric (R117, R118). -/
def rawValue (m : Measurement) (reply : Option ReplyPart) : Metric → Option Int
  | .mean => m.values.map fun v => (v.1 : Int)
  | .peak => m.values.map fun v => (v.2.1 : Int)
  | .min => m.values.map fun v => (v.2.2.1 : Int)
  | .charge => m.values.map fun v => (v.2.2.2 : Int)
  | .duration => some (m.duration : Int)
  | .replyNumber => (ReplyPart.numberPayload reply).bind replyNumber

/-! ### Score, result, verdict (R120 to R123) -/

/-- The score of a raw value against limits (R120). -/
def score (raw : Option Int) (lo hi : Int) : Nat :=
  match raw with
  | none => 0
  | some r =>
    if r < lo ∨ hi < r then 0
    else
      let m := (min (r - lo) (hi - r)).toNat
      let h := ((hi - lo) / 2).toNat
      if h = 0 then 253 else 1 + 252 * m / h

/-- The result of an entry from its threshold and its score (R122). -/
def gradeResult (threshold : Nat) (raw : Option Int) (sc : Nat) : GradeResult :=
  if threshold = 0 then .pass
  else if threshold = 255 then .fail
  else if raw.isNone then .noData
  else if threshold < sc then .pass
  else .fail

/-- The item of one entry (R125). -/
def gradeItem (m : Measurement) (reply : Option ReplyPart) (k : Fin 64) (e : LimitEntry) : GradeItem :=
  let raw := rawValue m reply e.metric
  let sc := score raw e.lo e.hi
  ⟨k, sc, gradeResult e.threshold raw sc⟩

/-- The valid entries of a set in table-index order (R113). -/
def limitSetEntries (limits : Vector LimitEntry 64) (set : Fin 16) : List (Fin 64 × LimitEntry) :=
  ((List.finRange 64).map fun k => (k, limits[k])).filter fun p => p.2.valid && decide (p.2.set = set)

/-- The verdicts (R123). -/
inductive Verdict where
  | pass | advisory | fail
deriving DecidableEq, Repr

/-- Every valid entry of a set evaluated: its class and its item (R123, R125). -/
def gradeSet (limits : Vector LimitEntry 64) (set : Fin 16) (m : Measurement) (reply : Option ReplyPart) :
    List (LimitClass × GradeItem) :=
  (limitSetEntries limits set).map fun p => (p.2.cls, gradeItem m reply p.1 p.2)

/-- The verdict over evaluated entries (R123). -/
def verdictOf (items : List (LimitClass × GradeItem)) : Verdict :=
  if items.any (fun p => decide (p.1 = .gate) && decide (p.2.result ≠ .pass)) then .fail
  else if items.any (fun p => decide (p.1 = .watch) && decide (p.2.result ≠ .pass)) then .advisory
  else .pass

end Sys2Proof.Machine
end

