-- ==== Sys2Proof/Machine/Store.lean ====
section
/-! DEFINITION. The Payload Store (chapter 8): the page pool's bytes, objects, references, and the five store requests. -/

namespace Sys2Proof.Machine

/-! ### The bytes of the page pool (R142)

A byte that no OBJ_DATA has written reads 0 (DESIGN CHOICE, notes/assumptions/5.md). -/

/-- The byte at an address of the pool. -/
def Memory.read : Memory → Nat → Byte
  | [], _ => 0#8
  | c :: m, a => if c.1 = a then c.2 else Memory.read m a

/-- The pool with one byte written, in the canonical form. -/
def Memory.write : Memory → Nat → Byte → Memory
  | [], a, b => if b = 0#8 then [] else [(a, b)]
  | c :: m, a, b =>
    if a < c.1 then (if b = 0#8 then c :: m else (a, b) :: c :: m)
    else if a = c.1 then (if b = 0#8 then m else (a, b) :: m)
    else c :: Memory.write m a b

/-- The canonical form from an address on: addresses strictly rising, no listed byte 0. -/
def Memory.wfFrom : Nat → Memory → Bool
  | _, [] => true
  | lo, c :: m => decide (lo ≤ c.1) && (decide (c.2 ≠ 0#8) && Memory.wfFrom (c.1 + 1) m)

/-- The canonical form. -/
def Memory.wf (m : Memory) : Bool := Memory.wfFrom 0 m

/-! ### Objects (R143) -/

/-- The pages that a length takes: ceil(length / 256). -/
def pagesFor (length : Nat) : Nat := (length + (Config.pageSize - 1)) / Config.pageSize

/-- Where byte k of an object lies, by its page list (R143). -/
def byteAddress (pages : List Nat) (k : Nat) : Nat :=
  Config.pageSize * pages.getD (k / Config.pageSize) 0 + k % Config.pageSize

/-- The n bytes of a page list from an offset on, as the pages stand (R143, R151). -/
def readPages (m : Memory) (pages : List Nat) (offset n : Nat) : List Byte :=
  (List.range n).map fun k => m.read (byteAddress pages (offset + k))

/-- Bytes written into a page list from an offset on (R145). -/
def writePages (pages : List Nat) : Nat → List Byte → Memory → Memory
  | _, [], m => m
  | offset, b :: bs, m => writePages pages (offset + 1) bs (m.write (byteAddress pages offset) b)

/-- One object of the store. -/
def Store.object (t : Store) (o : Fin 16) : ObjectRecord := t.objects[o]

/-- The store with one object replaced. -/
def Store.putObject (t : Store) (o : Fin 16) (r : ObjectRecord) : Store := { t with objects := t.objects.set o r }

/-- An object is freed: its pages return to the pool, at the end of the free order (notes/assumptions/4.md), and it becomes
EMPTY (R150). -/
def Store.freeObject (t : Store) (o : Fin 16) : Store :=
  { (t.putObject o .empty) with free := t.free ++ (t.object o).pages }

/-- An accepted PUSH step adds a reference (R148). -/
def Store.addRef (t : Store) (o : Fin 16) : Store :=
  t.putObject o { t.object o with refs := (t.object o).refs + 1 }

/-- A completed or discarded PUSH step drops its reference, and the last drop of a CONDEMNED object frees it (R149). -/
def Store.dropRef (t : Store) (o : Fin 16) : Store :=
  let r := t.object o
  if r.state = .condemned ∧ r.refs ≤ 1 then t.freeObject o else t.putObject o { r with refs := r.refs - 1 }

/-- The references that a list of discarded steps drops (R28, R149). -/
def Store.dropRefs (t : Store) (steps : List StepRecord) : Store :=
  steps.foldl (fun u st => match st.kind with
    | .push o => u.dropRef o
    | _ => u) t

/-- The store after a POR or CMD reset (R154); a reset clears no page's bytes on a CMD reset (R142, notes/assumptions/5.md). -/
def Store.cleared (t : Store) : Store := { Store.reset with bytes := t.bytes }

/-! ### The requests -/

/-- OBJ_OPEN (R144, R192). -/
def objOpen (body : List Byte) (s : State) : State × List Byte :=
  let length := field body 1 4
  match finOf 16 (byteNat body 0) with
  | none => (s, replyBody .badValue [])
  | some o =>
    if length = 0 ∨ 65536 < length then (s, replyBody .badValue [])
    else if (s.store.object o).state ≠ .empty then (s, replyBody .objectState [])
    else if s.store.free.length < pagesFor length then (s, replyBody .poolFull [])
    else
      let n := pagesFor length
      let t := { (s.store.putObject o ⟨.filling, length, 0, s.store.free.take n, 0, none⟩) with
        free := s.store.free.drop n }
      ({ s with store := t }, replyBody .ok (le 2 n ++ le 2 t.free.length))

/-- OBJ_DATA (R145, R192). -/
def objData (body : List Byte) (s : State) : State × List Byte :=
  let offset := field body 1 4
  let data := body.drop 5
  match finOf 16 (byteNat body 0) with
  | none => (s, replyBody .badValue [])
  | some o =>
    let r := s.store.object o
    if r.state = .empty then (s, replyBody .noObject [])
    else if r.state ≠ .filling then (s, replyBody .objectState [])
    else if offset ≠ r.fill then (s, replyBody .badValue [])
    else if r.length < offset + data.length then (s, replyBody .badValue [])
    else
      let fill := r.fill + data.length
      let t := { (s.store.putObject o { r with fill := fill }) with
        bytes := writePages r.pages offset data s.store.bytes }
      ({ s with store := t }, replyBody .ok (le 4 fill))

/-- The content check of an object: the CRC-16 over its bytes in offset order (R146). -/
def contentCheck (t : Store) (r : ObjectRecord) : BitVec 16 := crc16 (readPages t.bytes r.pages 0 r.length)

/-- OBJ_SEAL (R146, R192). -/
def objSeal (body : List Byte) (s : State) : State × List Byte :=
  match finOf 16 (byteNat body 0) with
  | none => (s, replyBody .badValue [])
  | some o =>
    let r := s.store.object o
    if r.state = .empty then (s, replyBody .noObject [])
    else if r.state ≠ .filling then (s, replyBody .objectState [])
    else if r.fill ≠ r.length then (s, replyBody .incomplete [])
    else
      let c := contentCheck s.store r
      ({ s with store := s.store.putObject o { r with state := .sealed, refs := 0, check := some c } },
        replyBody .ok (le 4 r.length ++ le 2 c.toNat))

/-- The reply body of an accepted OBJ_DELETE (R147, R192). -/
def deleteReply (t : Store) (o : Fin 16) : List Byte :=
  replyBody .ok (byte (t.object o).state.code :: (le 2 (t.object o).refs ++ le 2 t.free.length))

/-- OBJ_DELETE (R147, R192). -/
def objDelete (body : List Byte) (s : State) : State × List Byte :=
  match finOf 16 (byteNat body 0) with
  | none => (s, replyBody .badValue [])
  | some o =>
    let r := s.store.object o
    match r.state with
    | .empty => (s, replyBody .noObject [])
    | .condemned => (s, deleteReply s.store o)
    | .filling =>
      let t := s.store.freeObject o
      ({ s with store := t }, deleteReply t o)
    | .sealed =>
      let t := if r.refs = 0 then s.store.freeObject o else s.store.putObject o { r with state := .condemned }
      ({ s with store := t }, deleteReply t o)

/-- One object item of OBJ_LIST (R193). -/
def objectItem (r : ObjectRecord) : List Byte :=
  byte r.state.code :: (le 4 r.length ++ le 4 r.fill ++ le 2 r.pages.length ++ le 2 r.refs
    ++ le 2 (match r.check with
      | some c => c.toNat
      | none => 0))

/-- OBJ_LIST (R153, R193). -/
def objList (s : State) : State × List Byte :=
  (s, replyBody .ok (le 2 s.store.free.length ++ (List.finRange 16).flatMap fun o => objectItem (s.store.object o)))

end Sys2Proof.Machine
end

