-- ==== Sys2Proof/Machine/Line.lean ====
section
/-! DEFINITION. The Phone Line Unit (chapter 2): line tags, command lines and push blocks, the transmitter, the line assembler,
and the classification of received lines. -/

namespace Sys2Proof.Machine

/-! ### Text of the line -/

/-- An upper-case hexadecimal digit (00_scope.md, Phone line text). -/
def hexDigit (n : Nat) : Byte := if n < 10 then byte (0x30 + n) else byte (0x41 + (n - 10))

/-- A number as w upper-case hexadecimal digits, most significant first. -/
def hexOf : Nat → Nat → List Byte
  | 0, _ => []
  | w + 1, n => hexOf w (n / 16) ++ [hexDigit (n % 16)]

/-- The value of a hexadecimal digit, in either case. -/
def hexVal (b : Byte) : Option Nat :=
  let n := b.toNat
  if 0x30 ≤ n ∧ n ≤ 0x39 then some (n - 0x30)
  else if 0x41 ≤ n ∧ n ≤ 0x46 then some (n - 0x41 + 10)
  else if 0x61 ≤ n ∧ n ≤ 0x66 then some (n - 0x61 + 10)
  else none

/-- The number a run of hexadecimal digits holds, where every byte is one. -/
def hexNumber (bs : List Byte) : Option Nat :=
  bs.foldl (fun acc b => match acc, hexVal b with
    | some a, some d => some (16 * a + d)
    | _, _ => none) (some 0)

/-- A printable byte, 0x20 to 0x7E. -/
def isPrintable (b : Byte) : Bool := decide (0x20 ≤ b.toNat) && decide (b.toNat ≤ 0x7E)

/-- CR and LF. -/
def cr : Byte := 0x0D#8
def lf : Byte := 0x0A#8

/-- A command line (R31). -/
def commandLine (tag : Byte) (code : BitVec 16) (argument : List Byte) : List Byte :=
  0x21#8 :: (hexOf 2 tag.toNat ++ hexOf 4 code.toNat ++ (if argument = [] then [] else 0x20#8 :: argument) ++ [cr, lf])

/-- A push block's header (R32). -/
def blockHeader (tag : Byte) (sequence length : Nat) : List Byte :=
  0x2A#8 :: (hexOf 2 tag.toNat ++ hexOf 4 sequence ++ [0x20#8] ++ hexOf 4 length ++ [cr, lf])

/-- The number of bytes of an item, each of which takes ten bit times at the slot's baud (R33). -/
def ItemContent.byteCount : ItemContent → Nat
  | .line bytes => bytes.length
  | .block header _ _ length => header.length + length

/-- The bytes an item sends, its data read from the pages as they stand (R32, R151). -/
def ItemContent.wire (m : Memory) : ItemContent → List Byte
  | .line bytes => bytes
  | .block header pages offset length => header ++ readPages m pages offset length

/-! ### Tags (R30) -/

/-- The tag after one: after FF comes 01. -/
def tagAfter (t : Byte) : Byte := if t = 0xFF#8 then 1#8 else t + 1#8

/-- Taking a tag advances the next one. -/
def PhoneLine.takeTag (l : PhoneLine) : PhoneLine := { l with nextTag := tagAfter l.nextTag }

/-! ### The transmitter (R33, R34) -/

/-- An item handed over begins at once when the transmitter is IDLE, and waits otherwise. -/
def PhoneLine.handOver (l : PhoneLine) (item : TxItem) : PhoneLine :=
  match l.tx with
  | none => { l with tx := some item }
  | some _ => { l with txWaiting := some item }

/-- The step's waiting item is withdrawn (R34). -/
def PhoneLine.withdraw (l : PhoneLine) : PhoneLine :=
  { l with txWaiting := match l.txWaiting with
      | some w => if w.owner = .step then none else some w
      | none => none }

/-- When the step that owns items ends, its item in transmission reports to no one and its waiting item is withdrawn (R34). -/
def PhoneLine.disown (l : PhoneLine) : PhoneLine :=
  { l.withdraw with tx := l.tx.map fun t => if t.owner = .step then { t with owner := .nobody } else t }

/-- The transmitter stops at once and drops both items (R35, R50). -/
def PhoneLine.cut (l : PhoneLine) : PhoneLine := { l with tx := none, txWaiting := none, assembler := .empty }

/-- The last byte has left: the waiting item, if any, begins (R33). -/
def PhoneLine.nextItem (l : PhoneLine) : PhoneLine := { l with tx := l.txWaiting, txWaiting := none }

/-- Whether the item in transmission is the step's. -/
def PhoneLine.stepLeaving (l : PhoneLine) : Bool :=
  match l.tx with
  | some t => decide (t.owner = .step)
  | none => false

/-- Whether the step's item still waits behind another (R42, R48). -/
def PhoneLine.stepWaits (l : PhoneLine) : Bool :=
  match l.txWaiting with
  | some t => decide (t.owner = .step)
  | none => false

/-! ### The line assembler (R38, R39) -/

/-- A line as the assembler delivers it. -/
structure Line where
  content   : List Byte
  truncated : Bool
  damaged   : Bool
deriving DecidableEq, Repr

/-- The content without a final CR. -/
def dropFinalCr (bs : List Byte) : List Byte := if bs.getLast? = some cr then bs.dropLast else bs

/-- The line that an LF ends: a CR immediately before the LF is removed, and the line is TRUNCATED when its content is longer
than 250 bytes (R38). -/
def Assembler.line (a : Assembler) (framingError : Bool) : Line :=
  { content := if a.long then a.kept else dropFinalCr a.kept
    truncated := a.long && !a.beyondCr
    damaged := a.damaged || framingError }

/-- The assembler after a byte that is not an LF (R38, R39). -/
def Assembler.push (a : Assembler) (b : Byte) (framingError : Bool) : Assembler :=
  if a.kept.length < 250 then { a with kept := a.kept ++ [b], damaged := a.damaged || framingError }
  else { a with long := true, beyondCr := !a.long && decide (b = cr), damaged := a.damaged || framingError }

/-! ### Classification (R41, R42) -/

/-- What a well-formed reply line says (R41). -/
structure PhoneReply where
  tag     : Nat
  status  : Nat
  payload : List Byte
deriving DecidableEq, Repr

/-- The reply a line is, if it is a well-formed reply line (R41). -/
def phoneReply (l : Line) : Option PhoneReply :=
  if l.damaged then none
  else match l.content with
    | m :: t1 :: t2 :: s1 :: s2 :: rest =>
      match hexNumber [t1, t2], hexNumber [s1, s2] with
      | some tag, some status =>
        if m ≠ 0x3D#8 then none
        else match rest with
          | [] => some ⟨tag, status, []⟩
          | sp :: payload =>
            if sp = 0x20#8 ∧ payload.all isPrintable = true then some ⟨tag, status, payload⟩ else none
      | _, _ => none
    | _ => none

/-- The classes of a delivered line (R42). -/
inductive LineClass where
  | matched (status : Byte) (payload : List Byte)
  | ack (status : Byte)
  | stale
  | log
deriving DecidableEq, Repr

/-- The block number an ack's payload names: exactly four hexadecimal digits (R42). -/
def ackNumber (payload : List Byte) : Option Nat := if payload.length = 4 then hexNumber payload else none

/-- The class of a delivered line, from the step in flight and the slot's transmitter (R42). -/
def classify (flight : Option Flight) (line : PhoneLine) (l : Line) : LineClass :=
  match phoneReply l with
  | none => .log
  | some r =>
    match flight with
    | none => .stale
    | some f =>
      if f.tag ≠ some (byte r.tag) then .stale
      else match f.step.kind, f.push with
        | .exchange _ _, _ => .matched (byte r.status) r.payload
        | .push _, some p =>
          if ackNumber r.payload = some p.current ∧ line.stepWaits = false then .ack (byte r.status) else .stale
        | _, _ => .stale

end Sys2Proof.Machine
end

