-- ==== Sys2Proof/Machine/Sampling.lean ====
section
/-! DEFINITION. Sampling and measurement windows (chapter 5): conversion and calibration, the two detectors, the park sum, and
the window's accumulation and results. The events that use them stand in Machine/NestEvents.lean. -/

namespace Sys2Proof.Machine

/-- The voltage of a code, in mV (R97). -/
def millivolts (v : AdcCode) : Nat := v.toNat * 5 / 4

/-- The calibrated current of a code, in mA (R98). -/
def calibrate (c : AdcCode) (gain : Nat) (offset : Int) : Nat :=
  (clampInt (((c.toNat * gain + 512) / 1024 : Nat) + offset) 0 4095).toNat

/-- The undervoltage floor of a rail set voltage (R101, R72). -/
def railFloor (set : Nat) : Nat := set * 9 / 10

/-- The overcurrent count after a sample (R100). -/
def overcurrentNext (count current tripLevel : Nat) : Nat := if tripLevel < current then min (count + 1) 4 else 0

/-- The undervoltage count after a compared sample (R101). -/
def undervoltNext (count voltage floor : Nat) : Nat := if voltage < floor then min (count + 1) 20 else 0

/-- The park history with one more current, at most the last 100 (R103). -/
def parkAdd (history : List Nat) (current : Nat) : List Nat :=
  if history.length < 100 then history ++ [current] else history.drop 1 ++ [current]

/-- Whether the park sum is quiet: 100 samples whose sum is strictly below park level × 100 (R103). -/
def parkQuiet (history : List Nat) (level : Nat) : Bool :=
  decide (history.length = 100) && decide (history.sum < level * 100)

/-- A window as it is opened (R104). -/
def Window.opened (now : Time) : Window := ⟨0, 0, 0, 0, now, false⟩

/-- A window with one more sample, or with SATURATED set at the cap (R106). -/
def Window.add (w : Window) (current : Nat) : Window :=
  if w.n < Config.windowCap then
    { w with
      n := w.n + 1
      sum := w.sum + current
      peak := if w.n = 0 then current else max w.peak current
      min := if w.n = 0 then current else Min.min w.min current }
  else { w with saturated := true }

/-- The results of a window closed at cell time `now` (R107 to R109). -/
def Window.close (w : Window) (now : Time) : Measurement where
  n := w.n
  values := if w.n = 0 then none
    else some ((w.sum + w.n / 2) / w.n, w.peak, w.min, (w.sum + 18000) / 36000)
  duration := (now - w.openTime).toNat
  saturated := w.saturated

end Sys2Proof.Machine
end

