-- ==== Sys2Proof/Machine/Engine.lean ====
section
/-! DEFINITION. The Slot Step Engine's shared operations (chapter 1): how a step ends, the record it leaves, completion, and
dooming. A completion does not itself start the next head: the operation that ends a step names the slots whose start condition
R3 has to be tested, and Machine/Start.lean tests them in the same event. -/

namespace Sys2Proof.Machine

/-- The ways a step ends (R16). -/
inductive Ending where
  | startFailed (r : Reason)
  | normal
  | reply (status : Byte) (payload : List Byte)
  | ackFailed (status : Byte)
  | detached (released : PortMask)
  | trigger
  | timeout
  | aborted
  | faulted
  | interlocked
  | doomed (d : Doom)
deriving DecidableEq, Repr

/-- The ends that close the window rather than discard it (R16, R107). -/
def Ending.keepsWindow : Ending → Bool
  | .normal | .reply _ _ | .ackFailed _ | .detached _ | .trigger => true
  | .startFailed _ | .timeout | .aborted | .faulted | .interlocked | .doomed _ => false

/-- A doom reason as a record's reason (R5). -/
def Doom.reason : Doom → Reason
  | .aborted => .aborted | .faulted => .faulted | .interlocked => .interlocked | .skipped => .skipped

/-- The outcome of an end that keeps the window, by the first of PHONE_ERROR, TRIGGER and LIMIT that applies, else by the
verdict (R16, R124). -/
def gradedOutcome (phoneError trigger : Bool) (v : Verdict) : Outcome × Reason :=
  if phoneError then (.fail, .phoneError)
  else if trigger then (.fail, .trigger)
  else match v with
    | .fail => (.fail, .limit)
    | .advisory => (.advisory, .none)
    | .pass => (.pass, .none)

/-- The outcome and reason of an end (R16). -/
def Ending.outcome (v : Verdict) : Ending → Outcome × Reason
  | .startFailed r => (.fail, r)
  | .normal => gradedOutcome false false v
  | .reply status _ => gradedOutcome (decide (status ≠ 0#8)) false v
  | .ackFailed _ => gradedOutcome true false v
  | .detached _ => gradedOutcome false false v
  | .trigger => gradedOutcome false true v
  | .timeout => (.fail, .timeout)
  | .aborted => (.fail, .aborted)
  | .faulted => (.fail, .faulted)
  | .interlocked => (.fail, .interlocked)
  | .doomed d => (.notRun, d.reason)

/-- The reply part of the record (R24, R43, R47): an EXCHANGE keeps the first 200 payload bytes. -/
def Ending.replyPart : Ending → Option ReplyPart
  | .reply status payload => some ⟨status, some (payload.take 200, decide (200 < payload.length))⟩
  | .ackFailed status => some ⟨status, none⟩
  | _ => none

/-- The released mask of the record (R24). -/
def Ending.releasedMask : Ending → Option PortMask
  | .detached m => some m
  | _ => none

/-- The push summary: present for a PUSH that carried no doom reason (R24), with the failing block when an ack failed. -/
def pushSummary (f : Flight) (e : Ending) : Option (Nat × Option Nat) :=
  match f.step.kind, e with
  | .push _, .doomed _ => none
  | .push _, .ackFailed _ => some ((f.push.map PushProgress.acked).getD 0, some ((f.push.map PushProgress.current).getD 0))
  | .push _, _ => some ((f.push.map PushProgress.acked).getD 0, none)
  | _, _ => none

/-- The measurement of an end: the window's results where the end closes an open window (R107, R110). -/
def closedWindow (now : Time) (f : Flight) (e : Ending) : Option Measurement :=
  if e.keepsWindow then f.window.map fun w => w.close now else none

/-- The evaluated entries of a graded step: none unless a window was closed and the step carries a limit set (R116). -/
def gradesOf (limits : Vector LimitEntry 64) (f : Flight) (e : Ending) (m : Option Measurement) :
    Option (List (LimitClass × GradeItem)) :=
  match m, f.step.limitSet with
  | some m, some set => some (gradeSet limits set m e.replyPart)
  | _, _ => none

/-- The completion record of a step (R24). -/
def completionRecord (limits : Vector LimitEntry 64) (now : Time) (f : Flight) (e : Ending) : Record :=
  let m := closedWindow now f e
  let g := gradesOf limits f e m
  let v := verdictOf (g.getD [])
  { number := f.step.number
    kind := f.step.kind
    outcome := (e.outcome v).1
    reason := (e.outcome v).2
    start := f.start
    finish := now
    reply := e.replyPart
    measurement := m
    grades := g.map fun items => items.map Prod.snd
    push := pushSummary f e
    released := e.releasedMask }

/-- A doom reason given to every step that has none (R18). -/
def doomAll (d : Doom) (steps : List StepRecord) : List StepRecord :=
  steps.map fun st => if st.doom.isNone then { st with doom := some d } else st

/-- How many steps have no doom reason (R21). -/
def undoomed (steps : List StepRecord) : Nat := (steps.filter fun st => st.doom.isNone).length

/-- The queue of a slot is doomed, the step in flight excepted (R18). -/
def SlotState.doomQueue (x : SlotState) (d : Doom) : SlotState :=
  { x with engine.waiting := doomAll d x.engine.waiting }

/-- The lamp a completing step sets (R27). -/
def lampAfter (carriesLamp : Bool) (o : Outcome) (lamp : Lamp) : Lamp :=
  if carriesLamp then
    match o with
    | .pass => .green
    | .advisory => .amber
    | .fail => .red
    | .notRun => lamp
  else lamp

/-- Whether a completing step dooms the queue behind it with SKIPPED (R20): it carries STOP_ON_FAIL and its outcome is FAIL, but an
abort with scope ALL has set its own doom reason, and the steps appended since run normally (R18). -/
def Flight.skipsQueue (f : Flight) (o : Outcome) : Bool := f.step.stopOnFail && (decide (o = .fail) && !f.abortedAll)

/-- What a completion does within its slot (R17): the record takes the reservation, the step leaves the head, the lamp and
STOP_ON_FAIL act, the step's items are disowned (R34), and STEP_DONE is marked. -/
def SlotState.complete (x : SlotState) (f : Flight) (r : Record) : SlotState :=
  { x with
    engine.flight := none
    engine.waiting := if f.skipsQueue r.outcome then doomAll .skipped x.engine.waiting else x.engine.waiting
    engine.done := x.engine.done ++ [⟨r, false⟩]
    engine.lamp := lampAfter f.step.lamp r.outcome x.engine.lamp
    line := x.line.disown
    notices := x.notices.put .stepDone true }

/-- The store after a completion: a PUSH drops its reference (R17, R149). -/
def Store.afterStep (t : Store) (k : StepKind) : Store :=
  match k with
  | .push o => t.dropRef o
  | _ => t

/-- The step in flight of slot i completes by an end (R17). With no step in flight there is nothing to end (R15). -/
def endStep (i : Slot) (e : Ending) (s : State) : State :=
  match (s.slot i).engine.flight with
  | none => s
  | some f =>
    { s.modSlot i (fun x => x.complete f (completionRecord s.limits s.time f e)) with
      store := s.store.afterStep f.step.kind }

/-- The step in flight of slot i is changed by f. -/
def State.modFlight (s : State) (i : Slot) (f : Flight → Flight) : State :=
  s.modSlot i fun x => { x with engine.flight := x.engine.flight.map f }

/-- The end a fault or the lid gives the step in flight: its own, or ABORTED when an abort was taken first (R19, R23). -/
def endingUnder (flight : Option Flight) (e : Ending) : Ending :=
  match flight with
  | some f => if f.aborting then .aborted else e
  | none => e

end Sys2Proof.Machine
end

