-- ==== Sys2Proof/Machine/Arbiter.lean ====
section
/-! DEFINITION. The Instrument Matrix Arbiter (chapter 7): ports, the wait list, the grant walk, releases, and INSTR_STATUS. An
operation that walks the list answers the state and the slots whose ATTACH it completed, oldest entry first. -/

namespace Sys2Proof.Machine

/-! ### Ports (R129) -/

/-- The free ports. -/
def State.freeMask (s : State) : PortMask :=
  (allPorts.filter fun p => s.ports[p].isNone).foldl (fun m p => m ||| (1#4 <<< p.val)) 0#4

/-- The port records with the ports of a mask set to x. -/
def putPorts (mask : PortMask) (x : Option Hold) (ps : Vector (Option Hold) 4) : Vector (Option Hold) 4 :=
  #v[if mask.getLsbD 0 then x else ps[0], if mask.getLsbD 1 then x else ps[1],
     if mask.getLsbD 2 then x else ps[2], if mask.getLsbD 3 then x else ps[3]]

/-- The ports of a mask that slot i holds are freed and their deadlines disarmed; the rest stay as they are (R135, R137). -/
def State.releasePorts (s : State) (i : Slot) (mask : PortMask) : State :=
  { s with ports := putPorts (mask &&& s.portsHeld i) none s.ports }

/-- Slot i's wait entry leaves the list, the other entries keeping their order (R130). -/
def State.removeEntry (s : State) (i : Slot) : State :=
  { s with waitList := s.waitList.filter fun e => decide (e.slot ≠ i) }

/-- The arbiter drops every port and the wait entry of a slot (R137, R141). -/
def State.arbiterDrop (s : State) (i : Slot) : State := (s.releasePorts i 0xF#4).removeEntry i

/-! ### The walk (R131, R132) -/

/-- Whether every port of an entry is free and none is in the blocked set (R131). -/
def WaitEntry.grantable (e : WaitEntry) (blocked free : PortMask) : Bool :=
  decide (e.mask &&& ~~~free = 0#4) && decide (e.mask &&& blocked = 0#4)

/-- A grant (R132): the ports take their holder and their common hold deadline, the entry leaves the list, the ports join the
granted mask, GRANT is marked, and the ATTACH completes PASS. -/
def grantEntry (e : WaitEntry) (s : State) : State :=
  let held := { s.removeEntry e.slot with ports := putPorts e.mask (some ⟨e.slot, Time.after s.time e.hold⟩) s.ports }
  endStep e.slot .normal (held.modSlot e.slot fun x =>
    { x with granted := x.granted ||| e.mask, notices := x.notices.put .grant true })

/-- The walk over the entries from the oldest, with the blocked set carried along (R131). -/
def walkEntries : List WaitEntry → PortMask → State → State × List Slot
  | [], _, s => (s, [])
  | e :: es, blocked, s =>
    if e.grantable blocked s.freeMask then
      let r := walkEntries es blocked (grantEntry e s)
      (r.1, e.slot :: r.2)
    else walkEntries es (blocked ||| e.mask) s

/-- The grant walk (R131). -/
def walk (s : State) : State × List Slot := walkEntries s.waitList 0#4 s

/-- The ports that the entries older than slot i's name: the blocked set at slot i's entry when every older entry waits. -/
def olderMask (i : Slot) : List WaitEntry → PortMask
  | [] => 0#4
  | e :: es => if e.slot = i then 0#4 else e.mask ||| olderMask i es

/-! ### INSTR_STATUS (R138, R194) -/

/-- A port's holder and the time left on its hold. -/
def portBytes (now : Time) (h : Option Hold) : List Byte :=
  match h with
  | some h => byte h.slot.val :: le 4 (Time.left now h.deadline)
  | none => 0xFF#8 :: le 4 0xFFFFFFFF

/-- A wait entry's slot, mask and time left. -/
def WaitEntry.bytes (now : Time) (e : WaitEntry) : List Byte :=
  byte e.slot.val :: byte e.mask.toNat :: le 4 (Time.left now e.deadline)

/-- INSTR_STATUS (R138, R194). -/
def instrStatus (s : State) : State × List Byte :=
  (s, replyBody .ok ((allPorts.flatMap fun p => portBytes s.time s.ports[p])
    ++ byte s.waitList.length :: s.waitList.flatMap (WaitEntry.bytes s.time)))

end Sys2Proof.Machine
end

