-- ==== Sys2Proof/Machine/Capture.lean ====
section
/-! DEFINITION. The Capture Unit (chapter 3): the ring, the acceptance filter, the match triggers, and the requests that set and
read them. -/

namespace Sys2Proof.Machine

/-! ### The ring (R51 to R56) -/

/-- The cost of a record (R51). -/
def CaptureRecord.cost (r : CaptureRecord) : Nat := 8 + r.content.length

/-- Bytes used (R51). -/
def ringUsed (ring : List CaptureRecord) : Nat := (ring.map CaptureRecord.cost).sum

/-- A line is offered to the ring: stored whole with LINES marked when the ring was empty, or discarded whole with the overrun
flag set and LINES marked (R53, R54). -/
def SlotState.offer (x : SlotState) (r : CaptureRecord) : SlotState :=
  if ringUsed x.capture.ring + r.cost ≤ Config.ringBytes then
    { x with
      capture.ring := x.capture.ring ++ [{ r with afterOverrun := x.capture.overrun }]
      capture.overrun := false
      notices := if x.capture.ring = [] then x.notices.put .lines true else x.notices }
  else { x with capture.overrun := true, notices := x.notices.put .lines true }

/-- The capture record of a line (R52); a STALE record never carries DAMAGED, since a DAMAGED line is never a reply. -/
def captureRecord (now : Time) (kind : CaptureKind) (l : Line) : CaptureRecord :=
  ⟨now, kind, l.truncated, l.damaged, false, l.content⟩

/-! ### The filter (R59, R60) -/

/-- A line byte, or a position beyond the line's end, against a code byte under a mask byte (R59). -/
def byteMatches (b : Option Byte) (code mask : Byte) : Bool :=
  match b with
  | none => true
  | some v => decide ((v ^^^ code) &&& ~~~mask = 0#8)

/-- Whether the filter accepts a LOG line (R59, R60). -/
def Filter.accepts (f : Filter) (content : List Byte) : Bool :=
  match f.mode with
  | .single =>
    byteMatches content[0]? f.code[0] f.mask[0] && byteMatches content[1]? f.code[1] f.mask[1]
      && byteMatches content[2]? f.code[2] f.mask[2] && byteMatches content[3]? f.code[3] f.mask[3]
  | .dual =>
    (byteMatches content[0]? f.code[0] f.mask[0] && byteMatches content[1]? f.code[1] f.mask[1])
      || (byteMatches content[0]? f.code[2] f.mask[2] && byteMatches content[1]? f.code[3] f.mask[3])

/-! ### The triggers (R62, R63) -/

/-- Whether a pattern occurs at any position of a content (R62, ANYWHERE). -/
def occursIn (pattern : List Byte) : List Byte → Bool
  | [] => pattern.isPrefixOf []
  | b :: bs => pattern.isPrefixOf (b :: bs) || occursIn pattern bs

/-- Whether a trigger hits a LOG line's content (R62). -/
def Trigger.hitsOn (t : Trigger) (content : List Byte) : Bool :=
  t.enabled && (match t.mode with
    | .atStart => t.pattern.isPrefixOf content
    | .anywhere => occursIn t.pattern content)

/-- A hit raises the count, which stays at 255 (R63). -/
def Trigger.hit (t : Trigger) : Trigger := { t with hits := if t.hits < 255 then t.hits + 1 else t.hits }

/-- A trigger after a LOG line: it has counted the line if it hits it (R57, R63). -/
def Trigger.after (content : List Byte) (t : Trigger) : Trigger := if t.hitsOn content then t.hit else t

/-- The triggers after a LOG line (R57, R63). -/
def countHits (content : List Byte) (ts : Vector Trigger 4) : Vector Trigger 4 :=
  #v[ts[0].after content, ts[1].after content, ts[2].after content, ts[3].after content]

/-- Whether an enabled trigger with an action hits a content. -/
def anyHit (action : TriggerAction) (ts : Vector Trigger 4) (content : List Byte) : Bool :=
  ts.toList.any fun t => t.hitsOn content && decide (t.action = action)

/-- Whether an enabled trigger has action BOOT (R66). -/
def bootTriggerEnabled (ts : Vector Trigger 4) : Bool :=
  ts.toList.any fun t => t.enabled && decide (t.action = .boot)

/-- The hit counts of triggers 0 to 3 as bytes. -/
def hitBytes (ts : Vector Trigger 4) : List Byte := ts.toList.map fun t => byte t.hits

/-- The triggers with every hit count 0 (R69). -/
def zeroHits (ts : Vector Trigger 4) : Vector Trigger 4 :=
  #v[{ ts[0] with hits := 0 }, { ts[1] with hits := 0 }, { ts[2] with hits := 0 }, { ts[3] with hits := 0 }]

/-! ### The requests -/

/-- SLOT_FILTER (R58, R196). -/
def slotFilter (i : Slot) (body : List Byte) (s : State) : State × List Byte :=
  match FilterMode.ofCode (byteNat body 0) with
  | none => (s, replyBody .badValue [])
  | some m =>
    let f : Filter :=
      { mode := m
        code := #v[byteAt body 1, byteAt body 2, byteAt body 3, byteAt body 4]
        mask := #v[byteAt body 5, byteAt body 6, byteAt body 7, byteAt body 8] }
    (s.modSlot i fun x => { x with capture.filter := f }, replyBody .ok [])

/-- SLOT_TRIGGER, its checks in the order of R61 as R196 reads the fields. -/
def slotTrigger (i : Slot) (body : List Byte) (s : State) : State × List Byte :=
  let pattern := (body.drop 5).take (byteNat body 4)
  match finOf 4 (byteNat body 0) with
  | none => (s, replyBody .badValue [])
  | some k =>
    if byteNat body 4 = 0 ∨ 24 < byteNat body 4 ∨ lf ∈ pattern then (s, replyBody .badValue [])
    else match boolOf (byteNat body 1), TriggerMode.ofCode (byteNat body 2), TriggerAction.ofCode (byteNat body 3) with
      | some enabled, some mode, some action =>
        (s.modSlot i fun x => { x with capture.triggers := x.capture.triggers.set k ⟨enabled, pattern, mode, action, 0⟩ },
          replyBody .ok [])
      | _, _, _ => (s, replyBody .badValue [])

/-- A capture record as CAPTURE_READ gives it (R201). -/
def CaptureRecord.bytes (r : CaptureRecord) : List Byte :=
  le 4 r.time.toNat ++ [byte r.kind.code, byte (bitSet [r.truncated, r.damaged, r.afterOverrun])]
    ++ le 2 r.content.length ++ r.content

/-- The records that fit whole in a budget, oldest first, up to the first that does not (R55). -/
def recordsWithin : Nat → List CaptureRecord → List CaptureRecord
  | _, [] => []
  | budget, r :: rs => if r.cost ≤ budget then r :: recordsWithin (budget - r.cost) rs else []

/-- CAPTURE_READ (R55, R201). -/
def captureRead (i : Slot) (s : State) : State × List Byte :=
  let c := (s.slot i).capture
  let given := recordsWithin 1000 c.ring
  (s, replyBody .ok (le 2 given.length ++ le 2 c.ring.length ++ le 2 (ringUsed c.ring) ++ [byte (boolCode c.overrun)]
    ++ given.flatMap CaptureRecord.bytes))

/-- CAPTURE_RELEASE (R56, R201). -/
def captureRelease (i : Slot) (body : List Byte) (s : State) : State × List Byte :=
  let r := field body 0 2
  let ring := (s.slot i).capture.ring
  let left := ring.drop r
  (s.modSlot i fun x => { x with capture.ring := left },
    replyBody (okOr (decide (ring.length < r)))
      (le 2 (min r ring.length) ++ le 2 left.length ++ le 2 (ringUsed left)))

end Sys2Proof.Machine
end

