-- ==== Sys2Proof/Machine/Guard.lean ====
section
/-! DEFINITION. The Command Guard (chapter 9): the decision and the three guard requests. -/

namespace Sys2Proof.Machine

/-- Whether an entry covers a pair of command code and slot (R155). -/
def GuardEntry.covers (e : GuardEntry) (code : BitVec 16) (i : Slot) : Bool :=
  e.valid && (decide (e.codeLo.toNat ≤ code.toNat) && (decide (code.toNat ≤ e.codeHi.toNat) && e.slots.getLsbD i.val))

/-- The guard's decision: the first covering entry's action, or the default action (R156). -/
def State.guardDecision (s : State) (code : BitVec 16) (i : Slot) : GuardAction :=
  match s.guard.toList.find? (fun e => e.covers code i) with
  | some e => e.action
  | none => s.guardDefault

/-- The number of locked entries (R163). -/
def State.lockedEntries (s : State) : Nat := (s.guard.toList.filter GuardEntry.locked).length

/-- A guard entry in its 11-byte layout (R190). -/
def GuardEntry.bytes (k : Fin 8) (e : GuardEntry) : List Byte :=
  byte k.val :: byte (boolCode e.valid) :: (le 2 e.codeLo.toNat ++ le 2 e.codeHi.toNat ++ le 3 e.slots.toNat
    ++ [byte e.action.code, byte (boolCode e.locked)])

/-- The entry a GUARD_WRITE body holds, where its first check passes (R160, R190). -/
def guardEntryOf (body : List Byte) : Option (Fin 8 × GuardEntry) :=
  match finOf 8 (byteNat body 0), boolOf (byteNat body 1), GuardAction.ofCode (byteNat body 9), boolOf (byteNat body 10) with
  | some k, some valid, some action, some locked =>
    if field body 4 2 < field body 2 2 then none
    else some (k,
      { valid := valid
        codeLo := BitVec.ofNat 16 (field body 2 2)
        codeHi := BitVec.ofNat 16 (field body 4 2)
        slots := BitVec.ofNat 24 (field body 6 3)
        action := action
        locked := locked })
  | _, _, _, _ => none

/-- GUARD_WRITE (R160, R161). -/
def guardWrite (body : List Byte) (s : State) : State × List Byte :=
  match guardEntryOf body with
  | none => (s, replyBody .badValue [])
  | some (k, e) =>
    if s.guard[k].locked then (s, replyBody .locked [])
    else ({ s with guard := s.guard.set k e }, replyBody .ok (e.bytes k))

/-- GUARD_READ (R163). -/
def guardRead (body : List Byte) (s : State) : State × List Byte :=
  match finOf 8 (byteNat body 0) with
  | none => (s, replyBody .badValue [])
  | some k => (s, replyBody .ok (s.guard[k].bytes k ++ [byte s.guardDefault.code, byte s.lockedEntries]))

/-- GUARD_DEFAULT (R162). -/
def guardDefault (body : List Byte) (s : State) : State × List Byte :=
  match GuardAction.ofCode (byteNat body 0) with
  | none => (s, replyBody .badValue [])
  | some a =>
    if s.lockedEntries ≠ 0 then (s, replyBody .locked [])
    else ({ s with guardDefault := a }, replyBody .ok [byte a.code])

end Sys2Proof.Machine
end

