-- ==== Sys2Proof/Machine/Power.lean ====
section
/-! DEFINITION. The Slot Power Controller (chapter 4): the rail, the boot, parking, FAULT, early ends, CLEAR_FAULT, and
SLOT_CONFIG, whose nine settings belong to the slot's line, power and sampling units. -/

namespace Sys2Proof.Machine

/-! ### The rail -/

/-- Switching the rail on, from OFF to STANDBY SETTLING with a target (R71); the last sample becomes NO_DATA (R97) and the lamp
OFF (R27). -/
def SlotState.railOn (x : SlotState) (now : Time) (target : Target) : SlotState :=
  { x with
    power := { x.power with
      state := .standby
      phase := .settling
      target := some target
      settle := some (Time.after now Config.settleTime)
      cause := ⟨false, false⟩
      woke := false
      interlock := false
      forced := false }
    engine.lamp := .off
    line.assembler := .empty
    sampler.lastSample := none }

/-- Cutting the rail on entry to OFF or FAULT (R73): keys, deadlines, phase and target; the transmitter and the assembler (R35,
R40); the trip counts and the park history (R96). -/
def SlotState.cutRail (x : SlotState) (dest : PowerState) : SlotState :=
  { x with
    power := { x.power with
      state := dest
      phase := .none
      target := none
      settle := none
      keys := 0#3
      pressRelease := none
      bootWait := none
      parkHold := none }
    line := x.line.cut
    sampler := { x.sampler with overcurrent := 0, undervolt := 0, parkHistory := [] } }

/-- Entry to LISTEN from a state whose POWER step ends there: no key pressed, no phase, no target, no start deadline. -/
def SlotState.enterListen (x : SlotState) : SlotState :=
  { x with power := { x.power with
      state := .listen, phase := .none, target := none, keys := 0#3, pressRelease := none, bootWait := none } }

/-! ### Starting and the boot (R78 to R81) -/

/-- The key lines the start sequence presses (R78). -/
def KeyCombo.lines : KeyCombo → KeyMask
  | .none => 0b001#3
  | .voldown => 0b011#3
  | .strap => 0b101#3

/-- Entry to STARTING (R78). -/
def SlotState.enterStarting (x : SlotState) (now : Time) (keys : KeyCombo) : SlotState :=
  { x with power := { x.power with
      state := .starting
      phase := .pressing
      target := some .run
      settle := none
      keys := x.power.keys ||| keys.lines
      pressRelease := some (Time.after now x.power.settings.pressTime)
      bootWait := none
      lineSinceRelease := false } }

/-- The press release (R79): every key line but STRAP is released, and the boot wait begins. -/
def SlotState.releasePress (x : SlotState) (now : Time) (timeout : Nat) : SlotState :=
  { x with power := { x.power with
      phase := .bootWait
      keys := x.power.keys &&& 0b100#3
      pressRelease := none
      bootWait := some (Time.after now timeout)
      lineSinceRelease := false } }

/-- The boot banner takes the slot to RUN (R80). -/
def SlotState.boot (x : SlotState) : SlotState :=
  { x with power := { x.power with
      state := .run, phase := .none, target := none, keys := x.power.keys &&& 0b011#3, bootWait := none } }

/-- The boot wait expires: STRAP is released and the slot enters LISTEN (R81). -/
def SlotState.bootExpired (x : SlotState) : SlotState :=
  { x with power := { x.power with
      state := .listen, phase := .none, target := none, keys := x.power.keys &&& 0b011#3, bootWait := none } }

/-! ### Steps and the controller -/

/-- The key combination and the timeout of the POWER step in flight. -/
def Flight.powerParams (f : Flight) : Option (KeyCombo × Nat) :=
  match f.step.kind with
  | .power _ keys => some (keys, f.step.timeout)
  | _ => none

/-- The POWER step in flight in a slot. -/
def SlotState.powerStep (x : SlotState) : Option (KeyCombo × Nat) := x.engine.flight.bind Flight.powerParams

/-- The controller reports "target reached": the POWER step in flight completes with its normal end (R16, R74). -/
def targetReached (i : Slot) (s : State) : State × List Slot :=
  if (s.slot i).powerStep.isSome then (endStep i .normal s, [i]) else (s, [])

/-- What an abort or a FAIL_STEP hit does to the controller of a POWER step (R76). -/
def SlotState.endPowerEarly (x : SlotState) : SlotState :=
  match x.power.state with
  | .standby => { x with power.target := none }
  | .starting => x.enterListen
  | .run => { x with power.target := none, power.phase := .none }
  | .parking => x.cutRail .off
  | .off | .listen | .fault => x

/-- Entry to PARKING (R83): the park settings are taken, the hold is armed, the guard is asked, and the shutdown line is sent
with the next tag where it allows (R158). -/
def enterParking (i : Slot) (s : State) : State :=
  let code := (s.slot i).power.settings.shutdownCode
  let allowed := decide (s.guardDecision code i = .allow)
  s.modSlot i fun x =>
    { x with
      power := { x.power with
        state := .parking
        phase := .none
        parkLevel := x.power.settings.parkLevel
        parkHold := some (Time.after s.time x.power.settings.parkHold) }
      sampler.parkHistory := []
      line := if allowed then x.line.takeTag.handOver ⟨.controller, .line (commandLine x.line.nextTag code [])⟩ else x.line }

/-- A move out of RUN or LISTEN toward a target, taken with the transmitter IDLE (R74, R75). -/
def takeMove (i : Slot) (target : Target) (s : State) : State × List Slot :=
  match target with
  | .off => targetReached i (s.modSlot i fun x => x.cutRail .off)
  | .listen => targetReached i (s.modSlot i fun x =>
      { x with power := { x.power with state := .listen, phase := .none, target := none } })
  | .park => (enterParking i (s.modSlot i fun x => { x with power := { x.power with target := some .park } }), [])
  | .standby | .run => (s, [])

/-! ### FAULT (R86, R87) -/

/-- Entry to FAULT (R86): the rail is cut, the cause recorded, the queue doomed and the step in flight ended (R19), the ports and
the wait entry dropped (R137), FAULT and POWER marked; then the walk. -/
def enterFault (i : Slot) (cause : FaultCause) (s : State) : State × List Slot :=
  let e := endingUnder (s.slot i).engine.flight .faulted
  let s1 := s.modSlot i fun x =>
    let y := (x.cutRail .fault).doomQueue .faulted
    { y with power.cause := cause, notices := (y.notices.put .fault true).put .power true }
  let r := walk ((endStep i e s1).arbiterDrop i)
  (r.1, i :: r.2)

/-! ### Ends that an abort or a trigger gives (R22, R65, R76, R82, R136) -/

/-- What the other blocks do when a step ends by an abort or a FAIL_STEP hit: pressed keys are released, the controller acts as R76
states, and a wait entry leaves the arbiter's list. -/
def withdrawStep (i : Slot) (f : Flight) (s : State) : State :=
  match f.step.kind with
  | .press keys _ => s.modSlot i fun x => { x with power.keys := x.power.keys &&& ~~~keys }
  | .power _ _ => s.modSlot i SlotState.endPowerEarly
  | .attach _ _ => s.removeEntry i
  | .exchange _ _ | .push _ | .measure _ | .detach _ | .await _ => s

/-- The step in flight ends by an abort or a FAIL_STEP hit; an ATTACH's removed entry makes the list be walked again (R131). -/
def endByHand (i : Slot) (f : Flight) (e : Ending) (s : State) : State × List Slot :=
  let s1 := endStep i e (withdrawStep i f s)
  match f.step.kind with
  | .attach _ _ =>
    let r := walk s1
    (r.1, i :: r.2)
  | _ => (s1, [i])

/-! ### The requests -/

/-- CLEAR_FAULT (R88): the cause and the flags stay. -/
def clearFault (i : Slot) (s : State) : State × List Byte :=
  if (s.slot i).power.state = .fault then
    (s.modSlot i fun x => { x with power.state := .off }, replyBody .ok [])
  else (s, replyBody .wrongState [])

/-- The settings as SLOT_CONFIG reports them (R195). -/
def SlotState.settingBytes (x : SlotState) : List Byte :=
  le 4 x.line.baud.value ++ le 2 x.sampler.gain ++ leInt 2 x.sampler.offset ++ le 2 x.sampler.tripLevel
    ++ le 2 x.power.settings.railVoltage ++ le 2 x.power.settings.pressTime ++ le 2 x.power.settings.parkHold
    ++ le 2 x.power.settings.parkLevel ++ le 2 x.power.settings.shutdownCode.toNat

/-- One clamped setting: the value held after the request, and whether a present value was clamped (R93, R99, R100). -/
def setting (isPresent : Bool) (held value lo hi : Nat) : Nat × Bool :=
  if isPresent then (clampNat value lo hi, decide (clampNat value lo hi ≠ value)) else (held, false)

/-- The offset likewise (R99). -/
def offsetSetting (isPresent : Bool) (held value : Int) : Int × Bool :=
  if isPresent then (clampInt value (-64) 63, decide (clampInt value (-64) 63 ≠ value)) else (held, false)

/-- The slot with every present field of a SLOT_CONFIG applied, and whether any was clamped (R195). -/
def SlotState.configure (x : SlotState) (body : List Byte) : SlotState × Bool :=
  let bit (k : Nat) : Bool := (BitVec.ofNat 16 (field body 0 2)).getLsbD k
  let baud := if bit 0 then (Baud.ofValue (field body 2 4)).getD x.line.baud else x.line.baud
  let gain := setting (bit 1) x.sampler.gain (field body 6 2) 512 2048
  let offset := offsetSetting (bit 2) x.sampler.offset (signedOf 2 (field body 8 2))
  let trip := setting (bit 3) x.sampler.tripLevel (field body 10 2) 100 4000
  let rail := setting (bit 4) x.power.settings.railVoltage (field body 12 2) 3000 4500
  let press := setting (bit 5) x.power.settings.pressTime (field body 14 2) 100 8000
  let hold := setting (bit 6) x.power.settings.parkHold (field body 16 2) 500 60000
  let level := setting (bit 7) x.power.settings.parkLevel (field body 18 2) 1 500
  let code := if bit 8 then BitVec.ofNat 16 (field body 20 2) else x.power.settings.shutdownCode
  ({ x with
      line.baud := baud
      sampler := { x.sampler with gain := gain.1, offset := offset.1, tripLevel := trip.1 }
      power.settings := ⟨rail.1, press.1, hold.1, level.1, code⟩ },
    gain.2 || offset.2 || trip.2 || rail.2 || press.2 || hold.2 || level.2)

/-- SLOT_CONFIG (R195, R29, R93, R99, R100). -/
def slotConfig (i : Slot) (body : List Byte) (s : State) : State × List Byte :=
  let x := s.slot i
  let bits := BitVec.ofNat 16 (field body 0 2)
  let baud := Baud.ofValue (field body 2 4)
  if 512 ≤ field body 0 2 ∨ (bits.getLsbD 0 = true ∧ baud = none) ∨ bits.getLsbD 1 ≠ bits.getLsbD 2 then
    (s, replyBody .badValue [])
  else if bits.getLsbD 0 = true ∧ baud ≠ some x.line.baud ∧ x.power.state ≠ .off ∧ x.power.state ≠ .standby then
    (s, replyBody .wrongState [])
  else
    let r := x.configure body
    (s.setSlot i r.1, replyBody (okOr r.2) r.1.settingBytes)

/-- SLOT_BLOCK (R49, R196). -/
def slotBlock (i : Slot) (body : List Byte) (s : State) : State × List Byte :=
  let b := field body 0 2
  if b = 256 ∨ b = 512 ∨ b = 1024 ∨ b = 2048 ∨ b = 4096 then
    (s.modSlot i fun x => { x with line.blockSize := b }, replyBody .ok (le 2 b))
  else (s, replyBody .badValue [])

end Sys2Proof.Machine
end

