-- ==== Sys2Proof/Machine/Start.lean ====
section
/-! DEFINITION. Starting steps (R3 to R13): the start condition, what each kind does at its start, and the run of starts and
drains that one event can set off, which is carried to its end within that event. -/

namespace Sys2Proof.Machine

/-- The three conditions of R3: no step in flight, a head, and a free place in the completion list. -/
def Engine.canStart (e : Engine) : Bool :=
  e.flight.isNone && (!e.waiting.isEmpty && decide (e.done.length + e.reservation < Config.listPlaces))

/-- The step becomes the step in flight, with its start time and nothing else yet (R4). -/
def Flight.begun (step : StepRecord) (now : Time) : Flight := ⟨step, now, none, none, none, none⟩

/-- The window a step with a limit set opens (R104). -/
def limitWindow (step : StepRecord) (now : Time) : Option Window :=
  if step.limitSet.isSome then some (Window.opened now) else none

/-- A start whose condition fails (R4). -/
def failStart (i : Slot) (r : Reason) (s : State) : State × List Slot := (endStep i (.startFailed r) s, [i])

/-! ### The kinds -/

/-- EXCHANGE (R6, R43): the power state, then the guard; then the tag, the deadline, the window and the command line. -/
def startExchange (i : Slot) (step : StepRecord) (code : BitVec 16) (argument : List Byte) (s : State) :
    State × List Slot :=
  if (s.slot i).power.state ≠ .run then failStart i .state s
  else if s.guardDecision code i = .deny then failStart i .denied s
  else
    (s.modSlot i fun x =>
      { x with
        engine.flight := some { Flight.begun step s.time with
          deadline := some (Time.after s.time step.timeout)
          tag := some x.line.nextTag
          window := limitWindow step s.time }
        line := x.line.takeTag.handOver ⟨.step, .line (commandLine x.line.nextTag code argument)⟩ }, [])

/-- The number of blocks of a push: ceil(L / B) (R45). -/
def blockCount (length size : Nat) : Nat := (length + (size - 1)) / size

/-- The bytes block k carries (R45). -/
def blockLength (length size k : Nat) : Nat := min size (length - k * size)

/-- Block k of a push as an item of the transmitter (R32, R45). -/
def blockItem (o : ObjectRecord) (tag : Byte) (size k : Nat) : TxItem :=
  ⟨.step, .block (blockHeader tag k (blockLength o.length size k)) o.pages (k * size) (blockLength o.length size k)⟩

/-- PUSH (R7, R45): the power state, then the block size; then the tag, the deadline, the window and block 0. -/
def startPush (i : Slot) (step : StepRecord) (object : Fin 16) (s : State) : State × List Slot :=
  let o := s.store.object object
  if (s.slot i).power.state ≠ .run then failStart i .state s
  else if (s.slot i).line.blockSize = 0 then failStart i .notEnabled s
  else
    (s.modSlot i fun x =>
      { x with
        engine.flight := some { Flight.begun step s.time with
          deadline := some (Time.after s.time step.timeout)
          tag := some x.line.nextTag
          push := some ⟨x.line.blockSize, blockCount o.length x.line.blockSize, 0, 0, false, false⟩
          window := limitWindow step s.time }
        line := x.line.takeTag.handOver (blockItem o x.line.nextTag x.line.blockSize 0) }, [])

/-- Whether a POWER step's target is already reached (R8): OFF counts as reached for PARK. -/
def PowerState.reaches : PowerState → Target → Bool
  | .off, .off | .off, .park | .standby, .standby | .listen, .listen | .run, .run => true
  | _, _ => false

/-- The targets that need the rail on (R8). -/
def Target.needsRail : Target → Bool
  | .standby | .listen | .run => true
  | .off | .park => false

/-- The window of a POWER step: target RUN from OFF or STANDBY, with a limit set (R104). -/
def powerWindow (step : StepRecord) (target : Target) (now : Time) : Option Window :=
  if target = .run then limitWindow step now else none

/-- POWER (R8, R74). -/
def startPower (i : Slot) (step : StepRecord) (target : Target) (keys : KeyCombo) (s : State) : State × List Slot :=
  let x := s.slot i
  let openWindow (t : State) : State := t.modFlight i fun f => { f with window := powerWindow step target t.time }
  if x.power.state.reaches target then (endStep i .normal s, [i])
  else if s.lid.state = .opened ∧ target.needsRail = true then failStart i .interlocked s
  else match x.power.state with
    | .off => (openWindow (s.modSlot i fun y => y.railOn s.time target), [])
    | .standby =>
      if target.needsRail = false then takeMove i .off s
      else if x.power.phase = .settling then
        (openWindow (s.modSlot i fun y => { y with power.target := some target }), [])
      else if target = .run then (openWindow (s.modSlot i fun y => y.enterStarting s.time keys), [])
      else takeMove i target s
    | .run =>
      if target = .standby then failStart i .state s
      else if x.line.tx.isSome then
        (s.modSlot i fun y => { y with power := { y.power with target := some target, phase := .leaving } }, [])
      else takeMove i target s
    | .listen =>
      if target = .standby then failStart i .state s
      else if target = .run then
        targetReached i (s.modSlot i fun y => { y with power := { y.power with state := .run, phase := .none, target := none } })
      else takeMove i target s
    | .starting | .parking | .fault => failStart i .state s

/-- MEASURE (R9): no start condition, always a window. -/
def startMeasure (i : Slot) (duration : Nat) (s : State) : State × List Slot :=
  (s.modFlight i fun f =>
    { f with deadline := some (Time.after s.time duration), window := some (Window.opened s.time) }, [])

/-- PRESS (R10, R82). -/
def startPress (i : Slot) (step : StepRecord) (keys : KeyMask) (duration : Nat) (s : State) : State × List Slot :=
  if (s.slot i).power.state ≠ .run ∧ (s.slot i).power.state ≠ .listen then failStart i .state s
  else
    ((s.modFlight i fun f =>
      { f with deadline := some (Time.after s.time duration), window := limitWindow step s.time }).modSlot i fun x =>
        { x with power.keys := x.power.keys ||| keys }, [])

/-- ATTACH (R11, R130): the entry joins the wait list and the walk runs. -/
def startAttach (i : Slot) (step : StepRecord) (mask : PortMask) (hold : Nat) (s : State) : State × List Slot :=
  if s.portsHeld i &&& mask ≠ 0#4 then failStart i .state s
  else walk { s with waitList := s.waitList ++ [⟨i, mask, Time.after s.time step.timeout, hold⟩] }

/-- DETACH (R12, R135): the named ports the slot holds are freed, the step completes, and the walk runs if any was freed. -/
def startDetach (i : Slot) (mask : PortMask) (s : State) : State × List Slot :=
  let released := (if mask = 0#4 then 0xF#4 else mask) &&& s.portsHeld i
  let s1 := endStep i (.detached released) (s.releasePorts i released)
  if released = 0#4 then (s1, [i])
  else
    let r := walk s1
    (r.1, i :: r.2)

/-- AWAIT (R13). -/
def startAwait (i : Slot) (step : StepRecord) (k : Fin 4) (s : State) : State × List Slot :=
  if (s.slot i).capture.triggers[k].enabled = false then failStart i .state s
  else
    (s.modFlight i fun f =>
      { f with deadline := some (Time.after s.time step.timeout), window := limitWindow step s.time }, [])

/-- What a step without a doom reason does at its start, by its kind (section 1.3). -/
def startKind (i : Slot) (step : StepRecord) (s : State) : State × List Slot :=
  match step.kind with
  | .exchange code argument => startExchange i step code argument s
  | .push object => startPush i step object s
  | .power target keys => startPower i step target keys s
  | .measure duration => startMeasure i duration s
  | .press keys duration => startPress i step keys duration s
  | .attach mask hold => startAttach i step mask hold s
  | .detach mask => startDetach i mask s
  | .await k => startAwait i step k s

/-- The head of slot i's queue starts (R4), or drains when it carries a doom reason (R5). It answers the slots whose start
condition has to be tested next. -/
def startHead (i : Slot) (s : State) : State × List Slot :=
  match (s.slot i).engine.waiting with
  | [] => (s, [])
  | step :: rest =>
    let s1 := s.modSlot i fun x =>
      { x with engine.flight := some (Flight.begun step s.time), engine.waiting := rest }
    match step.doom with
    | some d => (endStep i (.doomed d) s1, [i])
    | none => startKind i step s1

/-! ### The run of starts in one event (R3, R5) -/

/-- The steps in all queues, which bounds the starts one event can set off. -/
def State.queuedSteps (s : State) : Nat := (allSlots.map fun i => (s.slot i).engine.queueCount).sum

/-- The start condition is tested for the slots of a work list, first in first; a slot that starts puts the slots its start
concerns in its place. Which slot goes first when several can start in one event is the model's choice
(notes/assumptions/8.md). -/
def runStarts : Nat → List Slot → State → State
  | 0, _, s => s
  | _ + 1, [], s => s
  | n + 1, i :: work, s =>
    if (s.slot i).engine.canStart then
      let r := startHead i s
      runStarts n (r.2 ++ work) r.1
    else runStarts n work s

/-- Every start the slots of a work list have coming (R3). Each turn uses up one entry of the list, and an entry is added only
for a step that has completed and left its queue, so with every wait entry's ATTACH in flight (R130) the bound never cuts the
run short. -/
def startAll (work : List Slot) (s : State) : State := runStarts (work.length + s.queuedSteps) work s

end Sys2Proof.Machine
end

