-- ==== Sys2Proof/Machine/Uplink.lean ====
section
/-! DEFINITION. The uplink (section 10.4): completion records and notices as bytes, eligibility, the arbiter's choice, and the
close of an event, which tests the starts it made possible and lets the arbiter choose. -/

namespace Sys2Proof.Machine

/-! ### Completion records as bytes (R202, R203) -/

/-- The reply part. -/
def ReplyPart.bytes (p : ReplyPart) : List Byte :=
  match p.payload with
  | some (payload, truncated) => [byte p.status.toNat, byte (bitSet [truncated, true]), byte payload.length] ++ payload
  | none => [byte p.status.toNat, 0#8, 0#8]

/-- The measurement part; NO_DATA markers when the window held no sample. -/
def Measurement.bytes (m : Measurement) : List Byte :=
  le 4 m.n ++ (match m.values with
    | some (mean, peak, min, charge) => le 2 mean ++ le 2 peak ++ le 2 min ++ le 4 charge
    | none => le 2 0xFFFF ++ le 2 0xFFFF ++ le 2 0xFFFF ++ le 4 0xFFFFFFFF)
  ++ le 4 m.duration ++ [byte (bitSet [m.saturated])]

/-- The grade list part. -/
def gradeBytes (items : List GradeItem) : List Byte :=
  byte items.length :: items.flatMap fun g => [byte g.index.val, byte g.score, byte g.result.code]

/-- The push summary part. -/
def pushBytes (p : Nat × Option Nat) : List Byte := le 2 p.1 ++ le 2 (p.2.getD 0xFFFF)

/-- The optional parts, in the order of their bits. -/
def Record.partBytes (r : Record) : List Byte :=
  (match r.reply with
    | some p => p.bytes
    | none => [])
  ++ (match r.measurement with
    | some m => m.bytes
    | none => [])
  ++ (match r.grades with
    | some g => gradeBytes g
    | none => [])
  ++ (match r.push with
    | some p => pushBytes p
    | none => [])
  ++ (match r.released with
    | some m => [byte m.toNat]
    | none => [])

/-- The record parts set (R184). -/
def Record.parts (r : Record) : Nat :=
  bitSet [r.reply.isSome, r.measurement.isSome, r.grades.isSome, r.push.isSome, r.released.isSome]

/-- A completion record in its layout. -/
def Record.bytes (r : Record) : List Byte :=
  le 2 (16 + r.partBytes.length) ++ le 2 r.number.toNat
    ++ [byte r.kind.code, byte r.outcome.code, byte r.reason.code, byte r.parts]
    ++ le 4 r.start.toNat ++ le 4 r.finish.toNat ++ r.partBytes

/-! ### Notices (R174, R176, R204) -/

/-- The part identity that HELLO and CELL_INFO carry (R179, R188). -/
def identity : List Byte := le 2 Config.vendorCode ++ le 2 Config.partCode ++ [byte Config.revision]

/-- The slot's oldest record that is not in transmission (R25). -/
def oldestRecord (entries : List ListEntry) : Option Record :=
  (entries.find? fun e => !e.inTx).map ListEntry.record

/-- The oldest record that is not in transmission is marked as in transmission (R25). -/
def markOldest : List ListEntry → List ListEntry
  | [] => []
  | e :: es => if e.inTx then e :: markOldest es else { e with inTx := true } :: es

/-- The body of a slot notice, from the slot as it stands at the choice (R176, R204). -/
def SlotState.noticeBody (x : SlotState) : SlotNotice → List Byte
  | .stepDone =>
    (match oldestRecord x.engine.done with
      | some r => r.bytes
      | none => [])
  | .lines => le 2 x.capture.ring.length ++ le 2 (ringUsed x.capture.ring) ++ [byte (boolCode x.capture.overrun)]
  | .trigger => hitBytes x.capture.triggers
  | .power => [byte x.power.state.code, byte x.power.flagBits]
  | .fault => [byte x.power.cause.bits]
  | .grant => [byte x.granted.toNat]
  | .expiry => [byte x.expired.toNat]

/-- The mask a GRANT or EXPIRY notice carries. -/
def SlotState.noticeMask (x : SlotState) : SlotNotice → PortMask
  | .grant => x.granted
  | .expiry => x.expired
  | _ => 0#4

/-- What the choice of a notice does to its slot (R176): its flag is cleared, a record is marked in transmission, or a mask is
emptied. -/
def SlotState.noticeChosen (x : SlotState) : SlotNotice → SlotState
  | .stepDone => SlotState.settleStepDone { x with engine.done := markOldest x.engine.done }
  | .grant => { x with granted := 0#4, notices := x.notices.put .grant false }
  | .expiry => { x with expired := 0#4, notices := x.notices.put .expiry false }
  | k => { x with notices := x.notices.put k false }

/-! ### The choice (R172) -/

/-- What a notice can be: the cell's or a slot's. -/
inductive NoticeName where
  | linkError
  | ofSlot (i : Slot) (k : SlotNotice)
deriving DecidableEq, Repr

/-- The priority of a notice (R175). -/
def Link.priorityOf (l : Link) : NoticeName → Nat
  | .linkError => l.priorities[7]
  | .ofSlot _ k => l.priorities[k.index]

/-- Whether a notice is pending. -/
def State.isPending (s : State) : NoticeName → Bool
  | .linkError => s.link.linkError
  | .ofSlot i k => (s.slot i).notices.get k

/-- Eligible: pending, with a priority strictly greater than the threshold (R172). -/
def State.eligible (s : State) (n : NoticeName) : Bool :=
  s.isPending n && decide (s.link.threshold < s.link.priorityOf n)

/-- Every notice in the order in which ties are decided: the cell's, then by slot, then by kind code (R172). -/
def allNames : List NoticeName :=
  .linkError :: allSlots.flatMap fun i => allNotices.map fun k => .ofSlot i k

/-- The first of a list's notices with the highest priority (R172). -/
def bestOf (l : Link) : List NoticeName → Option NoticeName
  | [] => none
  | n :: ns =>
    match bestOf l ns with
    | none => some n
    | some m => if l.priorityOf m ≤ l.priorityOf n then some n else some m

/-- The notice the arbiter would choose. -/
def State.bestNotice (s : State) : Option NoticeName := bestOf s.link (allNames.filter s.eligible)

/-- A frame goes into transmission. -/
def State.transmit (s : State) (f : Frame) (src : FrameSource) : State := { s with link.tx := some ⟨f, src, false⟩ }

/-- HELLO is chosen with its cause and the identity, and its pending state clears (R179). -/
def sendHello (c : ResetCause) (s : State) : State :=
  ({ s with link.hello := none }).transmit ⟨0x60#8, 0#8, 0xFF#8, 0#8, byte c.code :: identity⟩ (.hello c)

/-- A notice is chosen: its content is fixed and its flag cleared (R176). -/
def sendNotice (n : NoticeName) (s : State) : State :=
  match n with
  | .linkError =>
    ({ s with link.linkError := false }).transmit
      ⟨0x68#8, 0#8, 0xFF#8, 0#8, [byte s.link.stickyBits, byte s.lid.state.code]⟩ .linkError
  | .ofSlot i k =>
    let x := s.slot i
    (s.setSlot i (x.noticeChosen k)).transmit ⟨byte k.code, 0#8, byte i.val, 0#8, x.noticeBody k⟩
      (.slotNotice k i (x.noticeMask k))

/-- The uplink arbiter (R172): with the link CONFIGURED and the pipe free it chooses HELLO, else the oldest reply, else the
eligible notice with the highest priority. -/
def uplink (s : State) : State :=
  if s.link.usb = .configured ∧ s.link.tx = none then
    match s.link.hello with
    | some c => sendHello c s
    | none =>
      match s.link.replies with
      | f :: _ => s.transmit f .reply
      | [] =>
        match s.bestNotice with
        | some n => sendNotice n s
        | none => s
  else s

/-- The close of an event on the nest side: every start it made possible is carried out in it (R3), and then the arbiter
chooses (R172). -/
def finish (work : List Slot) (s : State) : State := uplink (startAll work s)

end Sys2Proof.Machine
end

