-- ==== Sys2Proof/Machine/SlotRequests.lean ====
section
/-! DEFINITION. The requests of the step engine and the slot-wide requests (sections 11.5 and 11.6): STEP, ABORT, RESULTS,
SLOT_STATUS and SLOT_RESET. -/

namespace Sys2Proof.Machine

/-! ### STEP (R1, R197, R198) -/

/-- The limit set byte: 0 to 15, or 0xFF for absent. -/
def limitSetOf (n : Nat) : Option (Option (Fin 16)) := if n = 0xFF then some none else (finOf 16 n).map some

/-- The kind parameters of a STEP body, with whether a field of them was clamped (R1, R198). -/
def stepKindOf (body : List Byte) : Option (StepKind × Bool) :=
  let n := byteNat body 9
  match byteNat body 2 with
  | 0 =>
    let argument := (body.drop 12).take (byteNat body 11)
    if byteNat body 11 ≤ 200 ∧ argument.all isPrintable = true then
      some (.exchange (BitVec.ofNat 16 (field body 9 2)) argument, false)
    else none
  | 1 => (finOf 16 n).map fun o => (.push o, false)
  | 2 =>
    match Target.ofCode n, KeyCombo.ofCode (byteNat body 10) with
    | some t, some k => if k ≠ .none ∧ t ≠ .run then none else some (.power t k, false)
    | _, _ => none
  | 3 =>
    let d := field body 9 4
    some (.measure (clampNat d 1 600000), decide (clampNat d 1 600000 ≠ d))
  | 4 =>
    let d := field body 10 4
    if n = 0 ∨ 8 ≤ n then none else some (.press (BitVec.ofNat 3 n) (clampNat d 50 10000), decide (clampNat d 50 10000 ≠ d))
  | 5 =>
    let d := field body 10 4
    if n = 0 ∨ 16 ≤ n then none
    else some (.attach (BitVec.ofNat 4 n) (clampNat d 100 600000), decide (clampNat d 100 600000 ≠ d))
  | 6 => if 16 ≤ n then none else some (.detach (BitVec.ofNat 4 n), false)
  | 7 => (finOf 4 n).map fun k => (.await k, false)
  | _ => none

/-- Whether a kind may carry a limit set (R1, R198). -/
def StepKind.mayCarryLimits : StepKind → Bool
  | .attach _ _ | .detach _ => false
  | _ => true

/-- The step a STEP body asks for, where it passes check 1 of R1, with whether any field was clamped. -/
def stepOf (body : List Byte) : Option (StepRecord × Bool) :=
  let timeout := field body 4 4
  match stepKindOf body, limitSetOf (byteNat body 8) with
  | some (kind, clamped), some set =>
    if 4 ≤ byteNat body 3 ∨ (set.isSome = true ∧ kind.mayCarryLimits = false) then none
    else
      some (
        { number := BitVec.ofNat 16 (field body 0 2)
          kind := kind
          stopOnFail := (byteAt body 3).getLsbD 0
          lamp := (byteAt body 3).getLsbD 1
          timeout := clampNat timeout 10 600000
          limitSet := set
          doom := none },
        clamped || decide (clampNat timeout 10 600000 ≠ timeout))
  | _, _ => none

/-- Checks 4 and 5 of R1: the object a PUSH names is not EMPTY, and is SEALED. -/
def objectCheck (t : Store) (k : StepKind) : Option ReplyCode :=
  match k with
  | .push o =>
    match (t.object o).state with
    | .empty => some .noObject
    | .sealed => none
    | .filling | .condemned => some .objectState
  | _ => none

/-- The store after an accepted STEP: a PUSH adds a reference (R1, R148). -/
def Store.withStep (t : Store) (k : StepKind) : Store :=
  match k with
  | .push o => t.addRef o
  | _ => t

/-- STEP (R1): the checks in order, then the append, the reference and the reply; the head starts when the queue was empty (R3). -/
def stepRequest (i : Slot) (body : List Byte) (s : State) : State × List Byte :=
  let x := s.slot i
  match stepOf body with
  | none => (s, replyBody .badValue [])
  | some (step, clamped) =>
    if x.power.state = .fault then (s, replyBody .slotFaulted [])
    else if Config.queuePlaces ≤ x.engine.queueCount then (s, replyBody .queueFull [])
    else match objectCheck s.store step.kind with
      | some code => (s, replyBody code [])
      | none =>
        let s1 := { s.modSlot i (fun y => { y with engine.waiting := y.engine.waiting ++ [step] }) with
          store := s.store.withStep step.kind }
        (if x.engine.queueCount = 0 then startAll [i] s1 else s1,
          replyBody (okOr clamped) [byte (x.engine.queueCount + 1)])

/-! ### ABORT (R21 to R23) -/

/-- Taking an abort (R22). A PUSH whose block is leaving enters ABORTING: it gives up its tag and its deadline, its waiting block is
withdrawn, and it completes when the block has been sent (R23, R48); the scope is kept for that end (R20). Every other step completes
at once. -/
def takeAbort (i : Slot) (all : Bool) (f : Flight) (s : State) : State × List Slot :=
  match f.push with
  | some p =>
    if (s.slot i).line.stepLeaving then
      (s.modSlot i fun x =>
        { x with
          engine.flight := some { f with tag := none, deadline := none, push := some { p with aborting := true, abortAll := all } }
          line := x.line.withdraw }, [])
    else endByHand i f .aborted s
  | none => endByHand i f .aborted s

/-- The step in flight whose abort has not already been taken (R21). -/
def Engine.abortable (e : Engine) : Option Flight :=
  match e.flight with
  | some f => if f.aborting then none else some f
  | none => none

/-- ABORT (R21): the abort is taken, scope ALL dooms the queue before the aborted step completes (R20), and the starts and drains
follow. -/
def abortRequest (i : Slot) (body : List Byte) (s : State) : State × List Byte :=
  match boolOf (byteNat body 0) with
  | none => (s, replyBody .badValue [])
  | some all =>
    let doomed := if all then undoomed (s.slot i).engine.waiting else 0
    let s1 := if all then s.modSlot i (fun x => x.doomQueue .aborted) else s
    match (s.slot i).engine.abortable with
    | some f =>
      let r := takeAbort i all f s1
      (startAll r.2 r.1, replyBody .ok [1#8, byte doomed])
    | none => (s1, replyBody .ok [0#8, byte doomed])

/-! ### RESULTS (R26) -/

/-- The records RESULTS hands out and the entries it leaves: from the oldest, skipping a record in transmission, up to the count and
up to the first record that would not fit in the budget. -/
def handOut : Nat → Nat → List ListEntry → List Record × List ListEntry
  | _, _, [] => ([], [])
  | n, budget, e :: es =>
    if e.inTx then
      let r := handOut n budget es
      (r.1, e :: r.2)
    else
      match n with
      | 0 => ([], e :: es)
      | n + 1 =>
        if e.record.bytes.length ≤ budget then
          let r := handOut n (budget - e.record.bytes.length) es
          (e.record :: r.1, r.2)
        else ([], e :: es)

/-- RESULTS (R26, R199): the removal frees places, STEP_DONE is settled, and the start condition is tested. -/
def resultsRequest (i : Slot) (body : List Byte) (s : State) : State × List Byte :=
  let n := byteNat body 0
  if 8 < n then (s, replyBody .badValue [])
  else
    let done := (s.slot i).engine.done
    let r := handOut (if n = 0 then done.length else n) (1024 - 3) done
    let s1 := s.modSlot i fun x => SlotState.settleStepDone { x with engine.done := r.2 }
    (if r.1 = [] then s1 else startAll [i] s1,
      replyBody .ok ([byte r.1.length, byte r.2.length] ++ r.1.flatMap Record.bytes))

/-! ### SLOT_STATUS (R200, R177) -/

/-- The last sample's current and voltage, or NO_DATA (R111, R184). -/
def sampleBytes (m : Option (Nat × Nat)) : List Byte :=
  match m with
  | some (current, voltage) => le 2 current ++ le 2 voltage
  | none => le 2 0xFFFF ++ le 2 0xFFFF

/-- The window state and N so far (R111). -/
def windowBytes (w : Option Window) : List Byte :=
  match w with
  | some w => byte (bitSet [true, w.saturated]) :: le 4 w.n
  | none => 0#8 :: le 4 0

/-- The step in flight: its number and kind, or 0 and 0xFF (R2). -/
def flightBytes (f : Option Flight) : List Byte :=
  match f with
  | some f => le 2 f.step.number.toNat ++ [byte f.step.kind.code]
  | none => le 2 0 ++ [0xFF#8]

/-- The wait entry's mask, or 0. -/
def State.waitMask (s : State) (i : Slot) : Nat :=
  match s.waitEntry i with
  | some e => e.mask.toNat
  | none => 0

/-- The SLOT_STATUS reply after its code (R200). -/
def State.statusBytes (s : State) (i : Slot) : List Byte :=
  let x := s.slot i
  byte x.engine.queueCount :: flightBytes x.engine.flight
    ++ [byte x.engine.done.length, byte x.engine.lamp.code]
    ++ le 4 x.line.baud.value ++ le 2 x.line.blockSize ++ [x.line.nextTag]
    ++ [byte x.power.state.code, byte x.power.phase.code, byte x.power.cause.bits, byte x.power.flagBits,
        byte x.power.keys.toNat]
    ++ le 2 x.power.settings.railVoltage ++ le 2 x.power.settings.pressTime ++ le 2 x.power.settings.parkHold
    ++ le 2 x.power.settings.parkLevel ++ le 2 x.power.settings.shutdownCode.toNat
    ++ le 2 x.sampler.gain ++ leInt 2 x.sampler.offset ++ le 2 x.sampler.tripLevel
    ++ sampleBytes x.sampler.lastSample ++ windowBytes (x.engine.flight.bind Flight.window)
    ++ le 2 x.capture.ring.length ++ le 2 (ringUsed x.capture.ring) ++ [byte (boolCode x.capture.overrun)]
    ++ hitBytes x.capture.triggers
    ++ byte x.capture.filter.mode.code :: (x.capture.filter.code.toList ++ x.capture.filter.mask.toList)
    ++ [byte (s.portsHeld i).toNat, byte (s.waitMask i)]

/-- SLOT_STATUS (R200): it clears the slot's LINES, TRIGGER, POWER and FAULT flags (R177). -/
def slotStatus (i : Slot) (s : State) : State × List Byte :=
  (s.modSlot i fun x => { x with notices := { x.notices with lines := false, trigger := false, power := false, fault := false } },
    replyBody .ok (s.statusBytes i))

/-! ### SLOT_RESET (R28, R50, R69, R95, R112, R141, R154, R182) -/

/-- What a CMD or SLOT reset leaves of a slot: the steps, the records, the ring and the counts are gone and the rail is off; the
settings, the filter and the triggers' settings are kept. -/
def SlotState.cleared (x : SlotState) : SlotState where
  engine := { flight := none, waiting := [], done := [], lamp := .off }
  line := { x.line.cut with nextTag := 1#8 }
  capture := { x.capture with ring := [], overrun := false, triggers := zeroHits x.capture.triggers }
  power := { (x.cutRail .off).power with
    lineSinceRelease := false, cause := ⟨false, false⟩, woke := false, interlock := false, forced := false }
  sampler := { (x.cutRail .off).sampler with lastSample := none }
  notices := Pending.clear
  granted := 0#4
  expired := 0#4

/-- A reset voids the slot notice in transmission of the slot it reaches (R181). -/
def TxFrame.voidFor (i : Slot) (t : TxFrame) : TxFrame :=
  match t.source with
  | .slotNotice _ j _ => if j = i then { t with voided := true } else t
  | _ => t

/-- The SLOT reset of slot i, less the walk. -/
def resetSlot (i : Slot) (s : State) : State :=
  let steps := (s.slot i).engine.queue
  let s1 := (s.modSlot i SlotState.cleared).arbiterDrop i
  { s1 with store := s.store.dropRefs steps, link.tx := s.link.tx.map (TxFrame.voidFor i) }

/-- SLOT_RESET (R199): the reset, then the walk, which may grant other slots (R141). -/
def slotReset (i : Slot) (s : State) : State × List Byte :=
  let r := walk (resetSlot i s)
  (startAll r.2 r.1, replyBody .ok [])

end Sys2Proof.Machine
end

