-- ==== Sys2Proof/Machine/CellRequests.lean ====
section
/-! DEFINITION. The cell requests of the link and the resets of the whole cell (sections 10.5, 10.6): CELL_INFO, CELL_STATUS,
NOTICE_SET, CELL_RESET and power-on reset. -/

namespace Sys2Proof.Machine

/-- CELL_INFO (R188). -/
def cellInfo (s : State) : State × List Byte :=
  (s, replyBody .ok (identity ++ [byte 24, byte 4] ++ le 2 Config.pageCount ++ le 2 Config.pageSize
    ++ [byte 16, byte 64, byte 8]))

/-- CELL_STATUS (R177, R188): the sticky flags as they stood, then they and LINK_ERROR pending are cleared. -/
def cellStatus (s : State) : State × List Byte :=
  ({ s with link := { s.link with linkLength := false, linkCrc := false, unknownSeen := false, linkError := false } },
    replyBody .ok ([byte s.link.stickyBits, byte s.lid.state.code] ++ le 4 s.time.toNat ++ [byte s.outputBits]))

/-- The place among the priorities that a NOTICE_SET target names (R189). -/
def noticeIndex (target : Nat) : Option (Fin 8) := if 0x61 ≤ target then finOf 8 (target - 0x61) else none

/-- NOTICE_SET (R175, R189). -/
def noticeSet (body : List Byte) (s : State) : State × List Byte :=
  let v := clampNat (byteNat body 1) 0 15
  let answer := replyBody (okOr (decide (v ≠ byteNat body 1))) [byteAt body 0, byte v]
  if byteNat body 0 = 0 then ({ s with link.threshold := v }, answer)
  else match noticeIndex (byteNat body 0) with
    | some k => ({ s with link.priorities := s.link.priorities.set k v }, answer)
    | none => (s, replyBody .badValue [])

/-- Every slot after a POR or CMD reset, by what that reset leaves of one slot. -/
def mapSlots (f : SlotState → SlotState) (s : State) : State :=
  allSlots.foldl (fun u i => u.modSlot i f) s

/-- The replies a CELL_RESET leaves: the one in transmission, if a reply is (R179). -/
def repliesInTransmission (l : Link) : List Frame :=
  match l.tx with
  | some t => if t.source = .reply then l.replies.take 1 else []
  | none => []

/-- CELL_RESET, the CMD reset of every block (R179, R182 and the reset table of each chapter). The lid recognition deadline keeps its
remaining time across the restart of cell time. -/
def cellReset (s : State) : State :=
  let s1 := mapSlots SlotState.cleared s
  { s1 with
    time := 0#32
    ports := Vector.replicate 4 none
    waitList := []
    store := s.store.cleared
    link := { s.link with
      inbound := []
      held := none
      replies := repliesInTransmission s.link
      tx := s.link.tx.map fun t => { t with voided := true }
      hello := some .commanded
      linkError := false }
    lid := { s.lid with deadline := s.lid.deadline.map fun d => d - s.time } }

/-- Power-on reset (R182 and the reset table of each chapter): every block in its power-on state; the lid input goes on reading what it
reads, and recognition is armed at once if it reads open (R95). The waiting commands and the count of free values are the model's
own and stay. -/
def powerOn (s : State) : State :=
  { State.reset with
    lid := ⟨.closed, s.lid.input, if s.lid.input then some (Time.after 0#32 Config.lidTime) else none⟩
    freeCount := s.freeCount
    pending := s.pending }

end Sys2Proof.Machine
end

