-- ==== Sys2Proof/Machine/Frames.lean ====
section
/-! DEFINITION. Frames on the bulk pipes (section 10.2, R183): a frame as bytes, and the cutting of an accepted OUT transfer into
frames by the four checks of R167. -/

namespace Sys2Proof.Machine

/-- The length of a frame in bytes (R183). -/
def Frame.size (f : Frame) : Nat := 8 + f.body.length

/-- The bytes of a frame that its check covers: all but the CRC field (R168, R183). -/
def Frame.checked (f : Frame) : List Byte := le 2 f.size ++ ([f.kind, f.tag, f.slot, f.flags] ++ f.body)

/-- A frame as it travels (R183). -/
def Frame.encode (f : Frame) : List Byte := f.checked ++ le 2 (crc16 f.checked).toNat

/-- The two ways in which a frame is bad (R167). -/
inductive BadFrame where
  | length | crc
deriving DecidableEq, Repr

/-- The frame at the head of a run of bytes that holds at least 8, with the bytes after it, or the way in which it is bad: checks
2 to 4 of R167 in order. -/
def cutOne (bytes : List Byte) : Except BadFrame (Frame × List Byte) :=
  let n := field bytes 0 2
  if n < 8 ∨ 1032 < n then .error .length
  else if bytes.length < n then .error .length
  else if crc16 (bytes.take (n - 2)) ≠ BitVec.ofNat 16 (field bytes (n - 2) 2) then .error .crc
  else .ok (⟨byteAt bytes 2, byteAt bytes 3, byteAt bytes 4, byteAt bytes 5, (bytes.drop 6).take (n - 8)⟩, bytes.drop n)

/-- A transfer cut into frames: the good frames up to the first bad one, and how that one is bad (R167). Each frame takes at least
8 bytes, so the transfer's length bounds the cuts. -/
def cutFrom : Nat → List Byte → List Frame × Option BadFrame
  | 0, _ => ([], none)
  | n + 1, bytes =>
    if bytes = [] then ([], none)
    else if bytes.length < 8 then ([], some .length)
    else match cutOne bytes with
      | .error e => ([], some e)
      | .ok (f, rest) =>
        let r := cutFrom n rest
        (f :: r.1, r.2)

/-- An accepted transfer cut into frames from its first byte (R167). -/
def cutTransfer (bytes : List Byte) : List Frame × Option BadFrame := cutFrom bytes.length bytes

end Sys2Proof.Machine
end

