-- ==== Sys2Proof/Machine/Intake.lean ====
section
/-! DEFINITION. Intake and replies (section 10.3): the request kinds, the link's four checks, the hand-over to the owner, the
reply, and the acceptance of OUT transfers. -/

namespace Sys2Proof.Machine

/-! ### The request kinds (R186) -/

/-- The requests addressed to the cell. -/
inductive CellRequest where
  | cellInfo | cellStatus | cellReset | noticeSet | guardWrite | guardRead | guardDefault | limitWrite | limitRead | objOpen
  | objData | objSeal | objDelete | objList | instrStatus
deriving DecidableEq, Repr

/-- The requests addressed to a slot. -/
inductive SlotRequest where
  | slotConfig | slotFilter | slotTrigger | slotBlock | step | abort | results | slotStatus | captureRead | captureRelease
  | clearFault | slotReset
deriving DecidableEq, Repr

/-- A request kind with its addressing. -/
inductive RequestKind where
  | cell (k : CellRequest)
  | slot (k : SlotRequest)
deriving DecidableEq, Repr

/-- The kind code of a cell request (R186). -/
def CellRequest.code : CellRequest → Byte
  | .cellInfo => 0x01#8 | .cellStatus => 0x02#8 | .cellReset => 0x03#8 | .noticeSet => 0x04#8 | .guardWrite => 0x08#8
  | .guardRead => 0x09#8 | .guardDefault => 0x0A#8 | .limitWrite => 0x0C#8 | .limitRead => 0x0D#8 | .objOpen => 0x10#8
  | .objData => 0x11#8 | .objSeal => 0x12#8 | .objDelete => 0x13#8 | .objList => 0x14#8 | .instrStatus => 0x18#8

/-- The kind code of a slot request (R186). -/
def SlotRequest.code : SlotRequest → Byte
  | .slotConfig => 0x20#8 | .slotFilter => 0x21#8 | .slotTrigger => 0x22#8 | .slotBlock => 0x23#8 | .step => 0x28#8
  | .abort => 0x29#8 | .results => 0x2A#8 | .slotStatus => 0x30#8 | .captureRead => 0x31#8 | .captureRelease => 0x32#8
  | .clearFault => 0x38#8 | .slotReset => 0x39#8

/-- The kind code of a request (R186). -/
def RequestKind.code : RequestKind → Byte
  | .cell k => k.code
  | .slot k => k.code

/-- The requests of R186, in its order. -/
def allRequestKinds : List RequestKind :=
  ([.cellInfo, .cellStatus, .cellReset, .noticeSet, .guardWrite, .guardRead, .guardDefault, .limitWrite, .limitRead, .objOpen,
    .objData, .objSeal, .objDelete, .objList, .instrStatus] : List CellRequest).map .cell
  ++ ([.slotConfig, .slotFilter, .slotTrigger, .slotBlock, .step, .abort, .results, .slotStatus, .captureRead, .captureRelease,
    .clearFault, .slotReset] : List SlotRequest).map .slot

/-- The request kind that a kind byte names. -/
def requestKind (kind : Byte) : Option RequestKind := allRequestKinds.find? fun k => decide (k.code = kind)

/-- Whether a STEP body's length is one its step kind requires (R197). -/
def stepLengthOk (body : List Byte) : Bool :=
  decide (10 ≤ body.length ∧ body.length ≤ 267) &&
    (match byteNat body 2 with
      | 0 => decide (body.length = 12 + byteNat body 11)
      | 1 | 6 | 7 => decide (body.length = 10)
      | 2 => decide (body.length = 11)
      | 3 => decide (body.length = 13)
      | 4 | 5 => decide (body.length = 14)
      | _ => true)

/-- Whether a cell request allows a body of this length (R186). -/
def CellRequest.lengthOk (k : CellRequest) (n : Nat) : Bool :=
  match k with
  | .cellInfo | .cellStatus | .cellReset | .objList | .instrStatus => decide (n = 0)
  | .guardRead | .guardDefault | .limitRead | .objSeal | .objDelete => decide (n = 1)
  | .noticeSet => decide (n = 2)
  | .objOpen => decide (n = 5)
  | .guardWrite => decide (n = 11)
  | .limitWrite => decide (n = 14)
  | .objData => decide (6 ≤ n ∧ n ≤ 1005)

/-- Whether a slot request allows a body of this length (R186). -/
def SlotRequest.lengthOk (k : SlotRequest) (body : List Byte) : Bool :=
  match k with
  | .slotStatus | .captureRead | .clearFault | .slotReset => decide (body.length = 0)
  | .abort | .results => decide (body.length = 1)
  | .slotBlock | .captureRelease => decide (body.length = 2)
  | .slotFilter => decide (body.length = 9)
  | .slotConfig => decide (body.length = 22)
  | .slotTrigger => decide (body.length = 29)
  | .step => stepLengthOk body

/-! ### The link's checks (R170) -/

/-- What the link's checks say of a request: refused with a reply code, or handed to an owner. -/
inductive Checked where
  | refused (code : ReplyCode)
  | cell (k : CellRequest)
  | slot (k : SlotRequest) (i : Slot)
deriving DecidableEq, Repr

/-- The four checks, in order (R170). -/
def checkRequest (f : Frame) : Checked :=
  match requestKind f.kind with
  | none => .refused .unknownKind
  | some (.cell k) =>
    if f.slot ≠ 0xFF#8 then .refused .badSlot
    else if k.lengthOk f.body.length = false then .refused .badLength
    else if f.flags ≠ 0#8 then .refused .badValue
    else .cell k
  | some (.slot k) =>
    match slotOf f.slot with
    | none => .refused .badSlot
    | some i =>
      if k.lengthOk f.body = false then .refused .badLength
      else if f.flags ≠ 0#8 then .refused .badValue
      else .slot k i

/-! ### The owners -/

/-- The owner of a cell request acts and gives its reply body; CELL_RESET has none (R179). -/
def cellOwner (k : CellRequest) (body : List Byte) (s : State) : State × Option (List Byte) :=
  let answered (r : State × List Byte) : State × Option (List Byte) := (r.1, some r.2)
  match k with
  | .cellInfo => answered (cellInfo s)
  | .cellStatus => answered (cellStatus s)
  | .cellReset => (cellReset s, none)
  | .noticeSet => answered (noticeSet body s)
  | .guardWrite => answered (guardWrite body s)
  | .guardRead => answered (guardRead body s)
  | .guardDefault => answered (guardDefault body s)
  | .limitWrite => answered (limitWrite body s)
  | .limitRead => answered (limitRead body s)
  | .objOpen => answered (objOpen body s)
  | .objData => answered (objData body s)
  | .objSeal => answered (objSeal body s)
  | .objDelete => answered (objDelete body s)
  | .objList => answered (objList s)
  | .instrStatus => answered (instrStatus s)

/-- The owner of a slot request acts and gives its reply body. -/
def slotOwner (k : SlotRequest) (i : Slot) (body : List Byte) (s : State) : State × List Byte :=
  match k with
  | .slotConfig => slotConfig i body s
  | .slotFilter => slotFilter i body s
  | .slotTrigger => slotTrigger i body s
  | .slotBlock => slotBlock i body s
  | .step => stepRequest i body s
  | .abort => abortRequest i body s
  | .results => resultsRequest i body s
  | .slotStatus => slotStatus i s
  | .captureRead => captureRead i s
  | .captureRelease => captureRelease i body s
  | .clearFault => clearFault i s
  | .slotReset => slotReset i s

/-- A request checked and, where it passes, acted on, with the reply body if it has one (R169 step 2, R170, R171). -/
def act (f : Frame) (s : State) : State × Option (List Byte) :=
  match checkRequest f with
  | .refused .unknownKind => ({ s with link.unknownSeen := true }, some (replyBody .unknownKind [f.kind]))
  | .refused c => (s, some (replyBody c []))
  | .cell k => cellOwner k f.body s
  | .slot k i =>
    let r := slotOwner k i f.body s
    (r.1, some r.2)

/-! ### Replies (R171) -/

/-- The reply frame that answers a request. -/
def replyFrame (f : Frame) (body : List Byte) : Frame := ⟨f.kind ||| 0x80#8, f.tag, f.slot, 0#8, body⟩

/-- The reply, if any, joins the reply buffer at the newest end (R169 step 3). -/
def joinReply (f : Frame) (body : Option (List Byte)) (s : State) : State :=
  match body with
  | some b => { s with link.replies := s.link.replies ++ [replyFrame f b] }
  | none => s

/-! ### The inbound buffer (R166, R167) -/

/-- The bytes that the requests in the inbound buffer occupy (R166). -/
def Link.inboundUsed (l : Link) : Nat := (l.inbound.map Frame.size).sum

/-- Whether the inbound buffer has room for a transfer of n bytes (R166). -/
def Link.fits (l : Link) (n : Nat) : Bool := decide (l.inboundUsed + n ≤ Config.inboundBytes)

/-- The sticky flag a bad frame sets, with LINK_ERROR marked pending (R167). -/
def noteBadFrame (e : Option BadFrame) (s : State) : State :=
  match e with
  | none => s
  | some .length => ({ s with link.linkLength := true }).markLinkError
  | some .crc => ({ s with link.linkCrc := true }).markLinkError

/-- A transfer is accepted: its good frames join the inbound buffer, and its first bad frame is noted (R166, R167). -/
def acceptTransfer (bytes : List Byte) (s : State) : State :=
  let c := cutTransfer bytes
  noteBadFrame c.2 { s with link.inbound := s.link.inbound ++ c.1 }

/-- The transfer held off is accepted once enough bytes are free (R166). -/
def acceptHeld (s : State) : State :=
  match s.link.held with
  | some bytes => if s.link.fits bytes.length then acceptTransfer bytes { s with link.held := none } else s
  | none => s

/-! ### Taking requests (R169) -/

/-- Whether the oldest request can be taken: the reply buffer has a free place, or it is a CELL_RESET that passes the checks. -/
def Link.canTake (l : Link) (f : Frame) : Bool :=
  decide (l.replies.length < Config.replyPlaces) || decide (checkRequest f = .cell .cellReset)

/-- One request is taken: its bytes are freed, it is checked and acted on, its reply joins the buffer, and a transfer held off is
accepted where it now fits. -/
def takeRequest (f : Frame) (rest : List Frame) (s : State) : State :=
  let r := act f { s with link.inbound := rest }
  acceptHeld (joinReply f r.2 r.1)

/-- The requests that can be taken are taken one after another, each taking an event in which the arbiter chooses (R169, R172). -/
def takeRequests : Nat → State → State
  | 0, s => uplink s
  | n + 1, s =>
    match s.link.inbound with
    | [] => uplink s
    | f :: rest => if s.link.canTake f then takeRequests n (uplink (takeRequest f rest s)) else uplink s

/-- Intake goes on until the inbound buffer is empty or its oldest request has to wait. A taking uses up one request, and the transfer
held off brings fewer requests than it has bytes, so the bound never cuts the intake short. -/
def intake (s : State) : State := takeRequests (s.link.inbound.length + (s.link.held.getD []).length + 1) s

/-! ### What the host sends (R165, R166) -/

/-- An OUT transfer is presented (R166). With the link NOT_CONFIGURED, with a transfer held off, or beyond 4096 bytes, none is
presented, and nothing happens (notes/assumptions/11.md). -/
def presentTransfer (bytes : List Byte) (s : State) : State :=
  if s.link.usb = .notConfigured ∨ s.link.held.isSome = true ∨ Config.inboundBytes < bytes.length then s
  else if s.link.fits bytes.length then intake (acceptTransfer bytes s)
  else { s with link.held := some bytes }

/-- A request command: an OUT transfer that holds this one frame (R183, notes/assumptions/11.md). A frame whose body is within
the 1024 bytes of R183 is good by construction, so it joins the inbound buffer as it stands. -/
def sendRequest (kind : Byte) (r : Request) (s : State) : State :=
  let f : Frame := ⟨kind, r.tag, r.slot, r.flags, r.body⟩
  if r.body.length ≤ 1024 then
    if s.link.usb = .notConfigured ∨ s.link.held.isSome = true then s
    else if s.link.fits f.size then intake { s with link.inbound := s.link.inbound ++ [f] }
    else { s with link.held := some f.encode }
  else presentTransfer f.encode s

end Sys2Proof.Machine
end

