-- ==== Sys2Proof/Machine/LinkEvents.lean ====
section
/-! DEFINITION. The events of the USB side (sections 10.1, 10.4 and 10.6): power-on reset, OUT transfers, "configured", the bus
reset, and the frame taken by the host. -/

namespace Sys2Proof.Machine

/-- POWER_ON_RESET (R182). -/
def execPowerOnReset (s : State) : Host.Outcome State Fault Refusal := .next (powerOn s)

/-- OUT_TRANSFER (R166, R167). -/
def execOutTransfer (bytes : List Byte) (s : State) : Host.Outcome State Fault Refusal := .next (presentTransfer bytes s)

/-- USB_CONFIGURED (R165, R172). -/
def execUsbConfigured (s : State) : Host.Outcome State Fault Refusal :=
  .next (if s.link.usb = .configured then s else uplink { s with link.usb := .configured })

/-! ### The bus reset (R180, R181) -/

/-- A record in transmission goes back to waiting (R25, R181). -/
def unmarkRecords (entries : List ListEntry) : List ListEntry := entries.map fun e => { e with inTx := false }

/-- What an abandoned slot notice gives back: its record, its mask or nothing, and its flag (R181). -/
def SlotState.restoreNotice (x : SlotState) (k : SlotNotice) (mask : PortMask) : SlotState :=
  let y := { x with notices := x.notices.put k true }
  match k with
  | .stepDone => { y with engine.done := unmarkRecords x.engine.done }
  | .grant => { y with granted := x.granted ||| mask }
  | .expiry => { y with expired := x.expired ||| mask }
  | .lines | .trigger | .power | .fault => y

/-- The frame in transmission is abandoned (R181). HELLO comes back unless a CMD reset has made it pending since; a notice comes
back unless a reset has emptied what it carried. -/
def abandonFrame (s : State) : State :=
  match s.link.tx with
  | none => s
  | some t =>
    let s1 := { s with link.tx := none }
    match t.source with
    | .reply => s1
    | .hello cause => { s1 with link.hello := some (s.link.hello.getD cause) }
    | .linkError => if t.voided then s1 else s1.markLinkError
    | .slotNotice k i mask => if t.voided then s1 else s1.modSlot i fun x => x.restoreNotice k mask

/-- The bus reset (R180). -/
def busReset (s : State) : State :=
  let s1 := abandonFrame s
  { s1 with link := { s1.link with usb := .notConfigured, replies := [], inbound := [], held := none } }

/-- BUS_RESET (R180). -/
def execBusReset (s : State) : Host.Outcome State Fault Refusal := .next (busReset s)

/-! ### The frame taken (R173) -/

/-- The record in transmission leaves its list (R25, R173). -/
def dropSent (entries : List ListEntry) : List ListEntry := entries.filter fun e => !e.inTx

/-- A transmission completes (R173): a reply leaves the buffer; a STEP_DONE's record leaves its list and the slot's start
condition is tested; the pipe is free. -/
def completeFrame (t : TxFrame) (s : State) : State :=
  let s1 := { s with link.tx := none }
  match t.source with
  | .reply => { s1 with link.replies := s.link.replies.tail }
  | .slotNotice .stepDone i _ =>
    startAll [i] (s1.modSlot i fun x => { x with engine.done := dropSent x.engine.done })
  | .slotNotice _ _ _ | .hello _ | .linkError => s1

/-- FRAME_TAKEN (R173): the transmission completes, intake goes on, and the arbiter chooses again. -/
def execFrameTaken (s : State) : Host.Outcome State Fault Refusal :=
  .next (match s.link.tx with
    | some t => intake (completeFrame t s)
    | none => s)

/-- UPLINK_CHOICE (R172). -/
def execUplinkChoice (s : State) : Host.Outcome State Fault Refusal := .next (uplink s)

end Sys2Proof.Machine
end

