-- ==== Sys2Proof/Machine/LinkRequests.lean ====
section
/-! DEFINITION. The request rows of the table as commands: each is the OUT transfer that holds its one request frame, taken and
answered as Machine/Intake.lean states; what the owner does stands in the owner's own file. -/

namespace Sys2Proof.Machine

/-- CELL_INFO (R188). -/
def execCellInfo (r : Request) (s : State) : Host.Outcome State Fault Refusal := .next (sendRequest 0x01#8 r s)

/-- CELL_STATUS (R177, R188). -/
def execCellStatus (r : Request) (s : State) : Host.Outcome State Fault Refusal := .next (sendRequest 0x02#8 r s)

/-- CELL_RESET (R179, R189). -/
def execCellReset (r : Request) (s : State) : Host.Outcome State Fault Refusal := .next (sendRequest 0x03#8 r s)

/-- NOTICE_SET (R175, R189). -/
def execNoticeSet (r : Request) (s : State) : Host.Outcome State Fault Refusal := .next (sendRequest 0x04#8 r s)

/-- GUARD_WRITE (R160, R190). -/
def execGuardWrite (r : Request) (s : State) : Host.Outcome State Fault Refusal := .next (sendRequest 0x08#8 r s)

/-- GUARD_READ (R163, R190). -/
def execGuardRead (r : Request) (s : State) : Host.Outcome State Fault Refusal := .next (sendRequest 0x09#8 r s)

/-- GUARD_DEFAULT (R162, R190). -/
def execGuardDefault (r : Request) (s : State) : Host.Outcome State Fault Refusal := .next (sendRequest 0x0A#8 r s)

/-- LIMIT_WRITE (R114, R191). -/
def execLimitWrite (r : Request) (s : State) : Host.Outcome State Fault Refusal := .next (sendRequest 0x0C#8 r s)

/-- LIMIT_READ (R115, R191). -/
def execLimitRead (r : Request) (s : State) : Host.Outcome State Fault Refusal := .next (sendRequest 0x0D#8 r s)

/-- OBJ_OPEN (R144, R192). -/
def execObjOpen (r : Request) (s : State) : Host.Outcome State Fault Refusal := .next (sendRequest 0x10#8 r s)

/-- OBJ_DATA (R145, R192). -/
def execObjData (r : Request) (s : State) : Host.Outcome State Fault Refusal := .next (sendRequest 0x11#8 r s)

/-- OBJ_SEAL (R146, R192). -/
def execObjSeal (r : Request) (s : State) : Host.Outcome State Fault Refusal := .next (sendRequest 0x12#8 r s)

/-- OBJ_DELETE (R147, R192). -/
def execObjDelete (r : Request) (s : State) : Host.Outcome State Fault Refusal := .next (sendRequest 0x13#8 r s)

/-- OBJ_LIST (R153, R193). -/
def execObjList (r : Request) (s : State) : Host.Outcome State Fault Refusal := .next (sendRequest 0x14#8 r s)

/-- INSTR_STATUS (R138, R194). -/
def execInstrStatus (r : Request) (s : State) : Host.Outcome State Fault Refusal := .next (sendRequest 0x18#8 r s)

/-- SLOT_CONFIG (R195). -/
def execSlotConfig (r : Request) (s : State) : Host.Outcome State Fault Refusal := .next (sendRequest 0x20#8 r s)

/-- SLOT_FILTER (R58, R196). -/
def execSlotFilter (r : Request) (s : State) : Host.Outcome State Fault Refusal := .next (sendRequest 0x21#8 r s)

/-- SLOT_TRIGGER (R61, R196). -/
def execSlotTrigger (r : Request) (s : State) : Host.Outcome State Fault Refusal := .next (sendRequest 0x22#8 r s)

/-- SLOT_BLOCK (R49, R196). -/
def execSlotBlock (r : Request) (s : State) : Host.Outcome State Fault Refusal := .next (sendRequest 0x23#8 r s)

/-- STEP (R1, R197, R198). -/
def execStepRequest (r : Request) (s : State) : Host.Outcome State Fault Refusal := .next (sendRequest 0x28#8 r s)

/-- ABORT (R21, R199). -/
def execAbort (r : Request) (s : State) : Host.Outcome State Fault Refusal := .next (sendRequest 0x29#8 r s)

/-- RESULTS (R26, R199). -/
def execResults (r : Request) (s : State) : Host.Outcome State Fault Refusal := .next (sendRequest 0x2A#8 r s)

/-- SLOT_STATUS (R177, R200). -/
def execSlotStatus (r : Request) (s : State) : Host.Outcome State Fault Refusal := .next (sendRequest 0x30#8 r s)

/-- CAPTURE_READ (R55, R201). -/
def execCaptureRead (r : Request) (s : State) : Host.Outcome State Fault Refusal := .next (sendRequest 0x31#8 r s)

/-- CAPTURE_RELEASE (R56, R201). -/
def execCaptureRelease (r : Request) (s : State) : Host.Outcome State Fault Refusal := .next (sendRequest 0x32#8 r s)

/-- CLEAR_FAULT (R88, R199). -/
def execClearFault (r : Request) (s : State) : Host.Outcome State Fault Refusal := .next (sendRequest 0x38#8 r s)

/-- SLOT_RESET (R28, R182, R199). -/
def execSlotReset (r : Request) (s : State) : Host.Outcome State Fault Refusal := .next (sendRequest 0x39#8 r s)

/-- UNKNOWN_KIND (R170): a request frame whose kind is the given byte. -/
def execUnknownKind (kind : Byte) (r : Request) (s : State) : Host.Outcome State Fault Refusal :=
  .next (sendRequest kind r s)

end Sys2Proof.Machine
end

