-- ==== Sys2Proof/Machine/NestEvents.lean ====
section
/-! DEFINITION. The events of the nest side: samples and trips, the deadlines of steps, of the power controller and of the
arbiter, the lid, and the bytes and items of the phone line. An event whose condition does not hold has not come about, and
leaves the state as it is (notes/assumptions/9.md). -/

namespace Sys2Proof.Machine

/-! ### Samples (R96) -/

/-- The cause a sample's counts raise (R102). -/
def tripCause (overcurrent undervolt : Nat) : FaultCause := ⟨decide (overcurrent = 4), decide (undervolt = 20)⟩

/-- The overcurrent count after a sample of a slot (R100). -/
def SlotState.nextOvercurrent (x : SlotState) (c : AdcCode) : Nat :=
  overcurrentNext x.sampler.overcurrent (calibrate c x.sampler.gain x.sampler.offset) x.sampler.tripLevel

/-- The undervoltage count after a sample of a slot: no comparison is made in STANDBY SETTLING (R101). -/
def SlotState.nextUndervolt (x : SlotState) (v : AdcCode) : Nat :=
  if x.power.state = .standby ∧ x.power.phase = .settling then x.sampler.undervolt
  else undervoltNext x.sampler.undervolt (millivolts v) (railFloor x.power.settings.railVoltage)

/-- A sample's conversion, calibration and counts (R96, steps 1 and 2). -/
def SlotState.takeSample (x : SlotState) (c v : AdcCode) : SlotState :=
  { x with sampler := { x.sampler with
      lastSample := some (calibrate c x.sampler.gain x.sampler.offset, millivolts v)
      overcurrent := x.nextOvercurrent c
      undervolt := x.nextUndervolt v } }

/-- The slot with a sample's current in the park history, when it is PARKING (R96 step 3, R103). -/
def SlotState.parkSample (x : SlotState) (current : Nat) : SlotState :=
  if x.power.state = .parking then { x with sampler.parkHistory := parkAdd x.sampler.parkHistory current } else x

/-- The slot with a sample's current in the open window (R96 step 4, R106). -/
def SlotState.windowSample (x : SlotState) (current : Nat) : SlotState :=
  { x with engine.flight := x.engine.flight.map fun f => { f with window := f.window.map fun w => w.add current } }

/-- The park ends on the quiet report (R84). -/
def endPark (i : Slot) (forced : Bool) (s : State) : State × List Slot :=
  targetReached i (s.modSlot i fun x =>
    let y := x.cutRail .off
    { y with power.forced := forced, notices := if forced then y.notices.put .power true else y.notices })

/-- One sample of slot i (R96). With the rail off no sample is taken. -/
def takeSample (i : Slot) (c v : AdcCode) (s : State) : State :=
  let x := s.slot i
  if x.power.state.railOn = false then s
  else
    let current := calibrate c x.sampler.gain x.sampler.offset
    let y := x.takeSample c v
    if y.sampler.overcurrent = 4 ∨ y.sampler.undervolt = 20 then
      let r := enterFault i (tripCause y.sampler.overcurrent y.sampler.undervolt) (s.setSlot i y)
      finish r.2 r.1
    else
      let z := y.parkSample current
      if z.power.state = .parking ∧ parkQuiet z.sampler.parkHistory z.power.parkLevel = true then
        let r := endPark i false (s.setSlot i z)
        finish r.2 r.1
      else s.setSlot i (z.windowSample current)

/-- SAMPLE (R96). -/
def execSample (i : Slot) (c v : AdcCode) (s : State) : Host.Outcome State Fault Refusal := .next (takeSample i c v s)

/-- OVERCURRENT_TRIP (R100): the sample on which the overcurrent count reaches 4. -/
def execOvercurrentTrip (i : Slot) (c v : AdcCode) (s : State) : Host.Outcome State Fault Refusal :=
  .next (if (s.slot i).nextOvercurrent c = 4 then takeSample i c v s else s)

/-- UNDERVOLT_TRIP (R101): the sample on which the undervoltage count reaches 20. -/
def execUndervoltTrip (i : Slot) (c v : AdcCode) (s : State) : Host.Outcome State Fault Refusal :=
  .next (if (s.slot i).nextUndervolt v = 20 then takeSample i c v s else s)

/-! ### The step engine's deadlines (R14, R9, R82) -/

/-- Whether the step in flight has a whole-step deadline (R14). -/
def StepKind.wholeStep : StepKind → Bool
  | .exchange _ _ | .push _ | .await _ => true
  | _ => false

/-- Whether the whole-step deadline of slot i is due. -/
def State.stepDeadlineDue (s : State) (i : Slot) : Bool :=
  match (s.slot i).engine.flight with
  | some f => f.step.kind.wholeStep && Time.expired s.time f.deadline
  | none => false

/-- STEP_DEADLINE_EXPIRY (R14). -/
def execStepDeadlineExpiry (i : Slot) (s : State) : Host.Outcome State Fault Refusal :=
  .next (if s.stepDeadlineDue i then finish [i] (endStep i .timeout s) else s)

/-- Whether slot i's MEASURE has reached its duration end. -/
def State.measureEndDue (s : State) (i : Slot) : Bool :=
  match (s.slot i).engine.flight with
  | some f =>
    (match f.step.kind with
      | .measure _ => Time.expired s.time f.deadline
      | _ => false)
  | none => false

/-- MEASURE_DURATION_END (R9). -/
def execMeasureDurationEnd (i : Slot) (s : State) : Host.Outcome State Fault Refusal :=
  .next (if s.measureEndDue i then finish [i] (endStep i .normal s) else s)

/-- The key lines of slot i's PRESS, where it has reached its duration end. -/
def State.pressEndDue (s : State) (i : Slot) : Option KeyMask :=
  match (s.slot i).engine.flight with
  | some f =>
    (match f.step.kind with
      | .press keys _ => if Time.expired s.time f.deadline then some keys else none
      | _ => none)
  | none => none

/-- PRESS_DURATION_END (R10, R82): the keys are released and the step completes. -/
def execPressDurationEnd (i : Slot) (s : State) : Host.Outcome State Fault Refusal :=
  .next (match s.pressEndDue i with
    | some keys => finish [i] (endStep i .normal (s.modSlot i fun x => { x with power.keys := x.power.keys &&& ~~~keys }))
    | none => s)

/-! ### The power controller's deadlines (R72, R79, R81, R85) -/

/-- Whether the settle end of slot i is due. -/
def State.settleDue (s : State) (i : Slot) : Bool :=
  let p := (s.slot i).power
  decide (p.state = .standby ∧ p.phase = .settling) && Time.expired s.time p.settle

/-- The settle check passes, and the controller goes on toward its target (R72). -/
def settlePassed (i : Slot) (s : State) : State × List Slot :=
  let x := s.slot i
  let settled := { x with power := { x.power with phase := .settled, settle := none } }
  match x.power.target with
  | some .standby => targetReached i (s.setSlot i { settled with power.target := none })
  | some .listen => targetReached i (s.setSlot i
      { settled with power := { settled.power with state := .listen, phase := .none, target := none } })
  | some .run => (s.setSlot i (settled.enterStarting s.time ((x.powerStep.map Prod.fst).getD .none)), [])
  | some .off | some .park | none => (s.setSlot i settled, [])

/-- The settle check (R72): the most recent voltage against the floor. With no sample since the rail-on the compared voltage is
a free value (notes/assumptions/3.md). -/
def settleCheck (i : Slot) (s : State) : State :=
  let x := s.slot i
  let v := match x.sampler.lastSample with
    | some m => m.2
    | none => Config.openSettleVoltage s.freeCount
  let s1 := match x.sampler.lastSample with
    | some _ => s
    | none => { s with freeCount := s.freeCount + 1 }
  let r := if v < railFloor x.power.settings.railVoltage then enterFault i ⟨false, true⟩ s1 else settlePassed i s1
  finish r.2 r.1

/-- SETTLE_END (R72). -/
def execSettleEnd (i : Slot) (s : State) : Host.Outcome State Fault Refusal :=
  .next (if s.settleDue i then settleCheck i s else s)

/-- Whether the press release of slot i is due. -/
def State.pressReleaseDue (s : State) (i : Slot) : Bool :=
  let p := (s.slot i).power
  decide (p.state = .starting ∧ p.phase = .pressing) && Time.expired s.time p.pressRelease

/-- PRESS_RELEASE (R79). -/
def execPressRelease (i : Slot) (s : State) : Host.Outcome State Fault Refusal :=
  .next (if s.pressReleaseDue i then
      s.modSlot i fun x => x.releasePress s.time ((x.powerStep.map Prod.snd).getD 0)
    else s)

/-- Whether the boot wait of slot i is due. -/
def State.bootWaitDue (s : State) (i : Slot) : Bool :=
  let p := (s.slot i).power
  decide (p.state = .starting ∧ p.phase = .bootWait) && Time.expired s.time p.bootWait

/-- BOOT_WAIT_EXPIRY (R81). -/
def execBootWaitExpiry (i : Slot) (s : State) : Host.Outcome State Fault Refusal :=
  .next (if s.bootWaitDue i then
      let s1 := s.modSlot i SlotState.bootExpired
      if (s.slot i).powerStep.isSome then finish [i] (endStep i .timeout s1) else s1
    else s)

/-- Whether the park hold of slot i is due. -/
def State.parkHoldDue (s : State) (i : Slot) : Bool :=
  let p := (s.slot i).power
  decide (p.state = .parking) && Time.expired s.time p.parkHold

/-- PARK_HOLD_EXPIRY (R85): the rail is cut with FORCED set and POWER marked, and the step completes PASS. -/
def execParkHoldExpiry (i : Slot) (s : State) : Host.Outcome State Fault Refusal :=
  .next (if s.parkHoldDue i then
      let r := endPark i true s
      finish r.2 r.1
    else s)

/-! ### The arbiter's deadlines and grants (R132 to R134) -/

/-- Whether slot i's wait deadline is due. -/
def State.waitDue (s : State) (i : Slot) : Bool :=
  match s.waitEntry i with
  | some e => Time.due s.time e.deadline
  | none => false

/-- WAIT_DEADLINE_EXPIRY (R133). -/
def execWaitDeadlineExpiry (i : Slot) (s : State) : Host.Outcome State Fault Refusal :=
  .next (if s.waitDue i then
      let r := walk (endStep i .timeout (s.removeEntry i))
      finish (i :: r.2) r.1
    else s)

/-- The holder of port p, where its hold deadline is due. -/
def State.holdDue (s : State) (p : Port) : Option Slot :=
  match s.ports[p] with
  | some h => if Time.due s.time h.deadline then some h.slot else none
  | none => none

/-- HOLD_EXPIRY (R134): the port is freed into its holder's expired mask, EXPIRY is marked, and the walk runs. -/
def execHoldExpiry (p : Port) (s : State) : Host.Outcome State Fault Refusal :=
  .next (match s.holdDue p with
    | some i =>
      let bit : PortMask := 1#4 <<< p.val
      let s1 := ({ s with ports := putPorts bit none s.ports }).modSlot i fun x =>
        { x with expired := x.expired ||| bit, notices := x.notices.put .expiry true }
      let r := walk s1
      finish r.2 r.1
    | none => s)

/-- Slot i's wait entry, where it can be granted: its ports free, and none named by an older entry (R131). -/
def State.grantDue (s : State) (i : Slot) : Option WaitEntry :=
  match s.waitEntry i with
  | some e => if e.grantable (olderMask i s.waitList) s.freeMask then some e else none
  | none => none

/-- GRANT (R132). -/
def execGrant (i : Slot) (s : State) : Host.Outcome State Fault Refusal :=
  .next (match s.grantDue i with
    | some e => finish [i] (grantEntry e s)
    | none => s)

/-! ### Starts of their own (R4, R5) -/

/-- Whether the head of slot i's queue carries a doom reason. -/
def State.headDoomed (s : State) (i : Slot) : Bool :=
  match (s.slot i).engine.waiting with
  | st :: _ => st.doom.isSome
  | [] => false

/-- STEP_START (R4): the head starts, where the start condition holds and it carries no doom reason. -/
def execStepStart (i : Slot) (s : State) : Host.Outcome State Fault Refusal :=
  .next (if (s.slot i).engine.canStart = true ∧ s.headDoomed i = false then finish [i] s else s)

/-- DRAIN (R5): the doomed head completes NOT_RUN, where it finds a free place. -/
def execDrain (i : Slot) (s : State) : Host.Outcome State Fault Refusal :=
  .next (if (s.slot i).engine.canStart = true ∧ s.headDoomed i = true then finish [i] s else s)

/-! ### The transmitter (R33, R23, R75) -/

/-- A move out of RUN that waited, taken now that the transmitter is IDLE (R75). -/
def leaveIfIdle (i : Slot) (s : State) : State × List Slot :=
  let x := s.slot i
  if x.line.tx = none ∧ x.power.state = .run ∧ x.power.phase = .leaving then
    match x.power.target with
    | some t => takeMove i t s
    | none => (s, [])
  else (s, [])

/-- The last byte of the item in transmission leaves (R33): its owner is told, the waiting item begins or the transmitter
becomes IDLE, and a move out of RUN that waited for that is taken. -/
def itemSent (i : Slot) (t : TxItem) (s : State) : State × List Slot :=
  let done := decide (t.owner = .step) && ((s.slot i).engine.flight.map Flight.aborting).getD false
  let s1 := if done then endStep i .aborted s else s
  let r := leaveIfIdle i (s1.modSlot i fun x => { x with line := x.line.nextItem })
  (r.1, (if done then [i] else []) ++ r.2)

/-- ITEM_SENT (R33). -/
def execItemSent (i : Slot) (s : State) : Host.Outcome State Fault Refusal :=
  .next (match (s.slot i).line.tx with
    | some t =>
      let r := itemSent i t s
      finish r.2 r.1
    | none => s)

/-- TRANSMIT_WAITING_ITEM (R33): the item in front of a waiting item has been sent, and the waiting item begins. -/
def execTransmitWaitingItem (i : Slot) (s : State) : Host.Outcome State Fault Refusal :=
  .next (match (s.slot i).line.txWaiting, (s.slot i).line.tx with
    | none, _ => s
    | some _, some t =>
      let r := itemSent i t s
      finish r.2 r.1
    | some _, none => s.modSlot i fun x => { x with line := x.line.nextItem })

/-- ABORTING_COMPLETE (R23): the block in transmission of a PUSH in the ABORTING phase has been sent. -/
def execAbortingComplete (i : Slot) (s : State) : Host.Outcome State Fault Refusal :=
  .next (if ((s.slot i).engine.flight.map Flight.aborting).getD false then
      match (s.slot i).line.tx with
      | some t =>
        let r := itemSent i t s
        finish r.2 r.1
      | none => finish [i] (endStep i .aborted s)
    else s)

/-- LEAVE_RUN (R75): the transmitter becomes IDLE, and the move that waited for it is taken. -/
def execLeaveRun (i : Slot) (s : State) : Host.Outcome State Fault Refusal :=
  .next (
    let x := s.slot i
    if x.power.state = .run ∧ x.power.phase = .leaving ∧ x.line.txWaiting = none then
      match x.line.tx with
      | some t =>
        let r := itemSent i t s
        finish r.2 r.1
      | none =>
        let r := leaveIfIdle i s
        finish r.2 r.1
    else s)

/-! ### The lid (R90, R91) -/

/-- LID_INPUT_OPENS (R90): the input begins to read open, and with the lid CLOSED the recognition deadline is armed. -/
def execLidInputOpens (s : State) : Host.Outcome State Fault Refusal :=
  .next (if s.lid.input then s
    else { s with lid := { s.lid with
      input := true
      deadline := if s.lid.state = .closed then some (Time.after s.time Config.lidTime) else none } })

/-- LID_INPUT_CLOSES (R90): a recognition under way is disarmed, and an OPEN lid becomes CLOSED with LINK_ERROR marked. -/
def execLidInputCloses (s : State) : Host.Outcome State Fault Refusal :=
  .next (if s.lid.state = .opened then uplink (({ s with lid := ⟨.closed, false, none⟩ }).markLinkError)
    else { s with lid := ⟨.closed, false, none⟩ })

/-- What the lid opening does to one slot, less the walk (R91, R137). -/
def lidCut (i : Slot) (s : State) : State :=
  let x := s.slot i
  if x.power.state.railOn then
    let e := endingUnder x.engine.flight .interlocked
    let s1 := s.modSlot i fun x =>
      let y := (x.cutRail .off).doomQueue .interlocked
      { y with power.interlock := true, notices := y.notices.put .power true }
    (endStep i e s1).arbiterDrop i
  else if x.power.state = .fault then
    s.modSlot i fun x => { x with power.interlock := true, notices := x.notices.put .power true }
  else s

/-- The lid becomes OPEN (R91): every slot acts, then the walk runs once (R137). -/
def openLid (s : State) : State :=
  let cut := allSlots.filter fun i => (s.slot i).power.state.railOn
  let s1 := ({ s with lid := { s.lid with state := .opened, deadline := none } }).markLinkError
  let r := walk (allSlots.foldl (fun u i => lidCut i u) s1)
  finish (cut ++ r.2) r.1

/-- Whether the recognition deadline is due with the lid CLOSED. -/
def State.lidDue (s : State) : Bool := decide (s.lid.state = .closed) && Time.expired s.time s.lid.deadline

/-- LID_RECOGNISED_OPEN (R91). -/
def execLidRecognisedOpen (s : State) : Host.Outcome State Fault Refusal := .next (if s.lidDue then openLid s else s)

/-! ### Received lines (R42, R57) -/

/-- An ack for the block in progress (R46, R47). -/
def pushAck (i : Slot) (status : Byte) (s : State) : State × List Slot :=
  match (s.slot i).engine.flight with
  | none => (s, [])
  | some f =>
    match f.step.kind, f.push with
    | .push object, some p =>
      if status ≠ 0#8 then (endStep i (.ackFailed status) s, [i])
      else if p.count ≤ p.current + 1 then
        (endStep i .normal (s.modFlight i fun g => { g with push := some { p with acked := p.current + 1 } }), [i])
      else
        let item := blockItem (s.store.object object) (f.tag.getD 0#8) p.blockSize (p.current + 1)
        (s.modSlot i fun x =>
          { x with
            engine.flight := some { f with push := some { p with current := p.current + 1, acked := p.current + 1 } }
            line := x.line.handOver item }, [])
    | _, _ => (s, [])

/-- Whether the slot is in STARTING with the power key released (R66). -/
def SlotState.bootWaiting (x : SlotState) : Bool := decide (x.power.state = .starting ∧ x.power.phase = .bootWait)

/-- Whether a captured line is the boot banner (R66). -/
def SlotState.isBanner (x : SlotState) (kind : CaptureKind) (content : List Byte) : Bool :=
  x.bootWaiting &&
    (if bootTriggerEnabled x.capture.triggers then decide (kind = .log) && anyHit .boot x.capture.triggers content
     else !x.power.lineSinceRelease)

/-- Whether the trigger that the AWAIT in flight names hits a content (R64). -/
def SlotState.awaitHit (x : SlotState) (content : List Byte) : Bool :=
  match x.engine.flight with
  | some f =>
    (match f.step.kind with
      | .await k => x.capture.triggers[k].hitsOn content
      | _ => false)
  | none => false

/-- The Capture Unit's own part of a line (R57, R63): hits are counted, TRIGGER is marked for a NOTE hit, and the line is stored
where the filter keeps it. -/
def SlotState.captureUpdate (x : SlotState) (now : Time) (kind : CaptureKind) (l : Line) : SlotState :=
  let y := { x with power.lineSinceRelease := x.power.lineSinceRelease || x.bootWaiting }
  match kind with
  | .stale => y.offer (captureRecord now .stale l)
  | .log =>
    let z := { y with
      capture.triggers := countHits l.content y.capture.triggers
      notices := if anyHit .note x.capture.triggers l.content then y.notices.put .trigger true else y.notices }
    if x.capture.filter.accepts l.content then z.offer (captureRecord now .log l) else z

/-- What a line handed to the Capture Unit does to the step in flight and the boot, from the slot x as the line found it: the
banner (R66, R67), else an awaited hit (R64), else a FAIL_STEP hit (R65). -/
def lineActions (i : Slot) (x : SlotState) (kind : CaptureKind) (content : List Byte) (s : State) : State × List Slot :=
  let failStep := decide (kind = .log) && anyHit .failStep x.capture.triggers content
  if x.isBanner kind content then
    let s1 := s.modSlot i SlotState.boot
    if x.powerStep.isSome then (endStep i (if failStep then .trigger else .normal) s1, [i]) else (s1, [])
  else if decide (kind = .log) && x.awaitHit content then (endStep i .normal s, [i])
  else if failStep then
    match x.engine.flight with
    | some f => if f.aborting then (s, []) else endByHand i f .trigger s
    | none => (s, [])
  else (s, [])

/-- A line handed to the Capture Unit (R57). -/
def captureLine (i : Slot) (kind : CaptureKind) (l : Line) (s : State) : State × List Slot :=
  lineActions i (s.slot i) kind l.content (s.modSlot i fun x => x.captureUpdate s.time kind l)

/-- A delivered line, handed to its one receiver (R42). -/
def deliver (i : Slot) (l : Line) (s : State) : State × List Slot :=
  match classify (s.slot i).engine.flight (s.slot i).line l with
  | .matched status payload => (endStep i (.reply status payload) s, [i])
  | .ack status => pushAck i status s
  | .stale => captureLine i .stale l s
  | .log => captureLine i .log l s

/-! ### Received bytes (R36 to R39) -/

/-- A byte goes to the line assembler; an LF ends the line, which is delivered in that event (R38). -/
def assemble (i : Slot) (b : Byte) (framingError : Bool) (s : State) : State :=
  if b = lf then
    let l := (s.slot i).line.assembler.line framingError
    let r := deliver i l (s.modSlot i fun x => { x with line.assembler := .empty })
    finish r.2 r.1
  else s.modSlot i fun x => { x with line.assembler := x.line.assembler.push b framingError }

/-- A wake event (R37, R89): the slot enters LISTEN with WOKE and POWER pending, and the byte begins its first line. -/
def wakeUp (i : Slot) (b : Byte) (framingError : Bool) (s : State) : State :=
  uplink (assemble i b framingError (s.modSlot i fun x =>
    { x with
      power := { x.power with state := .listen, phase := .none, woke := true }
      notices := x.notices.put .power true }))

/-- A byte received from the phone, by the slot's power state (R36). -/
def receiveByte (i : Slot) (b : Byte) (framingError : Bool) (s : State) : State :=
  match (s.slot i).power.state with
  | .off | .fault => s
  | .standby => if (s.slot i).power.phase = .settling then s else wakeUp i b framingError s
  | .starting | .run | .listen | .parking => assemble i b framingError s

/-- BYTE_RECEIVED (R36, R38). -/
def execByteReceived (i : Slot) (b : Byte) (framingError : Bool) (s : State) : Host.Outcome State Fault Refusal :=
  .next (receiveByte i b framingError s)

/-- LINE_RECEIVED (R38, R42): the LF that ends a line. -/
def execLineReceived (i : Slot) (framingError : Bool) (s : State) : Host.Outcome State Fault Refusal :=
  .next (receiveByte i lf framingError s)

/-- WAKE (R89): a byte received in STANDBY SETTLED. -/
def execWake (i : Slot) (b : Byte) (framingError : Bool) (s : State) : Host.Outcome State Fault Refusal :=
  .next (if (s.slot i).power.state = .standby ∧ (s.slot i).power.phase ≠ .settling then wakeUp i b framingError s else s)

end Sys2Proof.Machine
end

