-- ==== Sys2Proof/Machine/Dispatch.lean ====
section
/-! DEFINITION. The dispatch: one arm per command, each one call of that command's meaning. -/

namespace Sys2Proof.Machine

def exec (i : Instr) (s : State) : Host.Outcome State Fault Refusal :=
  match i with
  | .powerOnReset => Sys2Proof.Machine.execPowerOnReset s
  | .cellInfo r => Sys2Proof.Machine.execCellInfo r s
  | .cellStatus r => Sys2Proof.Machine.execCellStatus r s
  | .cellReset r => Sys2Proof.Machine.execCellReset r s
  | .noticeSet r => Sys2Proof.Machine.execNoticeSet r s
  | .guardWrite r => Sys2Proof.Machine.execGuardWrite r s
  | .guardRead r => Sys2Proof.Machine.execGuardRead r s
  | .guardDefault r => Sys2Proof.Machine.execGuardDefault r s
  | .limitWrite r => Sys2Proof.Machine.execLimitWrite r s
  | .limitRead r => Sys2Proof.Machine.execLimitRead r s
  | .objOpen r => Sys2Proof.Machine.execObjOpen r s
  | .objData r => Sys2Proof.Machine.execObjData r s
  | .objSeal r => Sys2Proof.Machine.execObjSeal r s
  | .objDelete r => Sys2Proof.Machine.execObjDelete r s
  | .objList r => Sys2Proof.Machine.execObjList r s
  | .instrStatus r => Sys2Proof.Machine.execInstrStatus r s
  | .slotConfig r => Sys2Proof.Machine.execSlotConfig r s
  | .slotFilter r => Sys2Proof.Machine.execSlotFilter r s
  | .slotTrigger r => Sys2Proof.Machine.execSlotTrigger r s
  | .slotBlock r => Sys2Proof.Machine.execSlotBlock r s
  | .stepRequest r => Sys2Proof.Machine.execStepRequest r s
  | .abort r => Sys2Proof.Machine.execAbort r s
  | .results r => Sys2Proof.Machine.execResults r s
  | .slotStatus r => Sys2Proof.Machine.execSlotStatus r s
  | .captureRead r => Sys2Proof.Machine.execCaptureRead r s
  | .captureRelease r => Sys2Proof.Machine.execCaptureRelease r s
  | .clearFault r => Sys2Proof.Machine.execClearFault r s
  | .slotReset r => Sys2Proof.Machine.execSlotReset r s
  | .unknownKind kind r => Sys2Proof.Machine.execUnknownKind kind r s
  | .outTransfer bytes => Sys2Proof.Machine.execOutTransfer bytes s
  | .usbConfigured => Sys2Proof.Machine.execUsbConfigured s
  | .busReset => Sys2Proof.Machine.execBusReset s
  | .frameTaken => Sys2Proof.Machine.execFrameTaken s
  | .uplinkChoice => Sys2Proof.Machine.execUplinkChoice s
  | .stepStart slot => Sys2Proof.Machine.execStepStart slot s
  | .drain slot => Sys2Proof.Machine.execDrain slot s
  | .abortingComplete slot => Sys2Proof.Machine.execAbortingComplete slot s
  | .stepDeadlineExpiry slot => Sys2Proof.Machine.execStepDeadlineExpiry slot s
  | .measureDurationEnd slot => Sys2Proof.Machine.execMeasureDurationEnd slot s
  | .pressDurationEnd slot => Sys2Proof.Machine.execPressDurationEnd slot s
  | .settleEnd slot => Sys2Proof.Machine.execSettleEnd slot s
  | .pressRelease slot => Sys2Proof.Machine.execPressRelease slot s
  | .bootWaitExpiry slot => Sys2Proof.Machine.execBootWaitExpiry slot s
  | .leaveRun slot => Sys2Proof.Machine.execLeaveRun slot s
  | .parkHoldExpiry slot => Sys2Proof.Machine.execParkHoldExpiry slot s
  | .sample slot current voltage => Sys2Proof.Machine.execSample slot current voltage s
  | .overcurrentTrip slot current voltage => Sys2Proof.Machine.execOvercurrentTrip slot current voltage s
  | .undervoltTrip slot current voltage => Sys2Proof.Machine.execUndervoltTrip slot current voltage s
  | .lidInputOpens => Sys2Proof.Machine.execLidInputOpens s
  | .lidInputCloses => Sys2Proof.Machine.execLidInputCloses s
  | .lidRecognisedOpen => Sys2Proof.Machine.execLidRecognisedOpen s
  | .waitDeadlineExpiry slot => Sys2Proof.Machine.execWaitDeadlineExpiry slot s
  | .holdExpiry p => Sys2Proof.Machine.execHoldExpiry p s
  | .grant slot => Sys2Proof.Machine.execGrant slot s
  | .wake slot byte framingError => Sys2Proof.Machine.execWake slot byte framingError s
  | .lineReceived slot framingError => Sys2Proof.Machine.execLineReceived slot framingError s
  | .itemSent slot => Sys2Proof.Machine.execItemSent slot s
  | .transmitWaitingItem slot => Sys2Proof.Machine.execTransmitWaitingItem slot s
  | .byteReceived slot byte framingError => Sys2Proof.Machine.execByteReceived slot byte framingError s

end Sys2Proof.Machine
end

