-- ==== Sys2Proof/Machine/Clock.lean ====
section
/-! DEFINITION. What the block does of itself when no command waits (DESIGN CHOICE, notes/assumptions/1.md): an expiry that is
due is taken, one at a time in a fixed order; with none due, one millisecond of cell time passes. -/

namespace Sys2Proof.Machine

/-- The expiry command of slot i that is due, if any. -/
def State.slotExpiry (s : State) (i : Slot) : Option Instr :=
  if s.settleDue i then some (.settleEnd i)
  else if s.pressReleaseDue i then some (.pressRelease i)
  else if s.bootWaitDue i then some (.bootWaitExpiry i)
  else if s.parkHoldDue i then some (.parkHoldExpiry i)
  else if s.stepDeadlineDue i then some (.stepDeadlineExpiry i)
  else if s.measureEndDue i then some (.measureDurationEnd i)
  else if (s.pressEndDue i).isSome then some (.pressDurationEnd i)
  else if s.waitDue i then some (.waitDeadlineExpiry i)
  else none

/-- The expiry command of port p that is due, if any. -/
def State.portExpiry (s : State) (p : Port) : Option Instr :=
  if (s.holdDue p).isSome then some (.holdExpiry p) else none

/-- The first expiry that is due: the lid, then the slots in rising order, then the ports. -/
def State.dueExpiry (s : State) : Option Instr :=
  if s.lidDue then some .lidRecognisedOpen
  else match allSlots.findSome? s.slotExpiry with
    | some c => some c
    | none => allPorts.findSome? s.portExpiry

/-- One millisecond passes (00_scope.md, Conventions, "Cell time"). -/
def State.tick (s : State) : State := { s with time := s.time + 1#32 }

/-- The block by itself (DESIGN CHOICE, notes/assumptions/1.md): a due expiry, or a tick. -/
def idle (s : State) : Host.Outcome State Fault Refusal :=
  match s.dueExpiry with
  | some c => exec c s
  | none => .next s.tick

end Sys2Proof.Machine
end

