-- ==== Sys2Proof/Safety.lean ====
section
/-! DEFINITION. What a good state is, in the terms the statements use: the safety of the lid, the bounds of the buffers and lists,
the canonical form of the page pool's bytes, and the pages' and references' accounts. -/

namespace Sys2Proof.Machine

/-- With the lid OPEN no rail is on (R91, R71, R8). -/
def State.LidSafe (s : State) : Prop :=
  s.lid.state = .opened → ∀ i : Slot, (s.slot i).power.state.railOn = false

/-- The records and the reservation of every slot fill at most the list's 8 places (R3, R25). -/
def State.ListBounded (s : State) : Prop :=
  ∀ i : Slot, (s.slot i).engine.done.length + (s.slot i).engine.reservation ≤ Config.listPlaces

/-- No queue holds more than 16 steps (R2). -/
def State.QueueBounded (s : State) : Prop := ∀ i : Slot, (s.slot i).engine.queueCount ≤ Config.queuePlaces

/-- No ring uses more than 4096 bytes (R51). -/
def State.RingBounded (s : State) : Prop := ∀ i : Slot, ringUsed (s.slot i).capture.ring ≤ Config.ringBytes

/-- The reply buffer holds at most 8 replies (R169). -/
def State.RepliesBounded (s : State) : Prop := s.link.replies.length ≤ Config.replyPlaces

/-- The requests in the inbound buffer occupy at most its 4096 bytes (R166). -/
def State.InboundBounded (s : State) : Prop := s.link.inboundUsed ≤ Config.inboundBytes

/-- The page pool's bytes are in canonical form. -/
def State.PoolCanonical (s : State) : Prop := s.store.bytes.wf = true

/-- With the rail off nothing of a running phone remains: no key pressed, no phase, no target, no start, boot or park deadline, no
item in the transmitter, no byte in the assembler (R73, R35, R40). -/
def Power.quiet (p : Power) : Prop :=
  p.phase = .none ∧ p.target = none ∧ p.settle = none ∧ p.keys = 0#3 ∧ p.pressRelease = none ∧ p.bootWait = none ∧ p.parkHold = none

/-- Every slot whose rail is off is quiet (R73, R35, R40). -/
def State.OffQuiet (s : State) : Prop :=
  ∀ i : Slot, (s.slot i).power.state.railOn = false →
    (s.slot i).power.quiet ∧ (s.slot i).line.tx = none ∧ (s.slot i).line.txWaiting = none ∧
      (s.slot i).line.assembler = Assembler.empty

/-- The law of the phone line (R35) and what upholds it: the transmitter has an item only in RUN or PARKING, in PARKING that item is the
controller's shutdown line (R83) and nothing waits behind it, an item waits only behind another, an EXCHANGE or PUSH is in flight only in
RUN, and a move out of RUN waits only for the POWER step in flight (R33, R34, R75). -/
def State.LineLaw (s : State) : Prop :=
  ∀ i : Slot,
    ((s.slot i).line.tx ≠ none → (s.slot i).power.state = .run ∨ (s.slot i).power.state = .parking) ∧
    ((s.slot i).power.state = .parking → (s.slot i).line.txWaiting = none ∧
      ∀ item, (s.slot i).line.tx = some item → ∃ tag code, item = ⟨.controller, .line (commandLine tag code [])⟩) ∧
    ((s.slot i).line.txWaiting ≠ none → (s.slot i).line.tx ≠ none) ∧
    (∀ f, (s.slot i).engine.flight = some f → f.step.kind.code ≤ 1 → (s.slot i).power.state = .run) ∧
    ((s.slot i).power.phase = .leaving →
      (s.slot i).power.state = .run ∧ ∃ f, (s.slot i).engine.flight = some f ∧ f.step.kind.code = 2 ∧ f.push = none)

/-! ### Requests and their answers, in the words of the statements -/

/-- The link is CONFIGURED, holds nothing inbound or held off, and has a free reply place: a request sent now is taken now. -/
structure State.LinkReady (s : State) : Prop where
  usb : s.link.usb = .configured
  held : s.link.held = none
  inbound : s.link.inbound = []
  free : s.link.replies.length < 8

/-- The state in which a request's reply has joined the reply buffer and the arbiter has chosen (R169, R171, R172): `kind` is the
reply's kind, `code` its reply code and `rest` the reply body after it; `t` is what the owner left. -/
def answer (kind : Byte) (r : Request) (code : ReplyCode) (rest : List Byte) (t : State) : State :=
  uplink { t with link.replies := t.link.replies ++ [⟨kind, r.tag, r.slot, 0#8, byte code.code :: rest⟩] }

/-! ### The bodies of requests, in the words of the statements -/

/-- The kind parameters of a step as a STEP body carries them (R198). -/
def StepKind.fields : StepKind → List Byte
  | .exchange code argument => le 2 code.toNat ++ byte argument.length :: argument
  | .push o => [byte o.val]
  | .power target keys =>
    [match target with
      | .off => 0#8 | .standby => 1#8 | .listen => 2#8 | .run => 3#8 | .park => 4#8,
     match keys with
      | .none => 0#8 | .voldown => 1#8 | .strap => 2#8]
  | .measure duration => le 4 duration
  | .press keys duration => byte keys.toNat :: le 4 duration
  | .attach ports hold => byte ports.toNat :: le 4 hold
  | .detach ports => [byte ports.toNat]
  | .await k => [byte k.val]

/-- A STEP body that asks for a step, its numbers as they stand (R197). -/
def StepRecord.body (st : StepRecord) : List Byte :=
  le 2 st.number.toNat ++ [byte st.kind.code, byte (bitSet [st.stopOnFail, st.lamp])] ++ le 4 st.timeout
    ++ [match st.limitSet with
      | some set => byte set.val
      | none => 0xFF#8]
    ++ st.kind.fields

/-- The kind parameters that check 1 of R1 allows, each number within its field. -/
def StepKind.allowed : StepKind → Prop
  | .exchange _ argument => argument.length ≤ 200 ∧ ∀ b ∈ argument, 0x20 ≤ b.toNat ∧ b.toNat ≤ 0x7E
  | .power target keys => keys ≠ .none → target = .run
  | .measure duration => duration < 4294967296
  | .press keys duration => keys ≠ 0#3 ∧ duration < 4294967296
  | .attach ports hold => ports ≠ 0#4 ∧ hold < 4294967296
  | .push _ | .detach _ | .await _ => True

/-- A step that check 1 of R1 passes, its numbers not yet clamped. -/
def StepRecord.allowed (st : StepRecord) : Prop :=
  st.kind.allowed ∧ st.timeout < 4294967296 ∧ st.doom = none ∧
    ((st.kind.code = 5 ∨ st.kind.code = 6) → st.limitSet = none)

/-- The kind parameters with their numbers clamped (R1). -/
def StepKind.clamped : StepKind → StepKind
  | .measure d => .measure (max 1 (min d 600000))
  | .press keys d => .press keys (max 50 (min d 10000))
  | .attach ports d => .attach ports (max 100 (min d 600000))
  | k => k

/-- The step with its numbers clamped (R1). -/
def StepRecord.clamped (st : StepRecord) : StepRecord :=
  { st with kind := st.kind.clamped, timeout := max 10 (min st.timeout 600000) }

/-- The body length that a STEP of a step kind needs (R197). -/
def stepLengthAllowed (body : List Byte) : Prop :=
  10 ≤ body.length ∧ body.length ≤ 267 ∧ (byteNat body 2 = 0 → body.length = 12 + byteNat body 11) ∧
    (byteNat body 2 ∈ [1, 6, 7] → body.length = 10) ∧ (byteNat body 2 = 2 → body.length = 11) ∧
    (byteNat body 2 = 3 → body.length = 13) ∧ (byteNat body 2 ∈ [4, 5] → body.length = 14)

/-- The body lengths that a request kind allows (R186, R197). -/
def lengthAllowed (kind : Byte) (body : List Byte) : Prop :=
  (kind ∈ [0x01#8, 0x02#8, 0x03#8, 0x14#8, 0x18#8, 0x30#8, 0x31#8, 0x38#8, 0x39#8] ∧ body.length = 0) ∨
  (kind ∈ [0x09#8, 0x0A#8, 0x0D#8, 0x12#8, 0x13#8, 0x29#8, 0x2A#8] ∧ body.length = 1) ∨
  (kind ∈ [0x04#8, 0x23#8, 0x32#8] ∧ body.length = 2) ∨
  (kind = 0x10#8 ∧ body.length = 5) ∨ (kind = 0x21#8 ∧ body.length = 9) ∨ (kind = 0x08#8 ∧ body.length = 11) ∨
  (kind = 0x0C#8 ∧ body.length = 14) ∨ (kind = 0x20#8 ∧ body.length = 22) ∨ (kind = 0x22#8 ∧ body.length = 29) ∨
  (kind = 0x11#8 ∧ 6 ≤ body.length ∧ body.length ≤ 1005) ∨ (kind = 0x28#8 ∧ stepLengthAllowed body)

/-- A request as it travels: length, kind, tag, slot, flags, body and CRC (R183, R168). -/
def requestFrame (kind : Byte) (r : Request) : List Byte :=
  let checked := le 2 (8 + r.body.length) ++ [kind, r.tag, r.slot, r.flags] ++ r.body
  checked ++ le 2 (crc16 checked).toNat

/-! ### The accounts of the store and of the starts -/

/-- The pages of the pool: every page is free or belongs to exactly one object, and an EMPTY object has none (R142, R150). -/
def State.PagesAccounted (s : State) : Prop :=
  (s.store.free ++ (List.finRange 16).flatMap fun o => (s.store.object o).pages).Perm (List.range 512) ∧
    ∀ o : Fin 16, (s.store.object o).state = .empty → (s.store.object o).pages = []

/-- The PUSH steps of all queues that name an object. -/
def State.pushesOf (s : State) (o : Fin 16) : Nat :=
  (allSlots.map fun i => ((s.slot i).engine.queue.filter fun st => decide (st.kind = .push o)).length).sum

/-- The references of every object are the PUSH steps queued or in flight that name it; an object with any is SEALED or CONDEMNED, and a
CONDEMNED one has some (R148 to R150). -/
def State.ReferencesAccounted (s : State) : Prop :=
  ∀ o : Fin 16, (s.store.object o).refs = s.pushesOf o ∧
    ((s.store.object o).refs ≠ 0 → (s.store.object o).state = .sealed ∨ (s.store.object o).state = .condemned) ∧
    ((s.store.object o).state = .condemned → (s.store.object o).refs ≠ 0)

/-- Every wait entry belongs to the ATTACH in flight of its slot, and no slot has two (R130). -/
def State.WaitersInFlight (s : State) : Prop :=
  (s.waitList.map WaitEntry.slot).Nodup ∧
    ∀ e ∈ s.waitList, ∃ f : Flight, (s.slot e.slot).engine.flight = some f ∧ f.push = none ∧
      ∃ hold, f.step.kind = .attach e.mask hold

/-- No head waits that could start: a queue that waits has a step in flight or a full completion list (R3). -/
def State.NoHeadWaitsInVain (s : State) : Prop := ∀ i : Slot, (s.slot i).engine.canStart = false

/-- Every wait entry has a port that is held or that an older entry names: none could be granted (R131). -/
def State.NoEntryWaitsInVain (s : State) : Prop := ∀ i : Slot, s.grantDue i = none

end Sys2Proof.Machine
end

