-- ==== Sys2Proof/WellFormed.lean ====
section
/-! DEFINITION. Which commands are well formed: those that their row of the table describes. A command that is not has a meaning all
the same, which is that of the thing it then is (a bad frame, a request of another row, no event). -/

namespace Sys2Proof

/-- A request addressed to the cell with flags 0 and this body. -/
def Request.toCell (r : Request) (body : List Byte) : Prop := r.slot = 0xFF#8 ∧ r.flags = 0#8 ∧ r.body = body

/-- A request addressed to slot i with flags 0 and this body. -/
def Request.toSlot (r : Request) (i : Slot) (body : List Byte) : Prop :=
  r.slot = BitVec.ofNat 8 i.val ∧ r.flags = 0#8 ∧ r.body = body

/-- The kind bytes of R186. -/
def requestCodes : List Byte :=
  [0x01#8, 0x02#8, 0x03#8, 0x04#8, 0x08#8, 0x09#8, 0x0A#8, 0x0C#8, 0x0D#8, 0x10#8, 0x11#8, 0x12#8, 0x13#8, 0x14#8, 0x18#8, 0x20#8,
    0x21#8, 0x22#8, 0x23#8, 0x28#8, 0x29#8, 0x2A#8, 0x30#8, 0x31#8, 0x32#8, 0x38#8, 0x39#8]

/-- The request a request row carries. -/
def Instr.request : Instr → Option Request
  | .cellInfo r | .cellStatus r | .cellReset r | .noticeSet r | .guardWrite r | .guardRead r | .guardDefault r
  | .limitWrite r | .limitRead r | .objOpen r | .objData r | .objSeal r | .objDelete r | .objList r | .instrStatus r
  | .slotConfig r | .slotFilter r | .slotTrigger r | .slotBlock r | .stepRequest r | .abort r | .results r | .slotStatus r
  | .captureRead r | .captureRelease r | .clearFault r | .slotReset r | .unknownKind _ r => some r
  | .powerOnReset | .outTransfer _ | .usbConfigured | .busReset | .frameTaken | .uplinkChoice | .stepStart _ | .drain _
  | .abortingComplete _ | .stepDeadlineExpiry _ | .measureDurationEnd _ | .pressDurationEnd _ | .settleEnd _ | .pressRelease _
  | .bootWaitExpiry _ | .leaveRun _ | .parkHoldExpiry _ | .sample _ _ _ | .overcurrentTrip _ _ _ | .undervoltTrip _ _ _
  | .lidInputOpens | .lidInputCloses | .lidRecognisedOpen | .waitDeadlineExpiry _ | .holdExpiry _ | .grant _ | .wake _ _ _
  | .lineReceived _ _ | .itemSent _ | .transmitWaitingItem _ | .byteReceived _ _ _ => none

/-- The kind byte of the frame a request row stands for (R186). -/
def Instr.kindByte : Instr → Option Byte
  | .cellInfo _ => some 0x01#8 | .cellStatus _ => some 0x02#8 | .cellReset _ => some 0x03#8 | .noticeSet _ => some 0x04#8
  | .guardWrite _ => some 0x08#8 | .guardRead _ => some 0x09#8 | .guardDefault _ => some 0x0A#8 | .limitWrite _ => some 0x0C#8
  | .limitRead _ => some 0x0D#8 | .objOpen _ => some 0x10#8 | .objData _ => some 0x11#8 | .objSeal _ => some 0x12#8
  | .objDelete _ => some 0x13#8 | .objList _ => some 0x14#8 | .instrStatus _ => some 0x18#8 | .slotConfig _ => some 0x20#8
  | .slotFilter _ => some 0x21#8 | .slotTrigger _ => some 0x22#8 | .slotBlock _ => some 0x23#8 | .stepRequest _ => some 0x28#8
  | .abort _ => some 0x29#8 | .results _ => some 0x2A#8 | .slotStatus _ => some 0x30#8 | .captureRead _ => some 0x31#8
  | .captureRelease _ => some 0x32#8 | .clearFault _ => some 0x38#8 | .slotReset _ => some 0x39#8
  | .unknownKind kind _ => some kind
  | .powerOnReset | .outTransfer _ | .usbConfigured | .busReset | .frameTaken | .uplinkChoice | .stepStart _ | .drain _
  | .abortingComplete _ | .stepDeadlineExpiry _ | .measureDurationEnd _ | .pressDurationEnd _ | .settleEnd _ | .pressRelease _
  | .bootWaitExpiry _ | .leaveRun _ | .parkHoldExpiry _ | .sample _ _ _ | .overcurrentTrip _ _ _ | .undervoltTrip _ _ _
  | .lidInputOpens | .lidInputCloses | .lidRecognisedOpen | .waitDeadlineExpiry _ | .holdExpiry _ | .grant _ | .wake _ _ _
  | .lineReceived _ _ | .itemSent _ | .transmitWaitingItem _ | .byteReceived _ _ _ => none

/-- Whether a command is the UNKNOWN_KIND row. -/
def Instr.isUnknownKind (i : Instr) : Bool :=
  match i with
  | .unknownKind _ _ => true
  | _ => false

/-- Check 1: a request's body has at most 1024 bytes (R183). -/
def Instr.bodyFits (i : Instr) : Bool :=
  match i.request with
  | some r => decide (r.body.length ≤ 1024)
  | none => true

/-- Check 2: an OUT transfer has at most 4096 bytes (R166). -/
def Instr.transferFits (i : Instr) : Bool :=
  match i with
  | .outTransfer bytes => decide (bytes.length ≤ 4096)
  | _ => true

/-- Check 3: the kind of an UNKNOWN_KIND request is none of the request kinds (R170, R186). -/
def Instr.kindUnknown (i : Instr) : Bool :=
  match i with
  | .unknownKind kind _ => decide (kind ∉ requestCodes)
  | _ => true

/-- Check 4: the byte of a BYTE_RECEIVED is not an LF, which is a LINE_RECEIVED (R38). -/
def Instr.notLineEnd (i : Instr) : Bool :=
  match i with
  | .byteReceived _ b _ => decide (b ≠ 0x0A#8)
  | _ => true

/-- A well-formed command passes the four checks. -/
def Instr.wellFormed (i : Instr) : Bool := i.bodyFits && (i.transferFits && (i.kindUnknown && i.notLineEnd))

end Sys2Proof
end

