-- ==== Sys2Proof/Certificates/Slice0/Obligations.lean ====
section
/-! DEFINITION. The statements for the provers, family by family. A statement about a command gives the whole next state: what it
does not write there is unchanged. `answer`, `State.LinkReady`, `Request.toCell` and `Request.toSlot` are those of Safety.lean. -/

open Sys2Proof Sys2Proof.Machine

/-! ### The queue of commands and the block by itself -/

/-- A step takes the command at the front of the queue and runs it on the state with the queue's rest (the row's interface for a
block; DESIGN CHOICE, notes/assumptions/1.md, as far as the queue goes). On an empty queue the block goes on by itself: where no deadline is
due, cell time advances by one millisecond, wrapping, and nothing else changes; where one is due, the command of a due deadline runs (DESIGN
CHOICE, notes/assumptions/1.md; due as in notes/assumptions/7.md, DEDUCED). -/
def Obligations.StepRunsTheFrontCommand : Prop :=
  (∀ (s : State) (c : Instr) (rest : List Instr), s.pending = c :: rest → step s = exec c { s with pending := rest }) ∧
  ∀ s : State, s.pending = [] →
    let due (d : Time) : Prop := (s.time - d).toNat < 2147483648
    let armedDue (d : Option Time) : Prop := ∃ t, d = some t ∧ due t
    let flightDue (i : Slot) (kinds : List Nat) : Prop :=
      ∃ f, (s.slot i).engine.flight = some f ∧ f.step.kind.code ∈ kinds ∧ armedDue f.deadline
    let comesAbout (c : Instr) : Prop := match c with
      | .lidRecognisedOpen => s.lid.state = .closed ∧ armedDue s.lid.deadline
      | .settleEnd i => (s.slot i).power.state = .standby ∧ (s.slot i).power.phase = .settling ∧ armedDue (s.slot i).power.settle
      | .pressRelease i => (s.slot i).power.state = .starting ∧ (s.slot i).power.phase = .pressing ∧
          armedDue (s.slot i).power.pressRelease
      | .bootWaitExpiry i => (s.slot i).power.state = .starting ∧ (s.slot i).power.phase = .bootWait ∧
          armedDue (s.slot i).power.bootWait
      | .parkHoldExpiry i => (s.slot i).power.state = .parking ∧ armedDue (s.slot i).power.parkHold
      | .stepDeadlineExpiry i => flightDue i [0, 1, 7]
      | .measureDurationEnd i => flightDue i [3]
      | .pressDurationEnd i => flightDue i [4]
      | .waitDeadlineExpiry i => ∃ e, s.waitList.find? (fun w => decide (w.slot = i)) = some e ∧ due e.deadline
      | .holdExpiry p => ∃ h, s.ports[p] = some h ∧ due h.deadline
      | _ => False
    ((∀ c, ¬ comesAbout c) → step s = .next { s with time := s.time + 1#32 }) ∧
    ((∃ c, comesAbout c) → ∃ c, comesAbout c ∧ step s = exec c s)

/-! ### Cell requests of the link -/

/-- CELL_INFO replies OK with the identity and the sizes of R188, and changes nothing. CELL_STATUS replies with the sticky flags as they
stood, the lid, the cell time and the outputs, and clears the three sticky flags and LINK_ERROR pending (R177, R188); ALERT and ACTIVE are as
R94 states. -/
def Obligations.CellInfoAndStatusReport : Prop :=
  ∀ (s : State) (r : Request), s.LinkReady → r.toCell [] →
    exec (.cellInfo r) s = .next (answer 0x81#8 r .ok
      [0x7C#8, 0x1E#8, 0x24#8, 0x0F#8, 1#8, 24#8, 4#8, 0x00#8, 0x02#8, 0x00#8, 0x01#8, 16#8, 64#8, 8#8] s) ∧
    exec (.cellStatus r) s = .next (answer 0x82#8 r .ok
      ([byte (bitSet [s.link.linkLength, s.link.linkCrc, s.link.unknownSeen]), byte s.lid.state.code] ++ le 4 s.time.toNat
        ++ [byte (bitSet [s.alert, s.active])])
      { s with link := { s.link with linkLength := false, linkCrc := false, unknownSeen := false, linkError := false } }) ∧
    (s.alert = true ↔ ∃ i : Slot, (s.slot i).power.state = .fault) ∧
    (s.active = true ↔ ∃ i : Slot, (s.slot i).engine.flight ≠ none ∨ (s.slot i).engine.waiting ≠ [])

/-- CELL_RESET needs no reply place and has no reply: every block takes its CMD reset, the settings and tables are kept, the queued
replies go, HELLO is pending with COMMANDED, and cell time restarts with the lid's recognition deadline keeping its remaining time
(R179, R182 and the reset tables). That every frame in transmission is voided, one of LINK_ERROR too, is the model's reading (DEDUCED,
notes/assumptions/20.md), as are the bytes of the pages staying (DESIGN CHOICE, notes/assumptions/5.md) and the park level in force outliving
the reset (DESIGN CHOICE, notes/assumptions/6.md). -/
def Obligations.CellResetResetsEveryBlock : Prop :=
  ∀ (s : State) (r : Request), s.link.usb = .configured → s.link.held = none → s.link.inbound = [] → r.toCell [] →
    ∃ u : State, exec (.cellReset r) s = .next (uplink u) ∧
      u.time = 0#32 ∧ u.ports = Vector.replicate 4 none ∧ u.waitList = [] ∧ u.limits = s.limits ∧ u.guard = s.guard ∧
      u.guardDefault = s.guardDefault ∧ u.freeCount = s.freeCount ∧ u.pending = s.pending ∧
      u.store.objects = Vector.replicate 16 ObjectRecord.empty ∧ u.store.free.Perm (List.range 512) ∧
      u.store.bytes = s.store.bytes ∧
      u.lid = { s.lid with deadline := s.lid.deadline.map fun d => d - s.time } ∧
      u.link = { s.link with
        inbound := []
        held := none
        replies := (match s.link.tx with
          | some t => if t.source = .reply then s.link.replies.take 1 else []
          | none => [])
        tx := s.link.tx.map fun t => { t with voided := true }
        hello := some .commanded
        linkError := false } ∧
      ∀ i : Slot,
        (u.slot i).engine = { flight := none, waiting := [], done := [], lamp := .off } ∧
        (u.slot i).line = { (s.slot i).line with tx := none, txWaiting := none, assembler := Assembler.empty, nextTag := 1#8 } ∧
        (u.slot i).capture.ring = [] ∧ (u.slot i).capture.overrun = false ∧ (u.slot i).capture.filter = (s.slot i).capture.filter ∧
        (∀ k : Fin 4, (u.slot i).capture.triggers[k] = { (s.slot i).capture.triggers[k] with hits := 0 }) ∧
        (u.slot i).power.state = .off ∧ (u.slot i).power.quiet ∧ (u.slot i).power.cause = ⟨false, false⟩ ∧
        (u.slot i).power.woke = false ∧ (u.slot i).power.interlock = false ∧ (u.slot i).power.forced = false ∧
        (u.slot i).power.settings = (s.slot i).power.settings ∧ (u.slot i).power.parkLevel = (s.slot i).power.parkLevel ∧
        (u.slot i).sampler = { (s.slot i).sampler with lastSample := none, overcurrent := 0, undervolt := 0, parkHistory := [] } ∧
        (u.slot i).notices = ⟨false, false, false, false, false, false, false⟩ ∧
        (u.slot i).granted = 0#4 ∧ (u.slot i).expired = 0#4

/-- NOTICE_SET sets the threshold or one kind's priority, clamped to 15 with CLAMPED, and refuses every other target with BAD_VALUE
(R175, R189). -/
def Obligations.NoticeSetSetsOneValue : Prop :=
  ∀ (s : State) (r : Request) (target v : Byte), s.LinkReady → r.toCell [target, v] →
    let w := min v.toNat 15
    let code := if v.toNat ≤ 15 then ReplyCode.ok else ReplyCode.clamped
    (target = 0#8 → exec (.noticeSet r) s = .next (answer 0x84#8 r code [target, byte w] { s with link.threshold := w })) ∧
    (∀ k : Fin 8, target = byte (0x61 + k.val) →
      exec (.noticeSet r) s = .next (answer 0x84#8 r code [target, byte w]
        { s with link.priorities := s.link.priorities.set k w })) ∧
    (target ≠ 0#8 → (∀ k : Fin 8, target ≠ byte (0x61 + k.val)) →
      exec (.noticeSet r) s = .next (answer 0x84#8 r .badValue [] s))

/-! ### The command guard -/

/-- GUARD_WRITE replaces every field of an entry that is not locked, refuses a locked one with LOCKED, and refuses a malformed one with
BAD_VALUE before the lock is looked at (R160, R161, R190). -/
def Obligations.GuardWriteReplacesAnUnlockedEntry : Prop :=
  ∀ (s : State) (r : Request), s.LinkReady →
    (∀ (k : Fin 8) (e : GuardEntry), r.toCell (e.bytes k) → e.codeLo.toNat ≤ e.codeHi.toNat →
      exec (.guardWrite r) s = .next (
        if s.guard[k].locked then answer 0x88#8 r .locked [] s
        else answer 0x88#8 r .ok (e.bytes k) { s with guard := s.guard.set k e })) ∧
    (r.toCell r.body → r.body.length = 11 →
      (7 < byteNat r.body 0 ∨ 1 < byteNat r.body 1 ∨ field r.body 4 2 < field r.body 2 2 ∨ 1 < byteNat r.body 9 ∨
        1 < byteNat r.body 10) →
      exec (.guardWrite r) s = .next (answer 0x88#8 r .badValue [] s))

/-- GUARD_READ reports one entry, the default action and the number of locked entries; GUARD_DEFAULT sets the default action unless an
entry is locked. Each refuses a value out of range with BAD_VALUE first (R162, R163, R190). -/
def Obligations.GuardReadAndDefault : Prop :=
  ∀ (s : State) (r : Request) (b : Byte), s.LinkReady → r.toCell [b] →
    (∀ k : Fin 8, b = byte k.val →
      exec (.guardRead r) s = .next (answer 0x89#8 r .ok
        (s.guard[k].bytes k ++ [byte s.guardDefault.code, byte (s.guard.toList.filter GuardEntry.locked).length]) s)) ∧
    (8 ≤ b.toNat → exec (.guardRead r) s = .next (answer 0x89#8 r .badValue [] s)) ∧
    (∀ a : GuardAction, b = byte a.code →
      exec (.guardDefault r) s = .next (
        if ∃ k : Fin 8, s.guard[k].locked = true then answer 0x8A#8 r .locked [] s
        else answer 0x8A#8 r .ok [b] { s with guardDefault := a })) ∧
    (2 ≤ b.toNat → exec (.guardDefault r) s = .next (answer 0x8A#8 r .badValue [] s))

/-- The guard's decision is the action of the first entry, in index order, that covers the code and the slot, and the default action
where none does (R155, R156). -/
def Obligations.GuardDecidesByTheFirstCoveringEntry : Prop :=
  ∀ (s : State) (code : BitVec 16) (i : Slot),
    let covers (k : Fin 8) : Prop := s.guard[k].valid = true ∧ s.guard[k].codeLo.toNat ≤ code.toNat ∧
      code.toNat ≤ s.guard[k].codeHi.toNat ∧ s.guard[k].slots.getLsbD i.val = true
    (∀ k : Fin 8, covers k → (∀ j : Fin 8, j < k → ¬ covers j) → s.guardDecision code i = s.guard[k].action) ∧
    ((∀ k : Fin 8, ¬ covers k) → s.guardDecision code i = s.guardDefault)

/-! ### The limit table and the grades -/

/-- LIMIT_WRITE replaces every field of an entry whose values are allowed, and refuses every other write with BAD_VALUE; LIMIT_READ gives
an entry as it stands, and refuses an index above 63 (R114, R115, R191). -/
def Obligations.LimitWriteAndRead : Prop :=
  ∀ (s : State) (r : Request), s.LinkReady →
    (∀ (k : Fin 64) (e : LimitEntry), r.toCell (e.bytes k) → -2147483648 ≤ e.lo → e.lo ≤ e.hi → e.hi ≤ 2147483647 →
      e.threshold ≤ 255 → e.threshold ≠ 254 →
      exec (.limitWrite r) s = .next (answer 0x8C#8 r .ok (e.bytes k) { s with limits := s.limits.set k e })) ∧
    (r.toCell r.body → r.body.length = 14 →
      (63 < byteNat r.body 0 ∨ 1 < byteNat r.body 1 ∨ 15 < byteNat r.body 2 ∨ 5 < byteNat r.body 3 ∨ byteNat r.body 12 = 254 ∨
        1 < byteNat r.body 13 ∨ signedOf 4 (field r.body 8 4) < signedOf 4 (field r.body 4 4)) →
      exec (.limitWrite r) s = .next (answer 0x8C#8 r .badValue [] s)) ∧
    (∀ k : Fin 64, r.toCell [byte k.val] → exec (.limitRead r) s = .next (answer 0x8D#8 r .ok (s.limits[k].bytes k) s)) ∧
    (∀ b : Byte, r.toCell [b] → 64 ≤ b.toNat → exec (.limitRead r) s = .next (answer 0x8D#8 r .badValue [] s))

/-! ### The payload store -/

/-- OBJ_OPEN allocates all the pages at once and puts an EMPTY object in FILLING; its checks come in the order of R144 (R144, R192). Which
pages it takes is the model's choice (notes/assumptions/4.md). -/
def Obligations.ObjOpenAllocatesPages : Prop :=
  ∀ (s : State) (r : Request), s.LinkReady →
    (∀ (o : Fin 16) (length : Nat), length < 4294967296 → r.toCell (byte o.val :: le 4 length) →
      let n := (length + 255) / 256
      exec (.objOpen r) s = .next (
        if length = 0 ∨ 65536 < length then answer 0x90#8 r .badValue [] s
        else if (s.store.object o).state ≠ .empty then answer 0x90#8 r .objectState [] s
        else if s.store.free.length < n then answer 0x90#8 r .poolFull [] s
        else answer 0x90#8 r .ok (le 2 n ++ le 2 (s.store.free.length - n))
          { s with store := { s.store with
              objects := s.store.objects.set o ⟨.filling, length, 0, s.store.free.take n, 0, none⟩
              free := s.store.free.drop n } })) ∧
    (∀ body : List Byte, r.toCell body → body.length = 5 → 15 < byteNat body 0 →
      exec (.objOpen r) s = .next (answer 0x90#8 r .badValue [] s))

/-- OBJ_DATA writes its bytes at the fill level and raises it; its checks come in the order of R145 (R145, R192). -/
def Obligations.ObjDataWritesAtTheFillLevel : Prop :=
  ∀ (s : State) (r : Request), s.LinkReady →
    (∀ (o : Fin 16) (offset : Nat) (data : List Byte), offset < 4294967296 → 1 ≤ data.length → data.length ≤ 1000 →
      r.toCell (byte o.val :: (le 4 offset ++ data)) →
      let x := s.store.object o
      exec (.objData r) s = .next (
        if x.state = .empty then answer 0x91#8 r .noObject [] s
        else if x.state ≠ .filling then answer 0x91#8 r .objectState [] s
        else if offset ≠ x.fill then answer 0x91#8 r .badValue [] s
        else if x.length < offset + data.length then answer 0x91#8 r .badValue [] s
        else answer 0x91#8 r .ok (le 4 (offset + data.length))
          { s with store := { s.store with
              objects := s.store.objects.set o { x with fill := offset + data.length }
              bytes := writePages x.pages offset data s.store.bytes } })) ∧
    (∀ body : List Byte, r.toCell body → 6 ≤ body.length → body.length ≤ 1005 → 15 < byteNat body 0 →
      exec (.objData r) s = .next (answer 0x91#8 r .badValue [] s))

/-- Bytes written into an object's pages read back from the offset they were written at, and every other byte of the pool reads as
before (R143, R145). -/
def Obligations.WrittenPagesReadBack : Prop :=
  ∀ (pages : List Nat) (offset : Nat) (data : List Byte) (m : Memory), m.wf = true → pages.Nodup →
    offset + data.length ≤ 256 * pages.length →
    readPages (writePages pages offset data m) pages offset data.length = data ∧
    ∀ a : Nat, (∀ k < data.length, a ≠ 256 * pages.getD ((offset + k) / 256) 0 + (offset + k) % 256) →
      (writePages pages offset data m).read a = m.read a

/-- OBJ_SEAL computes the content check of a completely filled object and makes it SEALED; its checks come in the order of R146. -/
def Obligations.ObjSealSeals : Prop :=
  ∀ (s : State) (r : Request) (b : Byte), s.LinkReady → r.toCell [b] →
    (∀ o : Fin 16, b = byte o.val →
      let x := s.store.object o
      let check := crc16 (readPages s.store.bytes x.pages 0 x.length)
      exec (.objSeal r) s = .next (
        if x.state = .empty then answer 0x92#8 r .noObject [] s
        else if x.state ≠ .filling then answer 0x92#8 r .objectState [] s
        else if x.fill ≠ x.length then answer 0x92#8 r .incomplete [] s
        else answer 0x92#8 r .ok (le 4 x.length ++ le 2 check.toNat)
          { s with store := { s.store with
              objects := s.store.objects.set o { x with state := .sealed, refs := 0, check := some check } } })) ∧
    (16 ≤ b.toNat → exec (.objSeal r) s = .next (answer 0x92#8 r .badValue [] s))

/-- OBJ_DELETE frees a FILLING or unreferenced SEALED object, condemns a referenced one, leaves a CONDEMNED one, and finds no object in
an EMPTY one (R147, R150, R192). That the freed pages join the end of the free list is the model's choice (DESIGN CHOICE,
notes/assumptions/4.md). -/
def Obligations.ObjDeleteFreesOrCondemns : Prop :=
  ∀ (s : State) (r : Request) (b : Byte), s.LinkReady → r.toCell [b] →
    (∀ o : Fin 16, b = byte o.val →
      let x := s.store.object o
      let freed : Store := { s.store with
        objects := s.store.objects.set o ⟨.empty, 0, 0, [], 0, none⟩
        free := s.store.free ++ x.pages }
      let freedBody := byte 0 :: (le 2 0 ++ le 2 (s.store.free.length + x.pages.length))
      let keptBody := byte 3 :: (le 2 x.refs ++ le 2 s.store.free.length)
      exec (.objDelete r) s = .next (
        match x.state with
        | .empty => answer 0x93#8 r .noObject [] s
        | .filling => answer 0x93#8 r .ok freedBody { s with store := freed }
        | .sealed =>
          if x.refs = 0 then answer 0x93#8 r .ok freedBody { s with store := freed }
          else answer 0x93#8 r .ok keptBody
            { s with store := { s.store with objects := s.store.objects.set o { x with state := .condemned } } }
        | .condemned => answer 0x93#8 r .ok keptBody s)) ∧
    (16 ≤ b.toNat → exec (.objDelete r) s = .next (answer 0x93#8 r .badValue [] s))

/-- OBJ_LIST and INSTR_STATUS report the store and the arbiter as they stand and change nothing (R153, R193; R138, R194). -/
def Obligations.ObjListAndInstrStatusReport : Prop :=
  ∀ (s : State) (r : Request), s.LinkReady → r.toCell [] →
    exec (.objList r) s = .next (answer 0x94#8 r .ok (le 2 s.store.free.length ++
      (List.finRange 16).flatMap fun o =>
        let x := s.store.object o
        [byte x.state.code] ++ le 4 x.length ++ le 4 x.fill ++ le 2 x.pages.length ++ le 2 x.refs
          ++ le 2 ((x.check.map BitVec.toNat).getD 0)) s) ∧
    exec (.instrStatus r) s = .next (answer 0x98#8 r .ok
      ((List.finRange 4).flatMap (fun p : Fin 4 =>
        match s.ports[p] with
        | some h => [byte h.slot.val] ++ le 4 (h.deadline - s.time).toNat
        | none => [0xFF#8, 0xFF#8, 0xFF#8, 0xFF#8, 0xFF#8])
      ++ [byte s.waitList.length]
      ++ s.waitList.flatMap fun e => [byte e.slot.val, byte e.mask.toNat] ++ le 4 (e.deadline - s.time).toNat) s)

/-! ### Requests of a slot: settings -/

/-- SLOT_CONFIG refuses a malformed request, then a new baud outside OFF and STANDBY, and else applies every field whose presence bit is
set, clamped to its range, and reports the nine settings as they then stand (R195, R29, R93, R99, R100). -/
def Obligations.SlotConfigAppliesThePresentFields : Prop :=
  ∀ (s : State) (r : Request) (i : Slot) (body : List Byte), s.LinkReady → r.toSlot i body → body.length = 22 →
    let isPresent (k : Nat) : Prop := (field body 0 2).testBit k = true
    let x := s.slot i
    let malformed : Prop := 512 ≤ field body 0 2 ∨
      (isPresent 0 ∧ field body 2 4 ∉ [115200, 460800, 921600, 3000000]) ∨ ¬ (isPresent 1 ↔ isPresent 2)
    let newBaud : Prop := isPresent 0 ∧ field body 2 4 ≠ x.line.baud.value
    (malformed → exec (.slotConfig r) s = .next (answer 0xA0#8 r .badValue [] s)) ∧
    (¬ malformed → newBaud → x.power.state ≠ .off → x.power.state ≠ .standby →
      exec (.slotConfig r) s = .next (answer 0xA0#8 r .wrongState [] s)) ∧
    (¬ malformed → (newBaud → x.power.state = .off ∨ x.power.state = .standby) →
      ∀ baud : Baud, (isPresent 0 → baud.value = field body 2 4) → (¬ isPresent 0 → baud = x.line.baud) →
      let number (k held offset lo hi : Nat) : Nat :=
        if (field body 0 2).testBit k then max lo (min (field body offset 2) hi) else held
      let within (k offset lo hi : Nat) : Prop := isPresent k → lo ≤ field body offset 2 ∧ field body offset 2 ≤ hi
      let z : Int := signedOf 2 (field body 8 2)
      let y : SlotState := { x with
        line.baud := baud
        sampler := { x.sampler with
          gain := number 1 x.sampler.gain 6 512 2048
          offset := if (field body 0 2).testBit 2 then max (-64) (min z 63) else x.sampler.offset
          tripLevel := number 3 x.sampler.tripLevel 10 100 4000 }
        power.settings := ⟨number 4 x.power.settings.railVoltage 12 3000 4500, number 5 x.power.settings.pressTime 14 100 8000,
          number 6 x.power.settings.parkHold 16 500 60000, number 7 x.power.settings.parkLevel 18 1 500,
          if (field body 0 2).testBit 8 then BitVec.ofNat 16 (field body 20 2) else x.power.settings.shutdownCode⟩ }
      let unclamped : Prop := within 1 6 512 2048 ∧ (isPresent 2 → -64 ≤ z ∧ z ≤ 63) ∧ within 3 10 100 4000 ∧ within 4 12 3000 4500 ∧
        within 5 14 100 8000 ∧ within 6 16 500 60000 ∧ within 7 18 1 500
      let report := le 4 y.line.baud.value ++ le 2 y.sampler.gain ++ leInt 2 y.sampler.offset ++ le 2 y.sampler.tripLevel
        ++ le 2 y.power.settings.railVoltage ++ le 2 y.power.settings.pressTime ++ le 2 y.power.settings.parkHold
        ++ le 2 y.power.settings.parkLevel ++ le 2 y.power.settings.shutdownCode.toNat
      (unclamped → exec (.slotConfig r) s = .next (answer 0xA0#8 r .ok report (s.setSlot i y))) ∧
      (¬ unclamped → exec (.slotConfig r) s = .next (answer 0xA0#8 r .clamped report (s.setSlot i y))))

/-- SLOT_FILTER sets mode, code and mask, SLOT_BLOCK the block size, and SLOT_TRIGGER every setting of one trigger with its hit count
zeroed; each refuses every value out of its range with BAD_VALUE (R49, R58, R61, R196). -/
def Obligations.SlotLineSettingsAreSet : Prop :=
  ∀ (s : State) (r : Request) (i : Slot), s.LinkReady →
    (∀ m c1 c2 c3 c4 k1 k2 k3 k4 : Byte, r.toSlot i [m, c1, c2, c3, c4, k1, k2, k3, k4] →
      exec (.slotFilter r) s = .next (
        if m = 0#8 then answer 0xA1#8 r .ok []
          (s.modSlot i fun x => { x with capture.filter := ⟨.single, #v[c1, c2, c3, c4], #v[k1, k2, k3, k4]⟩ })
        else if m = 1#8 then answer 0xA1#8 r .ok []
          (s.modSlot i fun x => { x with capture.filter := ⟨.dual, #v[c1, c2, c3, c4], #v[k1, k2, k3, k4]⟩ })
        else answer 0xA1#8 r .badValue [] s)) ∧
    (∀ b : Nat, b < 65536 → r.toSlot i (le 2 b) →
      exec (.slotBlock r) s = .next (
        if b ∈ [256, 512, 1024, 2048, 4096] then
          answer 0xA3#8 r .ok (le 2 b) (s.modSlot i fun x => { x with line.blockSize := b })
        else answer 0xA3#8 r .badValue [] s)) ∧
    (∀ (k : Fin 4) (enabled : Bool) (mode : TriggerMode) (action : TriggerAction) (pattern pad : List Byte),
      1 ≤ pattern.length → pattern.length + pad.length = 24 → 0x0A#8 ∉ pattern →
      r.toSlot i ([byte k.val, if enabled then 1#8 else 0#8, match mode with
          | .atStart => 0#8 | .anywhere => 1#8,
        match action with
          | .count => 0#8 | .note => 1#8 | .failStep => 2#8 | .boot => 3#8,
        byte pattern.length] ++ pattern ++ pad) →
      exec (.slotTrigger r) s = .next (answer 0xA2#8 r .ok []
        (s.modSlot i fun x => { x with capture.triggers := x.capture.triggers.set k ⟨enabled, pattern, mode, action, 0⟩ }))) ∧
    (∀ body : List Byte, r.toSlot i body → body.length = 29 →
      (3 < byteNat body 0 ∨ byteNat body 4 = 0 ∨ 24 < byteNat body 4 ∨ 0x0A#8 ∈ (body.drop 5).take (byteNat body 4) ∨
        1 < byteNat body 1 ∨ 1 < byteNat body 2 ∨ 3 < byteNat body 3) →
      exec (.slotTrigger r) s = .next (answer 0xA2#8 r .badValue [] s))

/-! ### Requests of a slot: steps and records -/

/-- STEP checks the slot, the queue and the object in the order of R1, and else appends the step with its numbers clamped, adds a PUSH's
reference, reports the queue count, and starts the step when the queue was empty (R1, R3, R148, R197, R198). -/
def Obligations.StepAppendsTheStep : Prop :=
  ∀ (s : State) (r : Request) (i : Slot) (st : StepRecord), s.LinkReady → st.allowed → r.toSlot i st.body →
    let x := s.slot i
    let objectIs (states : List ObjectState) : Prop := ∃ o : Fin 16, st.kind = .push o ∧ (s.store.object o).state ∈ states
    let u : State := { s.modSlot i (fun y => { y with engine.waiting := y.engine.waiting ++ [st.clamped] }) with
      store := match st.kind with
        | .push o => { s.store with objects := s.store.objects.set o { s.store.object o with refs := (s.store.object o).refs + 1 } }
        | _ => s.store }
    let code := if st.clamped = st then ReplyCode.ok else ReplyCode.clamped
    (x.power.state = .fault → exec (.stepRequest r) s = .next (answer 0xA8#8 r .slotFaulted [] s)) ∧
    (x.power.state ≠ .fault → 16 ≤ x.engine.queueCount → exec (.stepRequest r) s = .next (answer 0xA8#8 r .queueFull [] s)) ∧
    (x.power.state ≠ .fault → x.engine.queueCount < 16 →
      (objectIs [.empty] → exec (.stepRequest r) s = .next (answer 0xA8#8 r .noObject [] s)) ∧
      (objectIs [.filling, .condemned] → exec (.stepRequest r) s = .next (answer 0xA8#8 r .objectState [] s)) ∧
      (¬ objectIs [.empty, .filling, .condemned] →
        exec (.stepRequest r) s = .next (answer 0xA8#8 r code [byte (x.engine.queueCount + 1)]
          (if x.engine.queueCount = 0 then startAll [i] u else u))))

/-- STEP refuses with BAD_VALUE a body whose kind, flags, limit set or kind parameters are not allowed (R1 check 1, R197, R198). -/
def Obligations.StepRefusesBadFields : Prop :=
  ∀ (s : State) (r : Request) (i : Slot) (body : List Byte), s.LinkReady → r.toSlot i body → stepLengthAllowed body →
    let kind := byteNat body 2
    let p := byteNat body 9
    (7 < kind ∨ 3 < byteNat body 3 ∨ (15 < byteNat body 8 ∧ byteNat body 8 ≠ 255) ∨
      (byteNat body 8 ≠ 255 ∧ (kind = 5 ∨ kind = 6)) ∨
      (kind = 0 ∧ (200 < byteNat body 11 ∨ ∃ b ∈ body.drop 12, ¬ (0x20 ≤ b.toNat ∧ b.toNat ≤ 0x7E))) ∨
      (kind = 1 ∧ 15 < p) ∨ (kind = 2 ∧ (4 < p ∨ 2 < byteNat body 10 ∨ (byteNat body 10 ≠ 0 ∧ p ≠ 3))) ∨
      (kind = 4 ∧ (p = 0 ∨ 7 < p)) ∨ (kind = 5 ∧ (p = 0 ∨ 15 < p)) ∨ (kind = 6 ∧ 15 < p) ∨ (kind = 7 ∧ 3 < p)) →
    exec (.stepRequest r) s = .next (answer 0xA8#8 r .badValue [] s)

/-- ABORT reports whether an abort was taken and how many steps it doomed. With scope ALL every waiting step without a doom reason gets
ABORTED. A PUSH whose block is leaving enters ABORTING, which keeps whether the scope was ALL (R20); every other step ends FAIL ABORTED after
what R22 says of its kind (R21 to R23, R76, R82, R136). -/
def Obligations.AbortTakesTheStepInFlight : Prop :=
  ∀ (s : State) (r : Request) (i : Slot), s.LinkReady →
    (∀ all : Bool, r.toSlot i [if all then 1#8 else 0#8] →
      let x := s.slot i
      let doomed := if all then (x.engine.waiting.filter fun st => st.doom.isNone).length else 0
      let s1 := if all then s.modSlot i (fun y => { y with engine.waiting := y.engine.waiting.map fun st =>
        if st.doom = none then { st with doom := some .aborted } else st }) else s
      ((∀ f, x.engine.flight = some f → f.aborting = true) →
        exec (.abort r) s = .next (answer 0xA9#8 r .ok [0#8, byte doomed] s1)) ∧
      (∀ (f : Flight) (p : PushProgress), x.engine.flight = some f → f.push = some p → p.aborting = false →
        x.line.stepLeaving = true →
        exec (.abort r) s = .next (answer 0xA9#8 r .ok [1#8, byte doomed] (s1.modSlot i fun y =>
          { y with
            engine.flight := some { f with tag := none, deadline := none, push := some { p with aborting := true, abortAll := all } }
            line.txWaiting := if (y.line.txWaiting.map TxItem.owner) = some .step then none else y.line.txWaiting }))) ∧
      (∀ f : Flight, x.engine.flight = some f → f.aborting = false → (f.push = none ∨ x.line.stepLeaving = false) →
        exec (.abort r) s = .next (answer 0xA9#8 r .ok [1#8, byte doomed] (
          match f.step.kind with
          | .press keys _ =>
            startAll [i] (endStep i .aborted (s1.modSlot i fun y => { y with power.keys := y.power.keys &&& ~~~keys }))
          | .power _ _ => startAll [i] (endStep i .aborted (s1.modSlot i fun y => match y.power.state with
            | .standby => { y with power.target := none }
            | .starting => { y with power := { y.power with
                state := .listen, phase := .none, target := none, keys := 0#3, pressRelease := none, bootWait := none } }
            | .run => { y with power := { y.power with target := none, phase := .none } }
            | .parking => y.cutRail .off
            | .off | .listen | .fault => y))
          | .attach _ _ =>
            let w := walk (endStep i .aborted { s1 with waitList := s1.waitList.filter fun e => decide (e.slot ≠ i) })
            startAll (i :: w.2) w.1
          | .exchange _ _ | .push _ | .measure _ | .detach _ | .await _ => startAll [i] (endStep i .aborted s1))))) ∧
    (∀ b : Byte, r.toSlot i [b] → 2 ≤ b.toNat → exec (.abort r) s = .next (answer 0xA9#8 r .badValue [] s))

/-- RESULTS hands out the oldest records that are not in transmission, up to its count and up to the first that would take the body past
1024 bytes, removes them, clears STEP_DONE when none is left to send, and tests the start condition (R26, R25, R3, R199). That the reply counts
the record in transmission among those left, as they stand before the drains, is DEDUCED (notes/assumptions/17.md). -/
def Obligations.ResultsHandsOutTheOldestRecords : Prop :=
  ∀ (s : State) (r : Request) (i : Slot), s.LinkReady →
    (∀ n : Nat, n ≤ 8 → r.toSlot i [byte n] →
      ∀ sending waiting : List ListEntry, (s.slot i).engine.done = sending ++ waiting → (∀ e ∈ sending, e.inTx = true) →
        (∀ e ∈ waiting, e.inTx = false) →
      let size (es : List ListEntry) : Nat := (es.map fun e => e.record.bytes.length).sum
      ∃ given kept : List ListEntry, waiting = given ++ kept ∧ (n ≠ 0 → given.length ≤ n) ∧ 3 + size given ≤ 1024 ∧
        ((n ≠ 0 ∧ given.length = n) ∨ kept = [] ∨ ∃ e ∈ kept.head?, 1024 < 3 + size given + e.record.bytes.length) ∧
        let u := s.modSlot i fun x => { x with
          engine.done := sending ++ kept
          notices.stepDone := if kept = [] then false else x.notices.stepDone }
        exec (.results r) s = .next (answer 0xAA#8 r .ok
          ([byte given.length, byte (sending.length + kept.length)] ++ given.flatMap fun e => e.record.bytes)
          (if given = [] then u else startAll [i] u))) ∧
    (∀ b : Byte, r.toSlot i [b] → 9 ≤ b.toNat → exec (.results r) s = .next (answer 0xAA#8 r .badValue [] s))

/-- SLOT_STATUS gives the 63 bytes of R200 and clears the slot's LINES, TRIGGER, POWER and FAULT flags (R177, R200). -/
def Obligations.SlotStatusReportsAndClears : Prop :=
  ∀ (s : State) (r : Request) (i : Slot), s.LinkReady → r.toSlot i [] →
    let x := s.slot i
    let window := x.engine.flight.bind Flight.window
    exec (.slotStatus r) s = .next (answer 0xB0#8 r .ok
      ([byte (x.engine.flight.toList.length + x.engine.waiting.length)]
      ++ (match x.engine.flight with
        | some f => le 2 f.step.number.toNat ++ [byte f.step.kind.code]
        | none => [0#8, 0#8, 0xFF#8])
      ++ [byte x.engine.done.length, byte x.engine.lamp.code]
      ++ le 4 x.line.baud.value ++ le 2 x.line.blockSize ++ [x.line.nextTag]
      ++ [byte x.power.state.code, byte x.power.phase.code, byte (bitSet [x.power.cause.overcurrent, x.power.cause.undervolt]),
        byte (bitSet [x.power.woke, x.power.interlock, x.power.forced]), byte x.power.keys.toNat]
      ++ le 2 x.power.settings.railVoltage ++ le 2 x.power.settings.pressTime ++ le 2 x.power.settings.parkHold
      ++ le 2 x.power.settings.parkLevel ++ le 2 x.power.settings.shutdownCode.toNat
      ++ le 2 x.sampler.gain ++ leInt 2 x.sampler.offset ++ le 2 x.sampler.tripLevel
      ++ (match x.sampler.lastSample with
        | some m => le 2 m.1 ++ le 2 m.2
        | none => [0xFF#8, 0xFF#8, 0xFF#8, 0xFF#8])
      ++ (match window with
        | some w => byte (if w.saturated then 3 else 1) :: le 4 w.n
        | none => [0#8, 0#8, 0#8, 0#8, 0#8])
      ++ le 2 x.capture.ring.length ++ le 2 (x.capture.ring.map fun c => 8 + c.content.length).sum
      ++ [if x.capture.overrun then 1#8 else 0#8]
      ++ (x.capture.triggers.toList.map fun t => byte t.hits)
      ++ [byte x.capture.filter.mode.code] ++ x.capture.filter.code.toList ++ x.capture.filter.mask.toList
      ++ [byte (bitSet ((List.finRange 4).map fun p : Fin 4 => decide ((s.ports[p].map Hold.slot) = some i))),
        match s.waitList.find? fun e => decide (e.slot = i) with
        | some e => byte e.mask.toNat
        | none => 0#8])
      (s.modSlot i fun y => { y with notices := { y.notices with lines := false, trigger := false, power := false, fault := false } }))

/-- CAPTURE_READ gives the oldest whole records that fit in 1000 bytes, up to the first that does not, and leaves the ring; CAPTURE_RELEASE
removes the oldest min(r, count) records, with CLAMPED when r exceeds the count (R55, R56, R201). -/
def Obligations.CaptureReadAndRelease : Prop :=
  ∀ (s : State) (r : Request) (i : Slot), s.LinkReady →
    let ring := (s.slot i).capture.ring
    let used (cs : List CaptureRecord) : Nat := (cs.map fun c => 8 + c.content.length).sum
    let bytes (c : CaptureRecord) : List Byte := le 4 c.time.toNat ++ [match c.kind with
        | .log => 0#8
        | .stale => 1#8, byte (bitSet [c.truncated, c.damaged, c.afterOverrun])] ++ le 2 c.content.length ++ c.content
    (r.toSlot i [] → ∃ given kept : List CaptureRecord, ring = given ++ kept ∧ used given ≤ 1000 ∧
      (∀ c ∈ kept.head?, 1000 < used given + (8 + c.content.length)) ∧
      exec (.captureRead r) s = .next (answer 0xB1#8 r .ok (le 2 given.length ++ le 2 ring.length ++ le 2 (used ring)
        ++ [if (s.slot i).capture.overrun then 1#8 else 0#8] ++ given.flatMap bytes) s)) ∧
    (∀ n : Nat, n < 65536 → r.toSlot i (le 2 n) →
      exec (.captureRelease r) s = .next (answer 0xB2#8 r (if n ≤ ring.length then .ok else .clamped)
        (le 2 (min n ring.length) ++ le 2 (ring.length - n) ++ le 2 (used (ring.drop n)))
        (s.modSlot i fun x => { x with capture.ring := x.capture.ring.drop n })))

/-- CLEAR_FAULT takes a slot in FAULT to OFF and changes nothing else; in any other state it is refused with WRONG_STATE (R88). -/
def Obligations.ClearFaultTakesFaultToOff : Prop :=
  ∀ (s : State) (r : Request) (i : Slot), s.LinkReady → r.toSlot i [] →
    ((s.slot i).power.state = .fault →
      exec (.clearFault r) s = .next (answer 0xB8#8 r .ok [] (s.modSlot i fun x => { x with power.state := .off }))) ∧
    ((s.slot i).power.state ≠ .fault → exec (.clearFault r) s = .next (answer 0xB8#8 r .wrongState [] s))

/-- SLOT_RESET takes its slot to the reset state, keeping its settings, frees its ports, removes its wait entry, drops the references of
its PUSH steps, voids its notice in transmission (the mark is DEDUCED, notes/assumptions/20.md), and lets the arbiter walk (R28, R50, R69, R95,
R112, R141, R154, R182). That the park level in force outlives the reset is the model's choice (DESIGN CHOICE, notes/assumptions/6.md). -/
def Obligations.SlotResetDiscardsTheSlot : Prop :=
  ∀ (s : State) (r : Request) (i : Slot), s.LinkReady → r.toSlot i [] →
    let x := s.slot i
    let dropped (o : Fin 16) : Nat := (x.engine.queue.filter fun st => decide (st.kind = .push o)).length
    let freed (o : Fin 16) : Prop := (s.store.object o).state = .condemned ∧ 0 < dropped o ∧ (s.store.object o).refs ≤ dropped o
    ∃ u : State, exec (.slotReset r) s = .next (answer 0xB9#8 r .ok [] (startAll (walk u).2 (walk u).1)) ∧
      (∀ j : Slot, j ≠ i → u.slot j = s.slot j) ∧
      u.slot i = { x with
        engine := ⟨none, [], [], .off⟩
        line := { x.line with tx := none, txWaiting := none, assembler := Assembler.empty, nextTag := 1#8 }
        capture := { x.capture with ring := [], overrun := false, triggers := x.capture.triggers.map fun t => { t with hits := 0 } }
        power := { x.power with
          state := .off, phase := .none, target := none, settle := none, keys := 0#3, pressRelease := none, bootWait := none
          lineSinceRelease := false, parkHold := none, cause := ⟨false, false⟩, woke := false, interlock := false, forced := false }
        sampler := { x.sampler with lastSample := none, overcurrent := 0, undervolt := 0, parkHistory := [] }
        notices := ⟨false, false, false, false, false, false, false⟩
        granted := 0#4
        expired := 0#4 } ∧
      (∀ p : Port, u.ports[p] = if (s.ports[p].map Hold.slot) = some i then none else s.ports[p]) ∧
      u.waitList = s.waitList.filter (fun e => decide (e.slot ≠ i)) ∧
      (∀ o : Fin 16, u.store.object o =
        if freed o then ObjectRecord.empty else { s.store.object o with refs := (s.store.object o).refs - dropped o }) ∧
      u.store.free.Perm (s.store.free ++ (List.finRange 16).flatMap fun o => if freed o then (s.store.object o).pages else []) ∧
      u.store.bytes = s.store.bytes ∧
      u.link = { s.link with tx := s.link.tx.map fun t => match t.source with
        | .slotNotice _ j _ => if j = i then { t with voided := true } else t
        | _ => t } ∧
      u.time = s.time ∧ u.limits = s.limits ∧ u.guard = s.guard ∧ u.guardDefault = s.guardDefault ∧ u.lid = s.lid ∧
      u.freeCount = s.freeCount ∧ u.pending = s.pending

/-! ### The link -/

/-- Every request row is refused by the first of the link's checks that fails, in the order of R170: an unknown kind with UNKNOWN_KIND and
UNKNOWN_SEEN, a wrong slot field, a body length its kind does not allow, a flags field other than 0 (R170, R186). -/
def Obligations.RequestsAreCheckedInOrder : Prop :=
  ∀ (s : State) (c : Instr) (kind : Byte) (r : Request), s.LinkReady → c.request = some r → c.kindByte = some kind →
    r.body.length ≤ 1024 →
    let slotOk : Prop := if kind.toNat < 0x20 then r.slot = 0xFF#8 else r.slot.toNat < 24
    (kind ∉ requestCodes → exec c s = .next (answer (kind ||| 0x80#8) r .unknownKind [kind] { s with link.unknownSeen := true })) ∧
    (kind ∈ requestCodes → ¬ slotOk → exec c s = .next (answer (kind ||| 0x80#8) r .badSlot [] s)) ∧
    (kind ∈ requestCodes → slotOk → ¬ lengthAllowed kind r.body →
      exec c s = .next (answer (kind ||| 0x80#8) r .badLength [] s)) ∧
    (kind ∈ requestCodes → slotOk → lengthAllowed kind r.body → r.flags ≠ 0#8 →
      exec c s = .next (answer (kind ||| 0x80#8) r .badValue [] s))

/-- An OUT transfer of one whole request frame does, in every state, what the request's row does (R183, R166 to R169; the rows are the
model's one-frame transfers, DESIGN CHOICE, notes/assumptions/11.md). -/
def Obligations.OneFrameTransferIsTheRequest : Prop :=
  ∀ (s : State) (c : Instr) (kind : Byte) (r : Request), c.request = some r → c.kindByte = some kind → r.body.length ≤ 1024 →
    exec (.outTransfer (requestFrame kind r)) s = exec c s

/-- Frames laid one after another in a transfer are cut back into the same frames, and a bad remainder is found as what it is: too short or
with a false length first, then with a false check (R167, R168, R183). -/
def Obligations.TransfersCarryTheirFrames : Prop :=
  ∀ (fs : List (Byte × Request)) (tail : List Byte), (∀ f ∈ fs, f.2.body.length ≤ 1024) →
    let frames := fs.map fun f => (⟨f.1, f.2.tag, f.2.slot, f.2.flags, f.2.body⟩ : Frame)
    let bytes := (fs.flatMap fun f => requestFrame f.1 f.2) ++ tail
    let n := field tail 0 2
    (tail = [] → cutTransfer bytes = (frames, none)) ∧
    (tail ≠ [] → (tail.length < 8 ∨ n < 8 ∨ 1032 < n ∨ tail.length < n) → cutTransfer bytes = (frames, some .length)) ∧
    (8 ≤ tail.length → 8 ≤ n → n ≤ 1032 → n ≤ tail.length →
      crc16 (tail.take (n - 2)) ≠ BitVec.ofNat 16 (field tail (n - 2) 2) → cutTransfer bytes = (frames, some .crc))

/-- A transfer is not presented while NOT_CONFIGURED, behind one held off, or beyond 4096 bytes (the model's form of R165 and R166,
notes/assumptions/11.md); it is held off while its bytes do not fit; else its good frames join the inbound buffer, a bad frame sets its
sticky flag and marks LINK_ERROR, and intake goes on (R166, R167, R169). -/
def Obligations.TransfersAreAcceptedOrHeldOff : Prop :=
  ∀ (s : State) (bytes : List Byte),
    let used := (s.link.inbound.map fun f => 8 + f.body.length).sum
    ((s.link.usb = .notConfigured ∨ s.link.held ≠ none ∨ 4096 < bytes.length) → exec (.outTransfer bytes) s = .next s) ∧
    (s.link.usb = .configured → s.link.held = none → bytes.length ≤ 4096 → 4096 < used + bytes.length →
      exec (.outTransfer bytes) s = .next { s with link.held := some bytes }) ∧
    (s.link.usb = .configured → s.link.held = none → bytes.length ≤ 4096 → used + bytes.length ≤ 4096 →
      let c := cutTransfer bytes
      exec (.outTransfer bytes) s = .next (intake { s with link := { s.link with
        inbound := s.link.inbound ++ c.1
        linkLength := s.link.linkLength || decide (c.2 = some .length)
        linkCrc := s.link.linkCrc || decide (c.2 = some .crc)
        linkError := s.link.linkError || c.2.isSome } }))

/-- Intake takes the oldest request while the reply buffer has a free place, frees its bytes, checks and acts on it, joins its reply, accepts
a transfer held off that now fits, and lets the arbiter choose; then it goes on. With no request, or none that can be taken, the arbiter
chooses and intake waits (R169, R166, R172). The order within one taking is DEDUCED (notes/assumptions/14.md). -/
def Obligations.IntakeTakesTheOldestRequestFirst : Prop :=
  ∀ s : State,
    (s.link.inbound = [] → intake s = uplink s) ∧
    (∀ (f : Frame) (rest : List Frame), s.link.inbound = f :: rest →
      (8 ≤ s.link.replies.length → checkRequest f ≠ .cell .cellReset → intake s = uplink s) ∧
      ((s.link.replies.length < 8 ∨ checkRequest f = .cell .cellReset) →
        let done := act f { s with link.inbound := rest }
        let replied : State := { done.1 with link.replies := done.1.link.replies ++
          (done.2.toList.map fun body => ⟨f.kind ||| 0x80#8, f.tag, f.slot, 0#8, body⟩) }
        let fits (bytes : List Byte) : Prop := (replied.link.inbound.map fun g => 8 + g.body.length).sum + bytes.length ≤ 4096
        ((∀ bytes ∈ replied.link.held, ¬ fits bytes) → intake s = intake (uplink replied)) ∧
        (∀ bytes ∈ replied.link.held, fits bytes →
          intake s = intake (uplink (acceptTransfer bytes { replied with link.held := none })))))

/-- The arbiter chooses only with the link CONFIGURED and the pipe free: HELLO, else the oldest reply, else the eligible notice of highest
priority, ties going to the cell, then the lowest slot, then the lowest kind; USB_CONFIGURED makes it choose (R165, R172, R179). -/
def Obligations.UplinkChoosesInOrder : Prop :=
  ∀ s : State,
    let free : Prop := s.link.usb = .configured ∧ s.link.tx = none
    let rank : NoticeName → Nat
      | .linkError => 0
      | .ofSlot i k => 1 + 7 * i.val + k.index.val
    let eligible (n : NoticeName) : Prop := s.isPending n = true ∧ s.link.threshold < s.link.priorityOf n
    (s.link.usb = .configured → exec .usbConfigured s = .next s) ∧
    (s.link.usb = .notConfigured → exec .usbConfigured s = .next (uplink { s with link.usb := .configured })) ∧
    exec .uplinkChoice s = .next (uplink s) ∧
    (¬ free → exec .uplinkChoice s = .next s) ∧
    (∀ c, free → s.link.hello = some c → exec .uplinkChoice s = .next { s with link := { s.link with
      hello := none
      tx := some ⟨⟨0x60#8, 0#8, 0xFF#8, 0#8, [byte c.code, 0x7C#8, 0x1E#8, 0x24#8, 0x0F#8, 1#8]⟩, .hello c, false⟩ } }) ∧
    (∀ f fs, free → s.link.hello = none → s.link.replies = f :: fs →
      exec .uplinkChoice s = .next { s with link.tx := some ⟨f, .reply, false⟩ }) ∧
    (free → s.link.hello = none → s.link.replies = [] →
      ((∀ n, ¬ eligible n) → exec .uplinkChoice s = .next s) ∧
      (∀ n, eligible n →
        (∀ m, eligible m → m ≠ n → s.link.priorityOf m < s.link.priorityOf n ∨
          (s.link.priorityOf m = s.link.priorityOf n ∧ rank n < rank m)) →
        exec .uplinkChoice s = .next (sendNotice n s)))

/-- A chosen notice has its content fixed in the choice and its flag cleared: STEP_DONE marks its record as in transmission and stays pending
while another record waits, GRANT and EXPIRY empty their masks (R176, R174, R204). -/
def Obligations.NoticeContentIsFixedAtTheChoice : Prop :=
  ∀ (s : State) (i : Slot),
    let x := s.slot i
    let sent (kind : SlotNotice) (mask : PortMask) (body : List Byte) (u : State) : State := { u with link := { u.link with
      tx := some ⟨⟨byte kind.code, 0#8, byte i.val, 0#8, body⟩, .slotNotice kind i mask, false⟩ } }
    (∀ (sending : List ListEntry) (e : ListEntry) (waiting : List ListEntry), x.engine.done = sending ++ e :: waiting →
      (∀ d ∈ sending, d.inTx = true) → e.inTx = false → (∀ d ∈ waiting, d.inTx = false) →
      sendNotice (.ofSlot i .stepDone) s = sent .stepDone 0#4 e.record.bytes (s.modSlot i fun y => { y with
        engine.done := sending ++ { e with inTx := true } :: waiting
        notices.stepDone := if waiting = [] then false else y.notices.stepDone })) ∧
    sendNotice (.ofSlot i .lines) s = sent .lines 0#4 (le 2 x.capture.ring.length
      ++ le 2 (x.capture.ring.map fun c => 8 + c.content.length).sum ++ [if x.capture.overrun then 1#8 else 0#8])
      (s.modSlot i fun y => { y with notices.lines := false }) ∧
    sendNotice (.ofSlot i .trigger) s = sent .trigger 0#4 (x.capture.triggers.toList.map fun t => byte t.hits)
      (s.modSlot i fun y => { y with notices.trigger := false }) ∧
    sendNotice (.ofSlot i .power) s = sent .power 0#4
      [byte x.power.state.code, byte (bitSet [x.power.woke, x.power.interlock, x.power.forced])]
      (s.modSlot i fun y => { y with notices.power := false }) ∧
    sendNotice (.ofSlot i .fault) s = sent .fault 0#4 [byte (bitSet [x.power.cause.overcurrent, x.power.cause.undervolt])]
      (s.modSlot i fun y => { y with notices.fault := false }) ∧
    sendNotice (.ofSlot i .grant) s = sent .grant x.granted [byte x.granted.toNat]
      (s.modSlot i fun y => { y with granted := 0#4, notices.grant := false }) ∧
    sendNotice (.ofSlot i .expiry) s = sent .expiry x.expired [byte x.expired.toNat]
      (s.modSlot i fun y => { y with expired := 0#4, notices.expiry := false }) ∧
    sendNotice .linkError s = { s with link := { s.link with
      linkError := false
      tx := some ⟨⟨0x68#8, 0#8, 0xFF#8, 0#8,
        [byte (bitSet [s.link.linkLength, s.link.linkCrc, s.link.unknownSeen]), byte s.lid.state.code]⟩, .linkError, false⟩ } }

/-- A bus reset makes the link NOT_CONFIGURED, empties both buffers, discards a transfer held off, and restores what the abandoned frame
carried unless a reset has emptied it since (R180, R181, R25). That a CMD reset so empties a frame of LINK_ERROR too, and it is not restored, is
DEDUCED (notes/assumptions/20.md). -/
def Obligations.BusResetRestoresTheAbandonedFrame : Prop :=
  ∀ s : State,
    let cut (u : State) : State := { u with link := { u.link with
      usb := .notConfigured, inbound := [], held := none, replies := [], tx := none } }
    (s.link.tx = none → exec .busReset s = .next (cut s)) ∧
    (∀ t : TxFrame, s.link.tx = some t →
      exec .busReset s = .next (match t.source with
        | .reply => cut s
        | .hello c => cut { s with link.hello := some (s.link.hello.getD c) }
        | .linkError => cut (if t.voided then s else { s with link.linkError := true })
        | .slotNotice k i mask => cut (if t.voided then s else match k with
          | .stepDone => s.modSlot i fun x => { x with
              engine.done := x.engine.done.map fun e => { e with inTx := false }
              notices.stepDone := true }
          | .lines => s.modSlot i fun x => { x with notices.lines := true }
          | .trigger => s.modSlot i fun x => { x with notices.trigger := true }
          | .power => s.modSlot i fun x => { x with notices.power := true }
          | .fault => s.modSlot i fun x => { x with notices.fault := true }
          | .grant => s.modSlot i fun x => { x with granted := x.granted ||| mask, notices.grant := true }
          | .expiry => s.modSlot i fun x => { x with expired := x.expired ||| mask, notices.expiry := true })))

/-- FRAME_TAKEN frees the pipe; a reply leaves the buffer, a STEP_DONE's record leaves its list and the slot's start condition is tested; then
intake goes on and the arbiter chooses (R173, R25, R3, R169). That intake goes before the choice is DEDUCED (notes/assumptions/14.md). With no
frame in transmission nothing happens (DESIGN CHOICE, notes/assumptions/9.md). -/
def Obligations.FrameTakenCompletesTheTransmission : Prop :=
  ∀ s : State,
    (s.link.tx = none → exec .frameTaken s = .next s) ∧
    (∀ t : TxFrame, s.link.tx = some t →
      let u : State := { s with link.tx := none }
      exec .frameTaken s = .next (intake (match t.source with
        | .reply => { u with link.replies := s.link.replies.tail }
        | .slotNotice .stepDone i _ =>
          startAll [i] (u.modSlot i fun x => { x with engine.done := x.engine.done.filter fun e => !e.inTx })
        | .slotNotice _ _ _ | .hello _ | .linkError => u)))

/-- POWER_ON_RESET leaves every block as its chapter's reset table says (R182, R28, R50, R69, R95, R112, R128, R141, R154, R164): the values
below, with recognition armed at once if the lid input reads open. Cleared park level, page bytes and free order are the model's
(notes/assumptions/4.md, 5.md, 6.md), and the waiting commands stay. -/
def Obligations.PowerOnResetLeavesTheResetState : Prop :=
  ∀ s : State, ∃ u : State, exec .powerOnReset s = .next u ∧
    u = { State.reset with
      lid := ⟨.closed, s.lid.input, if s.lid.input then some 10#32 else none⟩, freeCount := s.freeCount, pending := s.pending } ∧
    u.time = 0#32 ∧ u.waitList = [] ∧ (∀ p : Port, u.ports[p] = none) ∧ (∀ k : Fin 64, u.limits[k].valid = false) ∧
    (∀ k : Fin 8, u.guard[k].valid = false ∧ u.guard[k].locked = false) ∧ u.guardDefault = .allow ∧
    (∀ o : Fin 16, u.store.object o = ⟨.empty, 0, 0, [], 0, none⟩) ∧ u.store.free.Perm (List.range 512) ∧
    u.link = ⟨.notConfigured, [], none, [], none, false, false, false, some .powerOn, false, #v[8, 4, 7, 6, 12, 5, 9, 10], 0⟩ ∧
    ∀ i : Slot,
      (u.slot i).engine = ⟨none, [], [], .off⟩ ∧ (u.slot i).line = ⟨.b921600, 0, 1#8, none, none, ⟨[], false, false, false⟩⟩ ∧
      (u.slot i).capture.ring = [] ∧ (u.slot i).capture.overrun = false ∧
      (u.slot i).capture.filter = ⟨.single, #v[0#8, 0#8, 0#8, 0#8], #v[0xFF#8, 0xFF#8, 0xFF#8, 0xFF#8]⟩ ∧
      (∀ k : Fin 4, (u.slot i).capture.triggers[k] = ⟨false, [], .atStart, .count, 0⟩) ∧
      (u.slot i).power.state = .off ∧ (u.slot i).power.quiet ∧ (u.slot i).power.cause = ⟨false, false⟩ ∧
      (u.slot i).power.woke = false ∧ (u.slot i).power.interlock = false ∧ (u.slot i).power.forced = false ∧
      (u.slot i).power.settings = ⟨3800, 1500, 10000, 20, 0x00F0#16⟩ ∧
      (u.slot i).sampler = ⟨1024, 0, 3000, none, 0, 0, []⟩ ∧
      (u.slot i).notices = ⟨false, false, false, false, false, false, false⟩ ∧ (u.slot i).granted = 0#4 ∧ (u.slot i).expired = 0#4

/-! ### The step engine -/

/-- A step that ends leaves its record (outcome and reason by R16 and R124, the window closed and graded where the end keeps it, reply part,
push summary, released mask), leaves the head, sets the lamp, skips the queue on a STOP_ON_FAIL failure that is no abort with scope ALL, gives up
its items, drops a PUSH's reference and marks STEP_DONE; nothing else changes (R17, R16, R20, R24, R27, R34, R123, R149). The items of the grade
list are those of `ResultsAndVerdictFollowTheTable`. That the pages a dropped reference frees join the end of the free list is the model's choice
(DESIGN CHOICE, notes/assumptions/4.md). -/
def Obligations.StepCompletionWritesItsRecord : Prop :=
  ∀ (s : State) (i : Slot) (f : Flight) (e : Ending), (s.slot i).engine.flight = some f →
    let keeps : Bool := match e with
      | .normal | .reply _ _ | .ackFailed _ | .detached _ | .trigger => true
      | .startFailed _ | .timeout | .aborted | .faulted | .interlocked | .doomed _ => false
    let measured : Option Measurement := if keeps then f.window.map fun w => w.close s.time else none
    let reply : Option ReplyPart := match e with
      | .reply status payload => some ⟨status, some (payload.take 200, decide (200 < payload.length))⟩
      | .ackFailed status => some ⟨status, none⟩
      | _ => none
    let graded : Option (List (LimitClass × GradeItem)) := match measured, f.step.limitSet with
      | some m, some set => some (((List.finRange 64).filter fun k : Fin 64 => s.limits[k].valid && decide (s.limits[k].set = set)).map
          fun k : Fin 64 => (s.limits[k].cls, gradeItem m reply k s.limits[k]))
      | _, _ => none
    let failing (c : LimitClass) : Bool := (graded.getD []).any fun g => decide (g.1 = c) && decide (g.2.result ≠ .pass)
    let byGrade : Outcome × Reason :=
      if failing .gate then (.fail, .limit) else if failing .watch then (.advisory, .none) else (.pass, .none)
    let ended : Outcome × Reason := match e with
      | .startFailed r => (.fail, r)
      | .timeout => (.fail, .timeout)
      | .aborted => (.fail, .aborted)
      | .faulted => (.fail, .faulted)
      | .interlocked => (.fail, .interlocked)
      | .doomed .aborted => (.notRun, .aborted)
      | .doomed .faulted => (.notRun, .faulted)
      | .doomed .interlocked => (.notRun, .interlocked)
      | .doomed .skipped => (.notRun, .skipped)
      | .reply status _ => if status = 0#8 then byGrade else (.fail, .phoneError)
      | .ackFailed _ => (.fail, .phoneError)
      | .trigger => (.fail, .trigger)
      | .normal | .detached _ => byGrade
    let acked : Nat := (f.push.map PushProgress.acked).getD 0
    let record : Record :=
      { number := f.step.number
        kind := f.step.kind
        outcome := ended.1
        reason := ended.2
        start := f.start
        finish := s.time
        reply := reply
        measurement := measured
        grades := graded.map fun gs => gs.map Prod.snd
        push := match f.step.kind, e with
          | .push _, .doomed _ => none
          | .push _, .ackFailed _ => some (acked, some ((f.push.map PushProgress.current).getD 0))
          | .push _, _ => some (acked, none)
          | _, _ => none
        released := match e with
          | .detached m => some m
          | _ => none }
    endStep i e s = { s.modSlot i (fun x => { x with
      engine :=
        { flight := none
          waiting := if f.step.stopOnFail = true ∧ ended.1 = .fail ∧ ¬ (∃ p, f.push = some p ∧ p.abortAll = true) then
              x.engine.waiting.map fun st => if st.doom = none then { st with doom := some .skipped } else st
            else x.engine.waiting
          done := x.engine.done ++ [⟨record, false⟩]
          lamp := if f.step.lamp then (match ended.1 with
              | .pass => .green
              | .advisory => .amber
              | .fail => .red
              | .notRun => x.engine.lamp)
            else x.engine.lamp }
      line := { x.line with
        tx := x.line.tx.map fun t => if t.owner = .step then { t with owner := .nobody } else t
        txWaiting := if x.line.txWaiting.map TxItem.owner = some .step then none else x.line.txWaiting }
      notices.stepDone := true }) with
      store := match f.step.kind with
        | .push o =>
          let r := s.store.object o
          if r.state = .condemned ∧ r.refs ≤ 1 then
            { s.store with objects := s.store.objects.set o ⟨.empty, 0, 0, [], 0, none⟩, free := s.store.free ++ r.pages }
          else { s.store with objects := s.store.objects.set o { r with refs := r.refs - 1 } }
        | _ => s.store }

/-- A head that starts and goes on: EXCHANGE and PUSH in RUN take a tag, arm their deadline and hand over their line or block 0, MEASURE and
PRESS arm their duration end, AWAIT its deadline, and POWER from OFF switches the rail on; each opens the window its limit set calls for
(R4, R6, R7, R9, R10, R13, R31, R32, R43, R45, R71, R104). -/
def Obligations.StepStartBeginsItsKind : Prop :=
  ∀ (s : State) (i : Slot) (st : StepRecord) (rest : List StepRecord),
    (s.slot i).engine.flight = none → (s.slot i).engine.waiting = st :: rest → (s.slot i).engine.done.length < 8 → st.doom = none →
    let x := s.slot i
    let armed (ms : Nat) : Option Time := some (s.time + BitVec.ofNat 32 ms)
    let empty : Window := ⟨0, 0, 0, 0, s.time, false⟩
    let window : Option Window := if st.limitSet = none then none else some empty
    let begun (f : Flight) : SlotState := { x with engine.flight := some f, engine.waiting := rest }
    let sending (y : SlotState) (item : TxItem) : SlotState := { y with line := { y.line with
      nextTag := if y.line.nextTag = 0xFF#8 then 1#8 else y.line.nextTag + 1#8
      tx := if y.line.tx = none then some item else y.line.tx
      txWaiting := if y.line.tx = none then y.line.txWaiting else some item } }
    (∀ code argument, st.kind = .exchange code argument → x.power.state = .run → s.guardDecision code i = .allow →
      exec (.stepStart i) s = .next (uplink (s.setSlot i (sending
        (begun ⟨st, s.time, armed st.timeout, some x.line.nextTag, none, window⟩)
        ⟨.step, .line ([0x21#8] ++ hexOf 2 x.line.nextTag.toNat ++ hexOf 4 code.toNat
          ++ (if argument = [] then [] else 0x20#8 :: argument) ++ [0x0D#8, 0x0A#8])⟩)))) ∧
    (∀ o : Fin 16, st.kind = .push o → x.power.state = .run → x.line.blockSize ≠ 0 →
      let length := (s.store.object o).length
      let size := x.line.blockSize
      exec (.stepStart i) s = .next (uplink (s.setSlot i (sending
        (begun ⟨st, s.time, armed st.timeout, some x.line.nextTag, some ⟨size, (length + (size - 1)) / size, 0, 0, false, false⟩, window⟩)
        ⟨.step, .block ([0x2A#8] ++ hexOf 2 x.line.nextTag.toNat ++ hexOf 4 0 ++ [0x20#8] ++ hexOf 4 (min size length)
          ++ [0x0D#8, 0x0A#8]) (s.store.object o).pages 0 (min size length)⟩)))) ∧
    (∀ duration, st.kind = .measure duration →
      exec (.stepStart i) s = .next (uplink (s.setSlot i (begun ⟨st, s.time, armed duration, none, none, some empty⟩)))) ∧
    (∀ keys duration, st.kind = .press keys duration → (x.power.state = .run ∨ x.power.state = .listen) →
      exec (.stepStart i) s = .next (uplink (s.setSlot i { begun ⟨st, s.time, armed duration, none, none, window⟩ with
        power.keys := x.power.keys ||| keys }))) ∧
    (∀ k : Fin 4, st.kind = .await k → x.capture.triggers[k].enabled = true →
      exec (.stepStart i) s = .next (uplink (s.setSlot i (begun ⟨st, s.time, armed st.timeout, none, none, window⟩)))) ∧
    (∀ target keys, st.kind = .power target keys → target ≠ .off → target ≠ .park → x.power.state = .off → s.lid.state = .closed →
      let y := begun ⟨st, s.time, none, none, none, if target = .run then window else none⟩
      exec (.stepStart i) s = .next (uplink (s.setSlot i { y with
        engine.lamp := .off
        line.assembler := ⟨[], false, false, false⟩
        sampler.lastSample := none
        power := { x.power with
          state := .standby, phase := .settling, target := some target, settle := armed 20, cause := ⟨false, false⟩
          woke := false, interlock := false, forced := false } })))

/-- A head whose start condition fails completes FAIL in its start event with the reason its kind names (R4, R6 to R8, R10, R11, R13), a
doomed head completes NOT_RUN (R5), and where the start condition of R3 does not hold nothing starts (notes/assumptions/9.md). -/
def Obligations.FailedAndDoomedHeadsCompleteAtStart : Prop :=
  ∀ (s : State) (i : Slot),
    let x := s.slot i
    (∀ (st : StepRecord) (rest : List StepRecord), x.engine.flight = none → x.engine.waiting = st :: rest → x.engine.done.length < 8 →
      let u := s.setSlot i { x with engine.flight := some ⟨st, s.time, none, none, none, none⟩, engine.waiting := rest }
      let fails (reason : Reason) : Prop := match st.kind with
        | .exchange code _ => if x.power.state ≠ .run then reason = .state
          else s.guardDecision code i = .deny ∧ reason = .denied
        | .push _ => if x.power.state ≠ .run then reason = .state else x.line.blockSize = 0 ∧ reason = .notEnabled
        | .power target _ =>
          if (x.power.state, target) ∈ [(PowerState.off, Target.off), (.off, .park), (.standby, .standby), (.listen, .listen),
            (.run, .run)] then False
          else if s.lid.state = .opened ∧ target ≠ .off ∧ target ≠ .park then reason = .interlocked
          else (x.power.state ∈ [PowerState.starting, .parking, .fault] ∨
            (target = .standby ∧ (x.power.state = .run ∨ x.power.state = .listen))) ∧ reason = .state
        | .press _ _ => x.power.state ≠ .run ∧ x.power.state ≠ .listen ∧ reason = .state
        | .attach ports _ => (∃ p : Port, ports.getLsbD p.val = true ∧ s.ports[p].map Hold.slot = some i) ∧ reason = .state
        | .await k => x.capture.triggers[k].enabled = false ∧ reason = .state
        | .measure _ | .detach _ => False
      (∀ reason, st.doom = none → fails reason →
        exec (.stepStart i) s = .next (finish [i] (endStep i (.startFailed reason) u))) ∧
      (∀ d, st.doom = some d → exec (.drain i) s = .next (finish [i] (endStep i (.doomed d) u)) ∧ exec (.stepStart i) s = .next s) ∧
      (st.doom = none → exec (.drain i) s = .next s)) ∧
    ((x.engine.flight ≠ none ∨ x.engine.waiting = [] ∨ 8 ≤ x.engine.done.length) →
      exec (.stepStart i) s = .next s ∧ exec (.drain i) s = .next s)

/-- POWER steps whose target is reached at the start, or by a move complete in it, complete PASS at once; a move out of RUN waits while the
transmitter is SENDING; a PARK from RUN with the transmitter IDLE or from LISTEN enters PARKING at once, takes the park settings, arms
the hold and sends the shutdown line with the next tag where the guard allows it; RUN is reached from LISTEN at once and through STARTING from
STANDBY SETTLED; during the settle the target is taken over (R8, R73 to R75, R78, R83, R104, R158). -/
def Obligations.PowerStepStartsItsMove : Prop :=
  ∀ (s : State) (i : Slot) (st : StepRecord) (rest : List StepRecord) (target : Target) (keys : KeyCombo),
    (s.slot i).engine.flight = none → (s.slot i).engine.waiting = st :: rest → (s.slot i).engine.done.length < 8 → st.doom = none →
    st.kind = .power target keys →
    let x := s.slot i
    let begun (w : Option Window) : SlotState :=
      { x with engine.flight := some ⟨st, s.time, none, none, none, w⟩, engine.waiting := rest }
    let window : Option Window := if st.limitSet = none ∨ target ≠ .run then none else some ⟨0, 0, 0, 0, s.time, false⟩
    let cut (y : SlotState) : SlotState := { y with
      line := { y.line with tx := none, txWaiting := none, assembler := ⟨[], false, false, false⟩ }
      sampler := { y.sampler with overcurrent := 0, undervolt := 0, parkHistory := [] }
      power := { y.power with
        state := .off, phase := .none, target := none, settle := none, keys := 0#3, pressRelease := none, bootWait := none
        parkHold := none } }
    let passes (y : SlotState) : Prop := exec (.stepStart i) s = .next (finish [i] (endStep i .normal (s.setSlot i y)))
    let waits (y : SlotState) : Prop := exec (.stepStart i) s = .next (uplink (s.setSlot i y))
    let lidAllows : Prop := s.lid.state = .opened → target = .off ∨ target = .park
    ((x.power.state, target) ∈ [(PowerState.off, Target.off), (.off, .park), (.standby, .standby), (.listen, .listen), (.run, .run)] →
      passes (begun none)) ∧
    ((target = .off ∨ target = .park) → x.power.state = .standby → passes (cut (begun none))) ∧
    (target = .off → x.power.state = .listen → passes (cut (begun none))) ∧
    (target = .off → x.power.state = .run → x.line.tx = none → passes (cut (begun none))) ∧
    (x.power.state = .standby → x.power.phase ≠ .settling → target = .listen → lidAllows →
      passes { begun none with power := { x.power with state := .listen, phase := .none, target := none } }) ∧
    (x.power.state = .run → target = .listen → x.line.tx = none → lidAllows →
      passes { begun none with power := { x.power with state := .listen, phase := .none, target := none } }) ∧
    (x.power.state = .listen → target = .run → lidAllows →
      passes { begun none with power := { x.power with state := .run, phase := .none, target := none } }) ∧
    (target = .park → (x.power.state = .run ∨ x.power.state = .listen) → x.line.tx = none →
      let code := x.power.settings.shutdownCode
      waits { begun none with
        line := if s.guardDecision code i = .allow then
            { x.line with
              nextTag := if x.line.nextTag = 0xFF#8 then 1#8 else x.line.nextTag + 1#8
              tx := some ⟨.controller, .line ([0x21#8] ++ hexOf 2 x.line.nextTag.toNat ++ hexOf 4 code.toNat ++ [0x0D#8, 0x0A#8])⟩ }
          else x.line
        sampler.parkHistory := []
        power := { x.power with
          state := .parking, phase := .none, target := some .park, parkLevel := x.power.settings.parkLevel
          parkHold := some (s.time + BitVec.ofNat 32 x.power.settings.parkHold) } }) ∧
    (x.power.state = .run → target ≠ .run → target ≠ .standby → x.line.tx ≠ none → lidAllows →
      waits { begun none with power := { x.power with target := some target, phase := .leaving } }) ∧
    (x.power.state = .standby → x.power.phase = .settling → (target = .listen ∨ target = .run) → lidAllows →
      waits { begun window with power := { x.power with target := some target } }) ∧
    (x.power.state = .standby → x.power.phase ≠ .settling → target = .run → lidAllows →
      waits { begun window with power := { x.power with
        state := .starting, phase := .pressing, target := some .run, settle := none, bootWait := none, lineSinceRelease := false
        keys := x.power.keys ||| (match keys with
          | .none => 0b001#3
          | .voldown => 0b011#3
          | .strap => 0b101#3)
        pressRelease := some (s.time + BitVec.ofNat 32 x.power.settings.pressTime) } })

/-- An ATTACH that starts joins the wait list and the arbiter walks; a DETACH frees the named ports the slot holds, all of them for a mask of 0,
completes PASS with the released mask, and the arbiter walks if any was freed (R11, R12, R130, R131, R135). -/
def Obligations.AttachAndDetachStart : Prop :=
  ∀ (s : State) (i : Slot) (st : StepRecord) (rest : List StepRecord), s.WaitersInFlight →
    (s.slot i).engine.flight = none → (s.slot i).engine.waiting = st :: rest → (s.slot i).engine.done.length < 8 → st.doom = none →
    let u := s.modSlot i fun x => { x with engine.flight := some ⟨st, s.time, none, none, none, none⟩, engine.waiting := rest }
    let holds (p : Port) : Bool := decide (s.ports[p].map Hold.slot = some i)
    (∀ ports hold, st.kind = .attach ports hold → (∀ p : Port, ports.getLsbD p.val = true → holds p = false) →
      let w := walk { u with waitList := s.waitList ++ [⟨i, ports, s.time + BitVec.ofNat 32 st.timeout, hold⟩] }
      exec (.stepStart i) s = .next (finish w.2 w.1)) ∧
    (∀ ports, st.kind = .detach ports →
      let out (p : Port) : Bool := holds p && (decide (ports = 0#4) || ports.getLsbD p.val)
      let released : PortMask := BitVec.ofNat 4 (bitSet ((List.finRange 4).map out))
      let ended := endStep i (.detached released) { u with ports := Vector.ofFn fun p : Fin 4 => if out p then none else s.ports[p] }
      (released = 0#4 → exec (.stepStart i) s = .next (finish [i] ended)) ∧
      (released ≠ 0#4 → exec (.stepStart i) s = .next (finish (i :: (walk ended).2) (walk ended).1)))

/-- A due whole-step deadline ends an EXCHANGE, PUSH or AWAIT FAIL TIMEOUT, a due duration end ends a MEASURE or a PRESS with its normal end, a
PRESS releasing its keys; before they are due nothing happens (R14, R9, R10, R82; notes/assumptions/7.md, 9.md). -/
def Obligations.StepDeadlinesEndTheirSteps : Prop :=
  ∀ (s : State) (i : Slot) (f : Flight) (d : Time), (s.slot i).engine.flight = some f → f.deadline = some d →
    let due : Prop := (s.time - d).toNat < 2147483648
    ((f.step.kind.code = 0 ∨ f.step.kind.code = 1 ∨ f.step.kind.code = 7) →
      (due → exec (.stepDeadlineExpiry i) s = .next (finish [i] (endStep i .timeout s))) ∧
      (¬ due → exec (.stepDeadlineExpiry i) s = .next s)) ∧
    (f.step.kind.code = 3 →
      (due → exec (.measureDurationEnd i) s = .next (finish [i] (endStep i .normal s))) ∧
      (¬ due → exec (.measureDurationEnd i) s = .next s)) ∧
    (∀ keys ms, f.step.kind = .press keys ms →
      (due → exec (.pressDurationEnd i) s = .next (finish [i] (endStep i .normal
        (s.modSlot i fun x => { x with power.keys := x.power.keys &&& ~~~keys })))) ∧
      (¬ due → exec (.pressDurationEnd i) s = .next s))

/-! ### Samples and faults -/

/-- Entry to FAULT cuts the rail, records the cause, ends the step in flight FAIL FAULTED (ABORTED where its abort was taken first), dooms
the queue with FAULTED, frees the slot's ports, removes its wait entry, marks FAULT and POWER, and lets the arbiter walk (R86, R19, R23, R73,
R137). -/
def Obligations.FaultCutsTheSlot : Prop :=
  ∀ (s : State) (i : Slot) (cause : FaultCause),
    let e : Ending := if (s.slot i).engine.flight.any Flight.aborting then .aborted else .faulted
    let u := s.modSlot i fun x => { x with
      engine.waiting := x.engine.waiting.map fun st => if st.doom = none then { st with doom := some .faulted } else st
      line := { x.line with tx := none, txWaiting := none, assembler := ⟨[], false, false, false⟩ }
      sampler := { x.sampler with overcurrent := 0, undervolt := 0, parkHistory := [] }
      power := { x.power with
        state := .fault, phase := .none, target := none, settle := none, keys := 0#3, pressRelease := none, bootWait := none
        parkHold := none, cause := cause }
      notices := { x.notices with fault := true, power := true } }
    let dropped : State := { endStep i e u with
      ports := s.ports.map fun h => if h.map Hold.slot = some i then none else h
      waitList := s.waitList.filter fun w => decide (w.slot ≠ i) }
    enterFault i cause s = ((walk dropped).1, i :: (walk dropped).2)

/-- A sample with the rail on is converted and calibrated, moves both trip counts, and is the last sample. The fourth consecutive current above
the trip level or the twentieth voltage below the floor puts the slot into FAULT; else in PARKING it joins the park history, whose first sum
of 100 below the park level ends the park PASS; else it joins the open window (R96 to R98, R100 to R103, R106, R84). The trip rows carry the
sample that trips; on another sample they do nothing (notes/assumptions/12.md). -/
def Obligations.SampleMovesTheDetectors : Prop :=
  ∀ (s : State) (i : Slot) (c v : AdcCode),
    let x := s.slot i
    let current : Nat := (max 0 (min ((((c.toNat * x.sampler.gain + 512) / 1024 : Nat) : Int) + x.sampler.offset) 4095)).toNat
    let voltage : Nat := v.toNat * 5 / 4
    let overs : Nat := if x.sampler.tripLevel < current then min (x.sampler.overcurrent + 1) 4 else 0
    let unders : Nat := if x.power.state = .standby ∧ x.power.phase = .settling then x.sampler.undervolt
      else if voltage < x.power.settings.railVoltage * 9 / 10 then min (x.sampler.undervolt + 1) 20 else 0
    let y : SlotState := { x with sampler := { x.sampler with
      lastSample := some (current, voltage), overcurrent := overs, undervolt := unders } }
    let railOn : Prop := x.power.state ≠ .off ∧ x.power.state ≠ .fault
    let history : List Nat :=
      (if x.sampler.parkHistory.length < 100 then x.sampler.parkHistory else x.sampler.parkHistory.drop 1) ++ [current]
    let isQuiet : Prop := x.power.state = .parking ∧ history.length = 100 ∧ history.sum < x.power.parkLevel * 100
    (¬ railOn → exec (.sample i c v) s = .next s) ∧
    (railOn → (overs = 4 ∨ unders = 20) →
      let r := enterFault i ⟨decide (overs = 4), decide (unders = 20)⟩ (s.setSlot i y)
      exec (.sample i c v) s = .next (finish r.2 r.1) ∧
        (overs = 4 → exec (.overcurrentTrip i c v) s = .next (finish r.2 r.1)) ∧
        (unders = 20 → exec (.undervoltTrip i c v) s = .next (finish r.2 r.1))) ∧
    (railOn → overs ≠ 4 → unders ≠ 20 →
      let z : SlotState := if x.power.state = .parking then { y with sampler.parkHistory := history } else y
      (∀ f, isQuiet → x.engine.flight = some f → f.step.kind.code = 2 →
        exec (.sample i c v) s = .next (finish [i] (endStep i .normal (s.setSlot i { z with
          line := { x.line with tx := none, txWaiting := none, assembler := ⟨[], false, false, false⟩ }
          sampler := { z.sampler with overcurrent := 0, undervolt := 0, parkHistory := [] }
          power := { x.power with
            state := .off, phase := .none, target := none, settle := none, keys := 0#3, pressRelease := none, bootWait := none
            parkHold := none, forced := false } })))) ∧
      (¬ isQuiet → exec (.sample i c v) s = .next (s.setSlot i { z with
        engine.flight := x.engine.flight.map fun f => { f with window := f.window.map fun w =>
          if w.n < 6050000 then
            { w with
              n := w.n + 1
              sum := w.sum + current
              peak := if w.n = 0 then current else max w.peak current
              min := if w.n = 0 then current else min w.min current }
          else { w with saturated := true } } }))) ∧
    ((¬ railOn ∨ overs ≠ 4) → exec (.overcurrentTrip i c v) s = .next s) ∧
    ((¬ railOn ∨ unders ≠ 20) → exec (.undervoltTrip i c v) s = .next s)

/-! ### The power controller's deadlines -/

/-- The settle check compares the last voltage with floor(set × 9 / 10), a free value where no sample stands (DESIGN CHOICE,
notes/assumptions/3.md): below it the slot enters FAULT with UNDERVOLT, whatever step is in flight, else the controller goes on toward its
target, and stays in STANDBY SETTLED where it has none, as after an abort or a FAIL_STEP hit. The press release lets go of every key but
STRAP and arms the boot wait; its expiry takes the slot to LISTEN and the step to FAIL TIMEOUT; the park hold's expiry cuts the rail with
FORCED and POWER, and the step completes PASS (R72, R76, R78, R79, R81, R85; due as in notes/assumptions/7.md, DEDUCED). -/
def Obligations.PowerDeadlinesMoveTheSlot : Prop :=
  ∀ (s : State) (i : Slot) (d : Time), (s.time - d).toNat < 2147483648 →
    let p := (s.slot i).power
    let powering (f : Flight) (target : Target) (keys : KeyCombo) : Prop :=
      (s.slot i).engine.flight = some f ∧ f.step.kind = .power target keys
    let moved (t : State) (q : Power) : State := t.modSlot i fun x => { x with power := q }
    (p.state = .standby → p.phase = .settling → p.settle = some d →
      let t : State := if (s.slot i).sampler.lastSample = none then { s with freeCount := s.freeCount + 1 } else s
      let voltage : Nat := match (s.slot i).sampler.lastSample with
        | some m => m.2
        | none => Config.openSettleVoltage s.freeCount
      let settled : Power := { p with phase := .settled, settle := none }
      (voltage < p.settings.railVoltage * 9 / 10 →
        let r := enterFault i ⟨false, true⟩ t
        exec (.settleEnd i) s = .next (finish r.2 r.1)) ∧
      (p.settings.railVoltage * 9 / 10 ≤ voltage →
        (p.target = none → exec (.settleEnd i) s = .next (uplink (moved t settled))) ∧
        ∀ f target keys, powering f target keys →
          (p.target = some .standby → exec (.settleEnd i) s =
            .next (finish [i] (endStep i .normal (moved t { settled with target := none })))) ∧
          (p.target = some .listen → exec (.settleEnd i) s =
            .next (finish [i] (endStep i .normal (moved t { settled with state := .listen, phase := .none, target := none })))) ∧
          (p.target = some .run → exec (.settleEnd i) s = .next (uplink (moved t { settled with
            state := .starting, phase := .pressing, bootWait := none, lineSinceRelease := false
            keys := p.keys ||| (match keys with
              | .none => 0b001#3
              | .voldown => 0b011#3
              | .strap => 0b101#3)
            pressRelease := some (s.time + BitVec.ofNat 32 p.settings.pressTime) }))))) ∧
    ∀ f target keys, powering f target keys →
    (p.state = .starting → p.phase = .pressing → p.pressRelease = some d →
      exec (.pressRelease i) s = .next (moved s { p with
        phase := .bootWait, keys := p.keys &&& 0b100#3, pressRelease := none, lineSinceRelease := false
        bootWait := some (s.time + BitVec.ofNat 32 f.step.timeout) })) ∧
    (p.state = .starting → p.phase = .bootWait → p.bootWait = some d →
      exec (.bootWaitExpiry i) s = .next (finish [i] (endStep i .timeout (moved s { p with
        state := .listen, phase := .none, target := none, keys := p.keys &&& 0b011#3, bootWait := none })))) ∧
    (p.state = .parking → p.parkHold = some d →
      exec (.parkHoldExpiry i) s = .next (finish [i] (endStep i .normal (s.modSlot i fun x => { x with
        line := { x.line with tx := none, txWaiting := none, assembler := ⟨[], false, false, false⟩ }
        sampler := { x.sampler with overcurrent := 0, undervolt := 0, parkHistory := [] }
        notices.power := true
        power := { x.power with
          state := .off, phase := .none, target := none, settle := none, keys := 0#3, pressRelease := none, bootWait := none
          parkHold := none, forced := true } }))))

/-! ### The transmitter -/

/-- When an item has been sent the waiting item begins, or the transmitter becomes IDLE; a PUSH in ABORTING whose block it was completes FAIL
ABORTED; a move out of RUN that waited is taken once the transmitter is IDLE, a park taking the park settings, arming the hold and sending
the shutdown line with the next tag where the guard allows it (R33, R23, R34, R75, R83, R84, R158). TRANSMIT_WAITING_ITEM, ABORTING_COMPLETE and
LEAVE_RUN, as commands, are the ITEM_SENT event under their own condition (DEDUCED, notes/assumptions/10.md). -/
def Obligations.ItemSentMovesTheTransmitter : Prop :=
  ∀ (s : State) (i : Slot) (item : TxItem), (s.slot i).line.tx = some item →
    let x := s.slot i
    let idle : PhoneLine := { x.line with tx := none, txWaiting := none }
    (x.power.phase ≠ .leaving → (∀ f, x.engine.flight = some f → f.aborting = false) →
      (exec (.itemSent i) s = .next (uplink (s.modSlot i fun y => { y with
        line := { y.line with tx := y.line.txWaiting, txWaiting := none } }))) ∧
      (∀ w, x.line.txWaiting = some w → exec (.transmitWaitingItem i) s = .next (uplink (s.modSlot i fun y => { y with
        line := { y.line with tx := some w, txWaiting := none } })))) ∧
    (∀ f, x.power.phase ≠ .leaving → x.engine.flight = some f → f.aborting = true → item.owner = .step → x.line.txWaiting = none →
      let sent := (endStep i .aborted s).modSlot i fun y => { y with line := { y.line with tx := none } }
      exec (.itemSent i) s = .next (finish [i] sent) ∧ exec (.abortingComplete i) s = .next (finish [i] sent)) ∧
    (∀ f target keys, x.power.state = .run → x.power.phase = .leaving → x.power.target = some target → x.line.txWaiting = none →
      x.engine.flight = some f → f.step.kind = .power target keys → f.push = none →
      (target = .listen →
        let u := endStep i .normal (s.modSlot i fun y => { y with
          line := idle, power := { y.power with state := .listen, phase := .none, target := none } })
        exec (.itemSent i) s = .next (finish [i] u) ∧ exec (.leaveRun i) s = .next (finish [i] u)) ∧
      (target = .off →
        let u := endStep i .normal (s.modSlot i fun y => { y with
          line := { idle with assembler := ⟨[], false, false, false⟩ }
          sampler := { y.sampler with overcurrent := 0, undervolt := 0, parkHistory := [] }
          power := { y.power with
            state := .off, phase := .none, target := none, settle := none, keys := 0#3, pressRelease := none, bootWait := none
            parkHold := none } })
        exec (.itemSent i) s = .next (finish [i] u) ∧ exec (.leaveRun i) s = .next (finish [i] u)) ∧
      (target = .park →
        let code := x.power.settings.shutdownCode
        let u := s.modSlot i fun y => { y with
          line := if s.guardDecision code i = .allow then
              { idle with
                nextTag := if x.line.nextTag = 0xFF#8 then 1#8 else x.line.nextTag + 1#8
                tx := some ⟨.controller, .line ([0x21#8] ++ hexOf 2 x.line.nextTag.toNat ++ hexOf 4 code.toNat ++ [0x0D#8, 0x0A#8])⟩ }
            else idle
          sampler.parkHistory := []
          power := { y.power with
            state := .parking, phase := .none, parkLevel := y.power.settings.parkLevel
            parkHold := some (s.time + BitVec.ofNat 32 y.power.settings.parkHold) } }
        exec (.itemSent i) s = .next (uplink u) ∧ exec (.leaveRun i) s = .next (uplink u)))

/-! ### The lid -/

/-- The lid input arms the recognition deadline 10 ms ahead when it opens and disarms it when it closes; a closing input closes an OPEN lid
with LINK_ERROR. When the deadline is due the lid is OPEN with LINK_ERROR, every rail-on slot is cut to OFF with INTERLOCK, its step ends
FAIL INTERLOCKED, its queue is doomed, its ports and wait entry go, a slot in FAULT gains INTERLOCK, and the arbiter walks once (R90, R91,
R19, R23, R73, R137). Due is as in notes/assumptions/7.md (DEDUCED); an input that opens while it is open changes nothing (DESIGN CHOICE,
notes/assumptions/9.md); the pages freed by PUSH steps that end join the free list in the order of the slots (DESIGN CHOICE,
notes/assumptions/4.md, 8.md). -/
def Obligations.LidOpensAndCloses : Prop :=
  ∀ s : State,
    (s.lid.input = false → s.lid.state = .closed →
      exec .lidInputOpens s = .next { s with lid := ⟨.closed, true, some (s.time + 10#32)⟩ }) ∧
    (s.lid.input = true → exec .lidInputOpens s = .next s) ∧
    (s.lid.state = .closed → exec .lidInputCloses s = .next { s with lid := ⟨.closed, false, none⟩ }) ∧
    (s.lid.state = .opened →
      exec .lidInputCloses s = .next (uplink { s with lid := ⟨.closed, false, none⟩, link.linkError := true })) ∧
    (∀ d, s.lid.state = .closed → s.lid.deadline = some d → (s.time - d).toNat < 2147483648 →
      let railOn (i : Slot) : Prop := (s.slot i).power.state ≠ .off ∧ (s.slot i).power.state ≠ .fault
      let cut (x : SlotState) : SlotState := { x with
        engine.waiting := x.engine.waiting.map fun st => if st.doom = none then { st with doom := some .interlocked } else st
        line := { x.line with tx := none, txWaiting := none, assembler := ⟨[], false, false, false⟩ }
        sampler := { x.sampler with overcurrent := 0, undervolt := 0, parkHistory := [] }
        power := { x.power with
          state := .off, phase := .none, target := none, settle := none, keys := 0#3, pressRelease := none, bootWait := none
          parkHold := none, interlock := true }
        notices.power := true }
      let ending (x : SlotState) : Ending := if x.engine.flight.any Flight.aborting then .aborted else .interlocked
      ∃ u : State, exec .lidRecognisedOpen s =
          .next (finish (((List.finRange 24).filter fun i => decide (railOn i)) ++ (walk u).2) (walk u).1) ∧
        u.lid = { s.lid with state := .opened, deadline := none } ∧ u.link = { s.link with linkError := true } ∧
        (∀ i : Slot, railOn i → u.slot i = (endStep i (ending (s.slot i)) (s.modSlot i cut)).slot i) ∧
        (∀ i : Slot, (s.slot i).power.state = .fault →
          u.slot i = { s.slot i with power.interlock := true, notices.power := true }) ∧
        (∀ i : Slot, (s.slot i).power.state = .off → u.slot i = s.slot i) ∧
        (∀ (p : Port) (h : Hold), s.ports[p] = some h → railOn h.slot → u.ports[p] = none) ∧
        (∀ p : Port, (∀ h, s.ports[p] = some h → ¬ railOn h.slot) → u.ports[p] = s.ports[p]) ∧
        u.waitList = s.waitList.filter (fun e => decide (¬ railOn e.slot)) ∧
        u.store = ((List.finRange 24).filter fun i => decide (railOn i)).foldl (fun t i => match (s.slot i).engine.flight with
          | some f => t.afterStep f.step.kind
          | none => t) s.store ∧
        u.time = s.time ∧ u.limits = s.limits ∧ u.guard = s.guard ∧ u.guardDefault = s.guardDefault ∧ u.freeCount = s.freeCount ∧
        u.pending = s.pending)

/-! ### The arbiter -/

/-- A due wait deadline removes its entry and ends its ATTACH FAIL TIMEOUT; a due hold deadline frees its port into the holder's expired mask
with EXPIRY; each then lets the arbiter walk. A grant gives the named ports to the slot with a common hold deadline, joins them to the
granted mask with GRANT, and completes the ATTACH PASS; and after a walk no entry is left that could be granted (R131 to R134, R139). Due is as
in notes/assumptions/7.md (DEDUCED), and GRANT as a command of its own grants under the same condition (DEDUCED, notes/assumptions/10.md). -/
def Obligations.ArbiterExpiresAndGrants : Prop :=
  ∀ (s : State) (i : Slot),
    (∀ before e after, s.waitList = before ++ e :: after → e.slot = i → (∀ w ∈ before, w.slot ≠ i) →
      ((s.time - e.deadline).toNat < 2147483648 →
        let u := endStep i .timeout { s with waitList := s.waitList.filter fun w => decide (w.slot ≠ i) }
        exec (.waitDeadlineExpiry i) s = .next (finish (i :: (walk u).2) (walk u).1)) ∧
      ((∀ p : Port, e.mask.getLsbD p.val = true → s.ports[p] = none ∧ ∀ w ∈ before, w.mask.getLsbD p.val = false) →
        let given : State := { s with
          waitList := s.waitList.filter fun w => decide (w.slot ≠ i)
          ports := Vector.ofFn fun p : Fin 4 =>
            if e.mask.getLsbD p.val then some ⟨i, s.time + BitVec.ofNat 32 e.hold⟩ else s.ports[p] }
        exec (.grant i) s = .next (finish [i] (endStep i .normal (given.modSlot i fun x => { x with
          granted := x.granted ||| e.mask, notices.grant := true }))))) ∧
    (∀ (p : Port) (h : Hold), s.ports[p] = some h → (s.time - h.deadline).toNat < 2147483648 →
      let u := ({ s with ports := s.ports.set p none }).modSlot h.slot fun x => { x with
        expired := x.expired ||| (1#4 <<< p.val), notices.expiry := true }
      exec (.holdExpiry p) s = .next (finish (walk u).2 (walk u).1)) ∧
    (s.WaitersInFlight → (walk s).1.grantDue i = none)

/-! ### Received bytes and lines -/

/-- A received byte is lost while the line is unpowered or the rail settles, joins the line being assembled while the phone runs, and wakes a
slot in STANDBY SETTLED into LISTEN with WOKE and POWER, becoming its first byte; a byte that is an LF is the line's end, in STANDBY SETTLED too
(R36 to R39, R89), which `LinesAreClassified` states. A framing error of a byte past the 250 kept marks the line DAMAGED (DEDUCED,
notes/assumptions/13.md), and WAKE outside STANDBY SETTLED changes nothing (DESIGN CHOICE, notes/assumptions/9.md). -/
def Obligations.ReceivedBytesJoinTheLine : Prop :=
  ∀ (s : State) (i : Slot) (b : Byte) (framingError : Bool),
    let x := s.slot i
    let pushed (a : Assembler) : Assembler :=
      if a.kept.length < 250 then { a with kept := a.kept ++ [b], damaged := a.damaged || framingError }
      else ⟨a.kept, true, a.damaged || framingError, !a.long && decide (b = 0x0D#8)⟩
    let wakes : State := uplink (s.modSlot i fun y => { y with
      line.assembler := pushed y.line.assembler
      power := { y.power with state := .listen, phase := .none, woke := true }
      notices.power := true })
    ((x.power.state = .off ∨ x.power.state = .fault ∨ (x.power.state = .standby ∧ x.power.phase = .settling)) →
      exec (.byteReceived i b framingError) s = .next s ∧ exec (.wake i b framingError) s = .next s ∧
        exec (.lineReceived i framingError) s = .next s) ∧
    (x.power.state ∈ [PowerState.starting, .run, .listen, .parking] →
      exec (.wake i b framingError) s = .next s ∧
      (b ≠ 0x0A#8 → exec (.byteReceived i b framingError) s = .next (s.modSlot i fun y => { y with
        line.assembler := pushed y.line.assembler }))) ∧
    (x.power.state = .standby → x.power.phase ≠ .settling →
      (b ≠ 0x0A#8 → exec (.byteReceived i b framingError) s = .next wakes ∧ exec (.wake i b framingError) s = .next wakes) ∧
      exec (.wake i 0x0A#8 framingError) s = exec (.lineReceived i framingError) s) ∧
    exec (.byteReceived i 0x0A#8 framingError) s = exec (.lineReceived i framingError) s

/-- An LF ends the line. A well-formed reply goes to the EXCHANGE or to the block of the PUSH that waits for its tag: a matched reply ends the
EXCHANGE, an ack moves the PUSH to its next block, completes it, or ends it FAIL PHONE_ERROR. Any other reply is STALE and any other line
LOG, and both go to the Capture Unit. An LF in STANDBY SETTLED first wakes the slot into LISTEN with WOKE and POWER (R37 to R39, R41 to R43, R45 to
R47, R57, R89). A framing error of the LF itself marks the line DAMAGED (DEDUCED, notes/assumptions/13.md). -/
def Obligations.LinesAreClassified : Prop :=
  ∀ (s : State) (i : Slot) (framingError : Bool),
    ((s.slot i).power.state ∈ [PowerState.starting, .run, .listen, .parking] ∨
      ((s.slot i).power.state = .standby ∧ (s.slot i).power.phase ≠ .settling)) →
    let x := s.slot i
    let a := x.line.assembler
    let content : List Byte := if a.long = false ∧ a.kept.getLast? = some 0x0D#8 then a.kept.dropLast else a.kept
    let l : Line := ⟨content, a.long && !a.beyondCr, a.damaged || framingError⟩
    let isReply (tag status : Nat) (payload : List Byte) : Prop := l.damaged = false ∧
      ∃ t1 t2 s1 s2 a1 a2 b1 b2, hexVal t1 = some a1 ∧ hexVal t2 = some a2 ∧ hexVal s1 = some b1 ∧ hexVal s2 = some b2 ∧
        tag = 16 * a1 + a2 ∧ status = 16 * b1 + b2 ∧
        ((content = [0x3D#8, t1, t2, s1, s2] ∧ payload = []) ∨
          (content = [0x3D#8, t1, t2, s1, s2, 0x20#8] ++ payload ∧ ∀ b ∈ payload, 0x20 ≤ b.toNat ∧ b.toNat ≤ 0x7E))
    let emptied : SlotState := { x with line.assembler := ⟨[], false, false, false⟩ }
    let u : State := s.setSlot i (if x.power.state = .standby then
        { emptied with
          power := { x.power with state := .listen, phase := .none, woke := true }
          notices.power := true }
      else emptied)
    let captured (kind : CaptureKind) : Prop :=
      exec (.lineReceived i framingError) s = .next (finish (captureLine i kind l u).2 (captureLine i kind l u).1)
    let matched (tag : Nat) (f : Flight) : Prop := x.engine.flight = some f ∧ f.tag = some (BitVec.ofNat 8 tag)
    ((¬ ∃ tag status payload, isReply tag status payload) → captured .log) ∧
    (∀ tag status payload, isReply tag status payload →
      ((¬ ∃ f, matched tag f) → captured .stale) ∧
      (∀ f, matched tag f →
        (∀ code argument, f.step.kind = .exchange code argument →
          exec (.lineReceived i framingError) s =
            .next (finish [i] (endStep i (.reply (BitVec.ofNat 8 status) payload) u))) ∧
        (∀ o p, f.step.kind = .push o → f.push = some p →
          let names : Prop := payload.length = 4 ∧ hexNumber payload = some p.current ∧
            x.line.txWaiting.map TxItem.owner ≠ some .step
          (¬ names → captured .stale) ∧
          (names → status ≠ 0 →
            exec (.lineReceived i framingError) s = .next (finish [i] (endStep i (.ackFailed (BitVec.ofNat 8 status)) u))) ∧
          (names → status = 0 → p.count ≤ p.current + 1 →
            exec (.lineReceived i framingError) s = .next (finish [i] (endStep i .normal (u.modSlot i fun y => { y with
              engine.flight := some { f with push := some { p with acked := p.current + 1 } } })))) ∧
          (names → status = 0 → p.current + 1 < p.count →
            let k := p.current + 1
            let length := min p.blockSize ((s.store.object o).length - k * p.blockSize)
            let block : TxItem := ⟨.step, .block ([0x2A#8] ++ hexOf 2 tag ++ hexOf 4 k ++ [0x20#8] ++ hexOf 4 length ++ [0x0D#8, 0x0A#8])
              (s.store.object o).pages (k * p.blockSize) length⟩
            exec (.lineReceived i framingError) s = .next (uplink (u.modSlot i fun y => { y with
              engine.flight := some { f with push := some { p with current := k, acked := k } }
              line := { y.line with
                tx := if y.line.tx = none then some block else y.line.tx
                txWaiting := if y.line.tx = none then y.line.txWaiting else some block } }))))))

/-- A LOG line is tried on every trigger, its hits are counted to 255, a NOTE hit marks TRIGGER, and the line is offered to the ring where the
filter accepts it; a STALE line is offered as it is. An offered line is stored whole, or discarded whole with the overrun flag; either way
LINES is marked as R53 and R54 say. In STARTING BOOT_WAIT a line is stored and counted likewise, and has used up "the first line" (its BOOT
trigger case is DEDUCED, notes/assumptions/15.md). Outside the boot wait that is all a line does where no step is in flight, whatever triggers
it hits, or where it hits neither a FAIL_STEP trigger nor the awaited one (R51 to R54, R57, R59, R60, R62, R63, R65, R66). -/
def Obligations.CaptureCountsAndStoresLines : Prop :=
  ∀ (s : State) (i : Slot) (l : Line),
    let x := s.slot i
    let bootWaiting : Prop := x.power.state = .starting ∧ x.power.phase = .bootWait
    let hits (t : Trigger) : Prop := t.enabled = true ∧
      match t.mode with
        | .atStart => t.pattern <+: l.content
        | .anywhere => t.pattern <:+: l.content
    let agree (n k : Nat) : Prop := ∀ b ∈ l.content[n]?, ∀ bit < 8, (x.capture.filter.mask.toList.getD k 0#8).getLsbD bit = false →
      b.getLsbD bit = (x.capture.filter.code.toList.getD k 0#8).getLsbD bit
    let accepted : Prop := match x.capture.filter.mode with
      | .single => agree 0 0 ∧ agree 1 1 ∧ agree 2 2 ∧ agree 3 3
      | .dual => (agree 0 0 ∧ agree 1 1) ∨ (agree 0 2 ∧ agree 1 3)
    let used : Nat := (x.capture.ring.map fun c => 8 + c.content.length).sum
    let offered (kind : CaptureKind) (y : SlotState) : SlotState :=
      if used + (8 + l.content.length) ≤ 4096 then
        { y with
          capture.ring := y.capture.ring ++ [⟨s.time, kind, l.truncated, l.damaged, y.capture.overrun, l.content⟩]
          capture.overrun := false
          notices.lines := y.notices.lines || decide (y.capture.ring = []) }
      else { y with capture.overrun := true, notices.lines := true }
    let seen : SlotState := { x with power.lineSinceRelease :=
      x.power.lineSinceRelease || decide (x.power.state = .starting ∧ x.power.phase = .bootWait) }
    x.captureUpdate s.time .stale l = offered .stale seen ∧
    (¬ bootWaiting → captureLine i .stale l s = (s.setSlot i (offered .stale x), [])) ∧
    (∀ after : Vector Trigger 4, (∀ k : Fin 4, (hits x.capture.triggers[k] → after[k] =
          { x.capture.triggers[k] with hits := if x.capture.triggers[k].hits < 255 then x.capture.triggers[k].hits + 1
            else x.capture.triggers[k].hits }) ∧ (¬ hits x.capture.triggers[k] → after[k] = x.capture.triggers[k])) →
      ∀ noted : Bool, (noted = true ↔ ∃ k : Fin 4, hits x.capture.triggers[k] ∧ x.capture.triggers[k].action = .note) →
      let y : SlotState := { seen with capture.triggers := after, notices.trigger := x.notices.trigger || noted }
      (accepted → x.captureUpdate s.time .log l = offered .log y) ∧
      (¬ accepted → x.captureUpdate s.time .log l = y)) ∧
    (¬ bootWaiting →
      (x.engine.flight = none ∨
        ((∀ k : Fin 4, hits x.capture.triggers[k] → x.capture.triggers[k].action ≠ .failStep) ∧
          ∀ f k, x.engine.flight = some f → f.step.kind = .await k → ¬ hits x.capture.triggers[k])) →
      captureLine i .log l s = (s.setSlot i (x.captureUpdate s.time .log l), []))

/-- On a captured line, first the boot banner takes a slot in STARTING with the key released to RUN and completes its POWER step PASS, or FAIL
TRIGGER when a FAIL_STEP trigger hits too; else a hit of the awaited trigger completes the AWAIT PASS; else a FAIL_STEP hit ends the step in
flight FAIL TRIGGER, unless its abort has been taken. With no step in flight a FAIL_STEP hit is only counted (R64 to R67, R80). A line that came
while a BOOT trigger was enabled has used up "the first line" too (DEDUCED, notes/assumptions/15.md). -/
def Obligations.LinesEndStepsAndBoots : Prop :=
  ∀ (s : State) (i : Slot) (kind : CaptureKind) (l : Line),
    let x := s.slot i
    let u := s.modSlot i fun y => y.captureUpdate s.time kind l
    let hit (action : TriggerAction) : Prop :=
      kind = .log ∧ ∃ k : Fin 4, x.capture.triggers[k].hitsOn l.content = true ∧ x.capture.triggers[k].action = action
    let bootTrigger : Prop := ∃ k : Fin 4, x.capture.triggers[k].enabled = true ∧ x.capture.triggers[k].action = .boot
    let banner : Prop := x.power.state = .starting ∧ x.power.phase = .bootWait ∧
      ((bootTrigger ∧ hit .boot) ∨ (¬ bootTrigger ∧ x.power.lineSinceRelease = false))
    let awaited (f : Flight) : Prop := kind = .log ∧ ∃ k, f.step.kind = .await k ∧ x.capture.triggers[k].hitsOn l.content = true
    let booted := u.modSlot i fun y => { y with power := { y.power with
      state := .run, phase := .none, target := none, keys := y.power.keys &&& 0b011#3, bootWait := none } }
    (x.engine.flight = none → ¬ banner → captureLine i kind l s = (u, [])) ∧
    ∀ f, x.engine.flight = some f →
    (banner → f.step.kind.code = 2 →
      (hit .failStep → captureLine i kind l s = (endStep i .trigger booted, [i])) ∧
      (¬ hit .failStep → captureLine i kind l s = (endStep i .normal booted, [i]))) ∧
    (¬ banner → awaited f → captureLine i kind l s = (endStep i .normal u, [i])) ∧
    (¬ banner → ¬ awaited f → hit .failStep →
      (f.aborting = true → captureLine i kind l s = (u, [])) ∧
      (f.aborting = false → match f.step.kind with
        | .press keys _ => captureLine i kind l s = (endStep i .trigger (u.modSlot i fun y => { y with
            power.keys := y.power.keys &&& ~~~keys }), [i])
        | .power _ _ => captureLine i kind l s = (endStep i .trigger (u.modSlot i SlotState.endPowerEarly), [i])
        | .attach _ _ =>
          let w := walk (endStep i .trigger { u with waitList := u.waitList.filter fun e => decide (e.slot ≠ i) })
          captureLine i kind l s = (w.1, i :: w.2)
        | .exchange _ _ | .push _ | .measure _ | .detach _ | .await _ => captureLine i kind l s = (endStep i .trigger u, [i]))) ∧
    (¬ banner → ¬ awaited f → ¬ hit .failStep → captureLine i kind l s = (u, []))

/-! ### Numbers -/

/-- The score of R120: 0 outside the limits or with no value, 253 when the half-width is 0, else 1 + floor(252 × m / h); and so it lies within
0 to 253, and is 0 exactly when the value is missing or outside. -/
def Obligations.ScoreFollowsTheMargin : Prop :=
  ∀ lo hi : Int, lo ≤ hi →
    score none lo hi = 0 ∧
    ∀ r : Int,
      ((r < lo ∨ hi < r) → score (some r) lo hi = 0) ∧
      (lo ≤ r → r ≤ hi →
        let m : Int := min (r - lo) (hi - r)
        let h : Int := (hi - lo) / 2
        0 ≤ m ∧ m ≤ h ∧ (h = 0 → score (some r) lo hi = 253) ∧ (h ≠ 0 → (score (some r) lo hi : Int) = 1 + 252 * m / h) ∧
          (m = h → score (some r) lo hi = 253)) ∧
      score (some r) lo hi ≤ 253 ∧ (score (some r) lo hi = 0 ↔ r < lo ∨ hi < r)

/-- The calibrated current of R98: clamp(floor((c × g + 512) / 1024) + o, 0, 4095), within 0 to 4095, and the code itself at gain 1024 and
offset 0. -/
def Obligations.CalibrationRoundsAndClamps : Prop :=
  ∀ (c : AdcCode) (g : Nat) (o : Int),
    let rounded : Int := ((c.toNat : Int) * (g : Int) + 512) / 1024
    (rounded + o < 0 → calibrate c g o = 0) ∧ (4095 < rounded + o → calibrate c g o = 4095) ∧
    (0 ≤ rounded + o → rounded + o ≤ 4095 → (calibrate c g o : Int) = rounded + o) ∧
    calibrate c g o ≤ 4095 ∧ calibrate c 1024 0 = c.toNat ∧
    (g ≤ 2048 → c.toNat * g ≤ 8386560 ∧ c.toNat * g + 512 ≤ 8387072)

/-- The results of a window closed over the samples added to it: how many, the mean with halves rounded up, peak, min, the charge and the
duration, with min ≤ mean ≤ peak; NO_DATA where there was none (R104, R106 to R109). -/
def Obligations.WindowResultsFollowTheSamples : Prop :=
  ∀ (samples : List Nat) (opened now : Time), samples.length ≤ 6050000 →
    let m := (samples.foldl Window.add ⟨0, 0, 0, 0, opened, false⟩).close now
    m.n = samples.length ∧ m.duration = (now - opened).toNat ∧ m.saturated = false ∧
    (samples = [] → m.values = none) ∧
    (samples ≠ [] → ∃ peak min : Nat, peak ∈ samples ∧ min ∈ samples ∧ (∀ c ∈ samples, min ≤ c ∧ c ≤ peak) ∧
      m.values = some ((samples.sum + samples.length / 2) / samples.length, peak, min, (samples.sum + 18000) / 36000) ∧
      min ≤ (samples.sum + samples.length / 2) / samples.length ∧ (samples.sum + samples.length / 2) / samples.length ≤ peak)

/-- The item of an entry is its score and its result for its metric's raw value: mean, peak, min and charge of the closed window, none of them
where it holds no sample, the duration, and REPLY_NUMBER, the first run of at most ten digits of the reply payload with the minus before it,
saturated to 32 bits, none without a payload or a digit (R117 to R119). The result of an entry by its threshold (R122), and the verdict by the
classes and results of a graded set (R123). -/
def Obligations.ResultsAndVerdictFollowTheTable : Prop :=
  (∀ (m : Measurement) (reply : Option ReplyPart) (k : Fin 64) (e : LimitEntry),
    let itemIs (raw : Option Int) : Prop :=
      gradeItem m reply k e = ⟨k, score raw e.lo e.hi, gradeResult e.threshold raw (score raw e.lo e.hi)⟩
    let isDigit (b : Byte) : Prop := 0x30 ≤ b.toNat ∧ b.toNat ≤ 0x39
    (∀ mean peak min charge : Nat, m.values = some (mean, peak, min, charge) →
      (e.metric = .mean → itemIs (some mean)) ∧ (e.metric = .peak → itemIs (some peak)) ∧ (e.metric = .min → itemIs (some min)) ∧
        (e.metric = .charge → itemIs (some charge))) ∧
    (m.values = none → e.metric ∈ [Metric.mean, .peak, .min, .charge] → itemIs none) ∧
    (e.metric = .duration → itemIs (some m.duration)) ∧
    (e.metric = .replyNumber →
      ((∀ q, reply = some q → q.payload = none) → itemIs none) ∧
      ∀ (q : ReplyPart) (payload : List Byte) (truncated : Bool), reply = some q → q.payload = some (payload, truncated) →
        ((∀ b ∈ payload, ¬ isDigit b) → itemIs none) ∧
        ∀ before digits after : List Byte, payload = before ++ digits ++ after → (∀ b ∈ before, ¬ isDigit b) →
          1 ≤ digits.length → digits.length ≤ 10 → (∀ b ∈ digits, isDigit b) →
          (digits.length = 10 ∨ ∀ b ∈ after.head?, ¬ isDigit b) →
          let magnitude : Int := digits.foldl (fun n b => 10 * n + ((b.toNat : Int) - 0x30)) 0
          let number : Int := if before.getLast? = some 0x2D#8 then -magnitude else magnitude
          itemIs (some (max (-2147483648) (min number 2147483647))))) ∧
  (∀ (threshold : Nat) (raw : Option Int) (sc : Nat),
    (threshold = 0 → gradeResult threshold raw sc = .pass) ∧
    (threshold = 255 → gradeResult threshold raw sc = .fail) ∧
    (1 ≤ threshold → threshold ≤ 253 → raw = none → gradeResult threshold raw sc = .noData) ∧
    (1 ≤ threshold → threshold ≤ 253 → raw ≠ none → threshold < sc → gradeResult threshold raw sc = .pass) ∧
    (1 ≤ threshold → threshold ≤ 253 → raw ≠ none → sc ≤ threshold → gradeResult threshold raw sc = .fail)) ∧
  ∀ items : List (LimitClass × GradeItem),
    let fails (c : LimitClass) : Prop := ∃ g ∈ items, g.1 = c ∧ (g.2.result = .fail ∨ g.2.result = .noData)
    (fails .gate → verdictOf items = .fail) ∧ (¬ fails .gate → fails .watch → verdictOf items = .advisory) ∧
      (¬ fails .gate → ¬ fails .watch → verdictOf items = .pass)

/-! ### Invariants -/

/-- Every step keeps the lid's safety: while the lid is OPEN no rail is on (R91, R8, R71). -/
def Obligations.EveryStepKeepsTheLidSafe : Prop := ∀ s t : State, s.LidSafe → step s = .next t → t.LidSafe

/-- Every step keeps a slot whose rail is off quiet, and keeps the law of the phone line: nothing is sent but in RUN, or in PARKING the
controller's shutdown line, behind which nothing waits (R35, R40, R73, R77). -/
def Obligations.EveryStepKeepsTheLineLaw : Prop :=
  ∀ s t : State, s.WaitersInFlight → s.OffQuiet → s.LineLaw → step s = .next t → t.OffQuiet ∧ t.LineLaw

/-- Every step keeps the bounds: 16 steps in a queue, 8 records and reservations in a list, 4096 bytes in a ring, 8 replies, 4096 bytes inbound
(R2, R3, R25, R51, R53, R166, R169). -/
def Obligations.EveryStepKeepsTheBounds : Prop :=
  ∀ s t : State, step s = .next t →
    (s.QueueBounded → t.QueueBounded) ∧ (s.ListBounded → t.ListBounded) ∧ (s.RingBounded → t.RingBounded) ∧
      (s.RepliesBounded → t.RepliesBounded) ∧ (s.InboundBounded → t.InboundBounded)

/-- Every step keeps the pages' account (each of the 512 pages free or in one object), the references' account (each object's references are
the PUSH steps that name it) and the canonical form of the pool's bytes (R142, R143, R148 to R150). -/
def Obligations.EveryStepKeepsTheStoreAccounts : Prop :=
  ∀ s t : State, step s = .next t →
    (s.PoolCanonical → t.PoolCanonical) ∧
    (s.PagesAccounted → s.ReferencesAccounted → t.PagesAccounted ∧ t.ReferencesAccounted)

/-- Every step carries out the starts and the grants it makes possible: no head that could start and no entry that could be granted is left
waiting, and every wait entry belongs to an ATTACH in flight (R3, R5, R130, R131). -/
def Obligations.EveryStepLeavesNothingWaitingInVain : Prop :=
  ∀ s t : State, s.WaitersInFlight → s.NoHeadWaitsInVain → s.NoEntryWaitsInVain → step s = .next t →
    t.WaitersInFlight ∧ t.NoHeadWaitsInVain ∧ t.NoEntryWaitsInVain

/-- The invariants hold of the state after reset. -/
def Obligations.ResetMeetsTheInvariants : Prop :=
  State.reset.LidSafe ∧ State.reset.OffQuiet ∧ State.reset.LineLaw ∧ State.reset.QueueBounded ∧ State.reset.ListBounded ∧
    State.reset.RingBounded ∧ State.reset.RepliesBounded ∧ State.reset.InboundBounded ∧ State.reset.PoolCanonical ∧
    State.reset.PagesAccounted ∧ State.reset.ReferencesAccounted ∧ State.reset.WaitersInFlight ∧ State.reset.NoHeadWaitsInVain ∧
    State.reset.NoEntryWaitsInVain
end

