-- ==== Sys2Proof/Laws/Bytes.lean ====
section
/-! SUPPORT. Fields in bodies: what is read of a little-endian field is what was written in it. -/

namespace Sys2Proof.Machine

@[simp] theorem le_length (w n : Nat) : (le w n).length = w := by
  induction w generalizing n with
  | zero => rfl
  | succ w ih => simp [le, ih]

/-- A little-endian field holds its number modulo its width. -/
theorem leNat_le (w n : Nat) : leNat (le w n) = n % 256 ^ w := by
  induction w generalizing n with
  | zero => simp [le, leNat, Nat.mod_one]
  | succ w ih =>
    simp only [le, leNat, ih, BitVec.toNat_ofNat]
    rw [show (256 : Nat) ^ (w + 1) = 256 * 256 ^ w from by rw [Nat.pow_succ, Nat.mul_comm], Nat.mod_mul]

theorem leNat_lt (bs : List Byte) : leNat bs < 256 ^ bs.length := by
  induction bs with
  | nil => simp [leNat]
  | cons b bs ih =>
    have := b.isLt
    simp only [leNat, List.length_cons, Nat.pow_succ]
    omega

/-- A field of w bytes that follows a run of `front` bytes. -/
theorem field_append (front rest : List Byte) (w n : Nat) (h : n < 256 ^ w) :
    field (front ++ (le w n ++ rest)) front.length w = n := by
  unfold field
  rw [List.drop_left, List.take_append_of_le_length (by simp)]
  rw [List.take_of_length_le (by simp), leNat_le, Nat.mod_eq_of_lt h]

theorem byteNat_byte (n : Nat) (h : n < 256) : (byte n).toNat = n := by
  simp [byte, Nat.mod_eq_of_lt h]

/-- A signed field reads back. -/
theorem signedOf_leInt (z : Int) (lo : -2147483648 ≤ z) (hi : z ≤ 2147483647) :
    signedOf 4 (leNat (leInt 4 z)) = z := by
  have h : leNat (leInt 4 z) = (z % 4294967296).toNat := by
    rw [leInt, leNat_le]
    have : (z % ((256 ^ 4 : Nat) : Int)).toNat < 256 ^ 4 := by omega
    rw [Nat.mod_eq_of_lt this]; rfl
  rw [h, signedOf]
  norm_num
  split <;> omega

@[simp] theorem leInt_length (w : Nat) (z : Int) : (leInt w z).length = w := le_length w _

end Sys2Proof.Machine
end

