-- ==== Sys2Proof/Laws/State.lean ====
section
/-! SUPPORT. One lemma per field per update: what reading a slot or a field of State gives after the named updates of
Machine/Ops.lean, Machine/Flags.lean and Machine/CellRequests.lean. -/

namespace Sys2Proof.Machine

variable (s : State) (i j : Slot) (x y : SlotState) (f g : SlotState → SlotState)

/-! ### Reading a slot -/

@[simp] theorem State.slot_mk (t : Time) (po : Vector (Option Hold) 4) (wl : List WaitEntry) (li : Vector LimitEntry 64)
    (st : Store) (gu : Vector GuardEntry 8) (gd : GuardAction) (lk : Link) (ld : Lid) (fc : Nat) (pe : List Instr) :
    (State.mk t s.slots po wl li st gu gd lk ld fc pe).slot i = s.slot i := rfl

@[simp] theorem State.setSlot_slot_same : (s.setSlot i x).slot i = x := by
  simp [State.slot, State.setSlot]

theorem State.setSlot_slot_ne (h : j ≠ i) : (s.setSlot i x).slot j = s.slot j := by
  have h' : (i : Nat) ≠ (j : Nat) := fun e => h (Fin.ext e.symm)
  simp [State.slot, State.setSlot, h']

theorem State.setSlot_slot : (s.setSlot i x).slot j = if j = i then x else s.slot j := by
  split
  · next h => rw [h, State.setSlot_slot_same]
  · next h => exact State.setSlot_slot_ne s i j x h

@[simp] theorem State.modSlot_slot_same : (s.modSlot i f).slot i = f (s.slot i) := by
  simp [State.modSlot]

theorem State.modSlot_slot_ne (h : j ≠ i) : (s.modSlot i f).slot j = s.slot j :=
  State.setSlot_slot_ne s i j _ h

theorem State.modSlot_slot : (s.modSlot i f).slot j = if j = i then f (s.slot j) else s.slot j := by
  split
  · next h => rw [h, State.modSlot_slot_same]
  · next h => exact State.modSlot_slot_ne s i j f h

/-! ### The other fields after a change of one slot -/

@[simp] theorem State.setSlot_time : (s.setSlot i x).time = s.time := rfl
@[simp] theorem State.setSlot_ports : (s.setSlot i x).ports = s.ports := rfl
@[simp] theorem State.setSlot_waitList : (s.setSlot i x).waitList = s.waitList := rfl
@[simp] theorem State.setSlot_limits : (s.setSlot i x).limits = s.limits := rfl
@[simp] theorem State.setSlot_store : (s.setSlot i x).store = s.store := rfl
@[simp] theorem State.setSlot_guard : (s.setSlot i x).guard = s.guard := rfl
@[simp] theorem State.setSlot_guardDefault : (s.setSlot i x).guardDefault = s.guardDefault := rfl
@[simp] theorem State.setSlot_link : (s.setSlot i x).link = s.link := rfl
@[simp] theorem State.setSlot_lid : (s.setSlot i x).lid = s.lid := rfl
@[simp] theorem State.setSlot_freeCount : (s.setSlot i x).freeCount = s.freeCount := rfl
@[simp] theorem State.setSlot_pending : (s.setSlot i x).pending = s.pending := rfl

@[simp] theorem State.modSlot_time : (s.modSlot i f).time = s.time := rfl
@[simp] theorem State.modSlot_ports : (s.modSlot i f).ports = s.ports := rfl
@[simp] theorem State.modSlot_waitList : (s.modSlot i f).waitList = s.waitList := rfl
@[simp] theorem State.modSlot_limits : (s.modSlot i f).limits = s.limits := rfl
@[simp] theorem State.modSlot_store : (s.modSlot i f).store = s.store := rfl
@[simp] theorem State.modSlot_guard : (s.modSlot i f).guard = s.guard := rfl
@[simp] theorem State.modSlot_guardDefault : (s.modSlot i f).guardDefault = s.guardDefault := rfl
@[simp] theorem State.modSlot_link : (s.modSlot i f).link = s.link := rfl
@[simp] theorem State.modSlot_lid : (s.modSlot i f).lid = s.lid := rfl
@[simp] theorem State.modSlot_freeCount : (s.modSlot i f).freeCount = s.freeCount := rfl
@[simp] theorem State.modSlot_pending : (s.modSlot i f).pending = s.pending := rfl

/-! ### Changes of one slot, one after another -/

@[simp] theorem State.setSlot_setSlot : (s.setSlot i x).setSlot i y = s.setSlot i y := by
  simp only [State.setSlot, Vector.set_set]

@[simp] theorem State.modSlot_modSlot : (s.modSlot i f).modSlot i g = s.modSlot i (fun z => g (f z)) := by
  simp only [State.modSlot, State.setSlot_slot_same, State.setSlot_setSlot]

@[simp] theorem State.setSlot_self : s.setSlot i (s.slot i) = s := by
  simp [State.setSlot, State.slot]

/-- A state is its slots and its other fields. -/
theorem State.ext_of_slots {s t : State} (slots : ∀ i, s.slot i = t.slot i) (time : s.time = t.time) (ports : s.ports = t.ports)
    (waitList : s.waitList = t.waitList) (limits : s.limits = t.limits) (store : s.store = t.store) (guard : s.guard = t.guard)
    (guardDefault : s.guardDefault = t.guardDefault) (link : s.link = t.link) (lid : s.lid = t.lid)
    (freeCount : s.freeCount = t.freeCount) (pending : s.pending = t.pending) : s = t := by
  have hs : s.slots = t.slots := by
    apply Vector.ext
    intro k hk
    exact slots ⟨k, hk⟩
  cases s; cases t
  simp only at *
  subst hs time ports waitList limits store guard guardDefault link lid freeCount pending
  rfl

/-! ### The notice flags -/

@[simp] theorem Pending.put_get_same (p : Pending) (k : SlotNotice) (b : Bool) : (p.put k b).get k = b := by
  cases k <;> rfl

theorem Pending.put_get_ne (p : Pending) (k l : SlotNotice) (b : Bool) (h : l ≠ k) : (p.put k b).get l = p.get l := by
  cases k <;> cases l <;> first | rfl | exact absurd rfl h

@[simp] theorem State.markLinkError_slot : s.markLinkError.slot i = s.slot i := rfl
@[simp] theorem State.markLinkError_lid : s.markLinkError.lid = s.lid := rfl
@[simp] theorem State.markLinkError_store : s.markLinkError.store = s.store := rfl
@[simp] theorem State.markLinkError_linkError : s.markLinkError.link.linkError = true := rfl

/-! ### Every slot changed -/

theorem foldl_modSlot_slot (l : List Slot) (nd : l.Nodup) :
    ∀ s : State, (l.foldl (fun u k => u.modSlot k f) s).slot j = if j ∈ l then f (s.slot j) else s.slot j := by
  induction l with
  | nil => intro s; simp
  | cons a l ih =>
    intro s
    have nd' := List.nodup_cons.mp nd
    rw [List.foldl_cons, ih nd'.2, State.modSlot_slot]
    by_cases h : j = a
    · subst h; simp [nd'.1]
    · simp [h]

@[simp] theorem mapSlots_slot : (mapSlots f s).slot j = f (s.slot j) := by
  rw [mapSlots, allSlots, foldl_modSlot_slot j f (List.finRange 24) (List.nodup_finRange 24) s]
  simp

theorem foldl_modSlot_frame (l : List Slot) :
    ∀ s : State, (l.foldl (fun u k => u.modSlot k f) s).lid = s.lid ∧ (l.foldl (fun u k => u.modSlot k f) s).store = s.store
      ∧ (l.foldl (fun u k => u.modSlot k f) s).link = s.link ∧ (l.foldl (fun u k => u.modSlot k f) s).time = s.time := by
  induction l with
  | nil => intro s; exact ⟨rfl, rfl, rfl, rfl⟩
  | cons a l ih => intro s; exact ih (s.modSlot a f)

end Sys2Proof.Machine
end

