-- ==== Sys2Proof/Laws/Memory.lean ====
section
/-! SUPPORT. The bytes of the page pool: every memory operation keeps the canonical form, a read after a write to the same address
gives the byte written, and a write leaves every other address alone. -/

namespace Sys2Proof.Machine

@[simp] theorem Memory.read_nil (a : Nat) : Memory.read [] a = 0#8 := rfl

theorem Memory.wfFrom_mono {lo lo' : Nat} {m : Memory} (h : lo' ≤ lo) (w : Memory.wfFrom lo m = true) :
    Memory.wfFrom lo' m = true := by
  cases m with
  | nil => rfl
  | cons c m =>
    simp only [Memory.wfFrom, Bool.and_eq_true, decide_eq_true_eq] at w ⊢
    exact ⟨by omega, w.2⟩

/-- An address below every listed one reads 0. -/
theorem Memory.read_below {lo a : Nat} {m : Memory} (w : Memory.wfFrom lo m = true) (h : a < lo) : m.read a = 0#8 := by
  induction m generalizing lo with
  | nil => rfl
  | cons c m ih =>
    simp only [Memory.wfFrom, Bool.and_eq_true, decide_eq_true_eq] at w
    have hc : ¬ c.1 = a := by omega
    simp only [Memory.read, hc, if_false]
    exact ih w.2.2 (by omega)

theorem Memory.write_wfFrom {lo a : Nat} (b : Byte) {m : Memory} (w : Memory.wfFrom lo m = true) (h : lo ≤ a) :
    Memory.wfFrom lo (m.write a b) = true := by
  induction m generalizing lo with
  | nil =>
    unfold Memory.write
    split <;> simp_all [Memory.wfFrom]
  | cons c m ih =>
    simp only [Memory.wfFrom, Bool.and_eq_true, decide_eq_true_eq] at w
    unfold Memory.write
    split
    · next hlt =>
      split
      · simp only [Memory.wfFrom, Bool.and_eq_true, decide_eq_true_eq]; exact w
      · next hb =>
        simp only [Memory.wfFrom, Bool.and_eq_true, decide_eq_true_eq]
        exact ⟨h, hb, by omega, w.2⟩
    · split
      · next heq =>
        split
        · exact Memory.wfFrom_mono (by omega) w.2.2
        · next hb =>
          simp only [Memory.wfFrom, Bool.and_eq_true, decide_eq_true_eq]
          exact ⟨h, hb, heq ▸ w.2.2⟩
      · simp only [Memory.wfFrom, Bool.and_eq_true, decide_eq_true_eq]
        exact ⟨w.1, w.2.1, ih w.2.2 (by omega)⟩

/-- A write keeps the canonical form. -/
theorem Memory.write_wf (m : Memory) (a : Nat) (b : Byte) (w : m.wf = true) : (m.write a b).wf = true :=
  Memory.write_wfFrom b w (Nat.zero_le a)

theorem Memory.read_write_from {lo : Nat} (a a' : Nat) (b : Byte) {m : Memory} (w : Memory.wfFrom lo m = true) :
    (m.write a b).read a' = if a' = a then b else m.read a' := by
  induction m generalizing lo with
  | nil =>
    by_cases hb : b = 0#8
    · simp [Memory.write, hb]
    · by_cases ha : a' = a
      · subst ha; simp [Memory.write, hb, Memory.read]
      · have : ¬ a = a' := fun e => ha e.symm
        simp [Memory.write, hb, Memory.read, ha, this]
  | cons c m ih =>
    simp only [Memory.wfFrom, Bool.and_eq_true, decide_eq_true_eq] at w
    by_cases hlt : a < c.1
    · by_cases hb : b = 0#8
      · simp only [Memory.write, hlt, hb, if_true]
        by_cases ha : a' = a
        · have hc : ¬ c.1 = a := by omega
          rw [if_pos ha, ha]
          simp only [Memory.read, hc, if_false]
          exact Memory.read_below (lo := c.1 + 1) w.2.2 (by omega)
        · simp [ha]
      · simp only [Memory.write, hlt, if_true, hb, if_false]
        by_cases ha : a' = a
        · simp [Memory.read, ha]
        · have : ¬ a = a' := fun e => ha e.symm
          simp [Memory.read, ha, this]
    · by_cases heq : a = c.1
      · by_cases hb : b = 0#8
        · simp only [Memory.write, heq, hb, if_true, Nat.lt_irrefl, if_false]
          by_cases ha : a' = c.1
          · simp only [ha, if_true]
            exact Memory.read_below (lo := c.1 + 1) w.2.2 (by omega)
          · have : ¬ c.1 = a' := fun e => ha e.symm
            simp [Memory.read, ha, this]
        · simp only [Memory.write, heq, if_true, hb, Nat.lt_irrefl, if_false]
          by_cases ha : a' = c.1
          · simp [Memory.read, ha]
          · have : ¬ c.1 = a' := fun e => ha e.symm
            simp [Memory.read, ha, this]
      · simp only [Memory.write, hlt, heq, if_false, Memory.read]
        by_cases hc : c.1 = a'
        · have : ¬ a' = a := by omega
          simp [hc, this]
        · simp only [hc, if_false]
          exact ih w.2.2

/-- A read after a write. -/
theorem Memory.read_write (m : Memory) (a a' : Nat) (b : Byte) (w : m.wf = true) :
    (m.write a b).read a' = if a' = a then b else m.read a' := Memory.read_write_from a a' b w

/-- Writing into a page list keeps the canonical form. -/
theorem writePages_wf (pages : List Nat) (bs : List Byte) :
    ∀ (offset : Nat) (m : Memory), m.wf = true → (writePages pages offset bs m).wf = true := by
  induction bs with
  | nil => intro _ _ w; exact w
  | cons b bs ih => intro offset m w; exact ih _ _ (Memory.write_wf m _ b w)

/-- Writing into a page list changes only the addresses written. -/
theorem writePages_read_ne (pages : List Nat) (a : Nat) (bs : List Byte) :
    ∀ (offset : Nat) (m : Memory), m.wf = true → (∀ k < bs.length, byteAddress pages (offset + k) ≠ a) →
      (writePages pages offset bs m).read a = m.read a := by
  induction bs with
  | nil => intro _ _ _ _; rfl
  | cons b bs ih =>
    intro offset m w h
    rw [writePages, ih (offset + 1) _ (Memory.write_wf m _ b w) ?_, Memory.read_write m _ a b w, if_neg]
    · exact fun e => h 0 (by simp) (by simpa using e.symm)
    · intro k hk
      have := h (k + 1) (by simpa using hk)
      rwa [show offset + (k + 1) = offset + 1 + k by omega] at this

/-- The store after power-on reset is in canonical form. -/
theorem Store.reset_wf : Store.reset.bytes.wf = true := rfl

end Sys2Proof.Machine
end

