-- ==== Sys2Proof/Laws/Shared.lean ====
section
/-! SUPPORT. What the shared operations do, each said once: the end of a step, the grant of an entry, the choice of the uplink, and
the bits and masks of the ports. -/

namespace Sys2Proof.Machine

variable (s : State) (i j : Slot) (e : Ending)

/-! ### The end of a step (R17) -/

/-- With no step in flight there is nothing to end (R15). -/
theorem endStep_none (h : (s.slot i).engine.flight = none) : endStep i e s = s := by
  simp [endStep, h]

/-- A completing step skips the queue behind it exactly when it carries STOP_ON_FAIL, fails, and waited under no abort with scope
ALL (R20). -/
theorem Flight.skipsQueue_iff (f : Flight) (o : Outcome) :
    f.skipsQueue o = true ↔
      f.step.stopOnFail = true ∧ o = .fail ∧ ¬ ∃ p, f.push = some p ∧ p.abortAll = true := by
  cases h : f.push <;> simp [Flight.skipsQueue, Flight.abortedAll, h]

/-- With a step in flight its record is written, it leaves the head, and a PUSH drops its reference (R17). -/
theorem endStep_some {f : Flight} (h : (s.slot i).engine.flight = some f) :
    endStep i e s =
      { s.modSlot i (fun x => x.complete f (completionRecord s.limits s.time f e)) with
        store := s.store.afterStep f.step.kind } := by
  simp [endStep, h]

theorem endStep_slot_ne (h : j ≠ i) : (endStep i e s).slot j = s.slot j := by
  unfold endStep
  split
  · rfl
  · rw [State.slot_mk (s.modSlot i _), State.modSlot_slot_ne s i j _ h]

theorem endStep_slot_same {f : Flight} (h : (s.slot i).engine.flight = some f) :
    (endStep i e s).slot i = (s.slot i).complete f (completionRecord s.limits s.time f e) := by
  rw [endStep_some s i e h, State.slot_mk (s.modSlot i _), State.modSlot_slot_same]

@[simp] theorem endStep_time : (endStep i e s).time = s.time := by unfold endStep; split <;> rfl
@[simp] theorem endStep_ports : (endStep i e s).ports = s.ports := by unfold endStep; split <;> rfl
@[simp] theorem endStep_waitList : (endStep i e s).waitList = s.waitList := by unfold endStep; split <;> rfl
@[simp] theorem endStep_limits : (endStep i e s).limits = s.limits := by unfold endStep; split <;> rfl
@[simp] theorem endStep_guard : (endStep i e s).guard = s.guard := by unfold endStep; split <;> rfl
@[simp] theorem endStep_guardDefault : (endStep i e s).guardDefault = s.guardDefault := by unfold endStep; split <;> rfl
@[simp] theorem endStep_link : (endStep i e s).link = s.link := by unfold endStep; split <;> rfl
@[simp] theorem endStep_lid : (endStep i e s).lid = s.lid := by unfold endStep; split <;> rfl
@[simp] theorem endStep_freeCount : (endStep i e s).freeCount = s.freeCount := by unfold endStep; split <;> rfl
@[simp] theorem endStep_pending : (endStep i e s).pending = s.pending := by unfold endStep; split <;> rfl

/-- The end of a step changes neither the power, the capture, the sampling nor the masks of its slot (R17). -/
theorem endStep_slot_rest :
    ((endStep i e s).slot j).power = (s.slot j).power ∧ ((endStep i e s).slot j).capture = (s.slot j).capture ∧
      ((endStep i e s).slot j).sampler = (s.slot j).sampler ∧ ((endStep i e s).slot j).granted = (s.slot j).granted ∧
      ((endStep i e s).slot j).expired = (s.slot j).expired := by
  by_cases hj : j = i
  · subst hj
    cases h : (s.slot j).engine.flight with
    | none => rw [endStep_none s j e h]; exact ⟨rfl, rfl, rfl, rfl, rfl⟩
    | some f => rw [endStep_slot_same s j e h]; exact ⟨rfl, rfl, rfl, rfl, rfl⟩
  · rw [endStep_slot_ne s i j e hj]; exact ⟨rfl, rfl, rfl, rfl, rfl⟩

@[simp] theorem endStep_power : ((endStep i e s).slot j).power = (s.slot j).power := (endStep_slot_rest s i j e).1

/-- After the end no step is in flight (R17). -/
@[simp] theorem endStep_flight : ((endStep i e s).slot i).engine.flight = none := by
  cases h : (s.slot i).engine.flight with
  | none => rw [endStep_none s i e h, h]
  | some f => rw [endStep_slot_same s i e h]; rfl

/-! ### The uplink (R172) -/

/-- The uplink changes nothing while a frame is in transmission or the link is NOT_CONFIGURED (R165, R173). -/
theorem uplink_busy (h : s.link.usb = .notConfigured ∨ s.link.tx ≠ none) : uplink s = s := by
  unfold uplink
  rw [if_neg]
  rintro ⟨h1, h2⟩
  rcases h with h | h
  · rw [h] at h1; exact absurd h1 (by decide)
  · exact h h2

/-- HELLO goes before everything else (R172, R179). -/
theorem uplink_hello {c : ResetCause} (hu : s.link.usb = .configured) (ht : s.link.tx = none) (hh : s.link.hello = some c) :
    uplink s = sendHello c s := by
  simp [uplink, hu, ht, hh]

/-- Then the oldest reply (R172). -/
theorem uplink_reply {f : Frame} {fs : List Frame} (hu : s.link.usb = .configured) (ht : s.link.tx = none)
    (hh : s.link.hello = none) (hr : s.link.replies = f :: fs) : uplink s = s.transmit f .reply := by
  simp [uplink, hu, ht, hh, hr]

/-- Then the best notice (R172). -/
theorem uplink_notice {n : NoticeName} (hu : s.link.usb = .configured) (ht : s.link.tx = none) (hh : s.link.hello = none)
    (hr : s.link.replies = []) (hn : s.bestNotice = some n) : uplink s = sendNotice n s := by
  simp [uplink, hu, ht, hh, hr, hn]

/-- With nothing to choose the pipe stays free (R172). -/
theorem uplink_nothing (hh : s.link.hello = none) (hr : s.link.replies = []) (hn : s.bestNotice = none) : uplink s = s := by
  unfold uplink
  split
  · simp [hh, hr, hn]
  · rfl

/-- The cases of the uplink, all of them. -/
theorem uplink_cases :
    uplink s = s ∨ (∃ c, uplink s = sendHello c s ∧ s.link.hello = some c) ∨
      (∃ f fs, uplink s = s.transmit f .reply ∧ s.link.replies = f :: fs) ∨ (∃ n, uplink s = sendNotice n s) := by
  unfold uplink
  split
  · cases hh : s.link.hello with
    | some c => exact .inr (.inl ⟨c, rfl, rfl⟩)
    | none =>
      cases hr : s.link.replies with
      | cons f fs => exact .inr (.inr (.inl ⟨f, fs, rfl, rfl⟩))
      | nil =>
        cases hn : s.bestNotice with
        | some n => exact .inr (.inr (.inr ⟨n, rfl⟩))
        | none => exact .inl rfl
  · exact .inl rfl

@[simp] theorem transmit_slot (f : Frame) (src : FrameSource) : (s.transmit f src).slot i = s.slot i := rfl
@[simp] theorem transmit_replies (f : Frame) (src : FrameSource) : (s.transmit f src).link.replies = s.link.replies := rfl

/-- A frame just chosen keeps the pipe: choosing twice in one event is choosing once (R172, R173). -/
theorem uplink_uplink : uplink (uplink s) = uplink s := by
  rcases uplink_cases s with h | ⟨c, h, _⟩ | ⟨f, fs, h, _⟩ | ⟨n, h⟩
  · rw [h, h]
  · rw [h]; exact uplink_busy _ (.inr (by simp [sendHello, State.transmit]))
  · rw [h]; exact uplink_busy _ (.inr (by simp [State.transmit]))
  · rw [h]
    refine uplink_busy _ (.inr ?_)
    cases n <;> simp [sendNotice, State.transmit]

end Sys2Proof.Machine
end

