-- ==== Sys2Proof/Laws/Nest.lean ====
section
/-! SUPPORT. What the nest side cannot touch: the operations that end steps, move the power, grant ports and start steps change
slots, ports, the wait list and the store only. -/

namespace Sys2Proof.Machine

/-- Two states with the same cell time, limit table, guard, link, lid and model fields. -/
structure SameCell (s t : State) : Prop where
  time : t.time = s.time
  limits : t.limits = s.limits
  guard : t.guard = s.guard
  guardDefault : t.guardDefault = s.guardDefault
  link : t.link = s.link
  lid : t.lid = s.lid
  freeCount : t.freeCount = s.freeCount
  pending : t.pending = s.pending

namespace SameCell

theorem refl (s : State) : SameCell s s := ⟨rfl, rfl, rfl, rfl, rfl, rfl, rfl, rfl⟩

theorem trans {s t u : State} (h : SameCell s t) (k : SameCell t u) : SameCell s u :=
  ⟨k.time.trans h.time, k.limits.trans h.limits, k.guard.trans h.guard, k.guardDefault.trans h.guardDefault,
    k.link.trans h.link, k.lid.trans h.lid, k.freeCount.trans h.freeCount, k.pending.trans h.pending⟩

theorem after {s t u : State} (k : SameCell t u) (h : SameCell s t) : SameCell s u := h.trans k

end SameCell

variable (s : State) (i : Slot)

theorem modSlot_sameCell (f : SlotState → SlotState) : SameCell s (s.modSlot i f) := ⟨rfl, rfl, rfl, rfl, rfl, rfl, rfl, rfl⟩

theorem setSlot_sameCell (x : SlotState) : SameCell s (s.setSlot i x) := ⟨rfl, rfl, rfl, rfl, rfl, rfl, rfl, rfl⟩

theorem endStep_sameCell (e : Ending) : SameCell s (endStep i e s) := by
  constructor <;> simp

theorem arbiterDrop_sameCell : SameCell s (s.arbiterDrop i) := ⟨rfl, rfl, rfl, rfl, rfl, rfl, rfl, rfl⟩

theorem removeEntry_sameCell : SameCell s (s.removeEntry i) := ⟨rfl, rfl, rfl, rfl, rfl, rfl, rfl, rfl⟩

theorem grantEntry_sameCell (e : WaitEntry) : SameCell s (grantEntry e s) :=
  SameCell.after (endStep_sameCell _ e.slot .normal) ⟨rfl, rfl, rfl, rfl, rfl, rfl, rfl, rfl⟩

theorem walkEntries_sameCell (es : List WaitEntry) :
    ∀ (m : PortMask) (s : State), SameCell s (walkEntries es m s).1 := by
  induction es with
  | nil => intro _ s; exact .refl s
  | cons e es ih =>
    intro m s
    unfold walkEntries
    split
    · exact (grantEntry_sameCell s e).trans (ih m _)
    · exact ih _ s

theorem walk_sameCell : SameCell s (walk s).1 := walkEntries_sameCell s.waitList 0#4 s

theorem targetReached_sameCell : SameCell s (targetReached i s).1 := by
  unfold targetReached
  split
  · exact endStep_sameCell s i .normal
  · exact .refl s

theorem takeMove_sameCell (target : Target) : SameCell s (takeMove i target s).1 := by
  cases target with
  | off => exact (targetReached_sameCell _ i).after (modSlot_sameCell s i _)
  | listen => exact (targetReached_sameCell _ i).after (modSlot_sameCell s i _)
  | park => exact ⟨rfl, rfl, rfl, rfl, rfl, rfl, rfl, rfl⟩
  | standby => exact .refl s
  | run => exact .refl s

theorem enterFault_sameCell (c : FaultCause) : SameCell s (enterFault i c s).1 :=
  (walk_sameCell _).after ((arbiterDrop_sameCell _ i).after ((endStep_sameCell _ i _).after (modSlot_sameCell s i _)))

theorem withdrawStep_sameCell (f : Flight) : SameCell s (withdrawStep i f s) := by
  unfold withdrawStep
  split
  · exact modSlot_sameCell s i _
  · exact modSlot_sameCell s i _
  · exact removeEntry_sameCell s i
  all_goals exact .refl s

theorem endByHand_sameCell (f : Flight) (e : Ending) : SameCell s (endByHand i f e s).1 := by
  have h := (withdrawStep_sameCell s i f).trans (endStep_sameCell _ i e)
  unfold endByHand
  split
  · exact h.trans (walk_sameCell _)
  · exact h

theorem failStart_sameCell (r : Reason) : SameCell s (failStart i r s).1 := endStep_sameCell s i _

theorem startPower_sameCell (step : StepRecord) (target : Target) (keys : KeyCombo) :
    SameCell s (startPower i step target keys s).1 := by
  unfold startPower
  dsimp only
  split
  · exact endStep_sameCell s i .normal
  · split
    · exact failStart_sameCell s i _
    · split
      · exact ⟨rfl, rfl, rfl, rfl, rfl, rfl, rfl, rfl⟩
      · split
        · exact takeMove_sameCell s i _
        · split
          · exact ⟨rfl, rfl, rfl, rfl, rfl, rfl, rfl, rfl⟩
          · split
            · exact ⟨rfl, rfl, rfl, rfl, rfl, rfl, rfl, rfl⟩
            · exact takeMove_sameCell s i _
      · split
        · exact failStart_sameCell s i _
        · split
          · exact ⟨rfl, rfl, rfl, rfl, rfl, rfl, rfl, rfl⟩
          · exact takeMove_sameCell s i _
      · split
        · exact failStart_sameCell s i _
        · split
          · exact (targetReached_sameCell _ i).after (modSlot_sameCell s i _)
          · exact takeMove_sameCell s i _
      all_goals exact failStart_sameCell s i _

theorem startKind_sameCell (step : StepRecord) : SameCell s (startKind i step s).1 := by
  unfold startKind
  split
  · unfold startExchange
    split
    · exact failStart_sameCell s i _
    · split
      · exact failStart_sameCell s i _
      · exact ⟨rfl, rfl, rfl, rfl, rfl, rfl, rfl, rfl⟩
  · unfold startPush
    split
    · exact failStart_sameCell s i _
    · split
      · exact failStart_sameCell s i _
      · exact ⟨rfl, rfl, rfl, rfl, rfl, rfl, rfl, rfl⟩
  · exact startPower_sameCell s i step _ _
  · exact ⟨rfl, rfl, rfl, rfl, rfl, rfl, rfl, rfl⟩
  · unfold startPress
    split
    · exact failStart_sameCell s i _
    · exact ⟨rfl, rfl, rfl, rfl, rfl, rfl, rfl, rfl⟩
  · unfold startAttach
    split
    · exact failStart_sameCell s i _
    · exact (walk_sameCell _).after ⟨rfl, rfl, rfl, rfl, rfl, rfl, rfl, rfl⟩
  · unfold startDetach
    have h (m : PortMask) (e : Ending) : SameCell s (endStep i e (s.releasePorts i m)) :=
      (endStep_sameCell _ i e).after ⟨rfl, rfl, rfl, rfl, rfl, rfl, rfl, rfl⟩
    generalize (if _ = 0#4 then 0xF#4 else _) &&& s.portsHeld i = m
    dsimp only
    split
    · exact h _ _
    · exact (h _ _).trans (walk_sameCell _)
  · unfold startAwait
    split
    · exact failStart_sameCell s i _
    · exact ⟨rfl, rfl, rfl, rfl, rfl, rfl, rfl, rfl⟩

theorem startHead_sameCell : SameCell s (startHead i s).1 := by
  unfold startHead
  split
  · exact .refl s
  · dsimp only
    split
    · exact (endStep_sameCell _ i _).after (modSlot_sameCell s i _)
    · exact (startKind_sameCell _ i _).after (modSlot_sameCell s i _)

theorem runStarts_sameCell (n : Nat) : ∀ (work : List Slot) (s : State), SameCell s (runStarts n work s) := by
  induction n with
  | zero => intro _ s; exact .refl s
  | succ n ih =>
    intro work s
    cases work with
    | nil => exact .refl s
    | cons i work =>
      unfold runStarts
      split
      · exact (startHead_sameCell s i).trans (ih _ _)
      · exact ih _ _

/-- The starts of an event leave the whole cell side as it is. -/
theorem startAll_sameCell (work : List Slot) : SameCell s (startAll work s) := runStarts_sameCell _ work s

theorem startAll_nil : startAll [] s = s := by
  unfold startAll
  cases (([] : List Slot).length + s.queuedSteps) <;> rfl

end Sys2Proof.Machine
end

