-- ==== Sys2Proof/Laws/PerInstr.lean ====
section
/-! SUPPORT. The statements made per command. KindByte: a command of the table carries a kind byte exactly when it carries a request
frame, and a well-formed one's kind byte is one of R186's exactly when its row is not UNKNOWN_KIND. -/

namespace Sys2Proof.Laws.KindByte

/-- What holds of each command. -/
def Statement (i : Instr) : Prop :=
  i.kindByte.isSome = i.request.isSome ∧
    ∀ b, i.kindByte = some b → i.wellFormed = true → (b ∈ requestCodes ↔ i.isUnknownKind = false)

theorem powerOnReset : Statement .powerOnReset := ⟨rfl, fun _ h _ => nomatch h⟩

theorem cellInfo (r : Request) : Statement (.cellInfo r) :=
  ⟨rfl, fun b h _ => by
    have hb := Option.some.inj h
    subst hb
    exact iff_of_true (by decide) rfl⟩

theorem cellStatus (r : Request) : Statement (.cellStatus r) :=
  ⟨rfl, fun b h _ => by
    have hb := Option.some.inj h
    subst hb
    exact iff_of_true (by decide) rfl⟩

theorem cellReset (r : Request) : Statement (.cellReset r) :=
  ⟨rfl, fun b h _ => by
    have hb := Option.some.inj h
    subst hb
    exact iff_of_true (by decide) rfl⟩

theorem noticeSet (r : Request) : Statement (.noticeSet r) :=
  ⟨rfl, fun b h _ => by
    have hb := Option.some.inj h
    subst hb
    exact iff_of_true (by decide) rfl⟩

theorem guardWrite (r : Request) : Statement (.guardWrite r) :=
  ⟨rfl, fun b h _ => by
    have hb := Option.some.inj h
    subst hb
    exact iff_of_true (by decide) rfl⟩

theorem guardRead (r : Request) : Statement (.guardRead r) :=
  ⟨rfl, fun b h _ => by
    have hb := Option.some.inj h
    subst hb
    exact iff_of_true (by decide) rfl⟩

theorem guardDefault (r : Request) : Statement (.guardDefault r) :=
  ⟨rfl, fun b h _ => by
    have hb := Option.some.inj h
    subst hb
    exact iff_of_true (by decide) rfl⟩

theorem limitWrite (r : Request) : Statement (.limitWrite r) :=
  ⟨rfl, fun b h _ => by
    have hb := Option.some.inj h
    subst hb
    exact iff_of_true (by decide) rfl⟩

theorem limitRead (r : Request) : Statement (.limitRead r) :=
  ⟨rfl, fun b h _ => by
    have hb := Option.some.inj h
    subst hb
    exact iff_of_true (by decide) rfl⟩

theorem objOpen (r : Request) : Statement (.objOpen r) :=
  ⟨rfl, fun b h _ => by
    have hb := Option.some.inj h
    subst hb
    exact iff_of_true (by decide) rfl⟩

theorem objData (r : Request) : Statement (.objData r) :=
  ⟨rfl, fun b h _ => by
    have hb := Option.some.inj h
    subst hb
    exact iff_of_true (by decide) rfl⟩

theorem objSeal (r : Request) : Statement (.objSeal r) :=
  ⟨rfl, fun b h _ => by
    have hb := Option.some.inj h
    subst hb
    exact iff_of_true (by decide) rfl⟩

theorem objDelete (r : Request) : Statement (.objDelete r) :=
  ⟨rfl, fun b h _ => by
    have hb := Option.some.inj h
    subst hb
    exact iff_of_true (by decide) rfl⟩

theorem objList (r : Request) : Statement (.objList r) :=
  ⟨rfl, fun b h _ => by
    have hb := Option.some.inj h
    subst hb
    exact iff_of_true (by decide) rfl⟩

theorem instrStatus (r : Request) : Statement (.instrStatus r) :=
  ⟨rfl, fun b h _ => by
    have hb := Option.some.inj h
    subst hb
    exact iff_of_true (by decide) rfl⟩

theorem slotConfig (r : Request) : Statement (.slotConfig r) :=
  ⟨rfl, fun b h _ => by
    have hb := Option.some.inj h
    subst hb
    exact iff_of_true (by decide) rfl⟩

theorem slotFilter (r : Request) : Statement (.slotFilter r) :=
  ⟨rfl, fun b h _ => by
    have hb := Option.some.inj h
    subst hb
    exact iff_of_true (by decide) rfl⟩

theorem slotTrigger (r : Request) : Statement (.slotTrigger r) :=
  ⟨rfl, fun b h _ => by
    have hb := Option.some.inj h
    subst hb
    exact iff_of_true (by decide) rfl⟩

theorem slotBlock (r : Request) : Statement (.slotBlock r) :=
  ⟨rfl, fun b h _ => by
    have hb := Option.some.inj h
    subst hb
    exact iff_of_true (by decide) rfl⟩

theorem stepRequest (r : Request) : Statement (.stepRequest r) :=
  ⟨rfl, fun b h _ => by
    have hb := Option.some.inj h
    subst hb
    exact iff_of_true (by decide) rfl⟩

theorem abort (r : Request) : Statement (.abort r) :=
  ⟨rfl, fun b h _ => by
    have hb := Option.some.inj h
    subst hb
    exact iff_of_true (by decide) rfl⟩

theorem results (r : Request) : Statement (.results r) :=
  ⟨rfl, fun b h _ => by
    have hb := Option.some.inj h
    subst hb
    exact iff_of_true (by decide) rfl⟩

theorem slotStatus (r : Request) : Statement (.slotStatus r) :=
  ⟨rfl, fun b h _ => by
    have hb := Option.some.inj h
    subst hb
    exact iff_of_true (by decide) rfl⟩

theorem captureRead (r : Request) : Statement (.captureRead r) :=
  ⟨rfl, fun b h _ => by
    have hb := Option.some.inj h
    subst hb
    exact iff_of_true (by decide) rfl⟩

theorem captureRelease (r : Request) : Statement (.captureRelease r) :=
  ⟨rfl, fun b h _ => by
    have hb := Option.some.inj h
    subst hb
    exact iff_of_true (by decide) rfl⟩

theorem clearFault (r : Request) : Statement (.clearFault r) :=
  ⟨rfl, fun b h _ => by
    have hb := Option.some.inj h
    subst hb
    exact iff_of_true (by decide) rfl⟩

theorem slotReset (r : Request) : Statement (.slotReset r) :=
  ⟨rfl, fun b h _ => by
    have hb := Option.some.inj h
    subst hb
    exact iff_of_true (by decide) rfl⟩

theorem unknownKind (kind : Byte) (r : Request) : Statement (.unknownKind kind r) :=
  ⟨rfl, fun b h w => by
    have hb : kind = b := Option.some.inj h
    subst hb
    simp only [Instr.wellFormed, Instr.kindUnknown, Bool.and_eq_true, decide_eq_true_eq] at w
    exact iff_of_false w.2.2.1 (by simp [Instr.isUnknownKind])⟩

theorem outTransfer (bytes : List Byte) : Statement (.outTransfer bytes) := ⟨rfl, fun _ h _ => nomatch h⟩

theorem usbConfigured : Statement .usbConfigured := ⟨rfl, fun _ h _ => nomatch h⟩

theorem busReset : Statement .busReset := ⟨rfl, fun _ h _ => nomatch h⟩

theorem frameTaken : Statement .frameTaken := ⟨rfl, fun _ h _ => nomatch h⟩

theorem uplinkChoice : Statement .uplinkChoice := ⟨rfl, fun _ h _ => nomatch h⟩

theorem stepStart (i : Slot) : Statement (.stepStart i) := ⟨rfl, fun _ h _ => nomatch h⟩

theorem drain (i : Slot) : Statement (.drain i) := ⟨rfl, fun _ h _ => nomatch h⟩

theorem abortingComplete (i : Slot) : Statement (.abortingComplete i) := ⟨rfl, fun _ h _ => nomatch h⟩

theorem stepDeadlineExpiry (i : Slot) : Statement (.stepDeadlineExpiry i) := ⟨rfl, fun _ h _ => nomatch h⟩

theorem measureDurationEnd (i : Slot) : Statement (.measureDurationEnd i) := ⟨rfl, fun _ h _ => nomatch h⟩

theorem pressDurationEnd (i : Slot) : Statement (.pressDurationEnd i) := ⟨rfl, fun _ h _ => nomatch h⟩

theorem settleEnd (i : Slot) : Statement (.settleEnd i) := ⟨rfl, fun _ h _ => nomatch h⟩

theorem pressRelease (i : Slot) : Statement (.pressRelease i) := ⟨rfl, fun _ h _ => nomatch h⟩

theorem bootWaitExpiry (i : Slot) : Statement (.bootWaitExpiry i) := ⟨rfl, fun _ h _ => nomatch h⟩

theorem leaveRun (i : Slot) : Statement (.leaveRun i) := ⟨rfl, fun _ h _ => nomatch h⟩

theorem parkHoldExpiry (i : Slot) : Statement (.parkHoldExpiry i) := ⟨rfl, fun _ h _ => nomatch h⟩

theorem sample (i : Slot) (current voltage : AdcCode) : Statement (.sample i current voltage) := ⟨rfl, fun _ h _ => nomatch h⟩

theorem overcurrentTrip (i : Slot) (current voltage : AdcCode) : Statement (.overcurrentTrip i current voltage) := ⟨rfl, fun _ h _ => nomatch h⟩

theorem undervoltTrip (i : Slot) (current voltage : AdcCode) : Statement (.undervoltTrip i current voltage) := ⟨rfl, fun _ h _ => nomatch h⟩

theorem lidInputOpens : Statement .lidInputOpens := ⟨rfl, fun _ h _ => nomatch h⟩

theorem lidInputCloses : Statement .lidInputCloses := ⟨rfl, fun _ h _ => nomatch h⟩

theorem lidRecognisedOpen : Statement .lidRecognisedOpen := ⟨rfl, fun _ h _ => nomatch h⟩

theorem waitDeadlineExpiry (i : Slot) : Statement (.waitDeadlineExpiry i) := ⟨rfl, fun _ h _ => nomatch h⟩

theorem holdExpiry (p : Port) : Statement (.holdExpiry p) := ⟨rfl, fun _ h _ => nomatch h⟩

theorem grant (i : Slot) : Statement (.grant i) := ⟨rfl, fun _ h _ => nomatch h⟩

theorem wake (i : Slot) (byte : Byte) (framingError : Bool) : Statement (.wake i byte framingError) := ⟨rfl, fun _ h _ => nomatch h⟩

theorem lineReceived (i : Slot) (framingError : Bool) : Statement (.lineReceived i framingError) := ⟨rfl, fun _ h _ => nomatch h⟩

theorem itemSent (i : Slot) : Statement (.itemSent i) := ⟨rfl, fun _ h _ => nomatch h⟩

theorem transmitWaitingItem (i : Slot) : Statement (.transmitWaitingItem i) := ⟨rfl, fun _ h _ => nomatch h⟩

theorem byteReceived (i : Slot) (byte : Byte) (framingError : Bool) : Statement (.byteReceived i byte framingError) := ⟨rfl, fun _ h _ => nomatch h⟩

end Sys2Proof.Laws.KindByte
end

