-- ==== Sys2Proof/Laws/Requests.lean ====
section
/-! SUPPORT. Requests on an idle link: what taking one does, said once for every kind. -/

namespace Sys2Proof.Machine

variable (s : State)

theorem takeAbort_sameCell (i : Slot) (all : Bool) (f : Flight) : SameCell s (takeAbort i all f s).1 := by
  unfold takeAbort
  split
  · split
    · exact ⟨rfl, rfl, rfl, rfl, rfl, rfl, rfl, rfl⟩
    · exact endByHand_sameCell s i f _
  · exact endByHand_sameCell s i f _

theorem slotOwner_link (k : SlotRequest) (i : Slot) (body : List Byte) :
    (slotOwner k i body s).1.link.held = s.link.held ∧ (slotOwner k i body s).1.link.inbound = s.link.inbound := by
  cases k with
  | slotConfig =>
    simp only [slotOwner, slotConfig]
    split
    · exact ⟨rfl, rfl⟩
    · split <;> exact ⟨rfl, rfl⟩
  | slotFilter =>
    simp only [slotOwner, slotFilter]
    split <;> exact ⟨rfl, rfl⟩
  | slotTrigger =>
    simp only [slotOwner, slotTrigger]
    split
    · exact ⟨rfl, rfl⟩
    · split
      · exact ⟨rfl, rfl⟩
      · split <;> exact ⟨rfl, rfl⟩
  | slotBlock =>
    simp only [slotOwner, slotBlock]
    split <;> exact ⟨rfl, rfl⟩
  | step =>
    simp only [slotOwner, stepRequest]
    split
    · exact ⟨rfl, rfl⟩
    · split
      · exact ⟨rfl, rfl⟩
      · split
        · exact ⟨rfl, rfl⟩
        · split
          · exact ⟨rfl, rfl⟩
          · dsimp only
            split
            · rw [(startAll_sameCell _ _).link]; exact ⟨rfl, rfl⟩
            · exact ⟨rfl, rfl⟩
  | abort =>
    simp only [slotOwner, abortRequest]
    split
    · exact ⟨rfl, rfl⟩
    · next all _ =>
      have hl : (if all then s.modSlot i (fun x => x.doomQueue .aborted) else s).link = s.link := by split <;> rfl
      split
      · rw [(startAll_sameCell _ _).link, (takeAbort_sameCell _ _ _ _).link, hl]; exact ⟨rfl, rfl⟩
      · rw [hl]; exact ⟨rfl, rfl⟩
  | results =>
    simp only [slotOwner, resultsRequest]
    split
    · exact ⟨rfl, rfl⟩
    · generalize handOut _ _ _ = r
      split
      · exact ⟨rfl, rfl⟩
      · rw [(startAll_sameCell _ _).link]; exact ⟨rfl, rfl⟩
  | slotStatus => exact ⟨rfl, rfl⟩
  | captureRead => exact ⟨rfl, rfl⟩
  | captureRelease => exact ⟨rfl, rfl⟩
  | clearFault =>
    simp only [slotOwner, clearFault]
    split <;> exact ⟨rfl, rfl⟩
  | slotReset =>
    simp only [slotOwner, slotReset]
    rw [(startAll_sameCell _ _).link, (walk_sameCell _).link]
    exact ⟨rfl, rfl⟩

/-- No owner touches a held or an inbound transfer but CELL_RESET, which discards both (R179). -/
theorem act_idle (f : Frame) (hh : s.link.held = none) (hi : s.link.inbound = []) :
    (act f s).1.link.held = none ∧ (act f s).1.link.inbound = [] := by
  unfold act
  split
  · exact ⟨hh, hi⟩
  · exact ⟨hh, hi⟩
  · next k _ =>
    cases k
    case cellReset => exact ⟨rfl, rfl⟩
    all_goals simp only [cellOwner]
    case cellInfo | cellStatus | objList | instrStatus => exact ⟨hh, hi⟩
    case noticeSet =>
      simp only [noticeSet]
      split
      · exact ⟨hh, hi⟩
      · split <;> exact ⟨hh, hi⟩
    case guardWrite =>
      simp only [guardWrite]
      split
      · exact ⟨hh, hi⟩
      · split <;> exact ⟨hh, hi⟩
    case guardRead => simp only [guardRead]; split <;> exact ⟨hh, hi⟩
    case guardDefault =>
      simp only [guardDefault]
      split
      · exact ⟨hh, hi⟩
      · split <;> exact ⟨hh, hi⟩
    case limitWrite => simp only [limitWrite]; split <;> exact ⟨hh, hi⟩
    case limitRead => simp only [limitRead]; split <;> exact ⟨hh, hi⟩
    case objOpen =>
      simp only [objOpen]
      split
      · exact ⟨hh, hi⟩
      · split
        · exact ⟨hh, hi⟩
        · split
          · exact ⟨hh, hi⟩
          · split <;> exact ⟨hh, hi⟩
    case objData =>
      simp only [objData]
      split
      · exact ⟨hh, hi⟩
      · split
        · exact ⟨hh, hi⟩
        · split
          · exact ⟨hh, hi⟩
          · split
            · exact ⟨hh, hi⟩
            · split <;> exact ⟨hh, hi⟩
    case objSeal =>
      simp only [objSeal]
      split
      · exact ⟨hh, hi⟩
      · split
        · exact ⟨hh, hi⟩
        · split
          · exact ⟨hh, hi⟩
          · split <;> exact ⟨hh, hi⟩
    case objDelete =>
      simp only [objDelete]
      split
      · exact ⟨hh, hi⟩
      · split <;> exact ⟨hh, hi⟩
  · next k i _ =>
    have h := slotOwner_link s k i f.body
    exact ⟨h.1.trans hh, h.2.trans hi⟩

@[simp] theorem joinReply_held (f : Frame) (b : Option (List Byte)) (t : State) :
    (joinReply f b t).link.held = t.link.held := by cases b <;> rfl
@[simp] theorem joinReply_inbound (f : Frame) (b : Option (List Byte)) (t : State) :
    (joinReply f b t).link.inbound = t.link.inbound := by cases b <;> rfl
@[simp] theorem joinReply_slot (f : Frame) (b : Option (List Byte)) (t : State) (i : Slot) :
    (joinReply f b t).slot i = t.slot i := by cases b <;> rfl

/-- The uplink touches neither the inbound buffer nor the transfer held off. -/
theorem uplink_inbound : (uplink s).link.inbound = s.link.inbound ∧ (uplink s).link.held = s.link.held := by
  rcases uplink_cases s with h | ⟨c, h, _⟩ | ⟨f, fs, h, _⟩ | ⟨n, h⟩
  · rw [h]; exact ⟨rfl, rfl⟩
  · rw [h]; exact ⟨rfl, rfl⟩
  · rw [h]; exact ⟨rfl, rfl⟩
  · rw [h]; cases n <;> exact ⟨rfl, rfl⟩

/-- A frame alone in the inbound buffer, with a free reply place and nothing held off, is taken, and then intake is over. -/
theorem intake_alone (u : State) (f : Frame) (hi : u.link.inbound = [f]) (hh : u.link.held = none)
    (hr : u.link.replies.length < 8) :
    intake u = uplink (joinReply f (act f { u with link.inbound := [] }).2 (act f { u with link.inbound := [] }).1) := by
  have ha := act_idle { u with link.inbound := [] } f hh rfl
  have hcan : u.link.canTake f = true := by
    simp only [Link.canTake, Config.replyPlaces, Bool.or_eq_true]
    exact Or.inl (decide_eq_true hr)
  unfold intake
  rw [hi, hh]
  show takeRequests 2 u = _
  rw [takeRequests, hi]
  simp only
  rw [if_pos hcan, takeRequest]
  generalize act f { u with link.inbound := [] } = r at ha
  have hheld : acceptHeld (joinReply f r.2 r.1) = joinReply f r.2 r.1 := by
    unfold acceptHeld
    rw [joinReply_held, ha.1]
  rw [hheld, takeRequests]
  have hin := uplink_inbound (joinReply f r.2 r.1)
  rw [joinReply_inbound, ha.2] at hin
  rw [hin.1]
  exact uplink_uplink _

/-- The same for a frame that joins an empty buffer. -/
theorem intake_one (f : Frame) (hh : s.link.held = none) (hi : s.link.inbound = []) (hr : s.link.replies.length < 8) :
    intake { s with link.inbound := s.link.inbound ++ [f] } = uplink (joinReply f (act f s).2 (act f s).1) := by
  have hs : ({ s with link := { s.link with inbound := [] } } : State) = s := by
    have : ({ s.link with inbound := [] } : Link) = s.link := by rw [← hi]
    rw [this]
  rw [hi, List.nil_append]
  refine (intake_alone { s with link := { s.link with inbound := [f] } } f rfl hh hr).trans ?_
  exact congrArg (fun u => uplink (joinReply f (act f u).2 (act f u).1)) hs

/-- A request on a ready link is taken at once: its owner acts, its reply joins, and the arbiter chooses (R169, R172). -/
theorem sendRequest_ready (kind : Byte) (r : Request) (h : s.LinkReady) (hb : r.body.length ≤ 1024) :
    sendRequest kind r s =
      uplink (joinReply ⟨kind, r.tag, r.slot, r.flags, r.body⟩ (act ⟨kind, r.tag, r.slot, r.flags, r.body⟩ s).2
        (act ⟨kind, r.tag, r.slot, r.flags, r.body⟩ s).1) := by
  have h1 : ¬ (s.link.usb = .notConfigured ∨ s.link.held.isSome = true) := by
    rw [h.usb, h.held]; decide
  have h2 : s.link.fits (Frame.size ⟨kind, r.tag, r.slot, r.flags, r.body⟩) = true := by
    simp only [Link.fits, Link.inboundUsed, h.inbound, List.map_nil, List.sum_nil, Frame.size, Config.inboundBytes,
      decide_eq_true_eq]
    omega
  unfold sendRequest
  simp only [hb, if_true, h1, if_false, h2]
  exact intake_one s _ h.held h.inbound h.free

/-! ### The checks, by kind (R170, R186) -/

@[simp] theorem requestKind_cell (k : CellRequest) : requestKind k.code = some (.cell k) := by cases k <;> decide
@[simp] theorem requestKind_slot (k : SlotRequest) : requestKind k.code = some (.slot k) := by cases k <;> decide

@[simp] theorem slotOf_byte (i : Slot) : slotOf (byte i.val) = some i := by revert i; decide

theorem CellRequest.lengthOk_le (k : CellRequest) (n : Nat) (h : k.lengthOk n = true) : n ≤ 1024 := by
  cases k <;> simp [CellRequest.lengthOk] at h <;> omega

theorem SlotRequest.lengthOk_le (k : SlotRequest) (body : List Byte) (h : k.lengthOk body = true) : body.length ≤ 1024 := by
  cases k <;> simp [SlotRequest.lengthOk, stepLengthOk, -List.length_eq_zero_iff] at h <;> omega

theorem checkRequest_cell (k : CellRequest) (r : Request) (hs : r.slot = 0xFF#8) (hf : r.flags = 0#8)
    (hl : k.lengthOk r.body.length = true) : checkRequest ⟨k.code, r.tag, r.slot, r.flags, r.body⟩ = .cell k := by
  simp [checkRequest, hs, hf, hl]

theorem checkRequest_slot (k : SlotRequest) (i : Slot) (r : Request) (hs : r.slot = byte i.val) (hf : r.flags = 0#8)
    (hl : k.lengthOk r.body = true) : checkRequest ⟨k.code, r.tag, r.slot, r.flags, r.body⟩ = .slot k i := by
  simp [checkRequest, hs, hf, hl]

/-- A cell request that passes the link's checks on a ready link is answered by its owner (R169, R170). -/
theorem cellRequest_taken (k : CellRequest) (r : Request) (h : s.LinkReady) (hs : r.slot = 0xFF#8) (hf : r.flags = 0#8)
    (hl : k.lengthOk r.body.length = true) :
    sendRequest k.code r s =
      uplink (joinReply ⟨k.code, r.tag, r.slot, r.flags, r.body⟩ (cellOwner k r.body s).2 (cellOwner k r.body s).1) := by
  rw [sendRequest_ready s k.code r h (k.lengthOk_le _ hl), act, checkRequest_cell k r hs hf hl]

/-- A slot request that passes the link's checks on a ready link is answered by its owner (R169, R170). -/
theorem slotRequest_taken (k : SlotRequest) (i : Slot) (r : Request) (h : s.LinkReady) (hs : r.slot = byte i.val)
    (hf : r.flags = 0#8) (hl : k.lengthOk r.body = true) :
    sendRequest k.code r s =
      uplink (joinReply ⟨k.code, r.tag, r.slot, r.flags, r.body⟩ (some (slotOwner k i r.body s).2) (slotOwner k i r.body s).1) := by
  rw [sendRequest_ready s k.code r h (k.lengthOk_le _ hl), act, checkRequest_slot k i r hs hf hl]

/-- What a cell request's owner answers is what the host is answered. -/
theorem cell_answer (k : CellRequest) (r : Request) (h : s.LinkReady) {body : List Byte} (hr : r.toCell body)
    (hl : k.lengthOk body.length = true) {c : ReplyCode} {rest : List Byte} {t : State}
    (ho : cellOwner k body s = (t, some (replyBody c rest))) :
    sendRequest k.code r s = answer (k.code ||| 0x80#8) r c rest t := by
  obtain ⟨hs, hf, hb⟩ := hr
  subst hb
  rw [cellRequest_taken s k r h hs hf hl, ho]
  rfl

/-- What a slot request's owner answers is what the host is answered. -/
theorem slot_answer (k : SlotRequest) (i : Slot) (r : Request) (h : s.LinkReady) {body : List Byte} (hr : r.toSlot i body)
    (hl : k.lengthOk body = true) {c : ReplyCode} {rest : List Byte} {t : State}
    (ho : slotOwner k i body s = (t, replyBody c rest)) :
    sendRequest k.code r s = answer (k.code ||| 0x80#8) r c rest t := by
  obtain ⟨hs, hf, hb⟩ := hr
  subst hb
  rw [slotRequest_taken s k i r h hs hf hl, ho]
  rfl

end Sys2Proof.Machine
end

