-- ==== Sys2Proof/Laws/Starts.lean ====
section
/-! SUPPORT. What a start condition asks, what the run of starts does when nothing or one step starts, and the ports a slot holds. -/

namespace Sys2Proof.Machine

variable (s : State) (i : Slot)

/-- The start condition of R3 in words. -/
theorem Engine.canStart_iff (e : Engine) :
    e.canStart = true ↔ e.flight = none ∧ e.waiting ≠ [] ∧ e.done.length + e.reservation < 8 := by
  unfold Engine.canStart Config.listPlaces
  rw [Bool.and_eq_true, Bool.and_eq_true, Option.isNone_iff_eq_none, decide_eq_true_eq, Bool.not_eq_true', List.isEmpty_eq_false_iff]

/-- With no step in flight only the records count (R3). -/
theorem Engine.canStart_of {e : Engine} {st : StepRecord} {rest : List StepRecord} (hf : e.flight = none)
    (hw : e.waiting = st :: rest) (hd : e.done.length < 8) : e.canStart = true := by
  rw [Engine.canStart_iff, hw]
  exact ⟨hf, List.cons_ne_nil _ _, by simpa [Engine.reservation, hf] using hd⟩

/-- A head without a doom reason starts by its kind (R4). -/
theorem startHead_kind {st : StepRecord} {rest : List StepRecord} (hw : (s.slot i).engine.waiting = st :: rest)
    (hd : st.doom = none) :
    startHead i s = startKind i st (s.modSlot i fun x =>
      { x with engine.flight := some (Flight.begun st s.time), engine.waiting := rest }) := by
  unfold startHead
  rw [hw]
  simp [hd]

/-- A doomed head drains (R5). -/
theorem startHead_doomed {st : StepRecord} {rest : List StepRecord} {d : Doom} (hw : (s.slot i).engine.waiting = st :: rest)
    (hd : st.doom = some d) :
    startHead i s = (endStep i (.doomed d) (s.modSlot i fun x =>
      { x with engine.flight := some (Flight.begun st s.time), engine.waiting := rest }), [i]) := by
  unfold startHead
  rw [hw]
  simp [hd]

/-- Where no slot of the work list can start, nothing starts (R3). -/
theorem runStarts_idle (n : Nat) : ∀ work : List Slot, (∀ i ∈ work, (s.slot i).engine.canStart = false) → runStarts n work s = s := by
  induction n with
  | zero => intro work _; rfl
  | succ n ih =>
    intro work h
    cases work with
    | nil => rfl
    | cons i work =>
      unfold runStarts
      rw [if_neg (by rw [h i List.mem_cons_self]; decide)]
      exact ih work fun j hj => h j (List.mem_cons_of_mem i hj)

/-- Where no slot of the work list can start, nothing starts (R3). -/
theorem startAll_idle (work : List Slot) (h : ∀ i ∈ work, (s.slot i).engine.canStart = false) : startAll work s = s :=
  runStarts_idle s _ work h

/-- A start that completes no step is all that an event starts (R3). -/
theorem startAll_single {s u : State} {i : Slot} (hc : (s.slot i).engine.canStart = true) (h : startHead i s = (u, [])) :
    startAll [i] s = u := by
  unfold startAll
  rw [show ([i] : List Slot).length + s.queuedSteps = s.queuedSteps + 1 from Nat.add_comm 1 _]
  unfold runStarts
  rw [if_pos hc, h]
  cases s.queuedSteps <;> rfl

/-- The walk over an empty list grants nothing (R131). -/
@[simp] theorem walkEntries_nil (m : PortMask) : walkEntries [] m s = (s, []) := rfl

/-- An entry that can be granted is granted, and the walk goes on with the same blocked ports (R131). -/
theorem walkEntries_grant {e : WaitEntry} {es : List WaitEntry} {m : PortMask} (h : e.grantable m s.freeMask = true) :
    walkEntries (e :: es) m s = ((walkEntries es m (grantEntry e s)).1, e.slot :: (walkEntries es m (grantEntry e s)).2) := by
  rw [walkEntries, if_pos h]

/-- An entry that cannot be granted blocks its ports for the younger ones (R131). -/
theorem walkEntries_block {e : WaitEntry} {es : List WaitEntry} {m : PortMask} (h : e.grantable m s.freeMask = false) :
    walkEntries (e :: es) m s = walkEntries es (m ||| e.mask) s := by
  rw [walkEntries, if_neg (by rw [h]; decide)]

/-- The mask of the ports a slot holds, bit by bit (R129). -/
theorem portsHeld_toNat :
    (s.portsHeld i).toNat = bitSet ((List.finRange 4).map fun p : Fin 4 => decide ((s.ports[p].map Hold.slot) = some i)) := by
  have each : ∀ p : Fin 4, (match s.ports[p] with
      | some h => decide (h.slot = i)
      | none => false) = decide ((s.ports[p].map Hold.slot) = some i) := by
    intro p; cases s.ports[p] <;> simp
  have mask (g : Fin 4 → Bool) : (List.foldl (fun m (p : Fin 4) => m ||| (1#4 <<< p.val)) 0#4
      (List.filter g (List.finRange 4))).toNat = bitSet (List.map g (List.finRange 4)) := by
    rw [show List.finRange 4 = [0, 1, 2, 3] from by decide]
    cases h0 : g 0 <;> cases h1 : g 1 <;> cases h2 : g 2 <;> cases h3 : g 3 <;> simp [List.filter, h0, h1, h2, h3, bitSet]
  exact (congrArg (fun g : Fin 4 → Bool => (List.foldl (fun m (p : Fin 4) => m ||| (1#4 <<< p.val)) 0#4
    (List.filter g (List.finRange 4)) : PortMask).toNat) (funext each)).trans (mask _)

end Sys2Proof.Machine
end

