-- ==== Sys2Proof/Tests/Slice0.lean ====
section
/-! SUPPORT. Tests: the worked examples of the spec, one ill-formed command for each check of WellFormed, single commands on small
states, and for every statement with hypotheses a state and operands that meet them. -/

namespace Sys2Proof.Tests

open Sys2Proof Sys2Proof.Machine

-- One kernel evaluation at a time: each would otherwise ask for a thread of its own.
set_option Elab.async false

/-! ### Helpers -/

/-- The bytes of a text. -/
def ascii (t : String) : List Byte := t.toList.map fun c => BitVec.ofNat 8 c.toNat

/-- The state after reset with the link CONFIGURED and HELLO taken. -/
def linked : State := { State.reset with link := { Link.reset with usb := .configured, hello := none } }

/-- A request to the cell and one to a slot, with frame tag 0x2C. -/
def cellReq (body : List Byte) : Request := ⟨0x2C#8, 0xFF#8, 0#8, body⟩
def slotReq (i : Slot) (body : List Byte) : Request := ⟨0x2C#8, BitVec.ofNat 8 i.val, 0#8, body⟩

/-- Slot 5 of the linked state changed. -/
def phone (f : SlotState → SlotState) : State := linked.modSlot 5 f

/-- A step and its flight. -/
def stepOfKind (kind : StepKind) : StepRecord := ⟨102#16, kind, false, true, 2000, none, none⟩
def flightOf (kind : StepKind) : Flight := ⟨stepOfKind kind, 0#32, some 0#32, none, none, none⟩

/-- Slot 5 in a power state with a step of a kind in flight. -/
def busy (state : PowerState) (phase : PowerPhase) (kind : StepKind) : State :=
  phone fun x => { x with power.state := state, power.phase := phase, engine.flight := some (flightOf kind) }

/-- Slot 5 in a power state with a step of a kind at its head. -/
def headed (state : PowerState) (kind : StepKind) : State :=
  phone fun x => { x with power.state := state, engine.waiting := [stepOfKind kind] }

/-- What a command leaves, and the state itself if it stops. -/
def after (c : Instr) (s : State) : State :=
  match step { s with pending := [c] } with
  | .next t => t
  | .fault _ => s
  | .refused _ => s

theorem linked_ready : linked.LinkReady := ⟨rfl, rfl, rfl, by decide⟩
theorem phone_ready (f : SlotState → SlotState) : (phone f).LinkReady := ⟨rfl, rfl, rfl, Nat.zero_lt_succ _⟩

/-! ### WellFormed: each check refuses one -/

theorem test_long_body_refused : (Instr.unknownKind 0x77#8 (cellReq (List.replicate 1025 0#8))).bodyFits = false := by decide +kernel
theorem test_long_transfer_refused : (Instr.outTransfer (List.replicate 4097 0#8)).transferFits = false := by decide +kernel
theorem test_known_kind_refused : (Instr.unknownKind 0x01#8 (cellReq [])).kindUnknown = false := by decide
theorem test_line_feed_refused : (Instr.byteReceived 0 0x0A#8 false).notLineEnd = false := by decide
theorem test_well_formed : (Instr.stepRequest (slotReq 5 [])).wellFormed = true := by decide

/-! ### The spec's worked examples -/

/-- R168: the check of the nine bytes 123456789. -/
theorem test_crc_check_value : crc16 (ascii "123456789") = 0x29B1#16 := by decide +kernel

/-- R31: tag 4A, code 0x0120 and argument CAL 2. -/
theorem test_command_line : commandLine 0x4A#8 0x0120#16 (ascii "CAL 2") = ascii "!4A0120 CAL 2" ++ [0x0D#8, 0x0A#8] := by decide

/-- R32: the header of block 4 of a push with 304 bytes. -/
theorem test_block_header : blockHeader 0x3D#8 4 304 = ascii "*3D0004 0130" ++ [0x0D#8, 0x0A#8] := by decide

/-- R98: the calibration table. -/
theorem test_calibration : calibrate 1000 1100 (-5) = 1069 ∧ calibrate 1000 1024 0 = 1000 ∧ calibrate 10 1024 (-64) = 0 ∧
    calibrate 4095 2048 63 = 4095 := by decide

/-- R101: the floor of four set voltages. -/
theorem test_floor : railFloor 3000 = 2700 ∧ railFloor 3800 = 3420 ∧ railFloor 4200 = 3780 ∧ railFloor 4500 = 4050 := by decide

/-- R97: the ends of the voltage scale. -/
theorem test_millivolts : millivolts 0 = 0 ∧ millivolts 4095 = 5118 := by decide

/-- R108: the mean and the charge of the two-second draw. -/
theorem test_window_close : (Window.close ⟨20000, 5000000, 250, 250, 31000#32, false⟩ 33000#32) =
    ⟨20000, some (250, 250, 250, 139), 2000, false⟩ := by decide

/-- R119: payloads and their numbers. -/
theorem test_reply_numbers :
    replyNumber (ascii "VBAT=-12mV") = some (-12) ∧ replyNumber (ascii "SN 004471") = some 4471 ∧
    replyNumber (ascii "rev 2.5") = some 2 ∧ replyNumber (ascii "--3") = some (-3) ∧
    replyNumber (ascii "CNT 12345678901") = some 1234567890 ∧ replyNumber (ascii "OFS -9999999999") = some (-2147483648) ∧
    replyNumber (ascii "CNT 3000000000") = some 2147483647 ∧ replyNumber (ascii "ERR") = none := by decide +kernel

/-- Chapter 6: the scores of limit set 4. -/
theorem test_scores : score (some 265) 180 420 = 179 ∧ score (some 1310) 0 1200 = 0 ∧ score (some 2000) 1900 2100 = 253 ∧
    score none 0 100 = 0 ∧ score (some 147) 100 200 = 237 := by decide

/-- Chapter 6: thresholds 100, 200 and 179 against the score 179. -/
theorem test_thresholds : gradeResult 100 (some 265) 179 = .pass ∧ gradeResult 200 (some 265) 179 = .fail ∧
    gradeResult 179 (some 265) 179 = .fail := by decide

/-- R60: the filter table. -/
def cased : Filter := ⟨.single, #v[0x42#8, 0x54#8, 0x3A#8, 0x20#8], #v[0x20#8, 0x20#8, 0#8, 0#8]⟩
def dual : Filter := ⟨.dual, #v[0x52#8, 0x46#8, 0x41#8, 0x55#8], #v[0#8, 0#8, 0#8, 0x20#8]⟩
theorem test_filter_single : cased.accepts (ascii "bt: link up") = true ∧ cased.accepts (ascii "BTX: ok") = false := by decide
theorem test_filter_dual : dual.accepts (ascii "RF gain 12") = true ∧ dual.accepts (ascii "Au mute") = true ∧
    dual.accepts (ascii "aU mute") = false ∧ dual.accepts (ascii "GPS fix") = false ∧ dual.accepts (ascii "A") = true := by decide

/-- Chapter 11: the records of steps 103 and 104 take 51 and 23 bytes. -/
def record103 : Record :=
  { number := 103#16, kind := .measure 2000, outcome := .advisory, reason := .none, start := 9388#32, finish := 11388#32, reply := none
    measurement := some ⟨20000, some (265, 1310, 212, 147), 2000, false⟩
    grades := some [⟨20, 179, .pass⟩, ⟨21, 0, .fail⟩, ⟨23, 253, .pass⟩, ⟨24, 0, .pass⟩, ⟨31, 237, .pass⟩]
    push := none, released := none }
def record104 : Record :=
  { number := 104#16, kind := .push 2, outcome := .fail, reason := .phoneError, start := 11388#32, finish := 12150#32
    reply := some ⟨0x21#8, none⟩, measurement := none, grades := none, push := some (2, some 2), released := none }
theorem test_record_103 : record103.bytes.length = 51 ∧ record103.bytes.take 8 = [51#8, 0#8, 103#8, 0#8, 3#8, 1#8, 0#8, 6#8] := by decide
theorem test_record_104 : record104.bytes.length = 23 ∧ record104.bytes.drop 16 = [0x21#8, 0#8, 0#8, 2#8, 0#8, 2#8, 0#8] := by decide

/-- R38: a CR before the LF goes, and 250 bytes with CR LF are whole. -/
theorem test_line_ends : (Assembler.line ⟨ascii "=0500" ++ [cr], false, false, false⟩ false) = ⟨ascii "=0500", false, false⟩ ∧
    ((Assembler.push ⟨List.replicate 250 0x41#8, false, false, false⟩ cr false).line false).truncated = false ∧
    ((Assembler.push ⟨List.replicate 250 0x41#8, false, false, false⟩ 0x41#8 false).line false).truncated = true := by decide +kernel

/-- R41: a reply line in lower case, one with a payload, and lines that are none. -/
theorem test_reply_lines : phoneReply ⟨ascii "=3c00", false, false⟩ = some ⟨0x3C, 0, []⟩ ∧
    phoneReply ⟨ascii "=4A21 LOW BATT", false, false⟩ = some ⟨0x4A, 0x21, ascii "LOW BATT"⟩ ∧
    phoneReply ⟨ascii "=4A21LOW", false, false⟩ = none ∧ phoneReply ⟨ascii "=4A21", false, true⟩ = none := by decide

/-- R185: key combination, target and metric codes beyond the last are none. -/
theorem test_enumeration_ends : KeyCombo.ofCode 3 = Option.none ∧ Target.ofCode 5 = Option.none ∧ Metric.ofCode 6 = Option.none ∧
    TriggerAction.ofCode 4 = Option.none ∧ FilterMode.ofCode 2 = Option.none ∧ GuardAction.ofCode 2 = Option.none := by decide

/-- Chapter 11: the STEP body of step 102. -/
def body102 : List Byte := [102#8, 0#8, 0#8, 2#8, 0xD0#8, 0x07#8, 0#8, 0#8, 3#8, 0x20#8, 0x01#8, 0#8]
def step102 : StepRecord := ⟨102#16, .exchange 0x0120#16 [], false, true, 2000, some 3, none⟩
theorem test_step_body : stepOf body102 = some (step102, false) ∧ step102.body = body102 := by decide

/-! ### Single commands -/

theorem test_cell_info : ((after (.cellInfo (cellReq [])) linked).link.replies.map Frame.body) =
    [[0#8, 0x7C#8, 0x1E#8, 0x24#8, 0x0F#8, 1#8, 24#8, 4#8, 0#8, 2#8, 0#8, 1#8, 16#8, 64#8, 8#8]] := by decide +kernel
theorem test_unknown_kind : ((after (.unknownKind 0x77#8 (cellReq [])) linked).link.replies.map Frame.body) = [[0x10#8, 0x77#8]] := by
  decide +kernel
theorem test_bad_slot : ((after (.slotStatus (cellReq [])) linked).link.replies.map Frame.body) = [[0x11#8]] := by decide +kernel
theorem test_step_queued : ((after (.stepRequest (slotReq 5 body102)) (busy .run .none (.measure 5))).slot 5).engine.waiting = [step102] := by
  decide +kernel
/-- An EXCHANGE posted to an empty queue in RUN takes tag 01 and sends its line. -/
theorem test_exchange_sent : (((after (.stepRequest (slotReq 5 body102)) (phone fun x => { x with power.state := .run })).slot 5).line.tx) =
    some ⟨.step, .line (ascii "!010120" ++ [0x0D#8, 0x0A#8])⟩ := by decide +kernel
/-- Outside RUN it ends FAIL STATE in its start event. -/
theorem test_exchange_state : (((after (.stepRequest (slotReq 5 body102)) linked).slot 5).engine.done.map fun e => e.record.reason) =
    [.state] := by decide +kernel
theorem test_obj_open : ((after (.objOpen (cellReq (2#8 :: le 4 4400))) linked).store.object 2).pages.length = 18 := by decide +kernel
theorem test_block_size : ((after (.slotBlock (slotReq 5 (le 2 1024))) linked).slot 5).line.blockSize = 1024 := by decide +kernel
theorem test_notice_set : (after (.noticeSet (cellReq [0x68#8, 16#8])) linked).link.priorities = #v[8, 4, 7, 6, 12, 5, 9, 15] := by
  decide +kernel
theorem test_lid_opens : (after .lidInputOpens linked).lid = ⟨.closed, true, some 10#32⟩ := by decide
/-- The fourth sample above the trip level puts the slot into FAULT (R100). -/
theorem test_overcurrent : (((after (.overcurrentTrip 5 4000 4000) (phone fun x =>
    { x with power.state := .run, sampler.overcurrent := 3 })).slot 5).power.state) = .fault := by decide +kernel
/-- The LF of a LOG line stores it (R53). -/
theorem test_line_stored : (((after (.lineReceived 5 false) (phone fun x =>
    { x with power.state := .run, line.assembler.kept := ascii "audio codec up" ++ [cr] })).slot 5).capture.ring.map CaptureRecord.cost) =
    [22] := by decide +kernel
/-- A wake takes STANDBY SETTLED to LISTEN (R89). -/
theorem test_wake : (((after (.wake 5 0x41#8 false) (phone fun x => { x with power.state := .standby, power.phase := .settled })).slot 5).power.state)
    = .listen := by decide +kernel
/-- A tick is one millisecond, and a due expiry goes before it. -/
theorem test_idle : (match step linked with
    | .next t => t.time
    | .fault _ => 9#32
    | .refused _ => 9#32) = 1#32 := by decide +kernel

end Sys2Proof.Tests
end

