-- ==== Sys2Proof/Tests/Witnesses.lean ====
section
/-! SUPPORT. For every statement with hypotheses a state and operands that meet them, one for each clause, at the ends of its
ranges. `witness_<Name>` belongs to `Obligations.<Name>`. -/

namespace Sys2Proof.Tests

open Sys2Proof Sys2Proof.Machine

set_option Elab.async false

theorem cellReq_toCell (body : List Byte) : (cellReq body).toCell body := ⟨rfl, rfl, rfl⟩
theorem slotReq_toSlot (i : Slot) (body : List Byte) : (slotReq i body).toSlot i body := ⟨rfl, rfl, rfl⟩

theorem phone_slot (f : SlotState → SlotState) : (phone f).slot 5 = f SlotState.reset := by
  rw [phone, State.modSlot_slot_same]
  exact congrArg f (by decide +kernel)

/-! ### The queue and the cell's requests -/

theorem witness_StepRunsTheFrontCommand :
    ({ linked with pending := [.busReset, .frameTaken] } : State).pending = .busReset :: [.frameTaken] := rfl

/-- An empty queue with nothing due, at the last millisecond before the wrap; and with the lid's recognition due. -/
theorem witness_EmptyQueue : ({ linked with time := 0xFFFFFFFF#32 } : State).pending = [] ∧
    ({ linked with time := 0xFFFFFFFF#32 } : State).dueExpiry = none ∧ (0xFFFFFFFF#32 + 1#32 : Time) = 0#32 ∧
    ({ linked with lid := ⟨.closed, true, some 0#32⟩ } : State).pending = [] ∧
    ({ linked with lid := ⟨.closed, true, some 0#32⟩ } : State).lid.state = .closed ∧ ((linked.time - 0#32).toNat < 2147483648) := by
  decide +kernel

theorem witness_CellInfoAndStatusReport : linked.LinkReady ∧ (cellReq []).toCell [] := ⟨linked_ready, cellReq_toCell []⟩

theorem witness_CellResetResetsEveryBlock :
    linked.link.usb = .configured ∧ linked.link.held = none ∧ linked.link.inbound = [] ∧ (cellReq []).toCell [] :=
  ⟨rfl, rfl, rfl, cellReq_toCell []⟩

/-- Target 0, the last kind, the first target beyond it; the values 15 and 16. -/
theorem witness_NoticeSetSetsOneValue : linked.LinkReady ∧ (cellReq [0x00#8, 15#8]).toCell [0x00#8, 15#8] ∧
    (cellReq [0x68#8, 16#8]).toCell [0x68#8, 16#8] ∧ (cellReq [0x69#8, 16#8]).toCell [0x69#8, 16#8] ∧
    0x68#8 = byte (0x61 + (7 : Fin 8).val) ∧ 0x69#8 ≠ 0#8 ∧ ∀ k : Fin 8, 0x69#8 ≠ byte (0x61 + k.val) :=
  ⟨linked_ready, cellReq_toCell _, cellReq_toCell _, cellReq_toCell _, by decide⟩

/-! ### The guard and the limits -/

/-- Entry 7 with one code, its lock set; and linked with its entry 7 so. -/
def lastGuard : GuardEntry := ⟨true, 0xFFFF#16, 0xFFFF#16, 0xFFFFFF#24, .deny, true⟩
def guarded : State := { linked with guard := linked.guard.set 7 lastGuard }

theorem witness_GuardWriteReplacesAnUnlockedEntry : guarded.LinkReady ∧ guarded.guard[7].locked = true ∧
    guarded.guard[0].locked = false ∧ (cellReq (lastGuard.bytes 7)).toCell (lastGuard.bytes 7) ∧
    (cellReq (lastGuard.bytes 0)).toCell (lastGuard.bytes 0) ∧ lastGuard.codeLo.toNat ≤ lastGuard.codeHi.toNat ∧
    (let body : List Byte := 8#8 :: List.replicate 10 0#8;
      (cellReq body).toCell (cellReq body).body ∧ (cellReq body).body.length = 11 ∧ 7 < byteNat (cellReq body).body 0) :=
  ⟨⟨rfl, rfl, rfl, by decide⟩, by decide, by decide, cellReq_toCell _, cellReq_toCell _, by decide, cellReq_toCell _, by decide⟩

theorem witness_GuardReadAndDefault : linked.LinkReady ∧ (cellReq [7#8]).toCell [7#8] ∧ 7#8 = byte (7 : Fin 8).val ∧
    (cellReq [8#8]).toCell [8#8] ∧ 8 ≤ (8#8 : Byte).toNat ∧ (cellReq [1#8]).toCell [1#8] ∧ 1#8 = byte GuardAction.deny.code ∧
    (cellReq [2#8]).toCell [2#8] ∧ 2 ≤ (2#8 : Byte).toNat :=
  ⟨linked_ready, cellReq_toCell _, by decide, cellReq_toCell _, by decide, cellReq_toCell _, by decide, cellReq_toCell _, by decide⟩

/-- Entry 7 is the first that covers code FFFF and slot 23; none covers it in the linked state. -/
theorem witness_GuardDecidesByTheFirstCoveringEntry :
    let covers (s : State) (k : Fin 8) : Prop := s.guard[k].valid = true ∧ s.guard[k].codeLo.toNat ≤ (0xFFFF#16).toNat ∧
      (0xFFFF#16).toNat ≤ s.guard[k].codeHi.toNat ∧ s.guard[k].slots.getLsbD (23 : Slot).val = true
    covers guarded 7 ∧ (∀ j : Fin 8, j < 7 → ¬ covers guarded j) ∧ ∀ k : Fin 8, ¬ covers linked k := by decide +kernel

/-- The widest entry, with the unscored threshold, at the last index; an index and a threshold just beyond. -/
def widest : LimitEntry := ⟨true, 15, .replyNumber, -2147483648, 2147483647, 255, .watch⟩
theorem witness_LimitWriteAndRead : linked.LinkReady ∧ (cellReq (widest.bytes 63)).toCell (widest.bytes 63) ∧
    -2147483648 ≤ widest.lo ∧ widest.lo ≤ widest.hi ∧ widest.hi ≤ 2147483647 ∧ widest.threshold ≤ 255 ∧ widest.threshold ≠ 254 ∧
    (let body : List Byte := 64#8 :: List.replicate 13 0#8;
      (cellReq body).toCell (cellReq body).body ∧ (cellReq body).body.length = 14 ∧ 63 < byteNat (cellReq body).body 0) ∧
    (let body : List Byte := List.replicate 12 0#8 ++ [254#8, 0#8];
      (cellReq body).toCell (cellReq body).body ∧ (cellReq body).body.length = 14 ∧ byteNat (cellReq body).body 12 = 254) ∧
    (cellReq [byte (63 : Fin 64).val]).toCell [byte (63 : Fin 64).val] ∧ (cellReq [64#8]).toCell [64#8] ∧ 64 ≤ (64#8 : Byte).toNat :=
  ⟨linked_ready, cellReq_toCell _, by decide, by decide, by decide, by decide, by decide, ⟨cellReq_toCell _, by decide⟩,
    ⟨cellReq_toCell _, by decide⟩, cellReq_toCell _, cellReq_toCell _, by decide⟩

/-! ### The payload store -/

/-- Object 15 in a state, with one page. -/
def stored (x : ObjectRecord) : State := { linked with store.objects := linked.store.objects.set 15 x }
theorem stored_ready (x : ObjectRecord) : (stored x).LinkReady := ⟨rfl, rfl, rfl, Nat.zero_lt_succ _⟩
def filling : ObjectRecord := ⟨.filling, 4, 3, [0], 0, none⟩
def sealed (refs : Nat) : ObjectRecord := ⟨.sealed, 4, 4, [0], refs, some 0#16⟩
def condemned : ObjectRecord := ⟨.condemned, 4, 4, [0], 1, some 0#16⟩

/-- Lengths 0, 65536 and 65537, an object not EMPTY, a pool too small, and the object beyond the last. -/
theorem witness_ObjOpenAllocatesPages : linked.LinkReady ∧ (stored filling).LinkReady ∧
    (∀ length ∈ [0, 65536, 65537], length < 4294967296 ∧
      (cellReq (byte (15 : Fin 16).val :: le 4 length)).toCell (byte (15 : Fin 16).val :: le 4 length)) ∧
    (linked.store.object 15).state = .empty ∧ 256 ≤ linked.store.free.length ∧ ((stored filling).store.object 15).state ≠ .empty ∧
    ({ linked.store with free := [7] } : Store).free.length < (65536 + 255) / 256 ∧
    (cellReq [16#8, 1#8, 0#8, 0#8, 0#8]).toCell [16#8, 1#8, 0#8, 0#8, 0#8] ∧ 15 < byteNat [16#8, 1#8, 0#8, 0#8, 0#8] 0 :=
  ⟨linked_ready, stored_ready _, fun n h => ⟨by revert n; decide, cellReq_toCell _⟩, by decide, by decide +kernel, by decide, by decide,
    cellReq_toCell _, by decide⟩

/-- One byte at the fill level that completes the object; 1000 bytes beyond its length; every state; the object beyond the last. -/
theorem witness_ObjDataWritesAtTheFillLevel : (∀ x, (stored x).LinkReady) ∧
    (∀ data ∈ [[7#8], List.replicate 1000 7#8], 1 ≤ data.length ∧ data.length ≤ 1000 ∧
      (cellReq (byte (15 : Fin 16).val :: (le 4 3 ++ data))).toCell (byte (15 : Fin 16).val :: (le 4 3 ++ data))) ∧
    (3 = filling.fill ∧ 3 + [7#8].length ≤ filling.length ∧ filling.length < 3 + 1000) ∧
    (let body : List Byte := 16#8 :: List.replicate 5 0#8;
      (cellReq body).toCell body ∧ 6 ≤ body.length ∧ body.length ≤ 1005 ∧ 15 < byteNat body 0) := by
  refine ⟨stored_ready, fun data h => ⟨?_, ?_, cellReq_toCell _⟩, by decide, cellReq_toCell _, by decide⟩ <;> revert data <;> decide +kernel

/-- The last two bytes of two pages that lie the other way about in the pool. -/
theorem witness_WrittenPagesReadBack : Memory.wf [] = true ∧ [3, 1].Nodup ∧ 510 + [7#8, 9#8].length ≤ 256 * [3, 1].length ∧
    ∀ k < [7#8, 9#8].length, 0 ≠ 256 * [3, 1].getD ((510 + k) / 256) 0 + (510 + k) % 256 := by decide

theorem witness_ObjSealSeals : (∀ x, (stored x).LinkReady) ∧ (cellReq [15#8]).toCell [15#8] ∧ 15#8 = byte (15 : Fin 16).val ∧
    filling.fill ≠ filling.length ∧ (cellReq [16#8]).toCell [16#8] ∧ 16 ≤ (16#8 : Byte).toNat :=
  ⟨stored_ready, cellReq_toCell _, by decide, by decide, cellReq_toCell _, by decide⟩

/-- An object without and with references, and a condemned one, can stand at 15. -/
theorem witness_ObjDeleteFreesOrCondemns : (∀ x, (stored x).LinkReady) ∧ ((stored (sealed 0)).store.object 15).refs = 0 ∧
    ((stored (sealed 1)).store.object 15).refs = 1 ∧ ((stored condemned).store.object 15).state = .condemned ∧
    (cellReq [15#8]).toCell [15#8] ∧ 15#8 = byte (15 : Fin 16).val ∧ (cellReq [16#8]).toCell [16#8] ∧ 16 ≤ (16#8 : Byte).toNat :=
  ⟨stored_ready, by decide, by decide, by decide, cellReq_toCell _, by decide, cellReq_toCell _, by decide⟩

theorem witness_ObjListAndInstrStatusReport : linked.LinkReady ∧ (cellReq []).toCell [] := ⟨linked_ready, cellReq_toCell []⟩

/-! ### Requests of a slot -/

/-- Presence bits 0 and 8 with the present baud, all nine with the fastest, and bit 1 without bit 2, which is malformed. -/
def configBody (mask : Nat) (rest : List Byte) : List Byte := le 2 mask ++ rest ++ List.replicate (20 - rest.length) 0#8
theorem witness_SlotConfigAppliesThePresentFields : (∀ f, (phone f).LinkReady) ∧
    (∀ body, (slotReq 23 body).toSlot 23 body) ∧
    (let body := configBody 0x1FF (le 4 3000000 ++ le 2 2049);
      body.length = 22 ∧ field body 0 2 < 512 ∧ field body 2 4 = Baud.b3000000.value ∧ field body 2 4 ≠ (linked.slot 23).line.baud.value ∧
      (linked.slot 23).power.state = .off ∧ 2048 < field body 6 2) ∧
    (let body := configBody 0x001 (le 4 921600);
      body.length = 22 ∧ ¬ (field body 0 2).testBit 1 ∧ ¬ (field body 0 2).testBit 2 ∧
      field body 2 4 = (linked.slot 23).line.baud.value) ∧
    ((configBody 0x200 []).length = 22 ∧ 512 ≤ field (configBody 0x200 []) 0 2) ∧
    ((configBody 0x002 []).length = 22 ∧ (field (configBody 0x002 []) 0 2).testBit 1 ∧ ¬ (field (configBody 0x002 []) 0 2).testBit 2) ∧
    ((phone fun x => { x with power.state := .run }).slot 5).power.state ≠ .off := by
  refine ⟨phone_ready, slotReq_toSlot 23, ?_⟩
  decide +kernel

theorem witness_SlotLineSettingsAreSet : linked.LinkReady ∧ (∀ body, (slotReq 23 body).toSlot 23 body) ∧ 65535 < 65536 ∧
    (let pattern : List Byte := List.replicate 24 0x41#8;
      1 ≤ pattern.length ∧ pattern.length + ([] : List Byte).length = 24 ∧ 0x0A#8 ∉ pattern) ∧
    (let body : List Byte := [3#8, 1#8, 1#8, 3#8, 25#8] ++ List.replicate 24 0x41#8;
      body.length = 29 ∧ 24 < byteNat body 4) :=
  ⟨linked_ready, slotReq_toSlot 23, by decide, by decide, by decide⟩

/-- A slot with 16 steps, one in FAULT, an EMPTY, a FILLING and a SEALED object. -/
def pushStep : StepRecord := stepOfKind (.push 15)
theorem witness_StepAppendsTheStep : (∀ f, (phone f).LinkReady) ∧ (∀ x, (stored x).LinkReady) ∧
    (stepOfKind (.exchange 0xFFFF#16 [0x7E#8])).allowed ∧ pushStep.allowed ∧ (stepOfKind (.power .run .strap)).allowed ∧
    (stepOfKind (.measure 4294967295)).allowed ∧ (stepOfKind (.press 7#3 49)).allowed ∧ (stepOfKind (.attach 15#4 99)).allowed ∧
    (stepOfKind (.detach 0#4)).allowed ∧ (stepOfKind (.await 3)).allowed ∧ (slotReq 5 pushStep.body).toSlot 5 pushStep.body ∧
    (((phone fun x => { x with engine.waiting := List.replicate 16 pushStep }).slot 5).engine.queueCount = 16) ∧
    ((phone fun x => { x with power.state := .fault }).slot 5).power.state = .fault ∧
    ((stored filling).store.object 15).state = .filling ∧ ((stored (sealed 0)).store.object 15).state = .sealed := by
  refine ⟨phone_ready, stored_ready, ?_, ?_, ?_, ?_, ?_, ?_, ?_, ?_, slotReq_toSlot _ _, ?_, ?_, ?_, ?_⟩
  all_goals first | decide | exact ⟨by simp [pushStep, stepOfKind, StepKind.allowed], by decide, rfl, by decide⟩

/-- The first kind, flag and set beyond the last of each, and the parameters of each kind beyond its last. -/
def stepBody (kind flags set : Nat) (rest : List Byte) : List Byte :=
  [1#8, 0#8, byte kind, byte flags, 0#8, 0#8, 0#8, 0#8, byte set] ++ rest
theorem witness_StepRefusesBadFields : linked.LinkReady ∧ (∀ body, (slotReq 23 body).toSlot 23 body) ∧
    (∀ body ∈ [stepBody 8 0 255 [0#8], stepBody 1 4 255 [0#8], stepBody 1 0 16 [0#8], stepBody 6 0 15 [0#8],
      stepBody 0 0 255 ([0#8, 0#8, 1#8] ++ [0x7F#8]), stepBody 1 0 255 [16#8], stepBody 2 0 255 [2#8, 1#8],
      stepBody 4 0 255 [8#8, 0#8, 0#8, 0#8, 0#8], stepBody 5 0 255 [16#8, 0#8, 0#8, 0#8, 0#8], stepBody 7 0 255 [4#8]],
      stepLengthAllowed body) ∧ 7 < byteNat (stepBody 8 0 255 [0#8]) 2 ∧ 3 < byteNat (stepBody 1 4 255 [0#8]) 3 ∧
    byteNat (stepBody 1 0 16 [0#8]) 8 = 16 ∧ 15 < byteNat (stepBody 1 0 255 [16#8]) 9 ∧ 3 < byteNat (stepBody 7 0 255 [4#8]) 9 := by
  refine ⟨linked_ready, slotReq_toSlot 23, ?_, by decide, by decide, by decide, by decide, by decide⟩
  unfold stepLengthAllowed
  decide

/-- No step, a PUSH whose block is leaving, and a step of another kind in flight. -/
def leavingPush : Flight :=
  { flightOf (.push 2) with tag := some 1#8, push := some ⟨256, 2, 0, 0, false, false⟩ }
def aborting : Flight := { leavingPush with tag := none, push := some ⟨256, 2, 0, 0, true, false⟩ }
def sendingPush (f : Flight) : State := phone fun x =>
  { x with power.state := .run, engine.flight := some f, line.tx := some ⟨.step, .block [] [0] 0 256⟩ }
theorem witness_AbortTakesTheStepInFlight : linked.LinkReady ∧ (sendingPush leavingPush).LinkReady ∧
    (∀ all : Bool, (slotReq 5 [if all then 1#8 else 0#8]).toSlot 5 [if all then 1#8 else 0#8]) ∧
    (linked.slot 5).engine.flight = none ∧ ((sendingPush aborting).slot 5).engine.flight = some aborting ∧ aborting.aborting = true ∧
    ((sendingPush leavingPush).slot 5).engine.flight = some leavingPush ∧ leavingPush.push = some ⟨256, 2, 0, 0, false, false⟩ ∧
    ((sendingPush leavingPush).slot 5).line.stepLeaving = true ∧
    ((busy .starting .pressing (.power .run .strap)).slot 5).engine.flight = some (flightOf (.power .run .strap)) ∧
    (flightOf (.power .run .strap)).aborting = false ∧ (flightOf (.power .run .strap)).push = none ∧
    (slotReq 5 [2#8]).toSlot 5 [2#8] ∧ 2 ≤ (2#8 : Byte).toNat := by
  refine ⟨linked_ready, phone_ready _, fun _ => slotReq_toSlot _ _, ?_, ?_, ?_, ?_, ?_, ?_, ?_, ?_, ?_, slotReq_toSlot _ _, ?_⟩ <;>
    decide +kernel

/-- R20: after ABORT ALL of a STOP_ON_FAIL PUSH whose block is leaving, a STEP appended before the block ends starts normally when it
has; after ABORT IN_FLIGHT it is SKIPPED. -/
theorem test_abort_all_spares_later_steps :
    let stopping : Flight := { leavingPush with step.stopOnFail := true }
    let ended (scope : Byte) : Engine :=
      ((after (.itemSent 5) (after (.stepRequest (slotReq 5 (stepOfKind (.measure 50)).body))
        (after (.abort (slotReq 5 [scope])) (sendingPush stopping)))).slot 5).engine
    ((ended 1#8).flight.map fun f => f.step.kind) = some (.measure 50) ∧ (ended 1#8).done.length = 1 ∧
    (ended 0#8).flight = none ∧ ((ended 0#8).done.map fun e => e.record.reason) = [.aborted, .skipped] := by decide +kernel

/-- One record in transmission before one that waits, asked for with 0, 8 and 9. -/
def listed (entries : List ListEntry) : State := phone fun x => { x with engine.done := entries }
theorem witness_ResultsHandsOutTheOldestRecords : (listed [⟨record103, true⟩, ⟨record104, false⟩]).LinkReady ∧
    (∀ n ∈ [0, 8], n ≤ 8 ∧ (slotReq 5 [byte n]).toSlot 5 [byte n]) ∧
    ((listed [⟨record103, true⟩, ⟨record104, false⟩]).slot 5).engine.done = [⟨record103, true⟩] ++ [⟨record104, false⟩] ∧
    (∀ e ∈ ([⟨record103, true⟩] : List ListEntry), e.inTx = true) ∧ (∀ e ∈ ([⟨record104, false⟩] : List ListEntry), e.inTx = false) ∧
    (slotReq 5 [9#8]).toSlot 5 [9#8] ∧ 9 ≤ (9#8 : Byte).toNat :=
  ⟨phone_ready _, fun n h => ⟨by revert n; decide, slotReq_toSlot _ _⟩, by decide +kernel, by decide, by decide, slotReq_toSlot _ _, by decide⟩

theorem witness_SlotStatusReportsAndClears : linked.LinkReady ∧ (slotReq 23 []).toSlot 23 [] := ⟨linked_ready, slotReq_toSlot _ _⟩

theorem witness_CaptureReadAndRelease : linked.LinkReady ∧ (slotReq 23 []).toSlot 23 [] ∧
    ∀ n ∈ [0, 65535], n < 65536 ∧ (slotReq 23 (le 2 n)).toSlot 23 (le 2 n) :=
  ⟨linked_ready, slotReq_toSlot _ _, fun n h => ⟨by revert n; decide, slotReq_toSlot _ _⟩⟩

theorem witness_ClearFaultTakesFaultToOff : linked.LinkReady ∧ (linked.slot 5).power.state ≠ .fault ∧
    (phone fun x => { x with power.state := .fault }).LinkReady ∧
    ((phone fun x => { x with power.state := .fault }).slot 5).power.state = .fault ∧ (slotReq 5 []).toSlot 5 [] :=
  ⟨linked_ready, by decide, phone_ready _, by decide, slotReq_toSlot _ _⟩

theorem witness_SlotResetDiscardsTheSlot : (busy .run .none (.push 2)).LinkReady ∧ (slotReq 5 []).toSlot 5 [] :=
  ⟨phone_ready _, slotReq_toSlot _ _⟩

/-! ### The link -/

/-- An unknown kind; a slot field 24 beyond the last slot; a body one byte too long; a flag. -/
theorem witness_RequestsAreCheckedInOrder : linked.LinkReady ∧
    (Instr.unknownKind 0x05#8 (cellReq [])).request = some (cellReq []) ∧ (0x05#8 : Byte) ∉ requestCodes ∧
    (Instr.slotStatus (slotReq 23 [])).kindByte = some 0x30#8 ∧ (0x30#8 : Byte) ∈ requestCodes ∧ ¬ (BitVec.ofNat 8 24).toNat < 24 ∧
    (slotReq 23 []).slot.toNat < 24 ∧ ¬ lengthAllowed 0x30#8 [0#8] ∧ lengthAllowed 0x30#8 [] ∧
    ({ slotReq 23 [] with flags := 1#8 } : Request).flags ≠ 0#8 ∧ (List.replicate 1024 0#8 : List Byte).length ≤ 1024 := by
  refine ⟨linked_ready, rfl, by decide, rfl, by decide, by decide, by decide, ?_, ?_, by decide, by decide +kernel⟩
  · unfold lengthAllowed stepLengthAllowed; decide
  · exact .inl ⟨by decide, rfl⟩

theorem witness_OneFrameTransferIsTheRequest (body : List Byte) (h : body = List.replicate 1024 0#8) :
    (Instr.unknownKind 0x77#8 (cellReq body)).request = some (cellReq body) ∧
    (Instr.unknownKind 0x77#8 (cellReq body)).kindByte = some 0x77#8 ∧ (cellReq body).body.length ≤ 1024 := by
  subst h; exact ⟨rfl, rfl, by decide +kernel⟩

/-- The empty tail, seven bytes, the lengths 7, 1033 and one more than there is, and eight bytes with a false check. -/
theorem witness_TransfersCarryTheirFrames :
    (∀ f ∈ [((0x01#8 : Byte), cellReq [])], f.2.body.length ≤ 1024) ∧ (List.replicate 7 0#8 : List Byte).length < 8 ∧
    field (le 2 7 ++ List.replicate 6 0#8) 0 2 < 8 ∧ 1032 < field (le 2 1033 ++ List.replicate 6 0#8) 0 2 ∧
    (le 2 9 ++ List.replicate 6 0#8).length < field (le 2 9 ++ List.replicate 6 0#8) 0 2 ∧
    (let tail : List Byte := le 2 8 ++ List.replicate 6 0#8;
      8 ≤ tail.length ∧ field tail 0 2 = 8 ∧ crc16 (tail.take (8 - 2)) ≠ BitVec.ofNat 16 (field tail (8 - 2) 2)) := by decide +kernel

/-- Four requests of 1016 bytes fill the inbound buffer. -/
def filledLink : State :=
  { linked with link.inbound := List.replicate 4 ⟨0x11#8, 0#8, 0xFF#8, 0#8, List.replicate 1016 0#8⟩ }
theorem witness_TransfersAreAcceptedOrHeldOff : State.reset.link.usb = .notConfigured ∧
    ({ linked with link.held := some [] } : State).link.held ≠ none ∧ 4096 < (List.replicate 4097 0#8 : List Byte).length ∧
    filledLink.link.usb = .configured ∧ filledLink.link.held = none ∧
    4096 < (filledLink.link.inbound.map fun f => 8 + f.body.length).sum + [0#8].length ∧
    (linked.link.inbound.map fun f => 8 + f.body.length).sum + (List.replicate 4096 0#8 : List Byte).length ≤ 4096 := by decide +kernel

/-- No request; one behind 8 replies; CELL_RESET behind them; one after which the transfer held off does and does not fit. -/
def infoFrame : Frame := ⟨0x01#8, 0#8, 0xFF#8, 0#8, []⟩
theorem witness_IntakeTakesTheOldestRequestFirst :
    let backed : State := { linked with link := { linked.link with inbound := [infoFrame], replies := List.replicate 8 infoFrame } }
    linked.link.inbound = [] ∧ backed.link.inbound = infoFrame :: [] ∧ 8 ≤ backed.link.replies.length ∧
    checkRequest infoFrame ≠ .cell .cellReset ∧ checkRequest { infoFrame with kind := 0x03#8 } = .cell .cellReset ∧
    ({ linked with link.inbound := [infoFrame] } : State).link.replies.length < 8 ∧
    (∀ bytes ∈ linked.link.held, ¬ (([] : List Frame).map fun g => 8 + g.body.length).sum + bytes.length ≤ 4096) ∧
    (∀ bytes ∈ some (List.replicate 4096 0#8 : List Byte), (([] : List Frame).map fun g => 8 + g.body.length).sum + bytes.length ≤ 4096) := by
  decide +kernel

/-- The link free with HELLO, with a reply, with no notice eligible, with two notices of one priority; and the pipe taken. -/
def twoNotices : State := { linked with
  slots := Vector.replicate 24 { SlotState.reset with notices.power := true } }
theorem witness_UplinkChoosesInOrder :
    let free (s : State) : Prop := s.link.usb = .configured ∧ s.link.tx = none
    let rank : NoticeName → Nat
      | .linkError => 0
      | .ofSlot i k => 1 + 7 * i.val + k.index.val
    let eligible (s : State) (n : NoticeName) : Prop := s.isPending n = true ∧ s.link.threshold < s.link.priorityOf n
    let greeting : State := { linked with link.hello := some .powerOn }
    let replying : State := { linked with link.replies := [infoFrame] }
    State.reset.link.usb = .notConfigured ∧ ¬ free State.reset ∧ free greeting ∧ greeting.link.hello = some .powerOn ∧
    free replying ∧ replying.link.hello = none ∧ replying.link.replies = infoFrame :: [] ∧ free linked ∧ linked.link.replies = [] ∧
    eligible twoNotices (.ofSlot 0 .power) ∧ rank (.ofSlot 0 .power) < rank (.ofSlot 23 .power) ∧
    twoNotices.link.priorityOf (.ofSlot 23 .power) = twoNotices.link.priorityOf (.ofSlot 0 .power) ∧
    ¬ eligible { twoNotices with link.threshold := 6 } (.ofSlot 0 .power) := by decide +kernel

theorem witness_NoticeContentIsFixedAtTheChoice :
    ((listed [⟨record104, false⟩]).slot 5).engine.done = [] ++ ⟨record104, false⟩ :: [] ∧
    ((listed [⟨record103, true⟩, ⟨record104, false⟩, ⟨record103, false⟩]).slot 5).engine.done =
      [⟨record103, true⟩] ++ ⟨record104, false⟩ :: [⟨record103, false⟩] ∧
    (∀ d ∈ ([⟨record103, true⟩] : List ListEntry), d.inTx = true) ∧ ∀ d ∈ ([⟨record103, false⟩] : List ListEntry), d.inTx = false := by
  decide +kernel

def carrying (source : FrameSource) : State := { linked with link.tx := some ⟨infoFrame, source, false⟩ }
theorem witness_BusResetRestoresTheAbandonedFrame (source : FrameSource) :
    linked.link.tx = none ∧ (carrying source).link.tx = some ⟨infoFrame, source, false⟩ := ⟨rfl, rfl⟩

theorem witness_FrameTakenCompletesTheTransmission (source : FrameSource) :
    linked.link.tx = none ∧ (carrying source).link.tx = some ⟨infoFrame, source, false⟩ := ⟨rfl, rfl⟩

/-! ### The step engine -/

theorem witness_StepCompletionWritesItsRecord (state : PowerState) (phase : PowerPhase) (kind : StepKind) :
    ((busy state phase kind).slot 5).engine.flight = some (flightOf kind) := by rw [busy, phone_slot]

/-- Any step of any kind can head the queue of a slot in any power state, with up to 7 records. -/
theorem headed_ready (state : PowerState) (kind : StepKind) :
    ((headed state kind).slot 5).engine.flight = none ∧ ((headed state kind).slot 5).engine.waiting = stepOfKind kind :: [] ∧
    ((headed state kind).slot 5).engine.done.length < 8 ∧ (stepOfKind kind).doom = none ∧
    ((headed state kind).slot 5).power.state = state ∧ (headed state kind).lid.state = .closed ∧
    ((headed state kind).slot 5).line.tx = none := by
  rw [headed, phone_slot]
  exact ⟨rfl, rfl, Nat.zero_lt_succ _, rfl, rfl, rfl, rfl⟩

/-- The hypotheses of the kinds beside those of `headed_ready`. -/
theorem witness_StepStartBeginsItsKind :
    (headed .run (.exchange 0xFFFF#16 [])).guardDecision 0xFFFF#16 5 = .allow ∧
    ((headed .run (.push 15)).modSlot 5 fun x => { x with line.blockSize := 256 }).slot 5 =
      { (headed .run (.push 15)).slot 5 with line.blockSize := 256 } ∧
    ((phone fun x => { x with capture.triggers := x.capture.triggers.set 3 { Trigger.reset with enabled := true } }).slot 5).capture.triggers[
      (3 : Fin 4)].enabled = true ∧
    ((Target.standby ≠ .off ∧ Target.standby ≠ .park) ∧ (Target.run ≠ .off ∧ Target.run ≠ .park)) := by decide +kernel

/-- A start condition of each kind that fails; a doomed head; and heads that cannot start. -/
def denying : State := { headed .run (.exchange 5#16 []) with guardDefault := .deny }
def holding : State := { headed .run (.attach 8#4 100) with ports := (headed .run (.attach 8#4 100)).ports.set 3 (some ⟨5, 0#32⟩) }
def opened (s : State) : State := { s with lid := ⟨.opened, true, none⟩ }
theorem witness_FailedAndDoomedHeadsCompleteAtStart :
    ((headed .listen (.exchange 5#16 [])).slot 5).power.state ≠ .run ∧ denying.guardDecision 5#16 5 = .deny ∧
    ((headed .run (.push 15)).slot 5).line.blockSize = 0 ∧ (opened (headed .standby (.power .run .none))).lid.state = .opened ∧
    (PowerState.standby, Target.run) ∉ [(PowerState.off, Target.off), (.off, .park), (.standby, .standby), (.listen, .listen),
      (.run, .run)] ∧ ((headed .parking (.power .off .none)).slot 5).power.state ∈ [PowerState.starting, .parking, .fault] ∧
    holding.ports[(3 : Fin 4)].map Hold.slot = some 5 ∧ (8#4 : PortMask).getLsbD 3 = true ∧
    (linked.slot 5).capture.triggers[(3 : Fin 4)].enabled = false ∧
    ({ stepOfKind (.detach 0#4) with doom := some .skipped } : StepRecord).doom = some .skipped ∧ (linked.slot 5).engine.waiting = [] ∧
    8 ≤ ((listed (List.replicate 8 ⟨record104, false⟩)).slot 5).engine.done.length := by decide +kernel

/-- For each clause a power state, a phase and a target, beside those of `headed_ready`. -/
theorem witness_PowerStepStartsItsMove :
    ((headed .run (.power .run .none)).slot 5).power.state = .run ∧ ((headed .standby (.power .park .none)).slot 5).power.state = .standby ∧
    ((headed .listen (.power .off .none)).slot 5).power.state = .listen ∧ ((headed .run (.power .off .none)).slot 5).line.tx = none ∧
    ((headed .standby (.power .run .strap)).slot 5).power.phase ≠ .settling ∧
    ((headed .run (.power .park .none)).slot 5).line.tx = none ∧ ((headed .listen (.power .park .none)).slot 5).line.tx = none ∧
    (headed .run (.power .park .none)).guardDecision 0x00F0#16 5 = .allow ∧
    ({ headed .run (.power .park .none) with guardDefault := .deny } : State).guardDecision 0x00F0#16 5 = .deny ∧
    (((headed .run (.power .park .none)).modSlot 5 fun x => { x with line.tx := some ⟨.nobody, .line []⟩ }).slot 5).line.tx ≠ none ∧
    (((headed .standby (.power .listen .none)).modSlot 5 fun x => { x with power.phase := .settling }).slot 5).power.phase = .settling ∧
    (opened (headed .run (.power .off .none))).lid.state = .opened := by decide +kernel

theorem linked_waiters : linked.WaitersInFlight := ⟨List.nodup_nil, fun _ h => nomatch h⟩
theorem headed_waiters (state : PowerState) (kind : StepKind) : (headed state kind).WaitersInFlight :=
  ⟨List.nodup_nil, fun _ h => nomatch h⟩

/-- A DETACH of no port held, and of one held. -/
theorem witness_AttachAndDetachStart : (headed .off (.attach 15#4 100)).WaitersInFlight ∧
    (∀ p : Port, (15#4 : PortMask).getLsbD p.val = true → decide ((headed .off (.attach 15#4 100)).ports[p].map Hold.slot = some 5) = false) ∧
    holding.WaitersInFlight ∧
    (BitVec.ofNat 4 (bitSet ((List.finRange 4).map fun p : Port => decide (linked.ports[p].map Hold.slot = some 5))) : PortMask) = 0#4 ∧
    (BitVec.ofNat 4 (bitSet ((List.finRange 4).map fun p : Port => decide (holding.ports[p].map Hold.slot = some 5))) : PortMask) ≠ 0#4 :=
  ⟨headed_waiters _ _, by decide +kernel, headed_waiters _ _, by decide +kernel, by decide +kernel⟩

/-- A deadline due this millisecond, one due 2^31 - 1 ago, and one 2^31 away, of a step of each kind. -/
theorem witness_StepDeadlinesEndTheirSteps (kind : StepKind) :
    ((busy .run .none kind).slot 5).engine.flight = some (flightOf kind) ∧ (flightOf kind).deadline = some 0#32 ∧
    ((0#32 : Time) - 0#32).toNat < 2147483648 ∧ ((0#32 : Time) - 0x80000001#32).toNat < 2147483648 ∧
    ¬ ((0#32 : Time) - 0x80000000#32).toNat < 2147483648 ∧ (StepKind.await 3).code = 7 ∧ (StepKind.exchange 0#16 []).code = 0 ∧
    (StepKind.push 0).code = 1 ∧ (StepKind.measure 1).code = 3 := by
  refine ⟨by rw [busy, phone_slot], rfl, ?_⟩
  decide

/-! ### Samples, power and the transmitter -/

/-- The rail off; the fourth and the third current above the level; the twentieth voltage below the floor; the hundredth quiet sample. -/
def sampled (f : SlotState → SlotState) : SlotState := f { SlotState.reset with power.state := .run }
theorem witness_SampleMovesTheDetectors :
    SlotState.reset.power.state = .off ∧
    (let x := sampled fun x => { x with sampler.overcurrent := 3 };
      x.power.state ≠ .off ∧ x.power.state ≠ .fault ∧ x.sampler.tripLevel < ((3001 * x.sampler.gain + 512) / 1024 : Nat) ∧
      min (x.sampler.overcurrent + 1) 4 = 4) ∧
    (let x := sampled fun x => { x with sampler.undervolt := 19 };
      2735 * 5 / 4 < x.power.settings.railVoltage * 9 / 10 ∧ min (x.sampler.undervolt + 1) 20 = 20 ∧
      ¬ 2736 * 5 / 4 < x.power.settings.railVoltage * 9 / 10) ∧
    (let x := sampled fun x => { x with power.state := .parking, sampler.parkHistory := List.replicate 99 20, engine.flight := some (flightOf (.power .park .none)) };
      x.power.state = .parking ∧ (x.sampler.parkHistory ++ [19]).length = 100 ∧ (x.sampler.parkHistory ++ [19]).sum < x.power.parkLevel * 100 ∧
      ¬ (x.sampler.parkHistory ++ [20]).sum < x.power.parkLevel * 100 ∧ x.engine.flight = some (flightOf (.power .park .none)) ∧
      (flightOf (.power .park .none)).step.kind.code = 2) := by decide +kernel

/-- A voltage at the floor and one below it, none, each target of the settle; and each later deadline. -/
def settling (target : Option Target) (sample : Option (Nat × Nat)) : State := (busy .standby .settling (.power .run .none)).modSlot 5 fun x =>
  { x with sampler.lastSample := sample, power := { x.power with target := target, settle := some 0#32 } }
theorem witness_PowerDeadlinesMoveTheSlot :
    (∀ target ∈ [some Target.standby, some .listen, some .run, none], ∀ sample ∈ [none, some (0, 3419), some (0, 3420)],
      let x := (settling target sample).slot 5
      x.engine.flight = some (flightOf (.power .run .none)) ∧ x.power.state = .standby ∧ x.power.phase = .settling ∧
        x.power.settle = some 0#32 ∧ x.power.target = target ∧ x.sampler.lastSample = sample) ∧
    (∀ kind ∈ [none, some (StepKind.measure 1)], ∀ sample ∈ [none, some (0, 3419), some (0, 3420)],
      let x := ((settling none sample).modSlot 5 fun x => { x with engine.flight := kind.map flightOf }).slot 5
      x.engine.flight = kind.map flightOf ∧ x.power.state = .standby ∧ x.power.phase = .settling ∧ x.power.settle = some 0#32 ∧
        x.power.target = none ∧ x.sampler.lastSample = sample) ∧
    (3419 < 3800 * 9 / 10 ∧ 3800 * 9 / 10 ≤ 3420) ∧ (flightOf (.power .run .none)).step.kind = .power .run .none ∧
    ((linked.time - 0#32).toNat < 2147483648) ∧
    (let x := ((busy .starting .pressing (.power .run .none)).modSlot 5 fun x => { x with power.pressRelease := some 0#32 }).slot 5;
      x.power.state = .starting ∧ x.power.phase = .pressing ∧ x.power.pressRelease = some 0#32) ∧
    (let x := ((busy .starting .bootWait (.power .run .none)).modSlot 5 fun x => { x with power.bootWait := some 0#32 }).slot 5;
      x.power.state = .starting ∧ x.power.phase = .bootWait ∧ x.power.bootWait = some 0#32) ∧
    (let x := ((busy .parking .none (.power .park .none)).modSlot 5 fun x => { x with power.parkHold := some 0#32 }).slot 5;
      x.power.state = .parking ∧ x.power.parkHold = some 0#32) := by decide +kernel

/-- An item of a step with and without one waiting, a PUSH in ABORTING, and the moves out of RUN that wait. -/
def lastItem : TxItem := ⟨.step, .line []⟩
def leaving (target : Target) : State := (busy .run .leaving (.power target .none)).modSlot 5 fun x =>
  { x with power.target := some target, line.tx := some lastItem }
theorem witness_ItemSentMovesTheTransmitter :
    ((sendingPush leavingPush).slot 5).line.tx ≠ none ∧ ((sendingPush leavingPush).slot 5).power.phase ≠ .leaving ∧
    leavingPush.aborting = false ∧
    (((sendingPush leavingPush).modSlot 5 fun x => { x with line.txWaiting := some lastItem }).slot 5).line.txWaiting = some lastItem ∧
    ((sendingPush aborting).slot 5).engine.flight = some aborting ∧ aborting.aborting = true ∧
    (∀ item ∈ ((sendingPush aborting).slot 5).line.tx, item.owner = .step) ∧ ((sendingPush aborting).slot 5).line.txWaiting = none ∧
    ∀ target ∈ [Target.listen, .off, .park], let x := (leaving target).slot 5
      x.line.tx = some lastItem ∧ x.power.state = .run ∧ x.power.phase = .leaving ∧ x.power.target = some target ∧
        x.line.txWaiting = none ∧ x.engine.flight = some (flightOf (.power target .none)) ∧
        (flightOf (.power target .none)).push = none := by decide +kernel

/-- The lid input closed and open, the lid OPEN, and the recognition due, with slot 5 in RUN and a port it holds. -/
theorem witness_LidOpensAndCloses :
    (linked.lid.input = false ∧ linked.lid.state = .closed) ∧ ((opened linked).lid.input = true ∧ (opened linked).lid.state = .opened) ∧
    (let s : State := { holding with lid := ⟨.closed, true, some 0#32⟩ };
      s.lid.state = .closed ∧ s.lid.deadline = some 0#32 ∧ (s.time - 0#32).toNat < 2147483648 ∧ (s.slot 5).power.state ≠ .off ∧
      (s.slot 5).power.state ≠ .fault ∧ s.ports[(3 : Fin 4)] = some ⟨5, 0#32⟩ ∧ (s.slot 6).power.state = .off) ∧
    ((phone fun x => { x with power.state := .fault }).slot 5).power.state = .fault := by decide +kernel

/-! ### The arbiter -/

/-- An entry of slot 5 behind one of slot 6 that names another port, its deadline due; and a held port whose deadline is due. -/
def queued : State := { holding with
  ports := linked.ports.set 0 (some ⟨5, 0#32⟩), waitList := [⟨6, 1#4, 0#32, 100⟩, ⟨5, 8#4, 0#32, 600000⟩] }
theorem witness_ArbiterExpiresAndGrants :
    queued.waitList = [⟨6, 1#4, 0#32, 100⟩] ++ ⟨5, 8#4, 0#32, 600000⟩ :: [] ∧
    (∀ w ∈ ([⟨6, 1#4, 0#32, 100⟩] : List WaitEntry), w.slot ≠ 5) ∧ (queued.time - 0#32).toNat < 2147483648 ∧
    (∀ p : Port, (8#4 : PortMask).getLsbD p.val = true → queued.ports[p] = none ∧
      ∀ w ∈ ([⟨6, 1#4, 0#32, 100⟩] : List WaitEntry), w.mask.getLsbD p.val = false) ∧
    queued.ports[(0 : Fin 4)] = some ⟨5, 0#32⟩ := by decide +kernel

theorem witness_ArbiterWalk : (headed .off (.attach 15#4 100)).WaitersInFlight := headed_waiters _ _

/-! ### Received bytes and lines -/

/-- A slot for each clause, the 250th and the 251st byte. -/
theorem witness_ReceivedBytesJoinTheLine : (0x0B#8 : Byte) ≠ 0x0A#8 ∧ (0x09#8 : Byte) ≠ 0x0A#8 ∧ (linked.slot 5).power.state = .off ∧
    (∀ state ∈ [PowerState.starting, .run, .listen, .parking], ((headed state (.detach 0#4)).slot 5).power.state = state) ∧
    ((busy .standby .settling (.power .run .none)).slot 5).power.phase = .settling ∧
    ((busy .standby .settled (.measure 1)).slot 5).power.state = .standby ∧
    ((busy .standby .settled (.measure 1)).slot 5).power.phase ≠ .settling ∧ (List.replicate 249 0#8 : List Byte).length < 250 ∧
    ¬ (List.replicate 250 0#8 : List Byte).length < 250 := by decide +kernel

/-- A reply, with and without a payload, a line that is none, and the EXCHANGE and PUSH it answers. -/
theorem witness_LinesAreClassified :
    (((busy .standby .settled (.measure 1)).slot 5).power.state = .standby ∧
      ((busy .standby .settled (.measure 1)).slot 5).power.phase ≠ .settling) ∧
    (∀ state ∈ [PowerState.starting, .run, .listen, .parking],
      ((headed state (.detach 0#4)).slot 5).power.state ∈ [PowerState.starting, .run, .listen, .parking]) ∧
    phoneReply ⟨ascii "=FF00 0001", false, false⟩ = some ⟨255, 0, ascii "0001"⟩ ∧ phoneReply ⟨ascii "log", false, false⟩ = none ∧
    hexVal 0x46#8 = some 15 ∧ hexVal 0x67#8 = none ∧ leavingPush.tag = some (BitVec.ofNat 8 1) ∧
    ((sendingPush leavingPush).slot 5).engine.flight = some leavingPush ∧ leavingPush.step.kind = .push 2 ∧
    (∀ p ∈ leavingPush.push, hexNumber (ascii "0000") = some p.current ∧ p.current + 1 < p.count) ∧
    ((sendingPush leavingPush).slot 5).line.txWaiting.map TxItem.owner ≠ some .step ∧
    hexNumber (ascii "0001") ≠ some 0 ∧
    (∀ p ∈ ({ leavingPush with push := some ⟨256, 1, 0, 0, false, false⟩ } : Flight).push, p.count ≤ p.current + 1) := by decide +kernel

/-- Trigger 3 set to NOTE and hit at the 255th time, with a ring that has room for the line and one that has not. -/
def noting (action : TriggerAction) (hits : Nat) : SlotState :=
  { SlotState.reset with capture.triggers := SlotState.reset.capture.triggers.set 3 ⟨true, ascii "ready", .anywhere, action, hits⟩ }
theorem witness_CaptureCountsAndStoresLines :
    let line : Line := ⟨ascii "codec ready", false, false⟩
    let x := noting .note 254
    let after := x.capture.triggers.set 3 { x.capture.triggers[(3 : Fin 4)] with hits := 255 }
    ¬ (x.power.state = .starting ∧ x.power.phase = .bootWait) ∧
    (∀ k : Fin 4, (x.capture.triggers[k].hitsOn line.content = true → after[k] = { x.capture.triggers[k] with hits := 255 }) ∧
      (x.capture.triggers[k].hitsOn line.content = false → after[k] = x.capture.triggers[k])) ∧
    x.capture.triggers[(3 : Fin 4)].hitsOn line.content = true ∧ x.capture.triggers[(3 : Fin 4)].action = .note ∧
    (∀ k : Fin 4, x.capture.triggers[k].hitsOn line.content = true → x.capture.triggers[k].action ≠ .failStep) ∧
    x.engine.flight = none ∧ x.capture.filter.accepts line.content = true ∧ cased.accepts line.content = false ∧
    (noting .failStep 0).capture.triggers[(3 : Fin 4)].hitsOn line.content = true ∧ (noting .failStep 0).engine.flight = none ∧
    (∀ f k, some (flightOf (.measure 1)) = some f → f.step.kind = .await k → False) := by
  refine ⟨by decide, by decide, by decide, by decide, by decide, by decide, by decide, by decide, by decide, by decide, ?_⟩
  intro f k h e
  cases h
  cases e

/-- The banner that completes a boot, with and without a BOOT trigger; the awaited trigger; and a FAIL_STEP hit. -/
def booting (action : TriggerAction) : SlotState := { noting action 0 with
  power := { SlotState.reset.power with state := .starting, phase := .bootWait }, engine.flight := some (flightOf (.power .run .none)) }
theorem witness_LinesEndStepsAndBoots :
    ((booting .boot).engine.flight = some (flightOf (.power .run .none)) ∧ (booting .boot).power.state = .starting ∧
      (booting .boot).power.phase = .bootWait ∧ (booting .boot).capture.triggers[(3 : Fin 4)].hitsOn (ascii "ready") = true ∧
      (booting .boot).capture.triggers[(3 : Fin 4)].action = .boot ∧ (flightOf (.power .run .none)).step.kind.code = 2) ∧
    ((∀ k : Fin 4, ¬ ((booting .failStep).capture.triggers[k].enabled = true ∧ (booting .failStep).capture.triggers[k].action = .boot)) ∧
      (booting .failStep).power.lineSinceRelease = false ∧ (booting .failStep).capture.triggers[(3 : Fin 4)].hitsOn (ascii "ready") = true) ∧
    (flightOf (.await 3)).step.kind = .await 3 ∧ (noting .failStep 0).power.state ≠ .starting ∧ aborting.aborting = true ∧
    (noting .failStep 0).engine.flight = none ∧ (noting .failStep 0).capture.triggers[(3 : Fin 4)].hitsOn (ascii "ready") = true ∧
    (flightOf (.press 1#3 50)).aborting = false := by decide +kernel

/-! ### Numbers -/

/-- The half-width 0, the ends, and a value beyond each. -/
theorem witness_ScoreFollowsTheMargin : (-1 : Int) ≤ 0 ∧ (0 : Int) < 1 ∧ ((-1 : Int) ≤ -1 ∧ (-1 : Int) ≤ 0 ∧ (0 - (-1) : Int) / 2 = 0) ∧
    ((0 : Int) ≤ 2 ∧ (2 - 0 : Int) / 2 ≠ 0) := by decide

theorem witness_CalibrationRoundsAndClamps : ((0 * 512 + 512 : Int) / 1024 + -1 < 0) ∧ ((4095 * 2048 + 512 : Int) / 1024 + 63 > 4095) ∧
    (0 ≤ (4095 * 1024 + 512 : Int) / 1024 + 0 ∧ (4095 * 1024 + 512 : Int) / 1024 + 0 ≤ 4095) ∧ 2048 ≤ 2048 := by decide

theorem witness_WindowResultsFollowTheSamples : ([] : List Nat).length ≤ 6050000 ∧ [0, 4095].length ≤ 6050000 ∧ [0, 4095] ≠ [] := by decide

/-- Results with and without samples; payloads with no digit, with a signed run that a point ends, and with an eleventh digit. -/
theorem witness_RawValues :
    (⟨2, some (1, 2, 3, 4), 5, false⟩ : Measurement).values = some (1, 2, 3, 4) ∧ (⟨0, none, 5, false⟩ : Measurement).values = none ∧
    (∀ b ∈ ascii "ok", ¬ (0x30 ≤ b.toNat ∧ b.toNat ≤ 0x39)) ∧ ascii "T -12.5" = ascii "T -" ++ ascii "12" ++ ascii ".5" ∧
    (ascii "T -").getLast? = some 0x2D#8 ∧ (∀ b ∈ (ascii ".5").head?, ¬ (0x30 ≤ b.toNat ∧ b.toNat ≤ 0x39)) ∧
    (∀ b ∈ ascii "9999999999", 0x30 ≤ b.toNat ∧ b.toNat ≤ 0x39) ∧ (ascii "9999999999").length = 10 ∧
    replyNumber (ascii "99999999991") = some 2147483647 ∧ replyNumber (ascii "T -12.5") = some (-12) := by decide +kernel

theorem witness_ResultsAndVerdictFollowTheTable : 1 ≤ 1 ∧ 253 ≤ 253 ∧ (some (0 : Int)) ≠ none ∧ 1 < 253 ∧
    (∃ g ∈ [(LimitClass.gate, (⟨0, 0, .noData⟩ : GradeItem))], g.1 = .gate ∧ (g.2.result = .fail ∨ g.2.result = .noData)) ∧
    (¬ (∃ g ∈ [(LimitClass.watch, (⟨0, 0, .fail⟩ : GradeItem))], g.1 = .gate ∧ (g.2.result = .fail ∨ g.2.result = .noData))) ∧
    ∃ g ∈ [(LimitClass.watch, (⟨0, 0, .fail⟩ : GradeItem))], g.1 = .watch ∧ (g.2.result = .fail ∨ g.2.result = .noData) := by decide

/-! ### Invariants: states with a step in flight, the lid open, an object and a wait entry, and the step they take -/

theorem witness_EveryStepKeepsTheLidSafe : (opened linked).LidSafe ∧ ∃ t, step (opened linked) = .next t :=
  ⟨by unfold State.LidSafe; decide +kernel, _, rfl⟩

theorem witness_EveryStepKeepsTheLineLaw :
    linked.WaitersInFlight ∧ linked.OffQuiet ∧ linked.LineLaw ∧ ∃ t, step linked = .next t := by
  refine ⟨linked_waiters, ?_, ?_, _, rfl⟩
  · unfold State.OffQuiet Power.quiet; decide +kernel
  · intro i
    have h : linked.slot i = SlotState.reset := by revert i; decide +kernel
    rw [h]
    exact ⟨by decide, fun h => (nomatch h), by decide, fun f h => (by cases h), by decide⟩

/-- A slot that is PARKING and sends the shutdown line. -/
theorem witness_ParkingSendsTheShutdownLine :
    let x := { SlotState.reset with
      power.state := .parking
      line.tx := some ⟨.controller, .line (commandLine 1#8 0x00F0#16 [])⟩ }
    x.power.state = .parking ∧ x.line.txWaiting = none ∧
      ∀ item, x.line.tx = some item → ∃ tag code, item = ⟨.controller, .line (commandLine tag code [])⟩ :=
  ⟨rfl, rfl, fun _ h => ⟨1#8, 0x00F0#16, (Option.some.inj h).symm⟩⟩

theorem witness_EveryStepKeepsTheBounds :
    (∃ t, step (busy .run .none (.measure 5)) = .next t) ∧ (busy .run .none (.measure 5)).QueueBounded ∧
    (busy .run .none (.measure 5)).ListBounded ∧ (busy .run .none (.measure 5)).RingBounded ∧
    (busy .run .none (.measure 5)).RepliesBounded ∧ filledLink.InboundBounded := by
  refine ⟨⟨_, rfl⟩, ?_, ?_, ?_, ?_, ?_⟩
  · unfold State.QueueBounded; decide +kernel
  · unfold State.ListBounded; decide +kernel
  · unfold State.RingBounded; decide +kernel
  · unfold State.RepliesBounded; decide +kernel
  · unfold State.InboundBounded; decide +kernel

/-- One object SEALED with page 0 and one PUSH that names it. -/
def pushing : State := { busy .run .none (.push 15) with
  store := ⟨(Vector.replicate 16 .empty).set 15 (sealed 1), (List.range 512).tail, []⟩ }
theorem witness_EveryStepKeepsTheStoreAccounts :
    (∃ t, step pushing = .next t) ∧ pushing.PoolCanonical ∧ pushing.PagesAccounted ∧ pushing.ReferencesAccounted := by
  refine ⟨⟨_, rfl⟩, by unfold State.PoolCanonical; decide, ?_, ?_⟩
  · refine ⟨?_, by decide +kernel⟩
    have h : ((List.finRange 16).flatMap fun o => (pushing.store.object o).pages) = [0] := by decide +kernel
    have perm (all tail : List Nat) (e : [0] ++ tail = all) : (tail ++ [0]).Perm all := e ▸ List.perm_append_comm
    rw [h]
    exact perm _ _ (by decide +kernel)
  · unfold State.ReferencesAccounted State.pushesOf; decide +kernel

/-- Slot 5's ATTACH waits for port 3, which slot 6 holds. -/
def attaching : State := { busy .run .none (.attach 8#4 100) with
  ports := linked.ports.set 3 (some ⟨6, 1000#32⟩), waitList := [⟨5, 8#4, 2000#32, 100⟩] }
theorem witness_EveryStepLeavesNothingWaitingInVain : attaching.WaitersInFlight ∧ attaching.NoHeadWaitsInVain ∧
    attaching.NoEntryWaitsInVain ∧ ∃ t, step attaching = .next t := by
  refine ⟨⟨by decide, ?_⟩, ?_, ?_, _, rfl⟩
  · intro e h
    cases h with
    | head => exact ⟨flightOf (.attach 8#4 100), by decide +kernel, rfl, 100, rfl⟩
    | tail _ h => cases h
  · unfold State.NoHeadWaitsInVain; decide +kernel
  · unfold State.NoEntryWaitsInVain; decide +kernel

end Sys2Proof.Tests
end

