-- ==== Sys2Proof/Proofs/Calibration.lean ====
section
/-! PROOF. The calibrated current of R98: the clamp's three cases, the rounded product of code and gain, and O52 from them. -/

namespace Sys2Proof.Machine

/-! ### The clamp of integers -/

theorem clampInt_of_le_lower {x a b : Int} (h : x ≤ a) : clampInt x a b = a :=
  max_eq_left ((min_le_left x b).trans h)

theorem clampInt_of_upper_le {x a b : Int} (hab : a ≤ b) (h : b ≤ x) : clampInt x a b = b := by
  rw [clampInt, min_eq_right h, max_eq_right hab]

theorem clampInt_of_mem {x a b : Int} (ha : a ≤ x) (hb : x ≤ b) : clampInt x a b = x := by
  rw [clampInt, min_eq_left hb, max_eq_right ha]

theorem lower_le_clampInt (x a b : Int) : a ≤ clampInt x a b :=
  le_max_left _ _

theorem clampInt_le_upper (x : Int) {a b : Int} (hab : a ≤ b) : clampInt x a b ≤ b :=
  max_le hab (min_le_right _ _)

/-! ### The calibrated current -/

theorem adcCode_le (c : AdcCode) : c.toNat ≤ 4095 :=
  Nat.le_of_lt_succ c.isLt

/-- The formula of R98 in the integers: the clamp's lower bound 0 means that the conversion to a natural number loses nothing. -/
theorem calibrate_eq_clampInt (c : AdcCode) (g : Nat) (o : Int) :
    (calibrate c g o : Int) = clampInt (((c.toNat : Int) * (g : Int) + 512) / 1024 + o) 0 4095 := by
  rw [calibrate, Int.toNat_of_nonneg (lower_le_clampInt _ _ _)]
  push_cast
  rfl

/-- "every calibrated current lies within 0 to 4095 mA" (R98). -/
theorem calibrate_le (c : AdcCode) (g : Nat) (o : Int) : calibrate c g o ≤ 4095 := by
  have hupper := clampInt_le_upper (((c.toNat : Int) * (g : Int) + 512) / 1024 + o) (show (0 : Int) ≤ 4095 by decide)
  rw [← calibrate_eq_clampInt] at hupper
  exact_mod_cast hupper

/-- The half that R98 adds for rounding is below one unit, so a multiple of 1024 is its own quotient. -/
theorem calibrate_unit_gain (c : AdcCode) : calibrate c 1024 0 = c.toNat := by
  have hround : ((c.toNat : Int) * ((1024 : Nat) : Int) + 512) / 1024 + 0 = c.toNat := by omega
  have hcode : (c.toNat : Int) ≤ 4095 := by exact_mod_cast adcCode_le c
  have hclamp := calibrate_eq_clampInt c 1024 0
  rw [hround, clampInt_of_mem (Int.natCast_nonneg _) hcode] at hclamp
  exact_mod_cast hclamp

/-- The largest product of a code and a gain that SLOT_CONFIG can set (R99). -/
theorem code_mul_gain_le (c : AdcCode) {g : Nat} (hg : g ≤ 2048) : c.toNat * g ≤ 8386560 :=
  Nat.mul_le_mul (adcCode_le c) hg

/-- Settles O52: the clamp's three cases on the formula of R98, its range, and the bound of the product. -/
theorem calibrationRoundsAndClamps : Obligations.CalibrationRoundsAndClamps := by
  intro c g o rounded
  have hformula : (calibrate c g o : Int) = clampInt (rounded + o) 0 4095 := calibrate_eq_clampInt c g o
  refine ⟨fun hbelow => ?below, fun habove => ?above, fun hlo hhi => ?within, calibrate_le c g o, calibrate_unit_gain c,
    fun hg => ⟨code_mul_gain_le c hg, Nat.add_le_add_right (code_mul_gain_le c hg) 512⟩⟩
  case below =>
    rw [clampInt_of_le_lower hbelow.le] at hformula
    exact_mod_cast hformula
  case above =>
    rw [clampInt_of_upper_le (by decide) habove.le] at hformula
    exact_mod_cast hformula
  case within => rw [hformula, clampInt_of_mem hlo hhi]

end Sys2Proof.Machine
end

