-- ==== Sys2Proof/Proofs/Score.lean ====
section
/-! PROOF. The score of R120: the margin against the half-width, the score outside and inside the limits, its range, and O51 from them. -/

namespace Sys2Proof.Machine

/-! ### The margin and the half-width -/

theorem margin_nonneg {r lo hi : Int} (hlo : lo ≤ r) (hhi : r ≤ hi) : 0 ≤ min (r - lo) (hi - r) :=
  le_min (Int.sub_nonneg_of_le hlo) (Int.sub_nonneg_of_le hhi)

/-- R120: the margin is an integer no greater than half of hi − lo, since the distances to the two ends add up to hi − lo. -/
theorem margin_le_halfWidth (r lo hi : Int) : min (r - lo) (hi - r) ≤ (hi - lo) / 2 := by
  have hdouble : min (r - lo) (hi - r) * 2 ≤ hi - lo :=
    calc min (r - lo) (hi - r) * 2
        = min (r - lo) (hi - r) + min (r - lo) (hi - r) := mul_two _
      _ ≤ (r - lo) + (hi - r) := Int.add_le_add (min_le_left _ _) (min_le_right _ _)
      _ = hi - lo := by omega
  exact (Int.le_ediv_iff_mul_le (by decide)).mpr hdouble

theorem halfWidth_nonneg {lo hi : Int} (h : lo ≤ hi) : 0 ≤ (hi - lo) / 2 :=
  Int.ediv_nonneg (Int.sub_nonneg_of_le h) (by decide)

/-! ### The score, case by case -/

@[simp] theorem score_none (lo hi : Int) : score none lo hi = 0 := rfl

theorem score_of_outside {r lo hi : Int} (h : r < lo ∨ hi < r) : score (some r) lo hi = 0 :=
  if_pos h

/-- Steps 2 to 4 of R120 over the naturals, as the model computes them. -/
theorem score_of_inside {r lo hi : Int} (hlo : lo ≤ r) (hhi : r ≤ hi) :
    score (some r) lo hi =
      if ((hi - lo) / 2).toNat = 0 then 253 else 1 + 252 * (min (r - lo) (hi - r)).toNat / ((hi - lo) / 2).toNat :=
  if_neg (not_or.mpr ⟨not_lt.mpr hlo, not_lt.mpr hhi⟩)

theorem score_of_halfWidth_eq_zero {r lo hi : Int} (hlo : lo ≤ r) (hhi : r ≤ hi) (hzero : (hi - lo) / 2 = 0) :
    score (some r) lo hi = 253 := by
  rw [score_of_inside hlo hhi, hzero]
  rfl

/-- Step 4 of R120 in the integers: inside the limits neither the margin nor the half-width is negative, so the model's conversions lose
nothing. -/
theorem score_of_halfWidth_ne_zero {r lo hi : Int} (hlo : lo ≤ r) (hhi : r ≤ hi) (hne : (hi - lo) / 2 ≠ 0) :
    (score (some r) lo hi : Int) = 1 + 252 * min (r - lo) (hi - r) / ((hi - lo) / 2) := by
  have hhalf : 0 ≤ (hi - lo) / 2 := halfWidth_nonneg (hlo.trans hhi)
  have hnat : ((hi - lo) / 2).toNat ≠ 0 := fun h => hne (le_antisymm (Int.toNat_eq_zero.mp h) hhalf)
  rw [score_of_inside hlo hhi, if_neg hnat]
  simp only [Int.natCast_add, Int.natCast_ediv, Int.natCast_mul, Int.toNat_of_nonneg hhalf, Int.toNat_of_nonneg (margin_nonneg hlo hhi)]
  rfl

/-- The quotient of step 4 at the middle of the range is the whole 252. -/
theorem score_of_margin_eq_halfWidth {r lo hi : Int} (hlo : lo ≤ r) (hhi : r ≤ hi) (hmiddle : min (r - lo) (hi - r) = (hi - lo) / 2) :
    score (some r) lo hi = 253 := by
  by_cases hzero : (hi - lo) / 2 = 0
  · exact score_of_halfWidth_eq_zero hlo hhi hzero
  · have hscore := score_of_halfWidth_ne_zero hlo hhi hzero
    rw [hmiddle, Int.mul_ediv_cancel _ hzero] at hscore
    exact_mod_cast hscore

/-! ### The range of the score -/

/-- "So the score lies between 1 and 253" (R120): a margin between 0 and the half-width gives a quotient between 0 and 252. -/
theorem score_mem_range_of_inside {r lo hi : Int} (hlo : lo ≤ r) (hhi : r ≤ hi) :
    1 ≤ score (some r) lo hi ∧ score (some r) lo hi ≤ 253 := by
  by_cases hzero : (hi - lo) / 2 = 0
  · simp [score_of_halfWidth_eq_zero hlo hhi hzero]
  · have hhalf : 0 < (hi - lo) / 2 := lt_of_le_of_ne (halfWidth_nonneg (hlo.trans hhi)) (Ne.symm hzero)
    have hlower : 0 ≤ 252 * min (r - lo) (hi - r) / ((hi - lo) / 2) :=
      Int.ediv_nonneg (Int.mul_nonneg (by decide) (margin_nonneg hlo hhi)) hhalf.le
    have hupper : 252 * min (r - lo) (hi - r) / ((hi - lo) / 2) ≤ 252 :=
      Int.ediv_le_of_le_mul hhalf (Int.mul_le_mul_of_nonneg_left (margin_le_halfWidth r lo hi) (by decide))
    have hscore := score_of_halfWidth_ne_zero hlo hhi hzero
    omega

theorem inside_of_not_outside {r lo hi : Int} (h : ¬ (r < lo ∨ hi < r)) : lo ≤ r ∧ r ≤ hi := by
  rwa [not_or, not_lt, not_lt] at h

theorem score_le (r lo hi : Int) : score (some r) lo hi ≤ 253 := by
  by_cases hout : r < lo ∨ hi < r
  · simp [score_of_outside hout]
  · obtain ⟨hlo, hhi⟩ := inside_of_not_outside hout
    exact (score_mem_range_of_inside hlo hhi).2

theorem score_eq_zero_iff_outside (r lo hi : Int) : score (some r) lo hi = 0 ↔ r < lo ∨ hi < r := by
  refine ⟨fun hscore => ?_, score_of_outside⟩
  by_contra hin
  obtain ⟨hlo, hhi⟩ := inside_of_not_outside hin
  exact Nat.one_le_iff_ne_zero.mp (score_mem_range_of_inside hlo hhi).1 hscore

/-- Settles O51: the cases of R120, the margin's bounds, and the score's range. -/
theorem scoreFollowsTheMargin : Obligations.ScoreFollowsTheMargin := by
  intro lo hi _
  refine ⟨score_none lo hi, fun r => ⟨score_of_outside, fun hlo hhi => ?inside, score_le r lo hi, score_eq_zero_iff_outside r lo hi⟩⟩
  case inside =>
    exact ⟨margin_nonneg hlo hhi, margin_le_halfWidth r lo hi, score_of_halfWidth_eq_zero hlo hhi, score_of_halfWidth_ne_zero hlo hhi,
      score_of_margin_eq_halfWidth hlo hhi⟩

end Sys2Proof.Machine
end

