-- ==== Sys2Proof/Proofs/SlotLaws.lean ====
section
/-! PROOF. The invariants of one slot: what each of them asks of a slot's own state, and that every change the model makes to one slot
keeps them. -/

namespace Sys2Proof.Machine

/-! ### The invariants of one slot -/

/-- A slot whose rail is off is quiet (the body of `State.OffQuiet`). -/
def SlotState.QuietOff (x : SlotState) : Prop :=
  x.power.state.railOn = false →
    x.power.quiet ∧ x.line.tx = none ∧ x.line.txWaiting = none ∧ x.line.assembler = Assembler.empty

/-- The law of the phone line for one slot (the body of `State.LineLaw`). -/
def SlotState.LineOk (x : SlotState) : Prop :=
  (x.line.tx ≠ none → x.power.state = .run ∨ x.power.state = .parking) ∧
  (x.power.state = .parking → x.line.txWaiting = none ∧
    ∀ item, x.line.tx = some item → ∃ tag code, item = ⟨.controller, .line (commandLine tag code [])⟩) ∧
  (x.line.txWaiting ≠ none → x.line.tx ≠ none) ∧
  (∀ f, x.engine.flight = some f → f.step.kind.code ≤ 1 → x.power.state = .run) ∧
  (x.power.phase = .leaving →
    x.power.state = .run ∧ ∃ f, x.engine.flight = some f ∧ f.step.kind.code = 2 ∧ f.push = none)

/-- Quiet with the rail off, and lawful on the line. -/
def SlotState.Lawful (x : SlotState) : Prop := x.QuietOff ∧ x.LineOk

/-- The PUSH steps of one slot's queue that name an object. -/
def SlotState.pushesOf (x : SlotState) (o : Fin 16) : Nat :=
  (x.engine.queue.filter fun st => decide (st.kind = .push o)).length

/-- One slot's change from `x` to `y` keeps the bounds of its queue, its list and its ring. -/
structure SlotBounds (x y : SlotState) : Prop where
  queue : x.engine.queueCount ≤ 16 → y.engine.queueCount ≤ 16
  list : x.engine.done.length + x.engine.reservation ≤ 8 → y.engine.done.length + y.engine.reservation ≤ 8
  ring : ringUsed x.capture.ring ≤ 4096 → ringUsed y.capture.ring ≤ 4096

/-- It also switches no rail on. -/
structure SlotFits (x y : SlotState) : Prop extends SlotBounds x y where
  rail : y.power.state.railOn = true → x.power.state.railOn = true

/-- One slot's change from `x` to `y` keeps the bounds, it stays lawful, no PUSH joins or leaves the queue, and an ATTACH in flight stays in
flight. -/
structure SlotHolds (x y : SlotState) : Prop extends SlotBounds x y where
  lawful : x.Lawful → y.Lawful
  pushes : ∀ o, y.pushesOf o = x.pushesOf o
  waiter : ∀ f, x.engine.flight = some f → f.push = none →
    ∃ g, y.engine.flight = some g ∧ g.step.kind = f.step.kind ∧ g.push = none

/-- One slot's change from `x` to `y` keeps every invariant of a slot. -/
structure SlotKeeps (x y : SlotState) : Prop extends SlotFits x y, SlotHolds x y

theorem SlotKeeps.trans {x y z : SlotState} (h : SlotKeeps x y) (k : SlotKeeps y z) : SlotKeeps x z where
  queue := k.queue ∘ h.queue
  list := k.list ∘ h.list
  ring := k.ring ∘ h.ring
  rail := h.rail ∘ k.rail
  lawful := k.lawful ∘ h.lawful
  pushes := fun o => (k.pushes o).trans (h.pushes o)
  waiter := fun f hf hp => by
    obtain ⟨g, hg, hgk, hgp⟩ := h.waiter f hf hp
    obtain ⟨e, he, hek, hep⟩ := k.waiter g hg hgp
    exact ⟨e, he, hek.trans hgk, hep⟩

section
variable {x y : SlotState}

/-- A change that leaves the step in flight, the waiting steps and the records where they are. -/
theorem SlotHolds.of_engine (hflight : y.engine.flight = x.engine.flight) (hwaiting : y.engine.waiting = x.engine.waiting)
    (hdone : y.engine.done.length ≤ x.engine.done.length)
    (hring : ringUsed x.capture.ring ≤ 4096 → ringUsed y.capture.ring ≤ 4096) (hlaw : x.Lawful → y.Lawful) : SlotHolds x y where
  queue := by simp [Engine.queueCount, Engine.queue, hflight, hwaiting]
  list := by simp only [Engine.reservation, hflight]; omega
  ring := hring
  lawful := hlaw
  pushes := by simp [SlotState.pushesOf, Engine.queue, hflight, hwaiting]
  waiter := fun f hf hp => ⟨f, hflight.trans hf, rfl, hp⟩

theorem SlotKeeps.of_engine (hflight : y.engine.flight = x.engine.flight) (hwaiting : y.engine.waiting = x.engine.waiting)
    (hdone : y.engine.done.length ≤ x.engine.done.length) (hrail : y.power.state.railOn = true → x.power.state.railOn = true)
    (hring : ringUsed x.capture.ring ≤ 4096 → ringUsed y.capture.ring ≤ 4096) (hlaw : x.Lawful → y.Lawful) : SlotKeeps x y :=
  { SlotHolds.of_engine hflight hwaiting hdone hring hlaw with rail := hrail }

end

theorem doomAll_kinds (d : Doom) (steps : List StepRecord) :
    (doomAll d steps).map StepRecord.kind = steps.map StepRecord.kind := by
  rw [doomAll, List.map_map]
  refine List.map_congr_left fun st _ => ?_
  change (if st.doom.isNone then { st with doom := some d } else st).kind = st.kind
  split <;> rfl

@[simp] theorem doomAll_length (d : Doom) (steps : List StepRecord) : (doomAll d steps).length = steps.length := by
  simp [doomAll]

/-- The PUSH steps that name an object depend on the kinds in the queue alone. -/
theorem pushes_of_kinds {p q : List StepRecord} (h : p.map StepRecord.kind = q.map StepRecord.kind) (o : Fin 16) :
    (p.filter fun st => decide (st.kind = .push o)).length = (q.filter fun st => decide (st.kind = .push o)).length := by
  have count (l : List StepRecord) : (l.filter fun st => decide (st.kind = .push o)).length =
      ((l.map StepRecord.kind).filter fun k => decide (k = .push o)).length := by
    rw [List.filter_map, List.length_map]; rfl
  rw [count, count, h]

/-- Dooming the queue keeps every invariant of the slot. -/
theorem doomQueue_keeps (x : SlotState) (d : Doom) : SlotKeeps x (x.doomQueue d) where
  rail := id
  queue := by simp [SlotState.doomQueue, Engine.queueCount, Engine.queue]
  list := id
  ring := id
  lawful := id
  pushes := fun o => pushes_of_kinds (by simp [SlotState.doomQueue, Engine.queue, doomAll_kinds]) o
  waiter := fun f hf hp => ⟨f, hf, rfl, hp⟩

/-! ### What the law says in one power state -/

/-- Outside RUN and PARKING nothing is sent and nothing waits to be sent. -/
theorem SlotState.Lawful.silent {x : SlotState} (h : x.Lawful) (hrun : x.power.state ≠ .run) (hpark : x.power.state ≠ .parking) :
    x.line.tx = none ∧ x.line.txWaiting = none := by
  obtain ⟨-, sends, -, waits, -, -⟩ := h
  have htx : x.line.tx = none := by
    by_contra hne
    exact (sends hne).elim hrun hpark
  refine ⟨htx, ?_⟩
  by_contra hne
  exact waits hne htx

/-- Outside RUN no EXCHANGE or PUSH is in flight. -/
theorem SlotState.Lawful.no_talk {x : SlotState} (h : x.Lawful) (hrun : x.power.state ≠ .run) :
    ∀ f, x.engine.flight = some f → ¬ f.step.kind.code ≤ 1 := by
  obtain ⟨-, -, -, -, talks, -⟩ := h
  exact fun f hf hc => hrun (talks f hf hc)

/-- Outside RUN no move waits. -/
theorem SlotState.Lawful.not_leaving {x : SlotState} (h : x.Lawful) (hrun : x.power.state ≠ .run) : x.power.phase ≠ .leaving := by
  obtain ⟨-, -, -, -, -, leaves⟩ := h
  exact fun hp => hrun (leaves hp).1

/-- A slot with no step in flight has no move waiting. -/
theorem SlotState.Lawful.not_leaving_idle {x : SlotState} (h : x.Lawful) (hflight : x.engine.flight = none) :
    x.power.phase ≠ .leaving := by
  obtain ⟨-, -, -, -, -, leaves⟩ := h
  intro hp
  obtain ⟨-, f, hf, -⟩ := leaves hp
  rw [hflight] at hf
  exact nomatch hf

/-- A slot with the rail on that sends nothing is lawful, but in PARKING only by the next rule. -/
theorem lawful_of_silent {y : SlotState} (hrail : y.power.state.railOn = true) (hpark : y.power.state ≠ .parking)
    (hphase : y.power.phase ≠ .leaving) (hsilent : y.line.tx = none ∧ y.line.txWaiting = none)
    (htalk : ∀ f, y.engine.flight = some f → ¬ f.step.kind.code ≤ 1) : y.Lawful :=
  ⟨fun h => (by rw [hrail] at h; exact nomatch h), fun h => absurd hsilent.1 h, fun h => absurd h hpark,
    fun h => absurd hsilent.2 h, fun f hf hc => absurd hc (htalk f hf), fun h => absurd h hphase⟩

/-- A slot in RUN is lawful when an item waits only behind another and a move waits only for its POWER step. -/
theorem lawful_of_run {y : SlotState} (hrun : y.power.state = .run) (hwaits : y.line.txWaiting ≠ none → y.line.tx ≠ none)
    (hleaves : y.power.phase = .leaving → ∃ f, y.engine.flight = some f ∧ f.step.kind.code = 2 ∧ f.push = none) : y.Lawful :=
  ⟨fun h => (by rw [hrun] at h; exact nomatch h), fun _ => .inl hrun, fun h => (by rw [hrun] at h; exact nomatch h), hwaits,
    fun _ _ _ => hrun, fun h => ⟨hrun, hleaves h⟩⟩

/-- A slot in PARKING is lawful when it sends nothing but the controller's line, and nothing waits. -/
theorem lawful_of_parking {y : SlotState} (hpark : y.power.state = .parking) (hphase : y.power.phase ≠ .leaving)
    (hwaiting : y.line.txWaiting = none)
    (hitem : ∀ item, y.line.tx = some item → ∃ tag code, item = ⟨.controller, .line (commandLine tag code [])⟩)
    (htalk : ∀ f, y.engine.flight = some f → ¬ f.step.kind.code ≤ 1) : y.Lawful :=
  ⟨fun h => (by rw [hpark] at h; exact nomatch h), fun _ => .inr hpark, fun _ => ⟨hwaiting, hitem⟩, fun h => absurd hwaiting h,
    fun f hf hc => absurd hc (htalk f hf), fun h => absurd h hphase⟩

/-! ### Power -/

/-- A slot whose rail is cut is lawful, once no EXCHANGE or PUSH is in flight in it. -/
theorem cutRail_lawful {x : SlotState} {dest : PowerState} (hdest : dest.railOn = false)
    (hflight : ∀ f, x.engine.flight = some f → ¬ f.step.kind.code ≤ 1) : (x.cutRail dest).Lawful := by
  refine ⟨fun _ => ⟨⟨rfl, rfl, rfl, rfl, rfl, rfl, rfl⟩, rfl, rfl, rfl⟩, fun h => absurd rfl h, fun h => ?_, fun h => absurd rfl h,
    fun f hf hc => absurd hc (hflight f hf), nofun⟩
  change dest = .parking at h
  rw [h] at hdest
  exact nomatch hdest

theorem cutRail_keeps {x : SlotState} {dest : PowerState} (hdest : dest.railOn = false)
    (hflight : x.Lawful → ∀ f, x.engine.flight = some f → ¬ f.step.kind.code ≤ 1) : SlotKeeps x (x.cutRail dest) :=
  .of_engine rfl rfl le_rfl (fun h => by change dest.railOn = true at h; rw [hdest] at h; exact nomatch h) id
    fun h => cutRail_lawful hdest (hflight h)


/-- A change of the power controller alone that leads from a rail-on state to a rail-on state where nothing is sent. -/
theorem SlotKeeps.of_power {x : SlotState} {q : Power} (hfrom : x.power.state.railOn = true) (hto : q.state.railOn = true)
    (hpark : q.state ≠ .parking) (hphase : q.phase ≠ .leaving)
    (hsilent : x.Lawful → x.line.tx = none ∧ x.line.txWaiting = none)
    (htalk : x.Lawful → ∀ f, x.engine.flight = some f → ¬ f.step.kind.code ≤ 1) : SlotKeeps x { x with power := q } :=
  .of_engine rfl rfl le_rfl (fun _ => hfrom) id fun h => lawful_of_silent hto hpark hphase (hsilent h) (htalk h)

/-- The same from a state where nothing can be sent. -/
theorem SlotKeeps.of_power_silent {x : SlotState} {q : Power} (hfrom : x.power.state.railOn = true) (hrun : x.power.state ≠ .run)
    (hparking : x.power.state ≠ .parking) (hto : q.state.railOn = true) (hpark : q.state ≠ .parking) (hphase : q.phase ≠ .leaving) :
    SlotKeeps x { x with power := q } :=
  .of_power hfrom hto hpark hphase (fun h => h.silent hrun hparking) fun h => h.no_talk hrun

/-- What an abort or a FAIL_STEP hit does to the controller of a POWER step (R76). -/
theorem endPowerEarly_keeps {x : SlotState} {f : Flight} (hf : x.engine.flight = some f) (hcode : ¬ f.step.kind.code ≤ 1) :
    SlotKeeps x x.endPowerEarly := by
  unfold SlotState.endPowerEarly
  split
  case h_1 hstate =>
    refine .of_engine rfl rfl le_rfl id id fun h => ?_
    have hs : x.power.state ≠ .run ∧ x.power.state ≠ .parking := by rw [hstate]; decide
    exact lawful_of_silent (by simp [hstate, PowerState.railOn]) hs.2 (h.not_leaving hs.1) (h.silent hs.1 hs.2) (h.no_talk hs.1)
  case h_2 hstate =>
    have hs : x.power.state.railOn = true ∧ x.power.state ≠ .run ∧ x.power.state ≠ .parking := by rw [hstate]; decide
    exact .of_power_silent hs.1 hs.2.1 hs.2.2 rfl nofun nofun
  case h_3 hstate =>
    refine .of_engine rfl rfl le_rfl id id fun h => lawful_of_run hstate ?_ nofun
    obtain ⟨-, -, -, waits, -, -⟩ := h
    exact waits
  case h_4 =>
    refine cutRail_keeps rfl fun _ g hg => ?_
    rw [hf] at hg
    exact Option.some.inj hg ▸ hcode
  all_goals exact .of_engine rfl rfl le_rfl id id id

end Sys2Proof.Machine
end

