-- ==== Sys2Proof/Proofs/StoreAccounts.lean ====
section
/-! PROOF. The accounts of the payload store: the pages and the references against a count of the PUSH steps that name each object, and
what every operation of the store does to them. -/

namespace Sys2Proof.Machine

/-! ### Lists of all indices -/

/-- Two functions that differ at one element give lists that differ by that element's parts. -/
theorem perm_flatMap_of_eq_off {α β : Type} [DecidableEq α] {l : List α} (hl : l.Nodup) {a : α} (ha : a ∈ l) {g h : α → List β}
    (hoff : ∀ b ∈ l, b ≠ a → h b = g b) : ∃ rest, (l.flatMap g).Perm (g a ++ rest) ∧ (l.flatMap h).Perm (h a ++ rest) := by
  have hperm : l.Perm (a :: l.erase a) := List.perm_cons_erase ha
  refine ⟨(l.erase a).flatMap g, hperm.flatMap_right g, ?_⟩
  have hsame : (l.erase a).flatMap h = (l.erase a).flatMap g :=
    List.flatMap_congr fun b hb => hoff b (List.mem_of_mem_erase hb) ((hl.mem_erase_iff).mp hb).1
  rw [← hsame]
  exact hperm.flatMap_right h

/-- Two functions that differ at one element give sums that differ by that element's terms. -/
theorem sum_map_of_eq_off {α : Type} [DecidableEq α] {l : List α} (hl : l.Nodup) {a : α} (ha : a ∈ l) {g h : α → Nat}
    (hoff : ∀ b ∈ l, b ≠ a → h b = g b) : (l.map g).sum + h a = (l.map h).sum + g a := by
  have hperm : l.Perm (a :: l.erase a) := List.perm_cons_erase ha
  have hsame : (l.erase a).map h = (l.erase a).map g :=
    List.map_congr_left fun b hb => hoff b (List.mem_of_mem_erase hb) ((hl.mem_erase_iff).mp hb).1
  rw [(hperm.map g).sum_eq, (hperm.map h).sum_eq, List.map_cons, List.map_cons, List.sum_cons, List.sum_cons, hsame]
  omega

theorem mem_allSlots (i : Slot) : i ∈ allSlots := List.mem_finRange i
theorem allSlots_nodup : allSlots.Nodup := List.nodup_finRange 24

/-! ### Objects -/

@[simp] theorem Store.putObject_object_same (t : Store) (o : Fin 16) (r : ObjectRecord) : (t.putObject o r).object o = r := by
  simp [Store.object, Store.putObject]

theorem Store.putObject_object_ne (t : Store) {o p : Fin 16} (r : ObjectRecord) (h : p ≠ o) :
    (t.putObject o r).object p = t.object p := by
  have h' : (o : Nat) ≠ (p : Nat) := fun e => h (Fin.ext e.symm)
  simp [Store.object, Store.putObject, h']

@[simp] theorem Store.freeObject_object_same (t : Store) (o : Fin 16) : (t.freeObject o).object o = ObjectRecord.empty :=
  t.putObject_object_same o .empty

theorem Store.freeObject_object_ne (t : Store) {o p : Fin 16} (h : p ≠ o) : (t.freeObject o).object p = t.object p :=
  t.putObject_object_ne .empty h

theorem Store.dropRef_bytes (t : Store) (o : Fin 16) : (t.dropRef o).bytes = t.bytes := by
  unfold Store.dropRef
  dsimp only
  split <;> rfl

theorem Store.dropRef_object_ne (t : Store) {o p : Fin 16} (h : p ≠ o) : (t.dropRef o).object p = t.object p := by
  unfold Store.dropRef
  dsimp only
  split
  · exact t.freeObject_object_ne h
  · exact t.putObject_object_ne _ h

theorem Store.afterStep_bytes (t : Store) (k : StepKind) : (t.afterStep k).bytes = t.bytes := by
  cases k <;> first | rfl | exact t.dropRef_bytes _

/-! ### The accounts -/

/-- Every page is free or in one object, and an EMPTY object has none (the body of `State.PagesAccounted`). -/
def Store.PagesOk (t : Store) : Prop :=
  (t.free ++ (List.finRange 16).flatMap fun o => (t.object o).pages).Perm (List.range 512) ∧
    ∀ o : Fin 16, (t.object o).state = .empty → (t.object o).pages = []

/-- One object's references are the `n` PUSH steps that name it (the body of `State.ReferencesAccounted`). -/
def ObjectRecord.RefsOk (r : ObjectRecord) (n : Nat) : Prop :=
  r.refs = n ∧ (r.refs ≠ 0 → r.state = .sealed ∨ r.state = .condemned) ∧ (r.state = .condemned → r.refs ≠ 0)

/-- The pages are accounted for, and the references are those that `n` counts. -/
def Store.Accounted (t : Store) (n : Fin 16 → Nat) : Prop := t.PagesOk ∧ ∀ o, (t.object o).RefsOk (n o)

/-- Replacing an object by one with the same pages keeps the pages' account. -/
theorem Store.PagesOk.putObject {t : Store} (h : t.PagesOk) {o : Fin 16} {r : ObjectRecord} (hpages : r.pages = (t.object o).pages)
    (hempty : r.state = .empty → (t.object o).state = .empty) : (t.putObject o r).PagesOk := by
  obtain ⟨hperm, hnone⟩ := h
  have hsame (p : Fin 16) : ((t.putObject o r).object p).pages = (t.object p).pages := by
    by_cases hp : p = o
    · rw [hp, t.putObject_object_same, hpages]
    · rw [t.putObject_object_ne r hp]
  refine ⟨?_, fun p hp => ?_⟩
  · simp only [hsame]
    exact hperm
  · rw [hsame]
    by_cases hpo : p = o
    · rw [hpo, t.putObject_object_same] at hp
      exact hpo ▸ hnone o (hempty hp)
    · rw [t.putObject_object_ne r hpo] at hp
      exact hnone p hp

/-- Freeing an object returns its pages to the pool. -/
theorem Store.PagesOk.freeObject {t : Store} (h : t.PagesOk) (o : Fin 16) : (t.freeObject o).PagesOk := by
  obtain ⟨hperm, hnone⟩ := h
  refine ⟨?_, fun p hp => ?_⟩
  · obtain ⟨rest, hbefore, hafter⟩ := perm_flatMap_of_eq_off (List.nodup_finRange 16) (List.mem_finRange o)
      (g := fun p => (t.object p).pages) (h := fun p => ((t.freeObject o).object p).pages)
      fun p _ hp => by rw [t.freeObject_object_ne hp]
    rw [t.freeObject_object_same] at hafter
    refine ((hafter.append_left _).trans ?_).trans hperm
    change (t.free ++ (t.object o).pages ++ ([] ++ rest)).Perm _
    rw [List.nil_append, List.append_assoc]
    exact (hbefore.append_left _).symm
  · by_cases hpo : p = o
    · rw [hpo, t.freeObject_object_same]; rfl
    · rw [t.freeObject_object_ne hpo] at hp ⊢
      exact hnone p hp

/-- A change of one object: its own account, and the others' as they stood. -/
theorem refsOk_of_object {t u : Store} {o : Fin 16} {n m : Fin 16 → Nat} (h : ∀ p, (t.object p).RefsOk (n p))
    (hoff : ∀ p, p ≠ o → u.object p = t.object p ∧ m p = n p) (hown : (u.object o).RefsOk (m o)) (p : Fin 16) :
    (u.object p).RefsOk (m p) := by
  by_cases hp : p = o
  · exact hp ▸ hown
  · rw [(hoff p hp).1, (hoff p hp).2]
    exact h p

/-- A dropped reference keeps the accounts once the PUSH that held it is gone (R149). -/
theorem Store.Accounted.dropRef {t : Store} {n m : Fin 16 → Nat} {o : Fin 16} (h : t.Accounted n)
    (hn : ∀ p, n p = m p + if p = o then 1 else 0) : (t.dropRef o).Accounted m := by
  obtain ⟨hpages, hrefs⟩ := h
  obtain ⟨hcount, hstate, hcond⟩ := hrefs o
  have hone := hn o
  rw [if_pos rfl] at hone
  refine ⟨?_, refsOk_of_object hrefs (o := o) (fun p hp => ⟨t.dropRef_object_ne hp, ?_⟩) ?_⟩
  · unfold Store.dropRef
    dsimp only
    split
    · exact hpages.freeObject o
    · exact hpages.putObject rfl id
  · have := hn p
    rw [if_neg hp] at this
    omega
  · unfold Store.dropRef
    dsimp only
    split
    · rw [t.freeObject_object_same]
      refine ⟨?_, fun hne => absurd rfl hne, nofun⟩
      change 0 = m o
      omega
    · next hkeep =>
      rw [t.putObject_object_same]
      exact ⟨by dsimp only; omega, fun _ => hstate (by omega), fun hc => by
        dsimp only at hc ⊢
        have := mt (fun hle => (⟨hc, hle⟩ : _ ∧ (t.object o).refs ≤ 1)) hkeep
        omega⟩

/-- The store after a completed step keeps the accounts once the step is gone (R17, R149). -/
theorem Store.Accounted.afterStep {t : Store} {n m : Fin 16 → Nat} {k : StepKind} (h : t.Accounted n)
    (hn : ∀ p, n p = m p + if k = .push p then 1 else 0) : (t.afterStep k).Accounted m := by
  cases k with
  | push o =>
    refine h.dropRef fun p => (hn p).trans ?_
    simp only [StepKind.push.injEq, eq_comm]
  | _ =>
    have : n = m := funext fun p => by simpa using hn p
    exact this ▸ h

/-- Discarded steps drop their references one by one (R28, R149). -/
theorem Store.Accounted.dropRefs {m : Fin 16 → Nat} (steps : List StepRecord) : ∀ {t : Store} {n : Fin 16 → Nat}, t.Accounted n →
    (∀ p, n p = m p + (steps.filter fun st => decide (st.kind = .push p)).length) → (t.dropRefs steps).Accounted m := by
  induction steps with
  | nil =>
    intro t n h hn
    have : n = m := funext fun p => by simpa using hn p
    exact this ▸ h
  | cons st steps ih =>
    intro t n h hn
    change (Store.dropRefs (t.afterStep st.kind) steps).Accounted m
    refine ih (h.afterStep (m := fun p => m p + (steps.filter fun st => decide (st.kind = .push p)).length) fun p => ?_) fun _ => rfl
    rw [hn p, List.filter_cons]
    by_cases hk : st.kind = .push p
    · simp [hk, Nat.add_assoc]
    · simp [hk]

theorem Store.dropRefs_bytes (steps : List StepRecord) (t : Store) : (t.dropRefs steps).bytes = t.bytes := by
  induction steps generalizing t with
  | nil => rfl
  | cons st steps ih => exact (ih (t.afterStep st.kind)).trans (t.afterStep_bytes st.kind)

/-- An added reference keeps the accounts with the PUSH that holds it (R148). -/
theorem Store.Accounted.addRef {t : Store} {n m : Fin 16 → Nat} {o : Fin 16} (h : t.Accounted n)
    (hsealed : (t.object o).state = .sealed) (hm : ∀ p, m p = n p + if p = o then 1 else 0) : (t.addRef o).Accounted m := by
  obtain ⟨hpages, hrefs⟩ := h
  obtain ⟨hcount, -, -⟩ := hrefs o
  have hone := hm o
  rw [if_pos rfl] at hone
  refine ⟨hpages.putObject rfl id, refsOk_of_object hrefs (o := o) (fun p hp => ⟨t.putObject_object_ne _ hp, ?_⟩) ?_⟩
  · have := hm p
    rw [if_neg hp] at this
    exact this
  · rw [Store.addRef, t.putObject_object_same]
    exact ⟨by dsimp only; omega, fun _ => .inl hsealed, fun _ => Nat.succ_ne_zero _⟩

/-- Replacing an object by one with the same pages and references keeps the accounts. -/
theorem Store.Accounted.putObject {t : Store} {n : Fin 16 → Nat} {o : Fin 16} {r : ObjectRecord} (h : t.Accounted n)
    (hpages : r.pages = (t.object o).pages) (hempty : r.state = .empty → (t.object o).state = .empty)
    (hown : r.RefsOk (n o)) : (t.putObject o r).Accounted n :=
  ⟨h.1.putObject hpages hempty,
    refsOk_of_object h.2 (fun _ hp => ⟨t.putObject_object_ne r hp, rfl⟩) (by rwa [t.putObject_object_same])⟩

/-- An object that no PUSH names can be freed. -/
theorem Store.Accounted.freeObject {t : Store} {n : Fin 16 → Nat} {o : Fin 16} (h : t.Accounted n) (hnone : (t.object o).refs = 0) :
    (t.freeObject o).Accounted n := by
  obtain ⟨hcount, -, -⟩ := h.2 o
  refine ⟨h.1.freeObject o, refsOk_of_object h.2 (fun _ hp => ⟨t.freeObject_object_ne hp, rfl⟩) ?_⟩
  rw [t.freeObject_object_same]
  exact ⟨hnone.symm.trans hcount, fun hne => absurd rfl hne, nofun⟩

/-- An EMPTY object takes the first free pages (R144). -/
theorem Store.Accounted.openObject {t : Store} {n : Fin 16 → Nat} {o : Fin 16} (h : t.Accounted n)
    (hempty : (t.object o).state = .empty) (length k : Nat) :
    ({ (t.putObject o ⟨.filling, length, 0, t.free.take k, 0, none⟩) with free := t.free.drop k } : Store).Accounted n := by
  obtain ⟨⟨hperm, hnone⟩, hrefs⟩ := h
  obtain ⟨hcount, hstate, -⟩ := hrefs o
  have hzero : n o = 0 := by
    rw [← hcount]
    by_contra hne
    rcases hstate hne with hs | hs <;> rw [hempty] at hs <;> exact nomatch hs
  refine ⟨⟨?_, fun p hp => ?_⟩,
    refsOk_of_object (t := t) (u := t.putObject o _) hrefs (fun _ hp => ⟨t.putObject_object_ne _ hp, rfl⟩) ?_⟩
  · obtain ⟨rest, hbefore, hafter⟩ := perm_flatMap_of_eq_off (List.nodup_finRange 16) (List.mem_finRange o)
      (g := fun p => (t.object p).pages)
      (h := fun p => ((t.putObject o ⟨.filling, length, 0, t.free.take k, 0, none⟩).object p).pages)
      fun p _ hp => by rw [t.putObject_object_ne _ hp]
    rw [t.putObject_object_same] at hafter
    rw [hnone o hempty, List.nil_append] at hbefore
    refine ((hafter.append_left _).trans ?_).trans ((hbefore.append_left _).symm.trans hperm)
    change (t.free.drop k ++ (t.free.take k ++ rest)).Perm (t.free ++ rest)
    rw [← List.append_assoc]
    refine List.Perm.append_right _ (List.perm_append_comm.trans ?_)
    rw [List.take_append_drop]
  · change ((t.putObject o _).object p).state = _ at hp
    change ((t.putObject o _).object p).pages = _
    by_cases hpo : p = o
    · rw [hpo, t.putObject_object_same] at hp
      exact nomatch hp
    · rw [t.putObject_object_ne _ hpo] at hp ⊢
      exact hnone p hp
  · rw [t.putObject_object_same, hzero]
    exact ⟨rfl, fun hne => absurd rfl hne, nofun⟩

/-- The empty store of the resets (R154). -/
theorem Store.accounted_of_empty {t : Store} (hobjects : t.objects = Vector.replicate 16 .empty) (hfree : t.free = List.range 512) :
    t.Accounted fun _ => 0 := by
  have hobject (o : Fin 16) : t.object o = .empty := by simp [Store.object, hobjects]
  refine ⟨⟨?_, fun o _ => by rw [hobject]; rfl⟩, fun o => ?_⟩
  · have hnil : ((List.finRange 16).flatMap fun o => (t.object o).pages) = [] :=
      List.flatMap_eq_nil_iff.mpr fun o _ => by rw [hobject]; rfl
    rw [hfree, hnil, List.append_nil]
  · rw [hobject]
    exact ⟨rfl, fun hne => absurd rfl hne, nofun⟩

end Sys2Proof.Machine
end

