-- ==== Sys2Proof/Proofs/Keeps.lean ====
section
/-! PROOF. The relation between two states in which every invariant of Safety.lean is kept, the rules by which it is shown, and that the
shared operations keep it: the end of a step, the walk, the starts and the uplink. -/

namespace Sys2Proof.Machine

/-- Every slot is lawful. -/
def State.Lawful (s : State) : Prop := ∀ i : Slot, (s.slot i).Lawful

theorem State.lawful_iff (s : State) : s.Lawful ↔ s.OffQuiet ∧ s.LineLaw :=
  ⟨fun h => ⟨fun i => (h i).1, fun i => (h i).2⟩, fun h i => ⟨h.1 i, h.2 i⟩⟩

/-- The accounts of pages and references. -/
def State.Accounted (s : State) : Prop := s.store.Accounted s.pushesOf

theorem State.accounted_iff (s : State) : s.Accounted ↔ s.PagesAccounted ∧ s.ReferencesAccounted := Iff.rfl

/-- From `s` to `t` the invariants that stand by themselves are kept. -/
structure KeepsBounds (s t : State) : Prop where
  lidSafe : s.LidSafe → t.LidSafe
  queue : s.QueueBounded → t.QueueBounded
  list : s.ListBounded → t.ListBounded
  ring : s.RingBounded → t.RingBounded
  replies : s.RepliesBounded → t.RepliesBounded
  inbound : s.InboundBounded → t.InboundBounded
  pool : s.PoolCanonical → t.PoolCanonical
  accounts : s.Accounted → t.Accounted

/-- From `s` to `t` the wait list's law is kept, and with it the law of the slots. -/
structure KeepsLaws (s t : State) : Prop where
  waiters : s.WaitersInFlight → t.WaitersInFlight
  lawful : s.WaitersInFlight → s.Lawful → t.Lawful

/-- From `s` to `t` every invariant is kept. -/
structure Keeps (s t : State) : Prop extends KeepsBounds s t, KeepsLaws s t

theorem KeepsBounds.refl (s : State) : KeepsBounds s s := ⟨id, id, id, id, id, id, id, id⟩

theorem KeepsBounds.trans {s t u : State} (h : KeepsBounds s t) (k : KeepsBounds t u) : KeepsBounds s u :=
  ⟨k.lidSafe ∘ h.lidSafe, k.queue ∘ h.queue, k.list ∘ h.list, k.ring ∘ h.ring, k.replies ∘ h.replies, k.inbound ∘ h.inbound,
    k.pool ∘ h.pool, k.accounts ∘ h.accounts⟩

theorem Keeps.refl (s : State) : Keeps s s := ⟨.refl s, id, fun _ => id⟩

theorem Keeps.trans {s t u : State} (h : Keeps s t) (k : Keeps t u) : Keeps s u :=
  ⟨h.toKeepsBounds.trans k.toKeepsBounds, k.waiters ∘ h.waiters, fun hw hl => k.lawful (h.waiters hw) (h.lawful hw hl)⟩

/-! ### The rules -/

/-- The PUSH steps that name an object, before and after a change of one slot. -/
theorem pushesOf_of_slot {s t : State} {i : Slot} {y : SlotState} (slots : t.slots = (s.setSlot i y).slots) (o : Fin 16) :
    s.pushesOf o + y.pushesOf o = t.pushesOf o + (s.slot i).pushesOf o := by
  have hslot (j : Slot) : t.slot j = (s.setSlot i y).slot j := congrArg (fun v : Vector SlotState 24 => v[j]) slots
  have hsum := sum_map_of_eq_off allSlots_nodup (mem_allSlots i) (g := fun j => (s.slot j).pushesOf o)
    (h := fun j => (t.slot j).pushesOf o) fun j _ hj => by rw [hslot, State.setSlot_slot_ne _ _ _ _ hj]
  rw [hslot i, State.setSlot_slot_same] at hsum
  exact hsum

/-- A property of every slot, after a change of one. -/
theorem forall_slot_of_slots {s t : State} {i : Slot} {y : SlotState} (slots : t.slots = (s.setSlot i y).slots) {P : SlotState → Prop}
    (hP : P (s.slot i) → P y) (h : ∀ j, P (s.slot j)) (j : Slot) : P (t.slot j) := by
  have hslot : t.slot j = if j = i then y else s.slot j := by
    rw [← State.setSlot_slot]
    exact congrArg (fun v : Vector SlotState 24 => v[j]) slots
  rw [hslot]
  split
  · exact hP (h i)
  · exact h j

/-- What happens within one slot, and to the store with it, keeps the bounds; a rail may go on with the lid CLOSED. -/
theorem KeepsBounds.of_slot {s t : State} {i : Slot} {y : SlotState} (slots : t.slots = (s.setSlot i y).slots) (lid : t.lid = s.lid)
    (link : t.link = s.link) (bytes : t.store.bytes = s.store.bytes) (bounds : SlotBounds (s.slot i) y)
    (rail : s.lid.state = .opened → y.power.state.railOn = true → (s.slot i).power.state.railOn = true)
    (accounts : s.Accounted → t.Accounted) : KeepsBounds s t := by
  refine ⟨fun h ho => ?_, forall_slot_of_slots slots (P := fun x => x.engine.queueCount ≤ 16) bounds.queue,
    forall_slot_of_slots slots (P := fun x => x.engine.done.length + x.engine.reservation ≤ 8) bounds.list,
    forall_slot_of_slots slots (P := fun x => ringUsed x.capture.ring ≤ 4096) bounds.ring, ?_, ?_, ?_, accounts⟩
  · rw [lid] at ho
    refine forall_slot_of_slots slots (P := fun x => x.power.state.railOn = false) (fun hx => ?_) (h ho)
    by_contra hy
    rw [rail ho (by simpa using hy)] at hx
    exact nomatch hx
  · unfold State.RepliesBounded; rw [link]; exact id
  · unfold State.InboundBounded; rw [link]; exact id
  · unfold State.PoolCanonical; rw [bytes]; exact id

/-- What happens within one slot, and to the wait list with it, keeps the laws. -/
theorem KeepsLaws.of_slot {s t : State} {i : Slot} {y : SlotState} (slots : t.slots = (s.setSlot i y).slots)
    (lawful : s.WaitersInFlight → (s.slot i).Lawful → y.Lawful) (wait : t.waitList.Sublist s.waitList)
    (waiter : s.WaitersInFlight → ∀ e ∈ t.waitList, e.slot = i →
      ∃ f, y.engine.flight = some f ∧ f.push = none ∧ ∃ hold, f.step.kind = .attach e.mask hold) : KeepsLaws s t := by
  refine ⟨fun h => ⟨h.1.sublist (wait.map _), fun e he => ?_⟩,
    fun hw => forall_slot_of_slots slots (P := SlotState.Lawful) (lawful hw)⟩
  have hslot : t.slot e.slot = if e.slot = i then y else s.slot e.slot := by
    rw [← State.setSlot_slot]
    exact congrArg (fun v : Vector SlotState 24 => v[e.slot]) slots
  rw [hslot]
  split
  · next hi => exact waiter h e he hi
  · exact h.2 e (wait.subset he)

/-- A change of one slot that keeps its invariants, and may switch its rail on with the lid CLOSED. -/
theorem Keeps.setSlot_of_holds {s : State} {i : Slot} {y : SlotState} (h : SlotHolds (s.slot i) y)
    (rail : s.lid.state = .opened → y.power.state.railOn = true → (s.slot i).power.state.railOn = true) : Keeps s (s.setSlot i y) := by
  refine ⟨.of_slot rfl rfl rfl rfl h.toSlotBounds rail fun hacc => ?_, .of_slot rfl (fun _ => h.lawful) (.refl _) fun hw e he hi => ?_⟩
  · have : (s.setSlot i y).pushesOf = s.pushesOf := funext fun o => by
      have := pushesOf_of_slot (s := s) (t := s.setSlot i y) rfl o
      have := h.pushes o
      omega
    unfold State.Accounted
    rw [this]
    exact hacc
  · obtain ⟨f, hf, hp, hold, hk⟩ := hw.2 e he
    rw [hi] at hf
    obtain ⟨g, hg, hgk, hgp⟩ := h.waiter f hf hp
    exact ⟨g, hg, hgp, hold, hgk.trans hk⟩

/-- A change of one slot that keeps its invariants. -/
theorem Keeps.setSlot {s : State} {i : Slot} {y : SlotState} (h : SlotKeeps (s.slot i) y) : Keeps s (s.setSlot i y) :=
  .setSlot_of_holds h.toSlotHolds fun _ => h.rail

theorem Keeps.modSlot {s : State} {i : Slot} {f : SlotState → SlotState} (h : SlotKeeps (s.slot i) (f (s.slot i))) :
    Keeps s (s.modSlot i f) := .setSlot h

/-- A change outside the slots, the wait list and the store. -/
theorem Keeps.of_cell {s t : State} (slots : t.slots = s.slots) (wait : t.waitList = s.waitList) (store : t.store = s.store)
    (lid : t.lid.state = .opened → s.lid.state = .opened ∨ ∀ i, (s.slot i).power.state.railOn = false)
    (replies : s.RepliesBounded → t.RepliesBounded) (inbound : s.InboundBounded → t.InboundBounded) : Keeps s t := by
  have hslot (j : Slot) : t.slot j = s.slot j := congrArg (fun v : Vector SlotState 24 => v[j]) slots
  have each {P : SlotState → Prop} (h : ∀ j, P (s.slot j)) (j : Slot) : P (t.slot j) := by
    rw [hslot]
    exact h j
  refine ⟨⟨fun h ho => ?_, each (P := fun x => x.engine.queueCount ≤ 16),
    each (P := fun x => x.engine.done.length + x.engine.reservation ≤ 8), each (P := fun x => ringUsed x.capture.ring ≤ 4096),
    replies, inbound, ?_, ?_⟩, ?_, fun _ => each (P := SlotState.Lawful)⟩
  · exact each (P := fun x => x.power.state.railOn = false) ((lid ho).elim h id)
  · unfold State.PoolCanonical; rw [store]; exact id
  · have : t.pushesOf = s.pushesOf := funext fun o => by simp only [State.pushesOf, hslot]
    unfold State.Accounted
    rw [store, this]
    exact id
  · intro h
    refine ⟨wait ▸ h.1, fun e he => ?_⟩
    rw [hslot]
    exact h.2 e (wait ▸ he)

/-- A change outside the slots, the wait list, the store, the lid and the link. -/
theorem Keeps.of_rest {s t : State} (slots : t.slots = s.slots) (wait : t.waitList = s.waitList) (store : t.store = s.store)
    (lid : t.lid = s.lid) (link : t.link = s.link) : Keeps s t :=
  .of_cell slots wait store (fun h => .inl (lid ▸ h)) (by unfold State.RepliesBounded; rw [link]; exact id)
    (by unfold State.InboundBounded; rw [link]; exact id)

/-- A change of the link alone. -/
theorem Keeps.of_link {s : State} {l : Link} (replies : s.link.replies.length ≤ 8 → l.replies.length ≤ 8)
    (inbound : s.link.inboundUsed ≤ 4096 → l.inboundUsed ≤ 4096) : Keeps s { s with link := l } :=
  .of_cell rfl rfl rfl .inl replies inbound

/-- The ports stand in no invariant. -/
theorem Keeps.of_ports (s : State) (ps : Vector (Option Hold) 4) : Keeps s { s with ports := ps } :=
  .of_rest rfl rfl rfl rfl rfl

/-- A change of the store alone. -/
theorem Keeps.of_store {s : State} {t : Store} (pool : s.store.bytes.wf = true → t.bytes.wf = true)
    (accounts : s.store.Accounted s.pushesOf → t.Accounted s.pushesOf) : Keeps s { s with store := t } :=
  ⟨⟨id, id, id, id, id, id, pool, accounts⟩, id, fun _ => id⟩

/-- A wait entry leaves the list. -/
theorem removeEntry_keeps (s : State) (i : Slot) : Keeps s (s.removeEntry i) :=
  ⟨⟨id, id, id, id, id, id, id, id⟩, fun h => ⟨h.1.sublist (List.filter_sublist.map _), fun e he => h.2 e (List.mem_of_mem_filter he)⟩,
    fun _ => id⟩

theorem arbiterDrop_keeps (s : State) (i : Slot) : Keeps s (s.arbiterDrop i) :=
  (Keeps.of_ports s _).trans (removeEntry_keeps _ i)

/-! ### The end of a step -/

/-- A slot after its step has ended fits its bounds. -/
theorem complete_fits {x : SlotState} {f : Flight} (hf : x.engine.flight = some f) (r : Record) : SlotFits x (x.complete f r) where
  rail := id
  queue := by
    unfold SlotState.complete
    simp only [Engine.queueCount, Engine.queue, hf]
    split <;> simp <;> omega
  list := by simp [SlotState.complete, Engine.reservation, hf]
  ring := id

theorem complete_pushes {x : SlotState} {f : Flight} (hf : x.engine.flight = some f) (r : Record) (o : Fin 16) :
    x.pushesOf o = (x.complete f r).pushesOf o + if f.step.kind = .push o then 1 else 0 := by
  have hrest : (x.complete f r).pushesOf o = (x.engine.waiting.filter fun st => decide (st.kind = .push o)).length := by
    refine pushes_of_kinds ?_ o
    unfold SlotState.complete
    simp only [Engine.queue]
    split <;> simp [doomAll_kinds]
  rw [hrest]
  simp only [SlotState.pushesOf, Engine.queue, hf, Option.map_some, Option.toList_some, List.singleton_append, List.filter_cons]
  by_cases hk : f.step.kind = .push o <;> simp [hk]

theorem disown_tx_eq_none (l : PhoneLine) : l.disown.tx = none ↔ l.tx = none := by
  cases h : l.tx <;> simp [PhoneLine.disown, PhoneLine.withdraw, h]

theorem disown_txWaiting_ne_none {l : PhoneLine} (h : l.disown.txWaiting ≠ none) : l.txWaiting ≠ none := by
  intro hn
  exact h (by simp [PhoneLine.disown, PhoneLine.withdraw, hn])

/-- A slot after its step has ended is lawful, unless the step was the POWER step a move out of RUN waits for. -/
theorem complete_lawful {x : SlotState} {f : Flight} (r : Record) (h : x.Lawful)
    (hphase : x.power.phase ≠ .leaving) : (x.complete f r).Lawful := by
  obtain ⟨quiet, sends, parks, waits, -, -⟩ := h
  have hwaiting (h : x.line.txWaiting = none) : x.line.disown.txWaiting = none := by
    by_contra hne
    exact disown_txWaiting_ne_none hne h
  have quiet' : (x.complete f r).QuietOff := fun hrail => by
    obtain ⟨hq, htx, hw, hasm⟩ := quiet hrail
    exact ⟨hq, (disown_tx_eq_none _).mpr htx, hwaiting hw, hasm⟩
  have sends' : x.line.disown.tx ≠ none → x.power.state = .run ∨ x.power.state = .parking :=
    fun htx => sends fun hn => htx ((disown_tx_eq_none _).mpr hn)
  have parks' : x.power.state = .parking → x.line.disown.txWaiting = none ∧
      ∀ item, x.line.disown.tx = some item → ∃ tag code, item = ⟨.controller, .line (commandLine tag code [])⟩ := by
    intro hpark
    obtain ⟨hw, hitem⟩ := parks hpark
    refine ⟨hwaiting hw, fun item hi => ?_⟩
    obtain ⟨t, ht, hti⟩ := Option.map_eq_some_iff.mp hi
    obtain ⟨tag, code, ht'⟩ := hitem t ht
    exact ⟨tag, code, by rw [← hti, ht', if_neg (show ¬ Owner.controller = Owner.step from nofun)]⟩
  have waits' : x.line.disown.txWaiting ≠ none → x.line.disown.tx ≠ none :=
    fun hw hn => waits (disown_txWaiting_ne_none hw) ((disown_tx_eq_none _).mp hn)
  exact ⟨quiet', sends', parks', waits', fun g hg => (nomatch (show none = some g from hg)), fun hp => absurd hp hphase⟩

section
variable {s t : State} {i : Slot} {x : SlotState} {f : Flight} {r : Record}

/-- The step `f` of slot i, which stands in the slot's state `x`, ends, and `x` comes from the slot by a change that fits. -/
theorem KeepsBounds.ends (hf : x.engine.flight = some f) (slots : t.slots = (s.setSlot i (x.complete f r)).slots) (lid : t.lid = s.lid)
    (link : t.link = s.link) (store : t.store = s.store.afterStep f.step.kind) (fits : SlotFits (s.slot i) x)
    (pushes : ∀ o, x.pushesOf o = (s.slot i).pushesOf o) : KeepsBounds s t := by
  have hfits := complete_fits hf r
  refine .of_slot slots lid link (store ▸ s.store.afterStep_bytes _)
    ⟨hfits.queue ∘ fits.queue, hfits.list ∘ fits.list, hfits.ring ∘ fits.ring⟩ (fun _ => fits.rail ∘ hfits.rail) fun h => ?_
  unfold State.Accounted
  rw [store]
  refine Store.Accounted.afterStep h fun o => ?_
  have hslot := pushesOf_of_slot slots o
  have hout := complete_pushes hf r o
  have hin := pushes o
  omega

/-- The step `f` of slot i ends, and no wait entry of the slot is left. -/
theorem KeepsLaws.ends (slots : t.slots = (s.setSlot i (x.complete f r)).slots)
    (lawful : s.WaitersInFlight → (s.slot i).Lawful → (x.complete f r).Lawful) (wait : t.waitList.Sublist s.waitList)
    (gone : s.WaitersInFlight → ∀ e ∈ t.waitList, e.slot ≠ i) : KeepsLaws s t :=
  .of_slot slots lawful wait fun hw e he hi => absurd hi (gone hw e he)

end

/-- The step in flight of slot i ends, and it is neither a POWER step a move out of RUN waits for nor an ATTACH that waits. -/
theorem endStep_keeps {s : State} {i : Slot} (e : Ending)
    (hleaves : ∀ f, (s.slot i).engine.flight = some f → f.step.kind.code = 2 → f.push = none →
      (s.slot i).power.state = .run → (s.slot i).power.phase ≠ .leaving)
    (hwaits : ∀ f, (s.slot i).engine.flight = some f → f.step.kind.code = 5 → f.push = none → ∀ w ∈ s.waitList, w.slot ≠ i) :
    Keeps s (endStep i e s) := by
  cases hf : (s.slot i).engine.flight with
  | none => rw [endStep_none s i e hf]; exact .refl s
  | some f =>
    rw [endStep_some s i e hf]
    refine ⟨.ends hf rfl rfl rfl rfl ⟨⟨id, id, id⟩, id⟩ fun _ => rfl,
      .ends rfl (fun _ hl => complete_lawful _ hl fun hp => ?_) (.refl _) fun hw w hmem hi => ?_⟩
    · obtain ⟨-, -, -, -, -, leaves⟩ := hl
      obtain ⟨hrun, g, hg, hcode, hpush⟩ := leaves hp
      exact hleaves g hg hcode hpush hrun hp
    · obtain ⟨g, hg, hpush, hold, hk⟩ := hw.2 w hmem
      rw [hi] at hg
      exact hwaits g hg (by rw [hk]; rfl) hpush w hmem hi

/-- The step in flight ends, and it is neither a POWER step nor an ATTACH. -/
theorem endStep_keeps_of_kind {s : State} {i : Slot} (e : Ending) {f : Flight} (hf : (s.slot i).engine.flight = some f)
    (hpower : f.step.kind.code ≠ 2) (hattach : f.step.kind.code ≠ 5) : Keeps s (endStep i e s) :=
  endStep_keeps e (fun g hg hc => by rw [hf] at hg; exact absurd (Option.some.inj hg ▸ hc) hpower)
    fun g hg hc => by rw [hf] at hg; exact absurd (Option.some.inj hg ▸ hc) hattach

/-! ### The walk -/

/-- The slot of a granted entry, less the end of its step (R132). -/
def SlotState.granting (e : WaitEntry) (x : SlotState) : SlotState :=
  { x with granted := x.granted ||| e.mask, notices := x.notices.put .grant true }

theorem granting_keeps (e : WaitEntry) (x : SlotState) : SlotKeeps x (x.granting e) := .of_engine rfl rfl le_rfl id id id

/-- The state in which a granted entry's step ends. -/
def grantHeld (e : WaitEntry) (s : State) : State :=
  { s.removeEntry e.slot with ports := putPorts e.mask (some ⟨e.slot, Time.after s.time e.hold⟩) s.ports }

theorem grantEntry_eq (e : WaitEntry) (s : State) :
    grantEntry e s = endStep e.slot .normal ((grantHeld e s).modSlot e.slot (SlotState.granting e)) := rfl

theorem grantHeld_keeps (e : WaitEntry) (s : State) : Keeps s ((grantHeld e s).modSlot e.slot (SlotState.granting e)) :=
  ((removeEntry_keeps s e.slot).trans (.of_ports _ _)).trans (.modSlot (granting_keeps e _))

theorem not_mem_removeEntry {s : State} {i : Slot} {w : WaitEntry} (h : w ∈ (s.removeEntry i).waitList) : w.slot ≠ i := by
  simpa using (List.mem_filter.mp h).2

theorem endStep_bounds (s : State) (i : Slot) (e : Ending) : KeepsBounds s (endStep i e s) := by
  cases hf : (s.slot i).engine.flight with
  | none => rw [endStep_none s i e hf]; exact .refl s
  | some f =>
    rw [endStep_some s i e hf]
    exact .ends hf rfl rfl rfl rfl ⟨⟨id, id, id⟩, id⟩ fun _ => rfl

theorem grantEntry_bounds (e : WaitEntry) (s : State) : KeepsBounds s (grantEntry e s) :=
  (grantHeld_keeps e s).toKeepsBounds.trans (endStep_bounds _ _ _)

/-- A step ends whose wait entry has just left the list: an ATTACH, by the law of the wait list. -/
theorem endStep_keeps_of_entry {s t : State} {w : WaitEntry} (e : Ending) (hmem : w ∈ s.waitList)
    (hflight : (t.slot w.slot).engine.flight = (s.slot w.slot).engine.flight) (hgone : ∀ v ∈ t.waitList, v.slot ≠ w.slot)
    (hw : s.WaitersInFlight) : Keeps t (endStep w.slot e t) := by
  obtain ⟨f, hf, -, hold, hk⟩ := hw.2 w hmem
  have hft := hflight.trans hf
  exact endStep_keeps e (fun g hg hc => by rw [hft] at hg; rw [← Option.some.inj hg, hk] at hc; exact nomatch hc)
    fun _ _ _ _ => hgone

theorem walkEntries_bounds (es : List WaitEntry) : ∀ (m : PortMask) (s : State), KeepsBounds s (walkEntries es m s).1 := by
  induction es with
  | nil => exact fun _ s => .refl s
  | cons e es ih =>
    intro m s
    unfold walkEntries
    split
    · exact (grantEntry_bounds e s).trans (ih m _)
    · exact ih _ s

theorem grantEntry_waitList (e : WaitEntry) (s : State) :
    (grantEntry e s).waitList = s.waitList.filter fun w => decide (w.slot ≠ e.slot) := by
  rw [grantEntry_eq, endStep_waitList]; rfl

/-- A grant of an entry of the list. -/
theorem grantEntry_keeps {e : WaitEntry} {s : State} (hmem : e ∈ s.waitList) : Keeps s (grantEntry e s) := by
  have hheld := grantHeld_keeps e s
  refine ⟨grantEntry_bounds e s, fun hw => ?_, fun hw hl => ?_⟩
  all_goals
    have hend := endStep_keeps_of_entry (t := (grantHeld e s).modSlot e.slot (SlotState.granting e)) .normal hmem
      (by rw [State.modSlot_slot_same]; rfl) (fun _ => not_mem_removeEntry) hw
  · exact hend.waiters (hheld.waiters hw)
  · exact hend.lawful (hheld.waiters hw) (hheld.lawful hw hl)

theorem walkEntries_laws (es : List WaitEntry) : ∀ (m : PortMask) (s : State), s.WaitersInFlight →
    (es.map WaitEntry.slot).Nodup → (∀ e ∈ es, e ∈ s.waitList) →
      (walkEntries es m s).1.WaitersInFlight ∧ (s.Lawful → (walkEntries es m s).1.Lawful) := by
  induction es with
  | nil => exact fun _ s hw _ _ => ⟨hw, id⟩
  | cons e es ih =>
    intro m s hw hnd hsub
    rw [List.map_cons, List.nodup_cons] at hnd
    unfold walkEntries
    split
    · have hkeep := grantEntry_keeps (hsub e List.mem_cons_self)
      obtain ⟨hwaiters, hlawful⟩ := ih m (grantEntry e s) (hkeep.waiters hw) hnd.2 fun v hv => by
        rw [grantEntry_waitList, List.mem_filter]
        exact ⟨hsub v (List.mem_cons_of_mem _ hv), decide_eq_true fun h => hnd.1 (h ▸ List.mem_map_of_mem hv)⟩
      exact ⟨hwaiters, fun hl => hlawful (hkeep.lawful hw hl)⟩
    · exact ih _ s hw hnd.2 fun v hv => hsub v (List.mem_cons_of_mem _ hv)

/-- The grant walk keeps every invariant. -/
theorem walk_keeps (s : State) : Keeps s (walk s).1 :=
  ⟨walkEntries_bounds _ _ s, fun hw => (walkEntries_laws _ _ s hw hw.1 fun _ => id).1,
    fun hw => (walkEntries_laws _ _ s hw hw.1 fun _ => id).2⟩

end Sys2Proof.Machine
end

