-- ==== Sys2Proof/Proofs/StartKeeps.lean ====
section
/-! PROOF. The moves of the power controller, FAULT, the ends by hand, the starts and the uplink keep every invariant. -/

namespace Sys2Proof.Machine

variable {s : State} {i : Slot} {x : SlotState}

/-! ### Moves of the power controller -/

theorem SlotState.powerStep_isSome (h : x.powerStep.isSome = true) :
    ∃ f target keys, x.engine.flight = some f ∧ f.step.kind = .power target keys := by
  unfold SlotState.powerStep at h
  cases hf : x.engine.flight with
  | none => rw [hf] at h; exact nomatch h
  | some f =>
    rw [hf] at h
    change (Flight.powerParams f).isSome = true at h
    unfold Flight.powerParams at h
    split at h
    · next target keys hk => exact ⟨f, target, keys, rfl, hk⟩
    · exact nomatch h

/-- The target is reached, with no move out of RUN waiting. -/
theorem targetReached_keeps (hphase : (s.slot i).power.phase ≠ .leaving) : Keeps s (targetReached i s).1 := by
  unfold targetReached
  split
  · next h =>
    obtain ⟨f, target, keys, hf, hk⟩ := SlotState.powerStep_isSome h
    exact endStep_keeps _ (fun _ _ _ _ _ => hphase) fun g hg hc => by
      rw [hf] at hg
      rw [← Option.some.inj hg, hk] at hc
      exact nomatch hc
  · exact .refl s

/-- A change of the slot after which the target is reached. -/
theorem modSlot_targetReached_keeps {g : SlotState → SlotState} (h : SlotKeeps (s.slot i) (g (s.slot i)))
    (hphase : (g (s.slot i)).power.phase ≠ .leaving) : Keeps s (targetReached i (s.modSlot i g)).1 :=
  (Keeps.modSlot h).trans (targetReached_keeps (by rwa [State.modSlot_slot_same]))

/-- With the rail on the target stands in no invariant. -/
theorem retarget_keeps (hrail : x.power.state.railOn = true) (t : Option Target) : SlotKeeps x { x with power.target := t } :=
  .of_engine rfl rfl le_rfl id id fun h => ⟨fun hoff => (by rw [show x.power.state.railOn = false from hoff] at hrail; exact nomatch hrail), h.2⟩

/-- With the rail on the keys stand in no invariant. -/
theorem rekey_keeps (hrail : x.power.state.railOn = true) (k : KeyMask) : SlotKeeps x { x with power.keys := k } :=
  .of_engine rfl rfl le_rfl id id fun h => ⟨fun hoff => (by rw [show x.power.state.railOn = false from hoff] at hrail; exact nomatch hrail), h.2⟩

/-- Keys that are released stay released with the rail off. -/
theorem release_keeps (x : SlotState) (k : KeyMask) : SlotKeeps x { x with power.keys := x.power.keys &&& k } := by
  refine .of_engine rfl rfl le_rfl id id fun h => ⟨fun hoff => ?_, h.2⟩
  obtain ⟨⟨hphase, htarget, hsettle, hkeys, hpress, hboot, hhold⟩, hline⟩ := h.1 hoff
  exact ⟨⟨hphase, htarget, hsettle, by simp [hkeys], hpress, hboot, hhold⟩, hline⟩

/-- Entry to PARKING with nothing to send before the shutdown line. -/
theorem enterParking_keeps (hrail : (s.slot i).power.state.railOn = true)
    (htalk : (s.slot i).Lawful → ∀ f, (s.slot i).engine.flight = some f → ¬ f.step.kind.code ≤ 1)
    (hsilent : (s.slot i).Lawful → (s.slot i).line.tx = none ∧ (s.slot i).line.txWaiting = none) : Keeps s (enterParking i s) := by
  unfold enterParking
  refine .modSlot (.of_engine rfl rfl le_rfl (fun _ => hrail) id fun h => ?_)
  obtain ⟨htx, hwaiting⟩ := hsilent h
  refine lawful_of_parking rfl nofun ?_ (fun item hitem => ?_) (htalk h)
  · dsimp only
    split
    · simp [PhoneLine.handOver, PhoneLine.takeTag, htx, hwaiting]
    · exact hwaiting
  · dsimp only at hitem
    split at hitem
    · simp only [PhoneLine.handOver, PhoneLine.takeTag, htx, Option.some.injEq] at hitem
      exact ⟨_, _, hitem.symm⟩
    · rw [htx] at hitem; exact nomatch hitem

/-- A move toward a target, taken with nothing to send (R74, R75). -/
theorem takeMove_keeps (target : Target) (hrail : (s.slot i).power.state.railOn = true)
    (htalk : (s.slot i).Lawful → ∀ f, (s.slot i).engine.flight = some f → ¬ f.step.kind.code ≤ 1)
    (hsilent : (s.slot i).Lawful → (s.slot i).line.tx = none ∧ (s.slot i).line.txWaiting = none) :
    Keeps s (takeMove i target s).1 := by
  cases target with
  | off => exact modSlot_targetReached_keeps (cutRail_keeps rfl htalk) nofun
  | listen => exact modSlot_targetReached_keeps (.of_power hrail rfl nofun nofun hsilent htalk) nofun
  | park =>
    have hback (h : SlotState.Lawful { s.slot i with power.target := some .park }) : (s.slot i).Lawful :=
      ⟨fun hoff => (by rw [hrail] at hoff; exact nomatch hoff), h.2⟩
    refine (Keeps.modSlot (retarget_keeps hrail (some .park))).trans (enterParking_keeps ?_ ?_ ?_) <;> rw [State.modSlot_slot_same]
    · exact hrail
    · exact fun h => htalk (hback h)
    · exact fun h => hsilent (hback h)
  | standby => exact .refl s
  | run => exact .refl s

/-! ### FAULT and the lid -/

/-- A slot with the rail off and nothing of a running phone left is lawful, once no EXCHANGE or PUSH is in flight in it. -/
theorem lawful_of_off (hrail : x.power.state.railOn = false) (hquiet : x.power.quiet) (htx : x.line.tx = none)
    (hwaiting : x.line.txWaiting = none) (hasm : x.line.assembler = .empty)
    (htalk : ∀ f, x.engine.flight = some f → ¬ f.step.kind.code ≤ 1) : x.Lawful :=
  ⟨fun _ => ⟨hquiet, htx, hwaiting, hasm⟩, fun h => absurd htx h,
    fun h => (by rw [h] at hrail; exact nomatch hrail), fun h => absurd hwaiting h, fun f hf hc => absurd hc (htalk f hf),
    fun h => (by rw [hquiet.1] at h; exact nomatch h)⟩

/-- What an entry to FAULT or the opening lid makes of a slot, less the end of its step: the rail is cut and the queue doomed. -/
structure SlotCut (d : Doom) (x y : SlotState) : Prop where
  engine : y.engine = { x.engine with waiting := doomAll d x.engine.waiting }
  line : y.line = x.line.cut
  capture : y.capture = x.capture
  rail : y.power.state.railOn = false
  quiet : y.power.quiet

theorem SlotCut.fits {d : Doom} {x y : SlotState} (h : SlotCut d x y) : SlotFits x y where
  rail := fun hy => by rw [h.rail] at hy; exact nomatch hy
  queue := by simp [h.engine, Engine.queueCount, Engine.queue]
  list := by rw [h.engine]; exact id
  ring := by rw [h.capture]; exact id

theorem SlotCut.pushes {d : Doom} {x y : SlotState} (h : SlotCut d x y) (o : Fin 16) : y.pushesOf o = x.pushesOf o :=
  pushes_of_kinds (by simp [h.engine, Engine.queue, doomAll_kinds]) o

/-- A slot that is cut, with its step ended and its ports and wait entry gone (R86, R91, R137). -/
theorem cutEnd_keeps {d : Doom} {g : SlotState → SlotState} (hcut : SlotCut d (s.slot i) (g (s.slot i))) (e : Ending) :
    Keeps s ((endStep i e (s.modSlot i g)).arbiterDrop i) := by
  have hflight : (g (s.slot i)).engine.flight = (s.slot i).engine.flight := by rw [hcut.engine]
  have hsilent : (g (s.slot i)).line.tx = none ∧ (g (s.slot i)).line.txWaiting = none ∧ (g (s.slot i)).line.assembler = .empty := by
    rw [hcut.line]; exact ⟨rfl, rfl, rfl⟩
  obtain ⟨htx, hwaiting, hasm⟩ := hsilent
  cases hf : (s.slot i).engine.flight with
  | none =>
    rw [endStep_none _ i e (by rw [State.modSlot_slot_same, hflight, hf])]
    refine (Keeps.modSlot ?_).trans (arbiterDrop_keeps _ i)
    refine { hcut.fits with lawful := fun _ => ?_, pushes := hcut.pushes, waiter := fun f h => (by rw [hf] at h; exact nomatch h) }
    exact lawful_of_off hcut.rail hcut.quiet htx hwaiting hasm fun f h => (by rw [hflight, hf] at h; exact nomatch h)
  | some f =>
    have hfx : (g (s.slot i)).engine.flight = some f := hflight.trans hf
    have hended := endStep_some (s.modSlot i g) i e (by rw [State.modSlot_slot_same, hfx])
    rw [State.modSlot_modSlot] at hended
    have hbounds : KeepsBounds s (endStep i e (s.modSlot i g)) := by
      rw [hended]
      exact .ends hfx rfl rfl rfl rfl hcut.fits hcut.pushes
    refine ⟨hbounds.trans (arbiterDrop_keeps _ i).toKeepsBounds, ?_⟩
    rw [hended]
    refine .ends (x := g (s.slot i)) rfl (fun _ _ => ?_) List.filter_sublist fun _ w hw => not_mem_removeEntry hw
    refine lawful_of_off hcut.rail hcut.quiet ((disown_tx_eq_none _).mpr htx) ?_ hasm
      fun g hg => nomatch (show none = some g from hg)
    by_contra hne
    exact disown_txWaiting_ne_none hne hwaiting

theorem lidCut_keeps (s : State) (i : Slot) : Keeps s (lidCut i s) := by
  unfold lidCut
  dsimp only
  split
  · exact cutEnd_keeps (d := .interlocked) ⟨rfl, rfl, rfl, rfl, rfl, rfl, rfl, rfl, rfl, rfl, rfl⟩ _
  · split
    · exact .modSlot (.of_engine rfl rfl le_rfl id id id)
    · exact .refl s

/-! ### Ends by hand -/

theorem withdrawStep_flight (f : Flight) : ((withdrawStep i f s).slot i).engine.flight = (s.slot i).engine.flight := by
  unfold withdrawStep
  split
  · rw [State.modSlot_slot_same]
  · rw [State.modSlot_slot_same]
    unfold SlotState.endPowerEarly
    split <;> rfl
  all_goals rfl

/-- After an early end no move out of RUN waits in a slot in RUN. -/
theorem endPowerEarly_not_leaving (hrun : x.endPowerEarly.power.state = .run) : x.endPowerEarly.power.phase ≠ .leaving := by
  unfold SlotState.endPowerEarly at hrun ⊢
  split
  case h_3 => nofun
  all_goals
    next h =>
    rw [h] at hrun
    simp only [SlotState.enterListen, SlotState.cutRail, h] at hrun
    exact nomatch hrun

/-- The step in flight ends by an abort or a FAIL_STEP hit (R22, R65). -/
theorem withdrawEnd_keeps {f : Flight} (hf : (s.slot i).engine.flight = some f) (e : Ending) :
    Keeps s (endStep i e (withdrawStep i f s)) := by
  have hflight := (withdrawStep_flight (s := s) (i := i) f).trans hf
  cases hk : f.step.kind with
  | power target keys =>
    have hw : withdrawStep i f s = s.modSlot i SlotState.endPowerEarly := by unfold withdrawStep; rw [hk]
    rw [hw] at hflight ⊢
    refine (Keeps.modSlot (endPowerEarly_keeps hf (by simp [hk, StepKind.code]))).trans
      (endStep_keeps e (fun _ _ _ _ hrun => ?_) fun g hg hc => ?_)
    · rw [State.modSlot_slot_same] at hrun ⊢
      exact endPowerEarly_not_leaving hrun
    · rw [hflight] at hg
      rw [← Option.some.inj hg, hk] at hc
      exact nomatch hc
  | attach mask hold =>
    have hw : withdrawStep i f s = s.removeEntry i := by unfold withdrawStep; rw [hk]
    rw [hw]
    refine (removeEntry_keeps s i).trans (endStep_keeps e (fun g hg hc => ?_) fun _ _ _ _ w => not_mem_removeEntry)
    rw [show ((s.removeEntry i).slot i).engine.flight = some f from hf] at hg
    rw [← Option.some.inj hg, hk] at hc
    exact nomatch hc
  | press keys duration =>
    have hw : withdrawStep i f s = s.modSlot i fun x => { x with power.keys := x.power.keys &&& ~~~keys } := by
      unfold withdrawStep; rw [hk]
    rw [hw] at hflight ⊢
    exact (Keeps.modSlot (release_keeps _ _)).trans (endStep_keeps_of_kind e hflight (by simp [hk, StepKind.code]) (by simp [hk, StepKind.code]))
  | _ =>
    have hw : withdrawStep i f s = s := by unfold withdrawStep; rw [hk]
    rw [hw]
    exact endStep_keeps_of_kind e hf (by simp [hk, StepKind.code]) (by simp [hk, StepKind.code])

theorem endByHand_keeps {f : Flight} (hf : (s.slot i).engine.flight = some f) (e : Ending) : Keeps s (endByHand i f e s).1 := by
  have hend := withdrawEnd_keeps hf e
  unfold endByHand
  split
  · exact hend.trans (walk_keeps _)
  · exact hend

end Sys2Proof.Machine
end

