-- ==== Sys2Proof/Proofs/HeadKeeps.lean ====
section
/-! PROOF. The start of a head, the run of starts and the uplink keep every invariant. -/

namespace Sys2Proof.Machine

variable {s : State} {i : Slot} {x y : SlotState} {st : StepRecord} {rest : List StepRecord}

/-! ### The head as the step in flight -/

/-- The slot with its head as the step in flight. -/
def SlotState.begun (st : StepRecord) (rest : List StepRecord) (now : Time) (x : SlotState) : SlotState :=
  { x with engine.flight := some (Flight.begun st now), engine.waiting := rest }

/-- The state with slot i's head as its step in flight. -/
def State.beginHead (s : State) (i : Slot) (st : StepRecord) (rest : List StepRecord) : State :=
  s.modSlot i (SlotState.begun st rest s.time)

theorem startHead_of_kind (hw : (s.slot i).engine.waiting = st :: rest) (hd : st.doom = none) :
    startHead i s = startKind i st (s.beginHead i st rest) := startHead_kind s i hw hd

theorem startHead_of_doom {d : Doom} (hw : (s.slot i).engine.waiting = st :: rest) (hd : st.doom = some d) :
    startHead i s = (endStep i (.doomed d) (s.beginHead i st rest), [i]) := startHead_doomed s i hw hd

theorem beginHead_slot : (s.beginHead i st rest).slot i = (s.slot i).begun st rest s.time := by
  rw [State.beginHead, State.modSlot_slot_same]

/-- A slot whose head can start: no step in flight, the head `st`, and a free place in the list (R3). -/
structure HeadReady (x : SlotState) (st : StepRecord) (rest : List StepRecord) : Prop where
  idle : x.engine.flight = none
  head : x.engine.waiting = st :: rest
  place : x.engine.done.length < 8

theorem HeadReady.of_canStart (h : x.engine.canStart = true) : ∃ st rest, HeadReady x st rest := by
  obtain ⟨hf, hw, hd⟩ := (Engine.canStart_iff _).mp h
  cases hwait : x.engine.waiting with
  | nil => exact absurd hwait hw
  | cons st rest => exact ⟨st, rest, hf, hwait, by simpa [Engine.reservation, hf] using hd⟩

/-- A slot whose head has become its step in flight. -/
theorem SlotFits.of_head (h : HeadReady x st rest) {f : Flight} (hflight : y.engine.flight = some f)
    (hwaiting : y.engine.waiting = rest) (hdone : y.engine.done = x.engine.done)
    (hrail : y.power.state.railOn = true → x.power.state.railOn = true) (hring : y.capture.ring = x.capture.ring) : SlotFits x y where
  rail := hrail
  queue := by simp [Engine.queueCount, Engine.queue, hflight, hwaiting, h.idle, h.head]
  list := fun _ => by
    have := h.place
    simp only [Engine.reservation, hflight, hdone, Option.isSome_some, if_true]
    omega
  ring := by rw [hring]; exact id

theorem pushes_of_head (h : HeadReady x st rest) {f : Flight} (hstep : f.step = st) (hflight : y.engine.flight = some f)
    (hwaiting : y.engine.waiting = rest) (o : Fin 16) : y.pushesOf o = x.pushesOf o := by
  simp [SlotState.pushesOf, Engine.queue, hflight, hwaiting, h.idle, h.head, hstep]

theorem SlotKeeps.of_head (h : HeadReady x st rest) {f : Flight} (hstep : f.step = st) (hflight : y.engine.flight = some f)
    (hwaiting : y.engine.waiting = rest) (hdone : y.engine.done = x.engine.done)
    (hrail : y.power.state.railOn = true → x.power.state.railOn = true) (hring : y.capture.ring = x.capture.ring)
    (hlaw : x.Lawful → y.Lawful) : SlotKeeps x y :=
  { SlotFits.of_head h hflight hwaiting hdone hrail hring with
    lawful := hlaw
    pushes := pushes_of_head h hstep hflight hwaiting
    waiter := fun g hg => (by rw [h.idle] at hg; exact nomatch hg) }

/-- Nothing of the line's law but the EXCHANGE and PUSH clause speaks of a head that becomes the step in flight. -/
theorem begun_lawful (h : HeadReady x st rest) (now : Time) (hcode : ¬ st.kind.code ≤ 1) (hl : x.Lawful) : (x.begun st rest now).Lawful := by
  have hphase := hl.not_leaving_idle h.idle
  obtain ⟨quiet, sends, parks, waits, -, -⟩ := hl
  refine ⟨quiet, sends, parks, waits, fun f hf hc => ?_, fun hp => absurd hp hphase⟩
  rw [← Option.some.inj hf] at hc
  exact absurd hc hcode

theorem beginHead_keeps (h : HeadReady (s.slot i) st rest) (hcode : ¬ st.kind.code ≤ 1) : Keeps s (s.beginHead i st rest) :=
  .modSlot (.of_head h rfl rfl rfl rfl id rfl (begun_lawful h _ hcode))

/-- A head that leaves in its start event: a failed start, a doomed head, a target already reached (R4, R5, R8). -/
theorem endHead_keeps (h : HeadReady (s.slot i) st rest) (e : Ending) : Keeps s (endStep i e (s.beginHead i st rest)) := by
  have hf : ((s.slot i).begun st rest s.time).engine.flight = some (Flight.begun st s.time) := rfl
  have hended := endStep_some (s.beginHead i st rest) i e (beginHead_slot ▸ hf)
  unfold State.beginHead at hended ⊢
  rw [State.modSlot_modSlot] at hended
  rw [hended]
  refine ⟨.ends hf rfl rfl rfl rfl (.of_head h rfl rfl rfl id rfl) (pushes_of_head h rfl rfl rfl),
    .ends (x := (s.slot i).begun st rest s.time) rfl (fun _ hl => ?_) (.refl _) fun hw w hmem hi => ?_⟩
  · exact complete_lawful (x := s.slot i) (f := Flight.begun st s.time) (completionRecord s.limits s.time (Flight.begun st s.time) e) hl (hl.not_leaving_idle h.idle)
  · obtain ⟨f, hflight, -⟩ := hw.2 w hmem
    rw [hi, h.idle] at hflight
    exact nomatch hflight

theorem failStart_keeps (h : HeadReady (s.slot i) st rest) (r : Reason) : Keeps s (failStart i r (s.beginHead i st rest)).1 :=
  endHead_keeps h (.startFailed r)

/-! ### The kinds -/

theorem handOver_txWaiting {l : PhoneLine} {item : TxItem} : (l.handOver item).tx ≠ none := by
  unfold PhoneLine.handOver
  split
  · exact nofun
  · next h => rw [h]; exact nofun

/-- An EXCHANGE or PUSH that starts in RUN and hands over its item. -/
theorem sendHead_keeps (h : HeadReady (s.slot i) st rest) (hrun : (s.slot i).power.state = .run) {g : SlotState → SlotState}
    {f : Flight} {item : TxItem}
    (hg : g ((s.slot i).begun st rest s.time) = { s.slot i with
      engine.flight := some f, engine.waiting := rest, line := (s.slot i).line.takeTag.handOver item }) (hstep : f.step = st) :
    Keeps s ((s.beginHead i st rest).modSlot i g) := by
  rw [State.beginHead, State.modSlot_modSlot]
  refine .modSlot ?_
  rw [hg]
  refine .of_head h hstep rfl rfl rfl id rfl fun hl => lawful_of_run hrun (fun _ => handOver_txWaiting) fun hp => ?_
  exact absurd hp (hl.not_leaving_idle h.idle)

theorem startExchange_keeps (h : HeadReady (s.slot i) st rest) (code : BitVec 16) (argument : List Byte) :
    Keeps s (startExchange i st code argument (s.beginHead i st rest)).1 := by
  unfold startExchange
  split
  · exact failStart_keeps h _
  · next hrun =>
    split
    · exact failStart_keeps h _
    · rw [beginHead_slot, not_not] at hrun
      dsimp only
      exact sendHead_keeps h hrun rfl rfl

theorem startPush_keeps (h : HeadReady (s.slot i) st rest) (o : Fin 16) :
    Keeps s (startPush i st o (s.beginHead i st rest)).1 := by
  unfold startPush
  dsimp only
  split
  · exact failStart_keeps h _
  · next hrun =>
    split
    · exact failStart_keeps h _
    · rw [beginHead_slot, not_not] at hrun
      dsimp only
      exact sendHead_keeps h hrun rfl rfl

/-- A change of the step in flight that keeps its step record and its push. -/
theorem modFlight_slotKeeps {g : Flight → Flight} (hstep : ∀ f, (g f).step = f.step) (hpush : ∀ f, (g f).push = f.push) (x : SlotState) :
    SlotKeeps x { x with engine.flight := x.engine.flight.map g } where
  rail := id
  queue := by cases h : x.engine.flight <;> simp [Engine.queueCount, Engine.queue, h]
  list := by cases h : x.engine.flight <;> simp [Engine.reservation, h]
  ring := id
  lawful := fun hl => by
    obtain ⟨quiet, sends, parks, waits, talks, leaves⟩ := hl
    refine ⟨quiet, sends, parks, waits, fun f hf hc => ?_, fun hp => ?_⟩
    · obtain ⟨f', hf', rfl⟩ := Option.map_eq_some_iff.mp hf
      exact talks f' hf' (by rwa [hstep] at hc)
    · obtain ⟨hrun, f, hf, hc, hn⟩ := leaves hp
      exact ⟨hrun, g f, by rw [hf]; rfl, by rw [hstep]; exact hc, by rw [hpush]; exact hn⟩
  pushes := fun o => by cases h : x.engine.flight <;> simp [SlotState.pushesOf, Engine.queue, h, hstep]
  waiter := fun f hf hp => ⟨g f, by rw [hf]; rfl, by rw [hstep], by rw [hpush]; exact hp⟩

theorem modFlight_keeps {g : Flight → Flight} (hstep : ∀ f, (g f).step = f.step) (hpush : ∀ f, (g f).push = f.push) :
    Keeps s (s.modFlight i g) := .modSlot (modFlight_slotKeeps hstep hpush _)

/-- The rail is switched on with the lid CLOSED (R71). -/
theorem railOn_keeps (now : Time) (target : Target) (hlid : s.lid.state ≠ .opened) (hoff : (s.slot i).power.state = .off) :
    Keeps s (s.modSlot i fun y => y.railOn now target) := by
  have hs : (s.slot i).power.state ≠ .run ∧ (s.slot i).power.state ≠ .parking := by rw [hoff]; decide
  exact .setSlot_of_holds (.of_engine rfl rfl le_rfl id fun hl => lawful_of_silent rfl nofun nofun (hl.silent hs.1 hs.2) (hl.no_talk hs.1))
    fun ho => absurd ho hlid

/-! ### POWER -/

theorem enterStarting_keeps (hstate : x.power.state = .standby) (now : Time) (keys : KeyCombo) : SlotKeeps x (x.enterStarting now keys) := by
  have hs : x.power.state.railOn = true ∧ x.power.state ≠ .run ∧ x.power.state ≠ .parking := by rw [hstate]; decide
  exact .of_power_silent hs.1 hs.2.1 hs.2.2 rfl nofun nofun

theorem rail_of_reaches {p : PowerState} {target : Target} (h : p.reaches target = false) (hoff : p = .off) : target.needsRail = true := by
  subst hoff
  cases target <;> first | rfl | exact nomatch h

/-- The state in which a POWER head begins: its slot silent outside RUN and PARKING, and no EXCHANGE or PUSH in flight. -/
theorem startPower_keeps (h : HeadReady (s.slot i) st rest) (target : Target) (keys : KeyCombo)
    (hkind : st.kind = .power target keys) : Keeps s (startPower i st target keys (s.beginHead i st rest)).1 := by
  have hcode : ¬ st.kind.code ≤ 1 := by simp [hkind, StepKind.code]
  have hbegin := beginHead_keeps h hcode
  have hslot := beginHead_slot (s := s) (i := i) (st := st) (rest := rest)
  have htalk (_ : ((s.beginHead i st rest).slot i).Lawful) :
      ∀ f, ((s.beginHead i st rest).slot i).engine.flight = some f → ¬ f.step.kind.code ≤ 1 := fun f hf => by
    rw [hslot] at hf
    exact Option.some.inj hf ▸ hcode
  have hfail (r : Reason) := failStart_keeps h r
  have hwindow {t : State} (ht : Keeps s t) (w : Flight → Option Window) :
      Keeps s (t.modFlight i fun f => { f with window := w f }) := ht.trans (modFlight_keeps (fun _ => rfl) fun _ => rfl)
  unfold startPower
  dsimp only
  split
  · exact endHead_keeps h .normal
  next hreach =>
  split
  · exact hfail _
  next hlid =>
  split
  case h_1 hstate =>
    refine hwindow (hbegin.trans (railOn_keeps _ _ (fun ho => hlid ⟨ho, ?_⟩) hstate)) _
    exact rail_of_reaches (by simpa using hreach) hstate
  case h_2 hstate =>
    have hs : ((s.beginHead i st rest).slot i).power.state.railOn = true ∧ ((s.beginHead i st rest).slot i).power.state ≠ .run ∧
        ((s.beginHead i st rest).slot i).power.state ≠ .parking := by rw [hstate]; decide
    split
    · exact hbegin.trans (takeMove_keeps _ hs.1 htalk fun hl => hl.silent hs.2.1 hs.2.2)
    split
    · exact hwindow (hbegin.trans (.modSlot (retarget_keeps hs.1 _))) _
    split
    · dsimp only
      exact hwindow (hbegin.trans (.modSlot (enterStarting_keeps hstate _ _))) _
    · exact hbegin.trans (takeMove_keeps _ hs.1 htalk fun hl => hl.silent hs.2.1 hs.2.2)
  case h_3 hstate =>
    have hrail : ((s.beginHead i st rest).slot i).power.state.railOn = true := by rw [hstate]; rfl
    split
    · exact hfail _
    split
    · dsimp only
      refine hbegin.trans (.modSlot (.of_engine rfl rfl le_rfl id id fun hl => ?_))
      obtain ⟨-, -, -, waits, -, -⟩ := hl
      refine lawful_of_run hstate waits fun _ => ⟨Flight.begun st s.time, ?_, ?_, rfl⟩
      · rw [hslot]; rfl
      · simp [Flight.begun, hkind, StepKind.code]
    · next htx =>
      refine hbegin.trans (takeMove_keeps _ hrail htalk fun hl => ?_)
      have hnone : ((s.beginHead i st rest).slot i).line.tx = none := by simpa using htx
      obtain ⟨-, -, -, waits, -, -⟩ := hl
      exact ⟨hnone, by_contra fun hw => waits hw hnone⟩
  case h_4 hstate =>
    have hs : ((s.beginHead i st rest).slot i).power.state.railOn = true ∧ ((s.beginHead i st rest).slot i).power.state ≠ .run ∧
        ((s.beginHead i st rest).slot i).power.state ≠ .parking := by rw [hstate]; decide
    split
    · exact hfail _
    split
    · exact hbegin.trans (modSlot_targetReached_keeps (.of_power_silent hs.1 hs.2.1 hs.2.2 rfl nofun nofun) nofun)
    · exact hbegin.trans (takeMove_keeps _ hs.1 htalk fun hl => hl.silent hs.2.1 hs.2.2)
  all_goals exact hfail _

/-! ### The other kinds -/

/-- An ATTACH that starts joins the wait list (R130). -/
theorem joinWaitList_keeps (h : HeadReady (s.slot i) st rest) {mask : PortMask} {hold : Nat} (hkind : st.kind = .attach mask hold)
    (d : Time) : Keeps s { s.beginHead i st rest with waitList := (s.beginHead i st rest).waitList ++ [⟨i, mask, d, hold⟩] } := by
  have hbegin := beginHead_keeps h (by simp [hkind, StepKind.code])
  refine ⟨hbegin.toKeepsBounds.trans ⟨id, id, id, id, id, id, id, id⟩, fun hw => ?_, hbegin.lawful⟩
  obtain ⟨hnodup, hflights⟩ := hbegin.waiters hw
  have hnew (e : WaitEntry) (he : e ∈ s.waitList) : e.slot ≠ i := fun hi => by
    obtain ⟨f, hf, -⟩ := hw.2 e he
    rw [hi, h.idle] at hf
    exact nomatch hf
  refine ⟨?_, fun e he => ?_⟩
  · rw [List.map_append, List.nodup_append]
    refine ⟨hnodup, by simp, fun a ha b hb hab => ?_⟩
    obtain ⟨e, he, rfl⟩ := List.mem_map.mp ha
    exact hnew e he (hab.trans (by simpa using hb))
  · rcases List.mem_append.mp he with he | he
    · exact hflights e he
    · rw [List.mem_singleton.mp he]
      refine ⟨Flight.begun st s.time, ?_, rfl, hold, hkind⟩
      exact congrArg (fun x : SlotState => x.engine.flight) (beginHead_slot (s := s) (i := i) (st := st) (rest := rest))

theorem startKind_keeps (h : HeadReady (s.slot i) st rest) : Keeps s (startKind i st (s.beginHead i st rest)).1 := by
  have hbegin (hcode : ¬ st.kind.code ≤ 1) := beginHead_keeps h hcode
  have hflight : ((s.beginHead i st rest).slot i).engine.flight = some (Flight.begun st s.time) := by rw [beginHead_slot]; rfl
  unfold startKind
  split
  case h_1 => exact startExchange_keeps h _ _
  case h_2 => exact startPush_keeps h _
  case h_3 hk => exact startPower_keeps h _ _ hk
  case h_4 hk =>
    exact (hbegin (by simp [hk, StepKind.code])).trans (modFlight_keeps (fun _ => rfl) fun _ => rfl)
  case h_5 hk =>
    unfold startPress
    split
    · exact failStart_keeps h _
    · next hstate =>
      have hrail : ((s.beginHead i st rest).slot i).power.state.railOn = true := by
        revert hstate
        cases ((s.beginHead i st rest).slot i).power.state <;> simp [PowerState.railOn]
      dsimp only
      refine Keeps.trans ?_ (.modSlot (rekey_keeps ?_ _))
      · exact (hbegin (by simp [hk, StepKind.code])).trans (modFlight_keeps (fun _ => rfl) fun _ => rfl)
      · rw [State.modFlight, State.modSlot_slot_same]
        exact hrail
  case h_6 hk =>
    unfold startAttach
    split
    · exact failStart_keeps h _
    · exact (joinWaitList_keeps h hk _).trans (walk_keeps _)
  case h_7 mask hk =>
    unfold startDetach
    have hend (m : PortMask) (e : Ending) : Keeps s (endStep i e ((s.beginHead i st rest).releasePorts i m)) :=
      ((hbegin (by simp [hk, StepKind.code])).trans (Keeps.of_ports _ _)).trans
        (endStep_keeps_of_kind e hflight (by simp [Flight.begun, hk, StepKind.code]) (by simp [Flight.begun, hk, StepKind.code]))
    generalize (if mask = 0#4 then 0xF#4 else mask) &&& (s.beginHead i st rest).portsHeld i = m
    dsimp only
    split
    · exact hend m _
    · exact (hend m _).trans (walk_keeps _)
  case h_8 hk =>
    unfold startAwait
    split
    · exact failStart_keeps h _
    · exact (hbegin (by simp [hk, StepKind.code])).trans (modFlight_keeps (fun _ => rfl) fun _ => rfl)

/-! ### The run of starts -/

theorem startHead_keeps (hc : (s.slot i).engine.canStart = true) : Keeps s (startHead i s).1 := by
  obtain ⟨st, rest, h⟩ := HeadReady.of_canStart hc
  cases hd : st.doom with
  | some d => rw [startHead_of_doom h.head hd]; exact endHead_keeps h _
  | none => rw [startHead_of_kind h.head hd]; exact startKind_keeps h

theorem runStarts_keeps (n : Nat) : ∀ (work : List Slot) (s : State), Keeps s (runStarts n work s) := by
  induction n with
  | zero => exact fun _ s => .refl s
  | succ n ih =>
    intro work s
    cases work with
    | nil => exact .refl s
    | cons i work =>
      unfold runStarts
      split
      · next hc => exact (startHead_keeps hc).trans (ih _ _)
      · exact ih _ _

theorem startAll_keeps (work : List Slot) (s : State) : Keeps s (startAll work s) := runStarts_keeps _ work s

/-! ### The uplink -/

theorem transmit_keeps (s : State) (f : Frame) (src : FrameSource) : Keeps s (s.transmit f src) := .of_link id id

@[simp] theorem markOldest_length (entries : List ListEntry) : (markOldest entries).length = entries.length := by
  induction entries with
  | nil => rfl
  | cons e es ih =>
    unfold markOldest
    split <;> simp [ih]

/-- A change of the records and the notices alone. -/
theorem relist_keeps (x : SlotState) {done : List ListEntry} (hdone : done.length ≤ x.engine.done.length) (p : Pending) (g e : PortMask) :
    SlotKeeps x { x with engine.done := done, notices := p, granted := g, expired := e } := .of_engine rfl rfl hdone id id id

theorem settleStepDone_eq (x : SlotState) : ∃ p, x.settleStepDone = { x with notices := p } := by
  unfold SlotState.settleStepDone
  split
  · exact ⟨_, rfl⟩
  · exact ⟨_, rfl⟩

theorem noticeChosen_keeps (x : SlotState) (k : SlotNotice) : SlotKeeps x (x.noticeChosen k) := by
  cases k with
  | stepDone =>
    obtain ⟨p, hp⟩ := settleStepDone_eq { x with engine.done := markOldest x.engine.done }
    unfold SlotState.noticeChosen
    rw [hp]
    exact relist_keeps x (markOldest_length _).le p _ _
  | _ => exact relist_keeps x le_rfl _ _ _

theorem sendNotice_keeps (n : NoticeName) (s : State) : Keeps s (sendNotice n s) := by
  cases n with
  | linkError => exact .of_link id id
  | ofSlot i k => exact (Keeps.setSlot (noticeChosen_keeps _ k)).trans (transmit_keeps _ _ _)

theorem uplink_keeps (s : State) : Keeps s (uplink s) := by
  rcases uplink_cases s with h | ⟨c, h, -⟩ | ⟨f, fs, h, -⟩ | ⟨n, h⟩ <;> rw [h]
  · exact .refl s
  · exact .of_link id id
  · exact transmit_keeps s f .reply
  · exact sendNotice_keeps n s

theorem finish_keeps (work : List Slot) (s : State) : Keeps s (finish work s) := (startAll_keeps work s).trans (uplink_keeps _)

end Sys2Proof.Machine
end

