-- ==== Sys2Proof/Proofs/Ports.lean ====
section
/-! PROOF. The masks of the ports bit by bit: the free ports, the ports a slot holds, the ports a grant or a release sets, and the test of
R131. -/

namespace Sys2Proof.Machine

variable {s t : State} {i : Slot}

/-- The mask of the ports that meet a condition. -/
theorem foldMask_getLsbD (g : Port → Bool) (p : Port) :
    ((allPorts.filter g).foldl (fun m p => m ||| (1#4 <<< p.val)) 0#4 : PortMask).getLsbD p.val = g p := by
  rw [show allPorts = [0, 1, 2, 3] from by decide]
  cases h0 : g 0 <;> cases h1 : g 1 <;> cases h2 : g 2 <;> cases h3 : g 3 <;> fin_cases p <;> simp [List.filter, h0, h1, h2, h3]

@[simp] theorem freeMask_getLsbD (s : State) (p : Port) : s.freeMask.getLsbD p.val = s.ports[p].isNone := foldMask_getLsbD _ p

@[simp] theorem portsHeld_getLsbD (s : State) (i : Slot) (p : Port) :
    (s.portsHeld i).getLsbD p.val = decide (s.ports[p].map Hold.slot = some i) := by
  refine (foldMask_getLsbD _ p).trans ?_
  cases s.ports[p] <;> simp

theorem portMask_ext {a b : PortMask} (h : ∀ p : Port, a.getLsbD p.val = b.getLsbD p.val) : a = b :=
  BitVec.eq_of_getLsbD_eq fun k hk => h ⟨k, hk⟩

theorem portMask_eq_zero_iff (a : PortMask) : a = 0#4 ↔ ∀ p : Port, a.getLsbD p.val = false :=
  ⟨fun h p => by rw [h]; exact BitVec.getLsbD_zero, fun h => portMask_ext fun p => (h p).trans BitVec.getLsbD_zero.symm⟩

theorem putPorts_get (mask : PortMask) (x : Option Hold) (ps : Vector (Option Hold) 4) (p : Port) :
    (putPorts mask x ps)[p] = if mask.getLsbD p.val then x else ps[p] := by
  fin_cases p <;> rfl

theorem putPorts_eq_ofFn (mask : PortMask) (x : Option Hold) (ps : Vector (Option Hold) 4) :
    putPorts mask x ps = Vector.ofFn fun p : Fin 4 => if mask.getLsbD p.val then x else ps[p] := by
  refine Vector.ext fun k hk => ?_
  rw [Vector.getElem_ofFn]
  exact putPorts_get mask x ps ⟨k, hk⟩

/-- Releasing no port changes nothing. -/
theorem putPorts_zero (x : Option Hold) (ps : Vector (Option Hold) 4) : putPorts 0#4 x ps = ps := by
  refine Vector.ext fun k hk => ?_
  refine (putPorts_get 0#4 x ps ⟨k, hk⟩).trans ?_
  rw [BitVec.getLsbD_zero, if_neg nofun]
  rfl

/-- The test of R131, port by port. -/
theorem WaitEntry.grantable_iff (e : WaitEntry) (blocked free : PortMask) : e.grantable blocked free = true ↔
    ∀ p : Port, e.mask.getLsbD p.val = true → free.getLsbD p.val = true ∧ blocked.getLsbD p.val = false := by
  have hbit (p : Port) : p.val < 4 := p.isLt
  rw [WaitEntry.grantable, Bool.and_eq_true, decide_eq_true_eq, decide_eq_true_eq, portMask_eq_zero_iff, portMask_eq_zero_iff,
    ← forall_and]
  refine forall_congr' fun p => ?_
  simp only [BitVec.getLsbD_and, BitVec.getLsbD_not, hbit]
  cases e.mask.getLsbD p.val <;> cases free.getLsbD p.val <;> cases blocked.getLsbD p.val <;> simp

/-- With fewer free ports, no more can be granted. -/
theorem WaitEntry.grantable_mono {e : WaitEntry} {blocked free free' : PortMask}
    (h : ∀ p : Port, free'.getLsbD p.val = true → free.getLsbD p.val = true) (hg : e.grantable blocked free' = true) :
    e.grantable blocked free = true := by
  rw [WaitEntry.grantable_iff] at hg ⊢
  exact fun p hp => ⟨h p (hg p hp).1, (hg p hp).2⟩

/-- What the arbiter drops of a slot: its ports (R137). -/
theorem releaseAll_ports (s : State) (i : Slot) :
    (s.releasePorts i 0xF#4).ports = s.ports.map fun h => if h.map Hold.slot = some i then none else h := by
  refine Vector.ext fun k hk => ?_
  rw [Vector.getElem_map]
  have hfull : (0xF#4 &&& s.portsHeld i).getLsbD k = decide (s.ports[k].map Hold.slot = some i) := by
    rw [BitVec.getLsbD_and]
    refine (congrArg₂ Bool.and ?_ (portsHeld_getLsbD s i ⟨k, hk⟩)).trans (Bool.true_and _)
    interval_cases k <;> rfl
  refine (putPorts_get _ none s.ports ⟨k, hk⟩).trans ?_
  dsimp only
  rw [hfull]
  split <;> simp_all

end Sys2Proof.Machine
end

