-- ==== Sys2Proof/Proofs/Walk.lean ====
section
/-! PROOF. After a walk no entry of the wait list is left that could be granted. -/

namespace Sys2Proof.Machine

variable {s t : State} {i : Slot} {e : WaitEntry}

/-- No entry of a list can be granted, with the ports `blocked` blocked for the first (R131). -/
def Stuck (free : PortMask) : PortMask → List WaitEntry → Prop
  | _, [] => True
  | blocked, e :: es => e.grantable blocked free = false ∧ Stuck free (blocked ||| e.mask) es

/-- The ports blocked behind a list of entries that all wait. -/
def blockedBehind (blocked : PortMask) (es : List WaitEntry) : PortMask := es.foldl (fun m e => m ||| e.mask) blocked

theorem stuck_append {free : PortMask} {es fs : List WaitEntry} : ∀ {blocked : PortMask},
    Stuck free blocked (es ++ fs) ↔ Stuck free blocked es ∧ Stuck free (blockedBehind blocked es) fs := by
  induction es with
  | nil => exact (iff_of_eq (true_and _)).symm
  | cons e es ih => exact (and_congr_right fun _ => ih).trans (and_assoc (a := e.grantable _ free = false)).symm

/-- Where fewer ports are free, a list that was stuck stays stuck. -/
theorem Stuck.mono {free free' : PortMask} (h : ∀ p : Port, free'.getLsbD p.val = true → free.getLsbD p.val = true)
    {es : List WaitEntry} : ∀ {blocked : PortMask}, Stuck free blocked es → Stuck free' blocked es := by
  induction es with
  | nil => exact fun _ => trivial
  | cons e es ih =>
    refine fun hs => ⟨?_, ih hs.2⟩
    by_contra hg
    have := WaitEntry.grantable_mono h (by simpa using hg)
    rw [hs.1] at this
    exact nomatch this

/-- In a stuck list no slot's entry can be granted. -/
theorem Stuck.not_grantable {free : PortMask} {es : List WaitEntry} : ∀ {blocked : PortMask}, Stuck free blocked es →
    es.find? (fun w => decide (w.slot = i)) = some e → e.grantable (blocked ||| olderMask i es) free = false := by
  induction es with
  | nil => exact fun _ h => nomatch h
  | cons w ws ih =>
    intro blocked hs hfind
    unfold olderMask
    by_cases hw : w.slot = i
    · rw [List.find?_cons_of_pos (by simpa using hw)] at hfind
      rw [if_pos hw, ← Option.some.inj hfind, BitVec.or_zero]
      exact hs.1
    · rw [List.find?_cons_of_neg (by simpa using hw)] at hfind
      rw [if_neg hw, ← BitVec.or_assoc]
      exact ih hs.2 hfind

theorem noEntryWaits_of_stuck (h : Stuck s.freeMask 0#4 s.waitList) : s.NoEntryWaitsInVain := by
  intro i
  unfold State.grantDue
  split
  · next e he =>
    have hstuck := h.not_grantable he
    rw [BitVec.zero_or] at hstuck
    rw [if_neg (by rw [hstuck]; nofun)]
  · rfl

/-- The ports a granted entry takes are free no more, and no port comes free. -/
theorem grantEntry_freeMask (e : WaitEntry) (s : State) (p : Port) (h : (grantEntry e s).freeMask.getLsbD p.val = true) :
    s.freeMask.getLsbD p.val = true := by
  have hports : (grantEntry e s).ports = putPorts e.mask (some ⟨e.slot, Time.after s.time e.hold⟩) s.ports := by
    rw [grantEntry_eq, endStep_ports]
    rfl
  rw [freeMask_getLsbD, hports, putPorts_get] at h
  rw [freeMask_getLsbD]
  split at h
  · exact nomatch h
  · exact h

/-- An entry that stands once in a list is all that leaves it with its slot. -/
theorem filter_slot_middle {before es : List WaitEntry} (hnd : ((before ++ e :: es).map WaitEntry.slot).Nodup) :
    (before ++ e :: es).filter (fun w => decide (w.slot ≠ e.slot)) = before ++ es := by
  rw [List.map_append, List.map_cons, List.nodup_append, List.nodup_cons] at hnd
  obtain ⟨-, ⟨hes, -⟩, hcross⟩ := hnd
  rw [List.filter_append, List.filter_cons_of_neg (by simp), List.filter_eq_self.mpr, List.filter_eq_self.mpr]
  · exact fun w hw => decide_eq_true fun h => hes (h ▸ List.mem_map_of_mem hw)
  · exact fun w hw => decide_eq_true fun h => hcross w.slot (List.mem_map_of_mem hw) e.slot List.mem_cons_self h

theorem walkEntries_stuck (es : List WaitEntry) : ∀ (before : List WaitEntry) (s : State), s.waitList = before ++ es →
    ((before ++ es).map WaitEntry.slot).Nodup → Stuck s.freeMask 0#4 before →
      Stuck (walkEntries es (blockedBehind 0#4 before) s).1.freeMask 0#4 (walkEntries es (blockedBehind 0#4 before) s).1.waitList := by
  induction es with
  | nil =>
    intro before s hlist _ hstuck
    rw [walkEntries_nil, hlist, List.append_nil]
    exact hstuck
  | cons e es ih =>
    intro before s hlist hnd hstuck
    cases hg : e.grantable (blockedBehind 0#4 before) s.freeMask with
    | true =>
      rw [walkEntries_grant s hg]
      have hsub : ((before ++ es).map WaitEntry.slot).Nodup :=
        hnd.sublist ((List.Sublist.append_left (List.sublist_cons_self e es) before).map _)
      refine ih before (grantEntry e s) ?_ hsub (hstuck.mono (grantEntry_freeMask e s))
      rw [grantEntry_waitList, hlist]
      exact filter_slot_middle hnd
    | false =>
      rw [walkEntries_block s hg]
      have hbehind : blockedBehind 0#4 before ||| e.mask = blockedBehind 0#4 (before ++ [e]) := by
        simp [blockedBehind]
      rw [hbehind]
      refine ih (before ++ [e]) s (by simpa using hlist) (by simpa using hnd) (stuck_append.mpr ⟨hstuck, hg, trivial⟩)

/-- After a walk no entry is left that could be granted (R131). -/
theorem walk_noEntryWaits (hw : s.WaitersInFlight) : (walk s).1.NoEntryWaitsInVain :=
  noEntryWaits_of_stuck (walkEntries_stuck s.waitList [] s rfl hw.1 trivial)

/-- What can be granted depends on the ports and the wait list alone. -/
theorem State.NoEntryWaitsInVain.of_same (hports : t.ports = s.ports) (hwait : t.waitList = s.waitList) (h : s.NoEntryWaitsInVain) :
    t.NoEntryWaitsInVain := by
  intro i
  have hsame : t.grantDue i = s.grantDue i := by
    unfold State.grantDue State.waitEntry State.freeMask
    rw [hports, hwait]
  exact hsame.trans (h i)

theorem noEntryWaits_of_empty (h : s.waitList = []) : s.NoEntryWaitsInVain :=
  noEntryWaits_of_stuck (by rw [h]; trivial)

end Sys2Proof.Machine
end

