-- ==== Sys2Proof/Proofs/Closing.lean ====
section
/-! PROOF. Nothing is left waiting in vain: which starts an operation makes possible, that it carries out the grants it makes possible, and
that the run of starts at the close of an event carries out the starts. -/

namespace Sys2Proof.Machine

variable {s t u : State} {i : Slot} {x y : SlotState} {a b : List Slot}

/-! ### The starts an operation makes possible -/

/-- From `s` to `t` no head comes to be startable but those of the slots in `work`. -/
def Opens (s : State) (work : List Slot) (t : State) : Prop :=
  ∀ j, (t.slot j).engine.canStart = true → j ∈ work ∨ (s.slot j).engine.canStart = true

/-- Two engines with the same steps in the same places and as many records. -/
structure SameQueue (x y : SlotState) : Prop where
  flight : y.engine.flight.map Flight.step = x.engine.flight.map Flight.step
  waiting : y.engine.waiting.length = x.engine.waiting.length
  done : y.engine.done.length = x.engine.done.length

theorem SameQueue.refl (x : SlotState) : SameQueue x x := ⟨rfl, rfl, rfl⟩

theorem SameQueue.of_engine (h : y.engine = x.engine) : SameQueue x y := by
  rw [show y = { y with engine := x.engine } from by rw [← h]]
  exact ⟨rfl, rfl, rfl⟩

theorem SameQueue.isSome (h : SameQueue x y) : y.engine.flight.isSome = x.engine.flight.isSome := by
  have := congrArg Option.isSome h.flight
  simpa using this

theorem SameQueue.canStart (h : SameQueue x y) : y.engine.canStart = x.engine.canStart := by
  have hflight := h.isSome
  have hempty : y.engine.waiting.isEmpty = x.engine.waiting.isEmpty := by
    rw [Bool.eq_iff_iff, List.isEmpty_iff_length_eq_zero, List.isEmpty_iff_length_eq_zero, h.waiting]
  unfold Engine.canStart Engine.reservation
  rw [← Option.not_isSome, ← Option.not_isSome, hflight, hempty, h.done]

theorem SameQueue.queueCount (h : SameQueue x y) : y.engine.queueCount = x.engine.queueCount := by
  simp only [Engine.queueCount, Engine.queue, h.flight, h.waiting, List.length_append]

theorem doomQueue_sameQueue (x : SlotState) (d : Doom) : SameQueue x (x.doomQueue d) := ⟨rfl, doomAll_length d _, rfl⟩

theorem Opens.refl (s : State) : Opens s [] s := fun _ => .inr

theorem Opens.trans (h : Opens s a t) (k : Opens t b u) : Opens s (a ++ b) u := fun j hj =>
  (k j hj).elim (fun hb => .inl (List.mem_append_right a hb)) fun ht => (h j ht).imp_left (List.mem_append_left b)

theorem Opens.mono (h : Opens s a t) (hsub : a ⊆ b) : Opens s b t := fun j hj => (h j hj).imp_left (hsub ·)

/-- A change of one slot that leaves its queue as it is. -/
theorem Opens.modSlot {f : SlotState → SlotState} (h : SameQueue (s.slot i) (f (s.slot i))) : Opens s [] (s.modSlot i f) := by
  intro j hj
  rw [State.modSlot_slot] at hj
  split at hj
  · next hji => subst hji; exact .inr (h.canStart ▸ hj)
  · exact .inr hj

/-- A change of one slot. -/
theorem Opens.of_slot (h : ∀ j, j ≠ i → (t.slot j).engine = (s.slot j).engine) : Opens s [i] t := by
  intro j hj
  by_cases hji : j = i
  · exact .inl (List.mem_singleton.mpr hji)
  · exact .inr (h j hji ▸ hj)

theorem endStep_opens (s : State) (i : Slot) (e : Ending) : Opens s [i] (endStep i e s) :=
  .of_slot fun j hj => by rw [endStep_slot_ne _ _ _ _ hj]

/-- A change of a slot, and the end of its step. -/
theorem modSlot_endStep_opens (s : State) (i : Slot) (f : SlotState → SlotState) (e : Ending) :
    Opens s [i] (endStep i e (s.modSlot i f)) :=
  .of_slot fun j hj => by rw [endStep_slot_ne _ _ _ _ hj, State.modSlot_slot_ne _ _ _ _ hj]

theorem grantEntry_opens (e : WaitEntry) (s : State) : Opens s [e.slot] (grantEntry e s) := by
  rw [grantEntry_eq]
  exact modSlot_endStep_opens (grantHeld e s) e.slot _ _

theorem walkEntries_opens (es : List WaitEntry) : ∀ (m : PortMask) (s : State), Opens s (walkEntries es m s).2 (walkEntries es m s).1 := by
  induction es with
  | nil => exact fun _ s => .refl s
  | cons e es ih =>
    intro m s
    cases hg : e.grantable m s.freeMask with
    | true => rw [walkEntries_grant s hg]; exact (grantEntry_opens e s).trans (ih m _)
    | false => rw [walkEntries_block s hg]; exact ih _ s

theorem walk_opens (s : State) : Opens s (walk s).2 (walk s).1 := walkEntries_opens _ _ s

/-! ### The steps in all queues -/

/-- A change of one slot that leaves its queue as it is leaves as many steps queued. -/
theorem queuedSteps_of_slot (slots : t.slots = (s.setSlot i y).slots) : s.queuedSteps + y.engine.queueCount =
    t.queuedSteps + (s.slot i).engine.queueCount := by
  have hslot (j : Slot) : t.slot j = (s.setSlot i y).slot j := congrArg (fun v : Vector SlotState 24 => v[j]) slots
  have hsum := sum_map_of_eq_off allSlots_nodup (mem_allSlots i) (g := fun j => (s.slot j).engine.queueCount)
    (h := fun j => (t.slot j).engine.queueCount) fun j _ hj => by rw [hslot, State.setSlot_slot_ne _ _ _ _ hj]
  rw [hslot i, State.setSlot_slot_same] at hsum
  exact hsum

theorem modSlot_queuedSteps {f : SlotState → SlotState} (h : SameQueue (s.slot i) (f (s.slot i))) :
    (s.modSlot i f).queuedSteps = s.queuedSteps := by
  have hsum := queuedSteps_of_slot (s := s) (t := s.modSlot i f) (i := i) (y := f (s.slot i)) rfl
  have := h.queueCount
  omega

/-- A step that ends leaves its queue. -/
theorem endStep_queuedSteps (e : Ending) (h : (s.slot i).engine.flight.isSome = true) :
    (endStep i e s).queuedSteps + 1 = s.queuedSteps := by
  obtain ⟨f, hf⟩ := Option.isSome_iff_exists.mp h
  rw [endStep_some s i e hf]
  have hsum := queuedSteps_of_slot (s := s) (i := i) (y := (s.slot i).complete f (completionRecord s.limits s.time f e))
    (t := { s.modSlot i (fun x => x.complete f (completionRecord s.limits s.time f e)) with
      store := s.store.afterStep f.step.kind }) rfl
  have hbefore : (s.slot i).engine.queueCount = (s.slot i).engine.waiting.length + 1 := by
    simp [Engine.queueCount, Engine.queue, hf, Nat.add_comm]
  have hafter : ((s.slot i).complete f (completionRecord s.limits s.time f e)).engine.queueCount = (s.slot i).engine.waiting.length := by
    unfold SlotState.complete
    simp only [Engine.queueCount, Engine.queue]
    split <;> simp
  omega

theorem grantEntry_queuedSteps {e : WaitEntry} (hmem : e ∈ s.waitList) (hw : s.WaitersInFlight) :
    (grantEntry e s).queuedSteps + 1 = s.queuedSteps := by
  obtain ⟨f, hf, -⟩ := hw.2 e hmem
  rw [grantEntry_eq, endStep_queuedSteps]
  · exact modSlot_queuedSteps (s := grantHeld e s) (.of_engine rfl)
  · rw [State.modSlot_slot_same]
    exact Option.isSome_iff_exists.mpr ⟨f, hf⟩

theorem walkEntries_queuedSteps (es : List WaitEntry) : ∀ (m : PortMask) (s : State), s.WaitersInFlight →
    (es.map WaitEntry.slot).Nodup → (∀ e ∈ es, e ∈ s.waitList) →
      (walkEntries es m s).2.length + (walkEntries es m s).1.queuedSteps = s.queuedSteps := by
  induction es with
  | nil => exact fun _ s _ _ _ => Nat.zero_add _
  | cons e es ih =>
    intro m s hw hnd hsub
    have hmem := hsub e List.mem_cons_self
    rw [List.map_cons, List.nodup_cons] at hnd
    cases hg : e.grantable m s.freeMask with
    | true =>
      rw [walkEntries_grant s hg, List.length_cons]
      have hrest := ih m (grantEntry e s) ((grantEntry_keeps hmem).waiters hw) hnd.2 fun v hv => by
        rw [grantEntry_waitList, List.mem_filter]
        exact ⟨hsub v (List.mem_cons_of_mem _ hv), decide_eq_true fun h => hnd.1 (h ▸ List.mem_map_of_mem hv)⟩
      have := grantEntry_queuedSteps hmem hw
      dsimp only
      omega
    | false =>
      rw [walkEntries_block s hg]
      exact ih _ s hw hnd.2 fun v hv => hsub v (List.mem_cons_of_mem _ hv)

/-- A walk ends as many steps as it names slots. -/
theorem walk_queuedSteps (hw : s.WaitersInFlight) : (walk s).2.length + (walk s).1.queuedSteps = s.queuedSteps :=
  walkEntries_queuedSteps _ _ s hw hw.1 fun _ => id

/-! ### The turn of a start -/

/-- One turn of the run of starts, from `s` to `r`: what it makes possible is named, the grants are carried out, and no more slots are named
than steps have left their queues. -/
structure Turns (s : State) (r : State × List Slot) : Prop where
  opens : Opens s r.2 r.1
  grants : s.NoEntryWaitsInVain → r.1.NoEntryWaitsInVain
  spends : r.2.length + r.1.queuedSteps ≤ s.queuedSteps

/-- A start that goes on changes its slot alone. -/
theorem modSlot_turns {f : SlotState → SlotState} (h : SameQueue (s.slot i) (f (s.slot i))) : Turns s (s.modSlot i f, []) :=
  ⟨.modSlot h, State.NoEntryWaitsInVain.of_same rfl rfl, by
    rw [modSlot_queuedSteps h]
    exact (Nat.zero_add _).le⟩

theorem Turns.after (h : Turns s (t, [])) {r : State × List Slot} (k : Turns t r) : Turns s r :=
  ⟨h.opens.trans k.opens, k.grants ∘ h.grants, k.spends.trans ((Nat.le_add_left _ _).trans h.spends)⟩

theorem endStep_turns (e : Ending) (h : (s.slot i).engine.flight.isSome = true) : Turns s (endStep i e s, [i]) :=
  ⟨endStep_opens s i e, State.NoEntryWaitsInVain.of_same (endStep_ports s i e) (endStep_waitList s i e), by
    have := endStep_queuedSteps e h
    simp only [List.length_singleton]
    omega⟩

theorem targetReached_turns (s : State) (i : Slot) : Turns s (targetReached i s) := by
  unfold targetReached
  split
  · next h =>
    obtain ⟨f, -, -, hf, -⟩ := SlotState.powerStep_isSome h
    exact endStep_turns _ (Option.isSome_iff_exists.mpr ⟨f, hf⟩)
  · exact ⟨.refl s, id, (Nat.zero_add _).le⟩

theorem enterParking_turns (s : State) (i : Slot) : Turns s (enterParking i s, []) := by
  unfold enterParking
  dsimp only
  exact modSlot_turns (.of_engine rfl)

theorem takeMove_turns (target : Target) (s : State) (i : Slot) : Turns s (takeMove i target s) := by
  cases target with
  | off => exact (modSlot_turns (.of_engine rfl)).after (targetReached_turns _ i)
  | listen => exact (modSlot_turns (.of_engine rfl)).after (targetReached_turns _ i)
  | park =>
    have htarget : Turns s (s.modSlot i fun x => { x with power := { x.power with target := some .park } }, []) :=
      modSlot_turns (.of_engine rfl)
    exact htarget.after (enterParking_turns _ i)
  | standby => exact ⟨.refl s, id, (Nat.zero_add _).le⟩
  | run => exact ⟨.refl s, id, (Nat.zero_add _).le⟩

theorem modFlight_sameQueue {g : Flight → Flight} (hstep : ∀ f, (g f).step = f.step) (x : SlotState) :
    SameQueue x { x with engine.flight := x.engine.flight.map g } :=
  ⟨by cases h : x.engine.flight <;> simp [hstep], rfl, rfl⟩

theorem modFlight_turns {g : Flight → Flight} (hstep : ∀ f, (g f).step = f.step) : Turns s (s.modFlight i g, []) :=
  modSlot_turns (modFlight_sameQueue hstep _)

theorem startPower_turns (step : StepRecord) (target : Target) (keys : KeyCombo) (hf : (s.slot i).engine.flight.isSome = true) :
    Turns s (startPower i step target keys s) := by
  have hfail (r : Reason) : Turns s (failStart i r s) := endStep_turns _ hf
  have hwindow {t : State} (ht : Turns s (t, [])) : Turns s (t.modFlight i fun f => { f with window := powerWindow step target t.time }, []) :=
    ht.after (modFlight_turns fun _ => rfl)
  unfold startPower
  dsimp only
  split
  · exact endStep_turns _ hf
  split
  · exact hfail _
  split
  case h_1 => exact hwindow (modSlot_turns ⟨rfl, rfl, rfl⟩)
  case h_2 =>
    split
    · exact takeMove_turns _ s i
    split
    · exact hwindow (modSlot_turns (.of_engine rfl))
    split
    · exact hwindow (modSlot_turns (.of_engine rfl))
    · exact takeMove_turns _ s i
  case h_3 =>
    split
    · exact hfail _
    split
    · exact modSlot_turns (.of_engine rfl)
    · exact takeMove_turns _ s i
  case h_4 =>
    split
    · exact hfail _
    split
    · exact (modSlot_turns (.of_engine rfl)).after (targetReached_turns _ i)
    · exact takeMove_turns _ s i
  all_goals exact hfail _

theorem walk_turns (hw : s.WaitersInFlight) : Turns s (walk s) :=
  ⟨walk_opens s, fun _ => walk_noEntryWaits hw, (walk_queuedSteps hw).le⟩

/-- A start that goes on with the head as its step in flight. -/
theorem flight_turns {f : SlotState → SlotState} {g h : Flight} (hf : (s.slot i).engine.flight = some g)
    (hflight : (f (s.slot i)).engine.flight = some h) (hstep : h.step = g.step)
    (hwaiting : (f (s.slot i)).engine.waiting = (s.slot i).engine.waiting) (hdone : (f (s.slot i)).engine.done = (s.slot i).engine.done) :
    Turns s (s.modSlot i f, []) :=
  modSlot_turns ⟨by rw [hf, hflight, Option.map_some, Option.map_some, hstep], by rw [hwaiting], by rw [hdone]⟩

/-- Ports the slot gives up are none, or the arbiter walks behind them. -/
theorem startDetach_turns (mask : PortMask) (hw : s.WaitersInFlight) {f : Flight} (hf : (s.slot i).engine.flight = some f)
    (hkind : f.step.kind = .detach mask) : Turns s (startDetach i mask s) := by
  unfold startDetach
  generalize (if mask = 0#4 then 0xF#4 else mask) &&& s.portsHeld i = m
  have hend : Turns (s.releasePorts i m) (endStep i (.detached m) (s.releasePorts i m), [i]) :=
    endStep_turns _ (Option.isSome_iff_exists.mpr ⟨f, hf⟩)
  dsimp only
  split
  · next hm =>
    have hsame : s.releasePorts i m = s := by
      unfold State.releasePorts
      rw [hm, BitVec.zero_and, putPorts_zero]
    rw [hsame] at hend ⊢
    exact hend
  · have hcode : f.step.kind.code = 6 := by rw [hkind]; rfl
    have hkeep : Keeps s (endStep i (.detached m) (s.releasePorts i m)) :=
      (Keeps.of_ports s _).trans (endStep_keeps_of_kind _ hf (fun h => by rw [hcode] at h; exact nomatch h)
        fun h => by rw [hcode] at h; exact nomatch h)
    obtain ⟨hopens, -, hspends⟩ := walk_turns (hkeep.waiters hw)
    have hpast : Opens s [i] (endStep i (.detached m) (s.releasePorts i m)) := hend.opens
    refine ⟨hpast.trans hopens, fun _ => walk_noEntryWaits (hkeep.waiters hw), ?_⟩
    have : 1 + (endStep i (.detached m) (s.releasePorts i m)).queuedSteps ≤ s.queuedSteps := hend.spends
    simp only [List.length_cons]
    omega

theorem startKind_turns {st : StepRecord} (hf : (s.slot i).engine.flight = some (Flight.begun st s.time))
    (hw : ¬ st.kind.code ≤ 1 → s.WaitersInFlight) (hjoin : ∀ mask hold d, st.kind = .attach mask hold →
      State.WaitersInFlight { s with waitList := s.waitList ++ [⟨i, mask, d, hold⟩] }) : Turns s (startKind i st s) := by
  have hsome : (s.slot i).engine.flight.isSome = true := Option.isSome_iff_exists.mpr ⟨_, hf⟩
  have hfail (r : Reason) : Turns s (failStart i r s) := endStep_turns _ hsome
  unfold startKind
  split
  case h_1 =>
    unfold startExchange
    split
    · exact hfail _
    split
    · exact hfail _
    · exact flight_turns hf rfl rfl rfl rfl
  case h_2 =>
    unfold startPush
    dsimp only
    split
    · exact hfail _
    split
    · exact hfail _
    · exact flight_turns hf rfl rfl rfl rfl
  case h_3 => exact startPower_turns st _ _ hsome
  case h_4 => exact modFlight_turns fun _ => rfl
  case h_5 keys duration _ =>
    unfold startPress
    split
    · exact hfail _
    · have hflight : Turns s (s.modFlight i fun f =>
          { f with deadline := some (Time.after s.time duration), window := limitWindow st s.time }, []) := modFlight_turns fun _ => rfl
      exact hflight.after (modSlot_turns (.of_engine rfl))
  case h_6 mask hold hk =>
    unfold startAttach
    split
    · exact hfail _
    · have hjoined := hjoin mask hold (Time.after s.time st.timeout) hk
      obtain ⟨hopens, hgrants, hspends⟩ := walk_turns hjoined
      exact ⟨hopens, fun _ => walk_noEntryWaits hjoined, hspends⟩
  case h_7 mask hk => exact startDetach_turns mask (hw (by simp [hk, StepKind.code])) hf hk
  case h_8 =>
    unfold startAwait
    split
    · exact hfail _
    · exact modFlight_turns fun _ => rfl

/-- The head becomes the step in flight, and the slot's next head has to wait. -/
theorem beginHead_opens {st : StepRecord} {rest : List StepRecord} (j : Slot)
    (hj : ((s.beginHead i st rest).slot j).engine.canStart = true) : j ≠ i ∧ (s.slot j).engine.canStart = true := by
  rw [State.beginHead, State.modSlot_slot] at hj
  split at hj
  · exact nomatch ((Engine.canStart_iff _).mp hj).1
  · next hji => exact ⟨hji, hj⟩

theorem beginHead_queuedSteps {st : StepRecord} {rest : List StepRecord} (h : HeadReady (s.slot i) st rest) :
    (s.beginHead i st rest).queuedSteps = s.queuedSteps := by
  have hsum := queuedSteps_of_slot (s := s) (t := s.beginHead i st rest) (i := i) (y := (s.slot i).begun st rest s.time) rfl
  have : ((s.slot i).begun st rest s.time).engine.queueCount = (s.slot i).engine.queueCount := by
    simp [SlotState.begun, Engine.queueCount, Engine.queue, h.idle, h.head]
  omega

/-- One turn of the run of starts. -/
theorem startHead_turns (hw : s.WaitersInFlight) (hc : (s.slot i).engine.canStart = true) : Turns s (startHead i s) ∧
    ∀ j, ((startHead i s).1.slot j).engine.canStart = true → j ∈ (startHead i s).2 ∨ j ≠ i ∧ (s.slot j).engine.canStart = true := by
  obtain ⟨st, rest, h⟩ := HeadReady.of_canStart hc
  have hflight : ((s.beginHead i st rest).slot i).engine.flight = some (Flight.begun st (s.beginHead i st rest).time) := by
    rw [beginHead_slot]; rfl
  have hturn : Turns (s.beginHead i st rest) (startHead i s) := by
    cases hd : st.doom with
    | some d => rw [startHead_of_doom h.head hd]; exact endStep_turns _ (Option.isSome_iff_exists.mpr ⟨_, hflight⟩)
    | none =>
      rw [startHead_of_kind h.head hd]
      exact startKind_turns hflight (fun hcode => (beginHead_keeps h hcode).waiters hw)
        fun mask hold d hk => (joinWaitList_keeps h hk d).waiters hw
  obtain ⟨hopens, hgrants, hspends⟩ := hturn
  have hlast (j : Slot) (hj : ((startHead i s).1.slot j).engine.canStart = true) :
      j ∈ (startHead i s).2 ∨ j ≠ i ∧ (s.slot j).engine.canStart = true := (hopens j hj).imp_right (beginHead_opens j)
  refine ⟨⟨fun j hj => (hlast j hj).imp_right And.right, hgrants ∘ State.NoEntryWaitsInVain.of_same rfl rfl, ?_⟩, hlast⟩
  rw [← beginHead_queuedSteps h]
  exact hspends

/-! ### The run of starts -/

/-- The wait list's law holds, no head waits in vain, and no entry does. -/
structure State.Settled (s : State) : Prop where
  waiters : s.WaitersInFlight
  heads : s.NoHeadWaitsInVain
  entries : s.NoEntryWaitsInVain

theorem runStarts_settles (n : Nat) : ∀ (work : List Slot) (s : State), s.WaitersInFlight → s.NoEntryWaitsInVain →
    (∀ j, (s.slot j).engine.canStart = true → j ∈ work) → work.length + s.queuedSteps ≤ n → (runStarts n work s).Settled := by
  have hnone {s : State} (hw : s.WaitersInFlight) (he : s.NoEntryWaitsInVain)
      (hwork : ∀ j, (s.slot j).engine.canStart = true → j ∈ ([] : List Slot)) : s.Settled :=
    ⟨hw, fun j => by_contra fun hj => (nomatch hwork j (by simpa using hj)), he⟩
  induction n with
  | zero =>
    intro work s hw he hwork hfuel
    rw [List.length_eq_zero_iff.mp (by omega : work.length = 0)] at hwork
    exact hnone hw he hwork
  | succ n ih =>
    intro work s hw he hwork hfuel
    cases work with
    | nil => exact hnone hw he hwork
    | cons i work =>
      rw [List.length_cons] at hfuel
      unfold runStarts
      split
      · next hc =>
        obtain ⟨⟨-, hgrants, hspends⟩, hlast⟩ := startHead_turns hw hc
        refine ih _ _ ((startHead_keeps hc).waiters hw) (hgrants he) (fun j hj => ?_) ?_
        · rcases hlast j hj with hj | ⟨hji, hj⟩
          · exact List.mem_append_left _ hj
          · exact List.mem_append_right _ ((List.mem_cons.mp (hwork j hj)).resolve_left hji)
        · rw [List.length_append]
          omega
      · next hc =>
        refine ih _ _ hw he (fun j hj => (List.mem_cons.mp (hwork j hj)).resolve_left fun hji => ?_) (by omega)
        exact hc (hji ▸ hj)

/-- The run of starts settles a state in which only the heads of its work list could start. -/
theorem startAll_settles {work : List Slot} (hw : s.WaitersInFlight) (he : s.NoEntryWaitsInVain)
    (hwork : ∀ j, (s.slot j).engine.canStart = true → j ∈ work) : (startAll work s).Settled :=
  runStarts_settles _ work s hw he hwork le_rfl

/-! ### Events -/

/-- An event, or a request, from `s` to `t` keeps every invariant, and leaves nothing waiting in vain. -/
structure Closes (s t : State) : Prop extends Keeps s t where
  settles : s.Settled → t.Settled

theorem Closes.refl (s : State) : Closes s s := ⟨.refl s, id⟩

theorem Closes.trans (h : Closes s t) (k : Closes t u) : Closes s u := ⟨h.toKeeps.trans k.toKeeps, k.settles ∘ h.settles⟩

/-- A part of an event, from `s` to `r`, keeps every invariant, names the slots whose starts it makes possible, and carries out the grants. -/
structure Leads (s : State) (r : State × List Slot) : Prop extends Keeps s r.1 where
  opens : Opens s r.2 r.1
  grants : s.WaitersInFlight → s.NoEntryWaitsInVain → r.1.NoEntryWaitsInVain

theorem Leads.refl (s : State) : Leads s (s, []) := ⟨.refl s, .refl s, fun _ => id⟩

theorem Leads.after {r : State × List Slot} (h : Leads s (t, a)) (k : Leads t r) : Leads s (r.1, a ++ r.2) :=
  ⟨h.toKeeps.trans k.toKeeps, h.opens.trans k.opens, fun hw he => k.grants (h.waiters hw) (h.grants hw he)⟩

/-- What names no slot goes before anything. -/
theorem Leads.silently {r : State × List Slot} (h : Leads s (t, [])) (k : Leads t r) : Leads s r := h.after k

theorem Leads.mono (h : Leads s (t, a)) (hsub : a ⊆ b) : Leads s (t, b) := ⟨h.toKeeps, h.opens.mono hsub, h.grants⟩

theorem Turns.leads {r : State × List Slot} (h : Turns s r) (hk : Keeps s r.1) : Leads s r := ⟨hk, h.opens, fun _ => h.grants⟩

/-- The ports and the wait list as they were. -/
theorem Leads.of_keeps (hk : Keeps s t) (ho : Opens s a t) (hports : t.ports = s.ports) (hwait : t.waitList = s.waitList) : Leads s (t, a) :=
  ⟨hk, ho, fun _ => .of_same hports hwait⟩

/-- A change of one slot that leaves its queue as it is. -/
theorem Leads.modSlot {f : SlotState → SlotState} (hk : SlotKeeps (s.slot i) (f (s.slot i))) (hq : SameQueue (s.slot i) (f (s.slot i))) :
    Leads s (s.modSlot i f, []) :=
  (modSlot_turns hq).leads (.modSlot hk)

/-- The end of a step. -/
theorem Leads.endStep {e : Ending} (hk : Keeps s (endStep i e s)) : Leads s (endStep i e s, [i]) :=
  .of_keeps hk (endStep_opens s i e) (endStep_ports s i e) (endStep_waitList s i e)

/-- A walk behind what changed the ports or the wait list. -/
theorem Leads.walk (hk : Keeps s t) (ho : Opens s a t) : Leads s ((walk t).1, a ++ (walk t).2) :=
  ⟨hk.trans (walk_keeps t), ho.trans (walk_opens t), fun hw _ => walk_noEntryWaits (hk.waiters hw)⟩

/-- What makes no start possible closes by itself. -/
theorem Leads.closes (h : Leads s (t, [])) : Closes s t := by
  refine ⟨h.toKeeps, fun hs => ⟨h.waiters hs.waiters, fun j => by_contra fun hj => ?_, h.grants hs.waiters hs.entries⟩⟩
  rcases h.opens j (by simpa using hj) with hj | hj
  · exact nomatch hj
  · rw [hs.heads j] at hj
    exact nomatch hj

/-- The starts that were made possible are carried out. -/
theorem Leads.startAll {r : State × List Slot} (h : Leads s r) : Closes s (startAll r.2 r.1) := by
  refine ⟨h.toKeeps.trans (startAll_keeps _ _), fun hs =>
    startAll_settles (h.waiters hs.waiters) (h.grants hs.waiters hs.entries) fun j hj => (h.opens j hj).resolve_right fun hj => ?_⟩
  rw [hs.heads j] at hj
  exact nomatch hj

/-- What leaves the queues, the ports and the wait list as they are. -/
theorem Closes.of_keeps (hk : Keeps s t) (hq : ∀ j, SameQueue (s.slot j) (t.slot j)) (hports : t.ports = s.ports)
    (hwait : t.waitList = s.waitList) : Closes s t :=
  (Leads.of_keeps hk (fun j hj => .inr ((hq j).canStart ▸ hj)) hports hwait).closes

/-- What leaves the slots, the ports and the wait list as they are. -/
theorem Closes.of_slots (hk : Keeps s t) (slots : t.slots = s.slots) (hports : t.ports = s.ports) (hwait : t.waitList = s.waitList) :
    Closes s t :=
  .of_keeps hk (fun j => .of_engine (congrArg (fun v : Vector SlotState 24 => v[j].engine) slots)) hports hwait

/-- A change of one slot that leaves its queue as it is. -/
theorem Closes.modSlot {f : SlotState → SlotState} (hk : SlotKeeps (s.slot i) (f (s.slot i))) (hq : SameQueue (s.slot i) (f (s.slot i))) :
    Closes s (s.modSlot i f) := (Leads.modSlot hk hq).closes

theorem noticeChosen_sameQueue (x : SlotState) (k : SlotNotice) : SameQueue x (x.noticeChosen k) := by
  cases k with
  | stepDone =>
    obtain ⟨p, hp⟩ := settleStepDone_eq { x with engine.done := markOldest x.engine.done }
    unfold SlotState.noticeChosen
    rw [hp]
    exact ⟨rfl, rfl, markOldest_length _⟩
  | _ => exact .of_engine rfl

theorem uplink_closes (s : State) : Closes s (uplink s) := by
  have hkeep := uplink_keeps s
  rcases uplink_cases s with h | ⟨c, h, -⟩ | ⟨f, fs, h, -⟩ | ⟨n, h⟩ <;> rw [h] at hkeep ⊢
  · exact .refl s
  · exact .of_slots hkeep rfl rfl rfl
  · exact .of_slots hkeep rfl rfl rfl
  · cases n with
    | linkError => exact .of_slots hkeep rfl rfl rfl
    | ofSlot i k =>
      refine .of_keeps hkeep (fun j => ?_) rfl rfl
      change SameQueue (s.slot j) ((s.modSlot i fun x => x.noticeChosen k).slot j)
      rw [State.modSlot_slot]
      split
      · exact noticeChosen_sameQueue _ k
      · exact .refl _

/-- The close of an event. -/
theorem Leads.finish {r : State × List Slot} (h : Leads s r) : Closes s (finish r.2 r.1) := h.startAll.trans (uplink_closes _)

end Sys2Proof.Machine
end

