-- ==== Sys2Proof/Proofs/NestKeeps.lean ====
section
/-! PROOF. Every event of the nest side keeps every invariant, and leaves nothing waiting in vain. -/

namespace Sys2Proof.Machine

variable {s : State} {i : Slot} {x : SlotState}

/-! ### The parts of events -/

theorem setSlot_turns {y : SlotState} (h : SameQueue (s.slot i) y) : Turns s (s.setSlot i y, []) := modSlot_turns (f := fun _ => y) h

theorem setSlot_targetReached_turns {y : SlotState} (h : SameQueue (s.slot i) y) : Turns s (targetReached i (s.setSlot i y)) :=
  (setSlot_turns h).after (targetReached_turns _ i)

theorem Leads.setSlot {y : SlotState} (hk : SlotKeeps (s.slot i) y) (hq : SameQueue (s.slot i) y) : Leads s (s.setSlot i y, []) :=
  (setSlot_turns hq).leads (.setSlot hk)

theorem enterFault_leads (s : State) (i : Slot) (cause : FaultCause) : Leads s (enterFault i cause s) :=
  .walk (a := [i]) (cutEnd_keeps (d := .faulted) ⟨rfl, rfl, rfl, rfl, rfl, rfl, rfl, rfl, rfl, rfl, rfl⟩ _) (modSlot_endStep_opens s i _ _)

theorem withdrawStep_slot_ne {f : Flight} {j : Slot} (h : j ≠ i) : (withdrawStep i f s).slot j = s.slot j := by
  unfold withdrawStep
  split
  · exact State.modSlot_slot_ne _ _ _ _ h
  · exact State.modSlot_slot_ne _ _ _ _ h
  all_goals rfl

theorem withdrawStep_arbiter {f : Flight} (h : ∀ mask hold, f.step.kind ≠ .attach mask hold) :
    (withdrawStep i f s).ports = s.ports ∧ (withdrawStep i f s).waitList = s.waitList := by
  unfold withdrawStep
  split
  case h_3 hk => exact absurd hk (h _ _)
  all_goals exact ⟨rfl, rfl⟩

theorem endByHand_leads {f : Flight} (hf : (s.slot i).engine.flight = some f) (e : Ending) : Leads s (endByHand i f e s) := by
  have hopens : Opens s [i] (endStep i e (withdrawStep i f s)) :=
    .of_slot fun j hj => by rw [endStep_slot_ne _ _ _ _ hj, withdrawStep_slot_ne hj]
  have hend := withdrawEnd_keeps hf e
  unfold endByHand
  split
  · exact .walk hend hopens
  · next hkind =>
    obtain ⟨hports, hwait⟩ := withdrawStep_arbiter (s := s) (i := i) (f := f) fun mask hold hk => hkind mask hold hk
    exact .of_keeps hend hopens ((endStep_ports _ _ _).trans hports) ((endStep_waitList _ _ _).trans hwait)

/-! ### Samples -/

theorem endPark_keeps (hpark : (s.slot i).power.state = .parking) (forced : Bool) : Keeps s (endPark i forced s).1 := by
  have hrun : (s.slot i).power.state ≠ .run := by rw [hpark]; decide
  exact modSlot_targetReached_keeps (.of_engine rfl rfl le_rfl nofun id fun hl => lawful_of_off rfl ⟨rfl, rfl, rfl, rfl, rfl, rfl, rfl⟩
    rfl rfl rfl (hl.no_talk hrun)) nofun

theorem endPark_leads (hpark : (s.slot i).power.state = .parking) (forced : Bool) : Leads s (endPark i forced s) :=
  ((modSlot_turns (.of_engine rfl)).after (targetReached_turns _ i)).leads (endPark_keeps hpark forced)

/-- A change of the sampler alone. -/
theorem resample_keeps (x : SlotState) (m : Sampler) : SlotKeeps x { x with sampler := m } := .of_engine rfl rfl le_rfl id id id

theorem parkSample_eq (x : SlotState) (current : Nat) : ∃ m, x.parkSample current = { x with sampler := m } := by
  unfold SlotState.parkSample
  split
  · exact ⟨_, rfl⟩
  · exact ⟨x.sampler, rfl⟩

theorem takeSample_closes (s : State) (i : Slot) (c v : AdcCode) : Closes s (takeSample i c v s) := by
  have hsampled (m : Sampler) : Leads s (s.setSlot i { s.slot i with sampler := m }, []) := .setSlot (resample_keeps _ m) (.of_engine rfl)
  unfold takeSample
  dsimp only
  split
  · exact .refl s
  split
  · exact ((hsampled _).silently (enterFault_leads _ i _)).finish
  obtain ⟨m, hm⟩ := parkSample_eq ((s.slot i).takeSample c v) (calibrate c (s.slot i).sampler.gain (s.slot i).sampler.offset)
  rw [hm]
  split
  · next h =>
    refine ((hsampled m).silently (endPark_leads ?_ false)).finish
    rw [State.setSlot_slot_same]
    exact h.1
  · have hflight (k : Nat) := modFlight_slotKeeps (g := fun f => { f with window := f.window.map fun w => w.add k }) (fun _ => rfl)
      (fun _ => rfl) { (s.slot i).takeSample c v with sampler := m }
    have hqueue (k : Nat) : SameQueue (s.slot i) (SlotState.windowSample { (s.slot i).takeSample c v with sampler := m } k) :=
      ⟨by simp [SlotState.windowSample, SlotState.takeSample, Function.comp_def], rfl, rfl⟩
    exact (Leads.setSlot ((resample_keeps _ m).trans (hflight _)) (hqueue _)).closes

/-! ### The deadlines of steps -/

theorem wholeStep_codes {k : StepKind} (h : k.wholeStep = true) : k.code ≠ 2 ∧ k.code ≠ 5 := by
  cases k <;> simp_all [StepKind.wholeStep, StepKind.code]

theorem stepDeadline_closes (s : State) (i : Slot) :
    Closes s (if s.stepDeadlineDue i then finish [i] (endStep i .timeout s) else s) := by
  split
  · next h =>
    unfold State.stepDeadlineDue at h
    split at h
    · next f hf =>
      obtain ⟨hpower, hattach⟩ := wholeStep_codes (Bool.and_eq_true_iff.mp h).1
      exact (Leads.endStep (endStep_keeps_of_kind .timeout hf hpower hattach)).finish
    · exact nomatch h
  · exact .refl s

theorem measureEnd_closes (s : State) (i : Slot) :
    Closes s (if s.measureEndDue i then finish [i] (endStep i .normal s) else s) := by
  split
  · next h =>
    unfold State.measureEndDue at h
    split at h
    · next f hf =>
      split at h
      · next hk =>
        exact (Leads.endStep (endStep_keeps_of_kind .normal hf (by simp [hk, StepKind.code]) (by simp [hk, StepKind.code]))).finish
      · exact nomatch h
    · exact nomatch h
  · exact .refl s

theorem pressEndDue_flight {keys : KeyMask} (h : s.pressEndDue i = some keys) :
    ∃ f duration, (s.slot i).engine.flight = some f ∧ f.step.kind = .press keys duration := by
  unfold State.pressEndDue at h
  split at h
  · next f hf =>
    split at h
    · next k duration hk =>
      split at h
      · exact ⟨f, duration, hf, (Option.some.inj h) ▸ hk⟩
      · exact nomatch h
    · exact nomatch h
  · exact nomatch h

theorem pressEnd_closes (s : State) (i : Slot) :
    Closes s (match s.pressEndDue i with
      | some keys => finish [i] (endStep i .normal (s.modSlot i fun x => { x with power.keys := x.power.keys &&& ~~~keys }))
      | none => s) := by
  split
  · next keys h =>
    obtain ⟨f, duration, hf, hk⟩ := pressEndDue_flight h
    have hrelease : Leads s (s.modSlot i fun x => { x with power.keys := x.power.keys &&& ~~~keys }, []) :=
      .modSlot (release_keeps _ _) (.of_engine rfl)
    refine (hrelease.silently (.endStep (endStep_keeps_of_kind (f := f) .normal ?_ ?_ ?_))).finish
    · rw [State.modSlot_slot_same]; exact hf
    · simp [hk, StepKind.code]
    · simp [hk, StepKind.code]
  · exact .refl s

/-! ### The deadlines of the power controller -/

theorem settlePassed_keeps (hstate : (s.slot i).power.state = .standby) : Keeps s (settlePassed i s).1 := by
  have hs : (s.slot i).power.state.railOn = true ∧ (s.slot i).power.state ≠ .run ∧ (s.slot i).power.state ≠ .parking := by
    rw [hstate]; decide
  have hmove {q : Power} (hto : q.state.railOn = true) (hpark : q.state ≠ .parking) (hphase : q.phase ≠ .leaving) :
      Keeps s (s.setSlot i { s.slot i with power := q }) := .setSlot (.of_power_silent hs.1 hs.2.1 hs.2.2 hto hpark hphase)
  have hon : PowerState.standby.railOn = true ∧ PowerState.standby ≠ .parking := by decide
  unfold settlePassed
  dsimp only
  split
  · refine (hmove (by exact hstate ▸ hon.1) (by exact hstate ▸ hon.2) (by nofun)).trans (targetReached_keeps ?_)
    rw [State.setSlot_slot_same]; exact nofun
  · refine (hmove (by rfl) (by nofun) (by nofun)).trans (targetReached_keeps ?_)
    rw [State.setSlot_slot_same]; exact nofun
  · exact hmove (by rfl) (by nofun) (by nofun)
  all_goals exact hmove (by exact hstate ▸ hon.1) (by exact hstate ▸ hon.2) (by nofun)

theorem settlePassed_leads (hstate : (s.slot i).power.state = .standby) : Leads s (settlePassed i s) := by
  refine Turns.leads ?_ (settlePassed_keeps hstate)
  unfold settlePassed
  dsimp only
  split
  · exact setSlot_targetReached_turns (.of_engine rfl)
  · exact setSlot_targetReached_turns (.of_engine rfl)
  all_goals exact setSlot_turns (.of_engine rfl)

theorem settleCheck_closes (hstate : (s.slot i).power.state = .standby) : Closes s (settleCheck i s) := by
  unfold settleCheck
  dsimp only
  refine Leads.finish ?_
  have hfree : Leads s ({ s with freeCount := s.freeCount + 1 }, []) :=
    .of_keeps (.of_rest rfl rfl rfl rfl rfl) (fun _ => .inr) rfl rfl
  cases (s.slot i).sampler.lastSample with
  | some m =>
    dsimp only
    split
    · exact enterFault_leads _ i _
    · exact settlePassed_leads hstate
  | none =>
    dsimp only
    split
    · exact hfree.silently (enterFault_leads _ i _)
    · exact hfree.silently (settlePassed_leads hstate)

theorem settleEnd_closes (s : State) (i : Slot) : Closes s (if s.settleDue i then settleCheck i s else s) := by
  split
  · next h =>
    unfold State.settleDue at h
    exact settleCheck_closes (of_decide_eq_true (Bool.and_eq_true_iff.mp h).1).1
  · exact .refl s

/-- A move of the controller from STARTING. -/
theorem starting_keeps {q : Power} (hstate : x.power.state = .starting) (hto : q.state.railOn = true) (hpark : q.state ≠ .parking)
    (hphase : q.phase ≠ .leaving) : SlotKeeps x { x with power := q } := by
  have hs : x.power.state.railOn = true ∧ x.power.state ≠ .run ∧ x.power.state ≠ .parking := by rw [hstate]; decide
  exact .of_power_silent hs.1 hs.2.1 hs.2.2 hto hpark hphase

theorem pressRelease_closes (s : State) (i : Slot) :
    Closes s (if s.pressReleaseDue i then s.modSlot i fun x => x.releasePress s.time ((x.powerStep.map Prod.snd).getD 0) else s) := by
  split
  · next h =>
    unfold State.pressReleaseDue at h
    have hstate := (of_decide_eq_true (Bool.and_eq_true_iff.mp h).1).1
    have hon : PowerState.starting.railOn = true ∧ PowerState.starting ≠ .parking := by decide
    exact .modSlot (starting_keeps hstate (hstate ▸ hon.1) (hstate ▸ hon.2) nofun) (.of_engine rfl)
  · exact .refl s

theorem bootExpired_keeps (hstate : x.power.state = .starting) : SlotKeeps x x.bootExpired :=
  starting_keeps hstate rfl nofun nofun

theorem bootWaitExpiry_closes (s : State) (i : Slot) :
    Closes s (if s.bootWaitDue i then
      let s1 := s.modSlot i SlotState.bootExpired
      if (s.slot i).powerStep.isSome then finish [i] (endStep i .timeout s1) else s1
    else s) := by
  split
  · next h =>
    unfold State.bootWaitDue at h
    have hstate := (of_decide_eq_true (Bool.and_eq_true_iff.mp h).1).1
    have hmove : Leads s (s.modSlot i SlotState.bootExpired, []) := .modSlot (bootExpired_keeps hstate) (.of_engine rfl)
    dsimp only
    split
    · next hpower =>
      obtain ⟨f, target, keys, hf, hk⟩ := SlotState.powerStep_isSome hpower
      refine (hmove.silently (.endStep (endStep_keeps _ (fun _ _ _ _ _ => ?_) fun g hg hc => ?_))).finish
      · rw [State.modSlot_slot_same]; exact nofun
      · rw [State.modSlot_slot_same] at hg
        rw [← Option.some.inj (hf.symm.trans hg), hk] at hc
        exact nomatch hc
    · exact hmove.closes
  · exact .refl s

theorem parkHoldExpiry_closes (s : State) (i : Slot) :
    Closes s (if s.parkHoldDue i then
      let r := endPark i true s
      finish r.2 r.1
    else s) := by
  split
  · next h =>
    unfold State.parkHoldDue at h
    exact (endPark_leads (of_decide_eq_true (Bool.and_eq_true_iff.mp h).1) true).finish
  · exact .refl s

/-! ### The arbiter -/

theorem State.waitEntry_some {e : WaitEntry} (h : s.waitEntry i = some e) : e ∈ s.waitList ∧ e.slot = i :=
  ⟨List.mem_of_find?_eq_some h, by simpa using List.find?_some h⟩

theorem expireEntry_keeps {e : WaitEntry} (h : s.waitEntry i = some e) : Keeps s (endStep i .timeout (s.removeEntry i)) := by
  obtain ⟨hmem, rfl⟩ := State.waitEntry_some h
  have hremove := removeEntry_keeps s e.slot
  have hend (hw : s.WaitersInFlight) := endStep_keeps_of_entry (t := s.removeEntry e.slot) .timeout hmem rfl (fun _ => not_mem_removeEntry) hw
  exact ⟨hremove.toKeepsBounds.trans (endStep_bounds _ _ _), fun hw => (hend hw).waiters (hremove.waiters hw),
    fun hw hl => (hend hw).lawful (hremove.waiters hw) (hremove.lawful hw hl)⟩

theorem waitDeadline_closes (s : State) (i : Slot) :
    Closes s (if s.waitDue i then
      let r := walk (endStep i .timeout (s.removeEntry i))
      finish (i :: r.2) r.1
    else s) := by
  split
  · next h =>
    unfold State.waitDue at h
    split at h
    · next e he => exact (Leads.walk (expireEntry_keeps he) (endStep_opens (s.removeEntry i) i _)).finish
    · exact nomatch h
  · exact .refl s

theorem holdExpiry_closes (s : State) (p : Port) :
    Closes s (match s.holdDue p with
      | some i =>
        let bit : PortMask := 1#4 <<< p.val
        let s1 := ({ s with ports := putPorts bit none s.ports }).modSlot i fun x =>
          { x with expired := x.expired ||| bit, notices := x.notices.put .expiry true }
        let r := walk s1
        finish r.2 r.1
      | none => s) := by
  split
  · next i _ =>
    dsimp only
    refine (Leads.walk (a := []) ((Keeps.of_ports s _).trans (.modSlot (relist_keeps _ le_rfl _ _ _))) ?_).finish
    exact Opens.modSlot (s := { s with ports := _ }) (.of_engine rfl)
  · exact .refl s

theorem grantDue_entry {e : WaitEntry} (h : s.grantDue i = some e) : s.waitEntry i = some e := by
  unfold State.grantDue at h
  split at h
  · next e' he =>
    split at h
    · exact h ▸ he
    · exact nomatch h
  · exact nomatch h

theorem grant_closes (s : State) (i : Slot) :
    Closes s (match s.grantDue i with
      | some e => finish [i] (grantEntry e s)
      | none => s) := by
  split
  · next e h =>
    have hkeep := (grantEntry_keeps (State.waitEntry_some (grantDue_entry h)).1).trans (finish_keeps [i] _)
    refine ⟨hkeep, fun hs => ?_⟩
    rw [hs.entries i] at h
    exact nomatch h
  · exact .refl s

/-! ### The transmitter -/

theorem nextItem_keeps (x : SlotState) : SlotKeeps x { x with line := x.line.nextItem } := by
  refine .of_engine rfl rfl le_rfl id id fun hl => ?_
  obtain ⟨quiet, sends, parks, waits, talks, leaves⟩ := hl
  refine ⟨fun hoff => ?_, fun hnext => sends (waits hnext), fun hpark => ⟨rfl, fun item hitem => ?_⟩, fun h => absurd rfl h, talks, leaves⟩
  · obtain ⟨hq, -, hwaiting, hasm⟩ := quiet hoff
    exact ⟨hq, hwaiting, rfl, hasm⟩
  · rw [show x.line.txWaiting = some item from hitem] at parks
    exact nomatch (parks hpark).1

theorem leaveIfIdle_keeps (s : State) (i : Slot) : Keeps s (leaveIfIdle i s).1 := by
  unfold leaveIfIdle
  dsimp only
  split
  · next h =>
    obtain ⟨htx, hrun, hphase⟩ := h
    split
    · refine takeMove_keeps _ (by rw [hrun]; rfl) (fun hl f hf hc => ?_) fun hl => ?_
      · obtain ⟨-, -, -, -, -, leaves⟩ := hl
        obtain ⟨-, g, hg, hcode, -⟩ := leaves hphase
        rw [hf] at hg
        rw [Option.some.inj hg, hcode] at hc
        exact absurd hc (by decide)
      · obtain ⟨-, -, -, waits, -, -⟩ := hl
        exact ⟨htx, by_contra fun hw => waits hw htx⟩
    · exact .refl s
  · exact .refl s

theorem leaveIfIdle_leads (s : State) (i : Slot) : Leads s (leaveIfIdle i s) := by
  refine Turns.leads ?_ (leaveIfIdle_keeps s i)
  unfold leaveIfIdle
  dsimp only
  split
  · split
    · exact takeMove_turns _ s i
    · exact ⟨.refl s, id, (Nat.zero_add _).le⟩
  · exact ⟨.refl s, id, (Nat.zero_add _).le⟩

/-- A PUSH in the ABORTING phase ends. -/
theorem endAborting_keeps (h : ((s.slot i).engine.flight.map Flight.aborting).getD false = true) : Keeps s (endStep i .aborted s) := by
  cases hf : (s.slot i).engine.flight with
  | none => rw [hf] at h; exact nomatch h
  | some f =>
    rw [hf] at h
    have hpush : f.push ≠ none := fun hn => by
      change f.aborting = true at h
      unfold Flight.aborting at h
      rw [hn] at h
      exact nomatch h
    exact endStep_keeps _ (fun g hg _ hn => by rw [hf] at hg; exact absurd hn (Option.some.inj hg ▸ hpush))
      fun g hg _ hn => by rw [hf] at hg; exact absurd hn (Option.some.inj hg ▸ hpush)

theorem itemSent_leads (s : State) (i : Slot) (t : TxItem) : Leads s (itemSent i t s) := by
  unfold itemSent
  dsimp only
  have hrest (u : State) : Leads u (leaveIfIdle i (u.modSlot i fun x => { x with line := x.line.nextItem })) :=
    (Leads.modSlot (nextItem_keeps _) (.of_engine rfl)).silently (leaveIfIdle_leads _ i)
  split
  · next h => exact (Leads.endStep (endAborting_keeps (Bool.and_eq_true_iff.mp h).2)).after (hrest _)
  · exact hrest s

theorem execItemSent_closes (s : State) (i : Slot) :
    Closes s (match (s.slot i).line.tx with
      | some t =>
        let r := itemSent i t s
        finish r.2 r.1
      | none => s) := by
  split
  · exact (itemSent_leads s i _).finish
  · exact .refl s

theorem transmitWaitingItem_closes (s : State) (i : Slot) :
    Closes s (match (s.slot i).line.txWaiting, (s.slot i).line.tx with
      | none, _ => s
      | some _, some t =>
        let r := itemSent i t s
        finish r.2 r.1
      | some _, none => s.modSlot i fun x => { x with line := x.line.nextItem }) := by
  split
  · exact .refl s
  · exact (itemSent_leads s i _).finish
  · exact .modSlot (nextItem_keeps _) (.of_engine rfl)

theorem abortingComplete_closes (s : State) (i : Slot) :
    Closes s (if ((s.slot i).engine.flight.map Flight.aborting).getD false then
      match (s.slot i).line.tx with
      | some t =>
        let r := itemSent i t s
        finish r.2 r.1
      | none => finish [i] (endStep i .aborted s)
    else s) := by
  split
  · next h =>
    split
    · exact (itemSent_leads s i _).finish
    · exact (Leads.endStep (endAborting_keeps h)).finish
  · exact .refl s

theorem leaveRun_closes (s : State) (i : Slot) :
    Closes s (
      let x := s.slot i
      if x.power.state = .run ∧ x.power.phase = .leaving ∧ x.line.txWaiting = none then
        match x.line.tx with
        | some t =>
          let r := itemSent i t s
          finish r.2 r.1
        | none =>
          let r := leaveIfIdle i s
          finish r.2 r.1
      else s) := by
  dsimp only
  split
  · split
    · exact (itemSent_leads s i _).finish
    · exact (leaveIfIdle_leads s i).finish
  · exact .refl s

/-! ### The lid -/

theorem lidCut_slot_ne {j : Slot} (h : j ≠ i) : (lidCut i s).slot j = s.slot j := by
  unfold lidCut
  dsimp only
  split
  · change (endStep i _ (s.modSlot i _)).slot j = _
    rw [endStep_slot_ne _ _ _ _ h, State.modSlot_slot_ne _ _ _ _ h]
  · split
    · rw [State.modSlot_slot_ne _ _ _ _ h]
    · rfl

theorem lidCut_railOff (s : State) (i : Slot) : ((lidCut i s).slot i).power.state.railOn = false := by
  unfold lidCut
  dsimp only
  split
  · change ((endStep i _ (s.modSlot i _)).slot i).power.state.railOn = false
    rw [endStep_power, State.modSlot_slot_same]
    rfl
  · next h =>
    split
    · rw [State.modSlot_slot_same]; simpa using h
    · simpa using h

theorem lidCut_rail_mono {j : Slot} (h : (s.slot j).power.state.railOn = false) : ((lidCut i s).slot j).power.state.railOn = false := by
  by_cases hj : j = i
  · exact hj ▸ lidCut_railOff s i
  · rw [lidCut_slot_ne hj]; exact h

theorem foldl_lidCut (l : List Slot) : ∀ s : State, Keeps s (l.foldl (fun u i => lidCut i u) s) ∧
    (∀ j, (s.slot j).power.state.railOn = false → ((l.foldl (fun u i => lidCut i u) s).slot j).power.state.railOn = false) ∧
    ∀ j ∈ l, ((l.foldl (fun u i => lidCut i u) s).slot j).power.state.railOn = false := by
  induction l with
  | nil => exact fun s => ⟨.refl s, fun _ => id, fun _ h => nomatch h⟩
  | cons i l ih =>
    intro s
    obtain ⟨hkeep, hmono, hall⟩ := ih (lidCut i s)
    refine ⟨(lidCut_keeps s i).trans hkeep, fun j hj => hmono j (lidCut_rail_mono hj), fun j hj => ?_⟩
    rcases List.mem_cons.mp hj with rfl | hj
    · exact hmono j (lidCut_railOff s j)
    · exact hall j hj

/-- What the lid opening does to a slot whose rail is off leaves its queue as it is. -/
theorem lidCut_opens (s : State) (i : Slot) : Opens s (if (s.slot i).power.state.railOn then [i] else []) (lidCut i s) := by
  unfold lidCut
  dsimp only
  split
  · exact modSlot_endStep_opens s i _ _
  · split
    · exact .modSlot (.of_engine rfl)
    · exact .refl s

theorem foldl_lidCut_opens (l : List Slot) (hnd : l.Nodup) : ∀ s : State,
    Opens s (l.filter fun i => (s.slot i).power.state.railOn) (l.foldl (fun u i => lidCut i u) s) := by
  induction l with
  | nil => exact fun s => .refl s
  | cons i l ih =>
    intro s
    rw [List.nodup_cons] at hnd
    have hsame : (l.filter fun j => ((lidCut i s).slot j).power.state.railOn) = l.filter fun j => (s.slot j).power.state.railOn :=
      List.filter_congr fun j hj => by rw [lidCut_slot_ne fun h : j = i => hnd.1 (h ▸ hj)]
    have hrest := (lidCut_opens s i).trans (hsame ▸ ih hnd.2 (lidCut i s))
    rw [List.filter_cons]
    split at hrest
    · next hrail => rw [if_pos hrail]; exact hrest
    · next hrail => rw [if_neg hrail]; exact hrest

theorem endStep_cell (s : State) (i : Slot) (e : Ending) (lid : Lid) (link : Link) :
    endStep i e { s with lid := lid, link := link } = { endStep i e s with lid := lid, link := link } := by
  cases hf : (s.slot i).engine.flight with
  | none => rw [endStep_none s i e hf]; exact endStep_none _ i e hf
  | some f => rw [endStep_some s i e hf]; exact endStep_some _ i e hf

theorem modSlot_cell (s : State) (i : Slot) (f : SlotState → SlotState) (lid : Lid) (link : Link) :
    State.modSlot { s with lid := lid, link := link } i f = { s.modSlot i f with lid := lid, link := link } := rfl

/-- What the lid opening does to a slot has nothing to do with the lid and the link. -/
theorem lidCut_cell (s : State) (i : Slot) (lid : Lid) (link : Link) :
    lidCut i { s with lid := lid, link := link } = { lidCut i s with lid := lid, link := link } := by
  unfold lidCut
  dsimp only [State.slot_mk]
  split
  · rw [modSlot_cell, endStep_cell]; rfl
  · split <;> rfl

theorem foldl_lidCut_cell (l : List Slot) (lid : Lid) (link : Link) : ∀ s : State,
    l.foldl (fun u i => lidCut i u) { s with lid := lid, link := link } =
      { l.foldl (fun u i => lidCut i u) s with lid := lid, link := link } := by
  induction l with
  | nil => exact fun _ => rfl
  | cons i l ih => exact fun s => (congrArg (l.foldl fun u i => lidCut i u) (lidCut_cell s i lid link)).trans (ih _)

theorem foldl_lidCut_sameCell (l : List Slot) : ∀ s : State, SameCell s (l.foldl (fun u i => lidCut i u) s) := by
  induction l with
  | nil => exact fun s => .refl s
  | cons i l ih =>
    intro s
    refine SameCell.trans ?_ (ih (lidCut i s))
    unfold lidCut
    dsimp only
    split
    · exact (arbiterDrop_sameCell _ i).after ((endStep_sameCell _ i _).after (modSlot_sameCell s i _))
    · split
      · exact modSlot_sameCell s i _
      · exact .refl s

theorem Opens.with_cell {t : State} {a : List Slot} (h : Opens s a t) (lid : Lid) (link : Link) :
    Opens s a { t with lid := lid, link := link } := h

/-- The lid becomes OPEN over a cell with every rail off. -/
theorem openedLid_keeps {lid : Lid} {link : Link} (hoff : ∀ j, (s.slot j).power.state.railOn = false)
    (hreplies : link.replies = s.link.replies) (hinbound : link.inbound = s.link.inbound) :
    Keeps s { s with lid := lid, link := link } := by
  refine .of_cell rfl rfl rfl (fun _ => .inr hoff) ?_ ?_
  · unfold State.RepliesBounded; rw [hreplies]; exact id
  · unfold State.InboundBounded Link.inboundUsed; rw [hinbound]; exact id

theorem openLid_closes (s : State) : Closes s (openLid s) := by
  obtain ⟨hkeep, -, hall⟩ := foldl_lidCut allSlots s
  have hlink := (foldl_lidCut_sameCell allSlots s).link
  have hopen := openedLid_keeps (lid := { s.lid with state := .opened, deadline := none }) (link := { s.link with linkError := true })
    (fun j => hall j (mem_allSlots j)) (by rw [hlink]) (by rw [hlink])
  have hstarts := (foldl_lidCut_opens allSlots allSlots_nodup s).with_cell { s.lid with state := .opened, deadline := none }
    { s.link with linkError := true }
  rw [← foldl_lidCut_cell] at hopen hstarts
  have hcut := Leads.walk (hkeep.trans hopen) hstarts
  unfold openLid State.markLinkError
  dsimp only at hcut ⊢
  generalize allSlots.foldl (fun u i => lidCut i u) _ = u at hcut ⊢
  exact hcut.finish

theorem lidInputOpens_closes (s : State) :
    Closes s (if s.lid.input then s
      else { s with lid := { s.lid with
        input := true
        deadline := if s.lid.state = .closed then some (Time.after s.time Config.lidTime) else none } }) := by
  split
  · exact .refl s
  · exact .of_slots (.of_cell rfl rfl rfl .inl id id) rfl rfl rfl

theorem lidInputCloses_closes (s : State) :
    Closes s (if s.lid.state = .opened then uplink (({ s with lid := ⟨.closed, false, none⟩ }).markLinkError)
      else { s with lid := ⟨.closed, false, none⟩ }) := by
  split
  · have hkeep : Keeps s ({ s with lid := ⟨.closed, false, none⟩ } : State).markLinkError :=
      .of_cell (by rfl) (by rfl) (by rfl) (by nofun) (by exact id) (by exact id)
    exact (Closes.of_slots hkeep (by rfl) (by rfl) (by rfl)).trans (uplink_closes _)
  · exact .of_slots (.of_cell rfl rfl rfl (by nofun) id id) rfl rfl rfl

/-! ### Received lines -/

theorem offer_ring (x : SlotState) (r : CaptureRecord) : ringUsed x.capture.ring ≤ 4096 → ringUsed (x.offer r).capture.ring ≤ 4096 := by
  unfold SlotState.offer
  split
  · next h =>
    intro _
    simpa [ringUsed, CaptureRecord.cost, Config.ringBytes] using h
  · exact id

/-- An offered line changes the ring and the notices alone. -/
theorem offer_rest (x : SlotState) (r : CaptureRecord) : ∃ c p, x.offer r = { x with capture := c, notices := p } := by
  unfold SlotState.offer
  split
  · exact ⟨_, _, rfl⟩
  · exact ⟨_, _, rfl⟩

theorem captureUpdate_keeps (x : SlotState) (now : Time) (kind : CaptureKind) (l : Line) : SlotKeeps x (x.captureUpdate now kind l) := by
  have hoffer (y : SlotState) (r : CaptureRecord) : SlotKeeps y (y.offer r) := by
    obtain ⟨c, p, hcp⟩ := offer_rest y r
    have hring := offer_ring y r
    rw [hcp] at hring ⊢
    exact .of_engine rfl rfl le_rfl id hring id
  have hseen (y : SlotState) (b : Bool) (ts : Vector Trigger 4) (p : Pending) {z : SlotState}
      (h : SlotKeeps { y with power.lineSinceRelease := b, capture.triggers := ts, notices := p } z) : SlotKeeps y z :=
    ⟨⟨⟨h.queue, h.list, h.ring⟩, h.rail⟩, h.lawful, h.pushes, h.waiter⟩
  unfold SlotState.captureUpdate
  dsimp only
  cases kind with
  | stale => exact hseen x _ x.capture.triggers x.notices (hoffer _ _)
  | log =>
    dsimp only
    split
    · exact hseen x _ _ _ (hoffer _ _)
    · exact hseen x _ _ _ (.of_engine rfl rfl le_rfl id id id)

theorem captureUpdate_power (x : SlotState) (now : Time) (kind : CaptureKind) (l : Line) :
    (x.captureUpdate now kind l).power = { x.power with lineSinceRelease := x.power.lineSinceRelease || x.bootWaiting } ∧
      (x.captureUpdate now kind l).engine = x.engine := by
  have hoffer (y : SlotState) (r : CaptureRecord) : (y.offer r).power = y.power ∧ (y.offer r).engine = y.engine := by
    obtain ⟨c, p, hcp⟩ := offer_rest y r
    rw [hcp]
    exact ⟨rfl, rfl⟩
  unfold SlotState.captureUpdate
  dsimp only
  cases kind with
  | stale => exact hoffer _ _
  | log =>
    dsimp only
    split
    · exact hoffer _ _
    · exact ⟨rfl, rfl⟩

theorem awaitHit_flight {content : List Byte} (h : x.awaitHit content = true) :
    ∃ f k, x.engine.flight = some f ∧ f.step.kind = .await k := by
  unfold SlotState.awaitHit at h
  split at h
  · next f hf =>
    split at h
    · next k hk => exact ⟨f, k, hf, hk⟩
    · exact nomatch h
  · exact nomatch h

theorem lineActions_keeps {kind : CaptureKind} {content : List Byte} (hflight : (s.slot i).engine.flight = x.engine.flight)
    (hstate : (s.slot i).power.state = x.power.state) : Keeps s (lineActions i x kind content s).1 := by
  unfold lineActions
  dsimp only
  split
  · next hbanner =>
    have hstart : (s.slot i).power.state = .starting := by
      unfold SlotState.isBanner SlotState.bootWaiting at hbanner
      rw [hstate]
      exact (of_decide_eq_true (Bool.and_eq_true_iff.mp hbanner).1).1
    have hboot : Keeps s (s.modSlot i SlotState.boot) := .modSlot (starting_keeps hstart rfl nofun nofun)
    split
    · next hpower =>
      obtain ⟨f, target, keys, hf, hk⟩ := SlotState.powerStep_isSome hpower
      refine hboot.trans (endStep_keeps _ (fun _ _ _ _ _ => ?_) fun g hg hc => ?_)
      · rw [State.modSlot_slot_same]; exact nofun
      · rw [State.modSlot_slot_same] at hg
        rw [← Option.some.inj ((hflight.trans hf).symm.trans hg), hk] at hc
        exact nomatch hc
    · exact hboot
  split
  · next hawait =>
    obtain ⟨f, k, hf, hk⟩ := awaitHit_flight (Bool.and_eq_true_iff.mp hawait).2
    exact endStep_keeps_of_kind .normal (hflight.trans hf) (by simp [hk, StepKind.code]) (by simp [hk, StepKind.code])
  split
  · split
    · next f hf =>
      split
      · exact .refl s
      · exact endByHand_keeps (hflight.trans hf) .trigger
    · exact .refl s
  · exact .refl s

theorem lineActions_leads {kind : CaptureKind} {content : List Byte} (hflight : (s.slot i).engine.flight = x.engine.flight)
    (hstate : (s.slot i).power.state = x.power.state) : Leads s (lineActions i x kind content s) := by
  have hkeep := lineActions_keeps (kind := kind) (content := content) hflight hstate
  unfold lineActions at hkeep ⊢
  dsimp only at hkeep ⊢
  split at hkeep
  · next hbanner =>
    rw [if_pos hbanner]
    split at hkeep
    · next hpower =>
      rw [if_pos hpower]
      exact .of_keeps hkeep (modSlot_endStep_opens s i _ _) (endStep_ports _ _ _) (endStep_waitList _ _ _)
    · next hpower =>
      rw [if_neg hpower]
      exact (modSlot_turns (.of_engine rfl)).leads hkeep
  next hbanner =>
  rw [if_neg hbanner]
  split at hkeep
  · next hawait =>
    rw [if_pos hawait]
    exact .endStep hkeep
  next hawait =>
  rw [if_neg hawait]
  split
  · split
    · next f hf =>
      split
      · exact .refl s
      · exact endByHand_leads (hflight.trans hf) .trigger
    · exact .refl s
  · exact .refl s

theorem captureLine_leads (s : State) (i : Slot) (kind : CaptureKind) (l : Line) : Leads s (captureLine i kind l s) := by
  obtain ⟨hpower, hengine⟩ := captureUpdate_power (s.slot i) s.time kind l
  refine (Leads.modSlot (captureUpdate_keeps _ _ _ _) (.of_engine hengine)).silently (lineActions_leads ?_ ?_)
  · rw [State.modSlot_slot_same, hengine]
  · rw [State.modSlot_slot_same, hpower]

/-- A PUSH in flight with a new progress. -/
theorem repush_keeps {f : Flight} {p : PushProgress} (hf : x.engine.flight = some f) (hp : f.push = some p) {g : Flight}
    (hstep : g.step = f.step) : SlotKeeps x { x with engine.flight := some g } where
  rail := id
  queue := by simp [Engine.queueCount, Engine.queue, hf]
  list := by simp [Engine.reservation, hf]
  ring := id
  lawful := fun hl => by
    obtain ⟨quiet, sends, parks, waits, talks, leaves⟩ := hl
    refine ⟨quiet, sends, parks, waits, fun f' hf' hc => talks f hf ?_, fun hphase => ?_⟩
    · rw [← Option.some.inj hf', hstep] at hc
      exact hc
    · obtain ⟨-, f', hf', -, hn⟩ := leaves hphase
      rw [hf] at hf'
      rw [← Option.some.inj hf', hp] at hn
      exact nomatch hn
  pushes := fun o => by simp [SlotState.pushesOf, Engine.queue, hf, hstep]
  waiter := fun f' hf' hn => by
    rw [hf] at hf'
    rw [← Option.some.inj hf', hp] at hn
    exact nomatch hn

/-- In RUN an item handed over keeps the law of the line. -/
theorem handOver_keeps (hrun : x.Lawful → x.power.state = .run) (item : TxItem) : SlotKeeps x { x with line := x.line.handOver item } := by
  refine .of_engine rfl rfl le_rfl id id fun hl => lawful_of_run (hrun hl) (fun _ => handOver_txWaiting) fun hphase => ?_
  obtain ⟨-, -, -, -, -, leaves⟩ := hl
  exact (leaves hphase).2

theorem pushAck_keeps (s : State) (i : Slot) (status : Byte) : Keeps s (pushAck i status s).1 := by
  unfold pushAck
  split
  · exact .refl s
  next f hf =>
  split
  · next o p hk hp =>
    have hcode : f.step.kind.code = 1 := by simp [hk, StepKind.code]
    split
    · exact endStep_keeps_of_kind _ hf (by omega) (by omega)
    split
    · have hmod : Keeps s (s.modFlight i fun g => { g with push := some { p with acked := p.current + 1 } }) := by
        refine .modSlot ?_
        rw [hf]
        exact repush_keeps hf hp rfl
      refine hmod.trans (endStep_keeps_of_kind (f := { f with push := some { p with acked := p.current + 1 } }) .normal ?_ ?_ ?_)
      · rw [State.modFlight, State.modSlot_slot_same, hf]; rfl
      · exact fun h => by rw [hcode] at h; exact nomatch h
      · exact fun h => by rw [hcode] at h; exact nomatch h
    · dsimp only
      have hfirst := repush_keeps (x := s.slot i) hf hp
        (g := { f with push := some { p with current := p.current + 1, acked := p.current + 1 } }) rfl
      have hboth := (Keeps.setSlot hfirst).trans (.setSlot (i := i) (by
        rw [State.setSlot_slot_same]
        refine handOver_keeps (fun hl => ?_) (blockItem (s.store.object o) (f.tag.getD 0#8) p.blockSize (p.current + 1))
        obtain ⟨-, -, -, -, talks, -⟩ := hl
        exact talks _ rfl hcode.le))
      rw [State.setSlot_setSlot] at hboth
      exact hboth
  · exact .refl s

theorem pushAck_leads (s : State) (i : Slot) (status : Byte) : Leads s (pushAck i status s) := by
  have hkeep := pushAck_keeps s i status
  unfold pushAck at hkeep ⊢
  split
  · exact .refl s
  next f hf =>
  rw [hf] at hkeep
  dsimp only at hkeep
  split
  · next o p hk hp =>
    rw [hk, hp] at hkeep
    dsimp only at hkeep
    split
    · next h => rw [if_pos h] at hkeep; exact .endStep hkeep
    next h =>
    rw [if_neg h] at hkeep
    split
    · next hlast =>
      rw [if_pos hlast] at hkeep
      exact .of_keeps hkeep (modSlot_endStep_opens s i _ _) (endStep_ports _ _ _) (endStep_waitList _ _ _)
    · next hlast =>
      rw [if_neg hlast] at hkeep
      exact (modSlot_turns ⟨by rw [hf]; rfl, rfl, rfl⟩).leads hkeep
  · exact .refl s

theorem classify_matched {flight : Option Flight} {line : PhoneLine} {l : Line} {status : Byte} {payload : List Byte}
    (h : classify flight line l = .matched status payload) :
    ∃ f code argument, flight = some f ∧ f.step.kind = .exchange code argument := by
  unfold classify at h
  split at h
  · exact nomatch h
  split at h
  · exact nomatch h
  next f =>
  split at h
  · exact nomatch h
  split at h
  · next hk => exact ⟨f, _, _, rfl, hk⟩
  · split at h <;> exact nomatch h
  · exact nomatch h

theorem deliver_leads (s : State) (i : Slot) (l : Line) : Leads s (deliver i l s) := by
  unfold deliver
  split
  · next h =>
    obtain ⟨f, code, argument, hf, hk⟩ := classify_matched h
    exact .endStep (endStep_keeps_of_kind _ hf (by simp [hk, StepKind.code]) (by simp [hk, StepKind.code]))
  · exact pushAck_leads s i _
  · exact captureLine_leads s i _ l
  · exact captureLine_leads s i _ l

/-! ### Received bytes -/

/-- With the rail on the assembler stands in no invariant. -/
theorem reassemble_keeps (hrail : x.power.state.railOn = true) (a : Assembler) : SlotKeeps x { x with line.assembler := a } :=
  .of_engine rfl rfl le_rfl id id fun hl =>
    ⟨fun hoff => (by rw [show x.power.state.railOn = false from hoff] at hrail; exact nomatch hrail), hl.2⟩

theorem assemble_closes (hrail : (s.slot i).power.state.railOn = true) (b : Byte) (framingError : Bool) :
    Closes s (assemble i b framingError s) := by
  unfold assemble
  split
  · exact ((Leads.modSlot (reassemble_keeps hrail _) (.of_engine rfl)).silently (deliver_leads _ i _)).finish
  · exact .modSlot (reassemble_keeps hrail _) (.of_engine rfl)

theorem wakeUp_closes (hstate : (s.slot i).power.state = .standby) (b : Byte) (framingError : Bool) :
    Closes s (wakeUp i b framingError s) := by
  have hs : (s.slot i).power.state.railOn = true ∧ (s.slot i).power.state ≠ .run ∧ (s.slot i).power.state ≠ .parking := by
    rw [hstate]; decide
  unfold wakeUp
  refine (Closes.trans (.modSlot (.of_engine rfl rfl le_rfl (fun _ => hs.1) id fun hl => ?_) (.of_engine rfl))
    (assemble_closes ?_ b framingError)).trans (uplink_closes _)
  · exact lawful_of_silent rfl nofun nofun (hl.silent hs.2.1 hs.2.2) (hl.no_talk hs.2.1)
  · rw [State.modSlot_slot_same]; rfl

theorem receiveByte_closes (s : State) (i : Slot) (b : Byte) (framingError : Bool) : Closes s (receiveByte i b framingError s) := by
  unfold receiveByte
  split
  · exact .refl s
  · exact .refl s
  · next hstate =>
    split
    · exact .refl s
    · exact wakeUp_closes hstate b framingError
  all_goals next hstate => exact assemble_closes (by rw [hstate]; rfl) b framingError

theorem wake_closes (s : State) (i : Slot) (b : Byte) (framingError : Bool) :
    Closes s (if (s.slot i).power.state = .standby ∧ (s.slot i).power.phase ≠ .settling then wakeUp i b framingError s else s) := by
  split
  · next h => exact wakeUp_closes h.1 b framingError
  · exact .refl s

end Sys2Proof.Machine
end

