-- ==== Sys2Proof/Proofs/RequestKeeps.lean ====
section
/-! PROOF. Every request, and the resets of the whole cell, keep every invariant, and leave nothing waiting in vain. -/

namespace Sys2Proof.Machine

variable {s t : State} {i : Slot} {x : SlotState}

/-! ### The rules -/

theorem Closes.of_link {l : Link} (replies : s.link.replies.length ≤ 8 → l.replies.length ≤ 8)
    (inbound : s.link.inboundUsed ≤ 4096 → l.inboundUsed ≤ 4096) : Closes s { s with link := l } :=
  .of_slots (.of_link replies inbound) rfl rfl rfl

theorem Closes.of_rest (slots : t.slots = s.slots) (wait : t.waitList = s.waitList) (store : t.store = s.store)
    (lid : t.lid = s.lid) (link : t.link = s.link) (ports : t.ports = s.ports) : Closes s t :=
  .of_slots (.of_rest slots wait store lid link) slots ports wait

theorem Closes.of_store {t : Store} (pool : s.store.bytes.wf = true → t.bytes.wf = true)
    (accounts : s.store.Accounted s.pushesOf → t.Accounted s.pushesOf) : Closes s { s with store := t } :=
  .of_slots (.of_store pool accounts) rfl rfl rfl

theorem Closes.setSlot {y : SlotState} (hk : SlotKeeps (s.slot i) y) (hq : SameQueue (s.slot i) y) : Closes s (s.setSlot i y) :=
  (Leads.setSlot hk hq).closes

/-! ### A cell as a reset leaves it -/

/-- Nothing is queued, nothing runs, nothing waits and nothing is stored. -/
structure State.Cleared (t : State) : Prop where
  engine : ∀ i, (t.slot i).engine.flight = none ∧ (t.slot i).engine.waiting = [] ∧ (t.slot i).engine.done = []
  off : ∀ i, (t.slot i).power.state = .off
  quiet : ∀ i, (t.slot i).power.quiet
  line : ∀ i, (t.slot i).line.tx = none ∧ (t.slot i).line.txWaiting = none ∧ (t.slot i).line.assembler = Assembler.empty
  ring : ∀ i, (t.slot i).capture.ring = []
  waitList : t.waitList = []
  objects : t.store.objects = Vector.replicate 16 .empty
  free : t.store.free = List.range 512
  inbound : t.link.inbound = []

namespace State.Cleared

theorem lidSafe (h : t.Cleared) : t.LidSafe := fun _ i => by rw [h.off]; rfl

theorem lawful (h : t.Cleared) : t.Lawful := fun i =>
  lawful_of_off (by rw [h.off]; rfl) (h.quiet i) (h.line i).1 (h.line i).2.1 (h.line i).2.2 fun f hf => by
    rw [(h.engine i).1] at hf; exact nomatch hf

theorem waiters (h : t.Cleared) : t.WaitersInFlight := by
  unfold State.WaitersInFlight
  rw [h.waitList]
  exact ⟨List.nodup_nil, fun _ he => nomatch he⟩

theorem queue_eq_nil (h : t.Cleared) (i : Slot) : (t.slot i).engine.queue = [] := by
  obtain ⟨hf, hw, -⟩ := h.engine i
  simp [Engine.queue, hf, hw]

theorem queueBounded (h : t.Cleared) : t.QueueBounded := fun i => by
  unfold Engine.queueCount
  rw [h.queue_eq_nil]
  exact Nat.zero_le _

theorem listBounded (h : t.Cleared) : t.ListBounded := fun i => by
  obtain ⟨hf, -, hd⟩ := h.engine i
  simp [Engine.reservation, hf, hd]

theorem ringBounded (h : t.Cleared) : t.RingBounded := fun i => by
  rw [h.ring]
  exact Nat.zero_le _

theorem inboundBounded (h : t.Cleared) : t.InboundBounded := by
  unfold State.InboundBounded Link.inboundUsed
  rw [h.inbound]
  exact Nat.zero_le _

theorem accounted (h : t.Cleared) : t.Accounted := by
  have hpushes : t.pushesOf = fun _ => 0 := funext fun o => by
    unfold State.pushesOf
    simp only [h.queue_eq_nil, List.filter_nil, List.length_nil]
    exact List.sum_eq_zero fun n hn => by
      obtain ⟨_, -, rfl⟩ := List.mem_map.mp hn
      rfl
  unfold State.Accounted
  rw [hpushes]
  exact Store.accounted_of_empty h.objects h.free

theorem settled (h : t.Cleared) : t.Settled := by
  refine ⟨h.waiters, fun i => ?_, noEntryWaits_of_empty h.waitList⟩
  obtain ⟨-, hwaiting, -⟩ := h.engine i
  simp [Engine.canStart, hwaiting]

theorem closes (h : t.Cleared) (hreplies : s.RepliesBounded → t.RepliesBounded) (hpool : s.PoolCanonical → t.PoolCanonical) : Closes s t :=
  ⟨⟨⟨fun _ => h.lidSafe, fun _ => h.queueBounded, fun _ => h.listBounded, fun _ => h.ringBounded, hreplies, fun _ => h.inboundBounded,
    hpool, fun _ => h.accounted⟩, fun _ => h.waiters, fun _ _ => h.lawful⟩, fun _ => h.settled⟩

end State.Cleared

theorem reset_slot (i : Slot) : State.reset.slot i = SlotState.reset := by
  simp [State.reset, State.slot]

theorem powerOn_slot (s : State) (i : Slot) : (powerOn s).slot i = SlotState.reset := reset_slot i

theorem Store.reset_objects : Store.reset.objects = Vector.replicate 16 .empty := by unfold Store.reset; exact Eq.refl _

theorem Store.reset_free : Store.reset.free = List.range 512 := by simp only [Store.reset, Config.pageCount]

theorem Store.cleared_objects (t : Store) : t.cleared.objects = Vector.replicate 16 .empty := Store.reset_objects

theorem Store.cleared_free (t : Store) : t.cleared.free = List.range 512 := by
  simp only [Store.cleared, Store.reset_free]

theorem cleared_of_reset (hslots : ∀ i, t.slot i = SlotState.reset) (hwait : t.waitList = []) (hstore : t.store = Store.reset)
    (hlink : t.link = Link.reset) : t.Cleared where
  engine := fun i => by rw [hslots]; exact ⟨rfl, rfl, rfl⟩
  off := fun i => by rw [hslots]; rfl
  quiet := fun i => by rw [hslots]; exact ⟨rfl, rfl, rfl, rfl, rfl, rfl, rfl⟩
  line := fun i => by rw [hslots]; exact ⟨rfl, rfl, rfl⟩
  ring := fun i => by rw [hslots]; rfl
  waitList := hwait
  objects := by rw [hstore, Store.reset_objects]
  free := by rw [hstore, Store.reset_free]
  inbound := by rw [hlink]; rfl

theorem reset_cleared : State.reset.Cleared := cleared_of_reset reset_slot rfl rfl rfl

theorem powerOn_closes (s : State) : Closes s (powerOn s) :=
  (cleared_of_reset (powerOn_slot s) rfl rfl rfl).closes (fun _ => Nat.zero_le _) fun _ => rfl

theorem foldl_modSlot_same {f : SlotState → SlotState} (l : List Slot) : ∀ s : State,
    SameCell s (l.foldl (fun u k => u.modSlot k f) s) := by
  induction l with
  | nil => exact fun s => .refl s
  | cons a l ih => exact fun s => (modSlot_sameCell s a f).trans (ih _)

theorem mapSlots_sameCell (f : SlotState → SlotState) (s : State) : SameCell s (mapSlots f s) := foldl_modSlot_same allSlots s

@[simp] theorem cellReset_slot (s : State) (i : Slot) : (cellReset s).slot i = (s.slot i).cleared := mapSlots_slot s i SlotState.cleared

theorem repliesInTransmission_length (l : Link) : (repliesInTransmission l).length ≤ l.replies.length := by
  unfold repliesInTransmission
  split
  · split
    · exact List.length_take_le' _ _
    · exact Nat.zero_le _
  · exact Nat.zero_le _

theorem cellReset_cleared (s : State) : (cellReset s).Cleared where
  engine := fun i => by rw [cellReset_slot]; exact ⟨rfl, rfl, rfl⟩
  off := fun i => by rw [cellReset_slot]; rfl
  quiet := fun i => by rw [cellReset_slot]; exact ⟨rfl, rfl, rfl, rfl, rfl, rfl, rfl⟩
  line := fun i => by rw [cellReset_slot]; exact ⟨rfl, rfl, rfl⟩
  ring := fun i => by rw [cellReset_slot]; rfl
  waitList := by unfold cellReset; exact Eq.refl _
  objects := by unfold cellReset; exact s.store.cleared_objects
  free := by unfold cellReset; exact s.store.cleared_free
  inbound := by unfold cellReset; exact Eq.refl _

theorem cellReset_closes (s : State) : Closes s (cellReset s) :=
  (cellReset_cleared s).closes (fun h => (repliesInTransmission_length s.link).trans h) id

/-! ### The store -/

/-- In an account a FILLING object has no references. -/
theorem ObjectRecord.RefsOk.unreferenced {r : ObjectRecord} {n : Nat} (h : r.RefsOk n) (hstate : r.state = .filling ∨ r.state = .empty) :
    r.refs = 0 := by
  obtain ⟨-, hsealed, -⟩ := h
  by_contra hne
  rcases hstate with hs | hs <;> rcases hsealed hne with h' | h' <;> rw [hs] at h' <;> exact nomatch h'

theorem objOpen_closes (s : State) (body : List Byte) : Closes s (objOpen body s).1 := by
  unfold objOpen
  dsimp only
  split
  · exact .refl s
  split
  · exact .refl s
  split
  · exact .refl s
  next hstate =>
  split
  · exact .refl s
  · exact .of_store id fun h => h.openObject (not_not.mp hstate) _ _

theorem objData_closes (s : State) (body : List Byte) : Closes s (objData body s).1 := by
  unfold objData
  dsimp only
  split
  · exact .refl s
  split
  · exact .refl s
  next hempty =>
  split
  · exact .refl s
  split
  · exact .refl s
  split
  · exact .refl s
  · refine .of_store (fun hp => writePages_wf _ _ _ _ hp) fun h => ?_
    exact Store.Accounted.putObject (r := { s.store.object _ with fill := _ }) h rfl (fun he => absurd he hempty) (h.2 _)

theorem objSeal_closes (s : State) (body : List Byte) : Closes s (objSeal body s).1 := by
  unfold objSeal
  dsimp only
  split
  · exact .refl s
  next o _ =>
  split
  · exact .refl s
  split
  · exact .refl s
  next hstate =>
  split
  · exact .refl s
  · refine .of_store id fun h => h.putObject rfl nofun ⟨?_, fun hne => absurd rfl hne, nofun⟩
    have hrefs := h.2 o
    exact (hrefs.unreferenced (.inl (not_not.mp hstate))).symm.trans hrefs.1

theorem objDelete_closes (s : State) (body : List Byte) : Closes s (objDelete body s).1 := by
  unfold objDelete
  dsimp only
  split
  · exact .refl s
  next o _ =>
  split
  · exact .refl s
  · exact .refl s
  · next hstate => exact .of_store id fun h => h.freeObject ((h.2 o).unreferenced (.inl hstate))
  · next hstate =>
    dsimp only
    split
    · next hrefs => exact .of_store id fun h => h.freeObject hrefs
    · next hrefs =>
      exact .of_store id fun h => h.putObject rfl nofun ⟨(h.2 o).1, fun _ => .inr rfl, fun _ => hrefs⟩

/-! ### The other requests of the cell -/

theorem noticeSet_closes (s : State) (body : List Byte) : Closes s (noticeSet body s).1 := by
  unfold noticeSet
  dsimp only
  split
  · exact .of_link id id
  split
  · exact .of_link id id
  · exact .refl s

theorem guardWrite_closes (s : State) (body : List Byte) : Closes s (guardWrite body s).1 := by
  unfold guardWrite
  split
  · exact .refl s
  split
  · exact .refl s
  · exact .of_rest rfl rfl rfl rfl rfl rfl

theorem guardRead_closes (s : State) (body : List Byte) : Closes s (guardRead body s).1 := by
  unfold guardRead
  split <;> exact .refl s

theorem guardDefault_closes (s : State) (body : List Byte) : Closes s (guardDefault body s).1 := by
  unfold guardDefault
  split
  · exact .refl s
  split
  · exact .refl s
  · exact .of_rest rfl rfl rfl rfl rfl rfl

theorem limitWrite_closes (s : State) (body : List Byte) : Closes s (limitWrite body s).1 := by
  unfold limitWrite
  split
  · exact .refl s
  · exact .of_rest rfl rfl rfl rfl rfl rfl

theorem limitRead_closes (s : State) (body : List Byte) : Closes s (limitRead body s).1 := by
  unfold limitRead
  split <;> exact .refl s

theorem cellOwner_closes (k : CellRequest) (body : List Byte) (s : State) : Closes s (cellOwner k body s).1 := by
  cases k with
  | cellInfo => exact .refl s
  | cellStatus => exact .of_link id id
  | cellReset => exact cellReset_closes s
  | noticeSet => exact noticeSet_closes s body
  | guardWrite => exact guardWrite_closes s body
  | guardRead => exact guardRead_closes s body
  | guardDefault => exact guardDefault_closes s body
  | limitWrite => exact limitWrite_closes s body
  | limitRead => exact limitRead_closes s body
  | objOpen => exact objOpen_closes s body
  | objData => exact objData_closes s body
  | objSeal => exact objSeal_closes s body
  | objDelete => exact objDelete_closes s body
  | objList => exact .refl s
  | instrStatus => exact .refl s

/-! ### The requests of a slot -/

/-- Settings of a slot that stand in no invariant. -/
theorem configure_keeps (x : SlotState) (body : List Byte) : SlotKeeps x (x.configure body).1 :=
  .of_engine rfl rfl le_rfl id id id

theorem line_settings_keeps (x : SlotState) (size : Nat) : SlotKeeps x { x with line.blockSize := size } :=
  .of_engine rfl rfl le_rfl id id id

theorem filter_keeps (x : SlotState) (f : Filter) : SlotKeeps x { x with capture.filter := f } := .of_engine rfl rfl le_rfl id id id

theorem triggers_keeps (x : SlotState) (ts : Vector Trigger 4) : SlotKeeps x { x with capture.triggers := ts } :=
  .of_engine rfl rfl le_rfl id id id

theorem release_ring_keeps (x : SlotState) {ring : List CaptureRecord} (h : ringUsed ring ≤ ringUsed x.capture.ring) :
    SlotKeeps x { x with capture.ring := ring } :=
  .of_engine rfl rfl le_rfl id h.trans id

theorem notices_keeps (x : SlotState) (p : Pending) : SlotKeeps x { x with notices := p } := .of_engine rfl rfl le_rfl id id id

theorem slotConfig_closes (s : State) (i : Slot) (body : List Byte) : Closes s (slotConfig i body s).1 := by
  unfold slotConfig
  dsimp only
  split
  · exact .refl s
  split
  · exact .refl s
  · exact .setSlot (configure_keeps (s.slot i) body) (.of_engine rfl)

theorem slotFilter_closes (s : State) (i : Slot) (body : List Byte) : Closes s (slotFilter i body s).1 := by
  unfold slotFilter
  split
  · exact .refl s
  · dsimp only
    exact .modSlot (filter_keeps _ _) (.of_engine rfl)

theorem slotTrigger_closes (s : State) (i : Slot) (body : List Byte) : Closes s (slotTrigger i body s).1 := by
  unfold slotTrigger
  dsimp only
  split
  · exact .refl s
  split
  · exact .refl s
  split
  · dsimp only
    exact .modSlot (triggers_keeps _ _) (.of_engine rfl)
  · exact .refl s

theorem slotBlock_closes (s : State) (i : Slot) (body : List Byte) : Closes s (slotBlock i body s).1 := by
  unfold slotBlock
  dsimp only
  split
  · dsimp only
    exact .modSlot (line_settings_keeps _ _) (.of_engine rfl)
  · exact .refl s

/-- A step joins the queue, with its reference where it is a PUSH. -/
def appendStep (i : Slot) (step : StepRecord) (s : State) : State :=
  { s.modSlot i (fun y => { y with engine.waiting := y.engine.waiting ++ [step] }) with store := s.store.withStep step.kind }

theorem Store.withStep_bytes (t : Store) (k : StepKind) : (t.withStep k).bytes = t.bytes := by
  cases k <;> rfl

theorem objectCheck_sealed {st : Store} {o : Fin 16} (h : objectCheck st (.push o) = none) : (st.object o).state = .sealed := by
  unfold objectCheck at h
  dsimp only at h
  split at h
  · exact nomatch h
  · assumption
  all_goals exact nomatch h

theorem Store.Accounted.withStep {st : Store} {n m : Fin 16 → Nat} {k : StepKind} (h : st.Accounted n) (hcheck : objectCheck st k = none)
    (hm : ∀ p, m p = n p + if k = .push p then 1 else 0) : (st.withStep k).Accounted m := by
  cases k with
  | push o =>
    refine h.addRef (objectCheck_sealed hcheck) fun p => (hm p).trans ?_
    simp only [StepKind.push.injEq, eq_comm]
  | _ =>
    have : m = n := funext fun p => by simpa using hm p
    exact this ▸ h

theorem appendStep_keeps {step : StepRecord} (hroom : (s.slot i).engine.queueCount < 16) (hcheck : objectCheck s.store step.kind = none) :
    Keeps s (appendStep i step s) := by
  have hqueue : (s.slot i).engine.queue ++ [step] =
      Engine.queue { (s.slot i).engine with waiting := (s.slot i).engine.waiting ++ [step] } := by
    simp [Engine.queue]
  refine ⟨.of_slot (i := i) rfl rfl rfl (Store.withStep_bytes _ _) ⟨fun _ => ?_, id, id⟩ (fun _ => id) fun h => ?_,
    .of_slot (i := i) rfl (fun _ hl => hl) (.refl _) fun hw e he hi => ?_⟩
  · unfold Engine.queueCount
    rw [← hqueue, List.length_append]
    exact hroom
  · refine Store.Accounted.withStep h hcheck fun o => ?_
    have hslot := pushesOf_of_slot (s := s) (t := appendStep i step s) (i := i)
      (y := { s.slot i with engine.waiting := (s.slot i).engine.waiting ++ [step] }) rfl o
    have hnew : SlotState.pushesOf { s.slot i with engine.waiting := (s.slot i).engine.waiting ++ [step] } o =
        (s.slot i).pushesOf o + if step.kind = .push o then 1 else 0 := by
      unfold SlotState.pushesOf
      rw [← hqueue, List.filter_append, List.length_append]
      by_cases hk : step.kind = .push o <;> simp [hk]
    omega
  · obtain ⟨f, hf, hp, hold, hk⟩ := hw.2 e he
    rw [hi] at hf
    exact ⟨f, hf, hp, hold, hk⟩

theorem appendStep_leads {step : StepRecord} (hroom : (s.slot i).engine.queueCount < 16) (hcheck : objectCheck s.store step.kind = none) :
    Leads s (appendStep i step s, if (s.slot i).engine.queueCount = 0 then [i] else []) := by
  refine .of_keeps (appendStep_keeps hroom hcheck) (fun j hj => ?_) rfl rfl
  change ((s.modSlot i fun y => { y with engine.waiting := y.engine.waiting ++ [step] }).slot j).engine.canStart = true at hj
  rw [State.modSlot_slot] at hj
  split at hj
  · next hji =>
    subst hji
    obtain ⟨hflight, -, hroom⟩ := (Engine.canStart_iff _).mp hj
    by_cases hcount : (s.slot j).engine.queueCount = 0
    · rw [if_pos hcount]
      exact .inl (List.mem_singleton.mpr rfl)
    · refine .inr ((Engine.canStart_iff _).mpr ⟨hflight, fun hnil => hcount ?_, hroom⟩)
      simp [Engine.queueCount, Engine.queue, show (s.slot j).engine.flight = none from hflight, hnil]
  · exact .inr hj

theorem stepRequest_closes (s : State) (i : Slot) (body : List Byte) : Closes s (stepRequest i body s).1 := by
  unfold stepRequest
  dsimp only
  split
  · exact .refl s
  split
  · exact .refl s
  split
  · exact .refl s
  next hroom =>
  split
  · exact .refl s
  next hcheck =>
  have happend := appendStep_leads (i := i) (Nat.lt_of_not_le hroom) hcheck
  dsimp only
  split
  · next hcount =>
    rw [if_pos hcount] at happend
    exact happend.startAll
  · next hcount =>
    rw [if_neg hcount] at happend
    exact happend.closes

theorem withdraw_txWaiting {l : PhoneLine} (h : l.txWaiting = none) : l.withdraw.txWaiting = none := by
  simp [PhoneLine.withdraw, h]

/-- An item that waits may be withdrawn. -/
theorem withdraw_keeps (x : SlotState) : SlotKeeps x { x with line := x.line.withdraw } := by
  refine .of_engine rfl rfl le_rfl id id fun hl => ?_
  obtain ⟨quiet, sends, parks, waits, talks, leaves⟩ := hl
  refine ⟨fun hoff => ?_, sends, fun hpark => ⟨withdraw_txWaiting (parks hpark).1, (parks hpark).2⟩,
    fun h => waits fun hn => h (withdraw_txWaiting hn), talks, leaves⟩
  obtain ⟨hq, htx, hw, hasm⟩ := quiet hoff
  exact ⟨hq, htx, withdraw_txWaiting hw, hasm⟩

/-- What the abort of a PUSH whose block is leaving makes of its slot (R23). -/
def SlotState.abortPush (x : SlotState) (f : Flight) (p : PushProgress) (all : Bool) : SlotState :=
  { x with
    engine.flight := some { f with tag := none, deadline := none, push := some { p with aborting := true, abortAll := all } }
    line := x.line.withdraw }

theorem abortPush_keeps {f : Flight} {p : PushProgress} (hf : x.engine.flight = some f) (hp : f.push = some p) (all : Bool) :
    SlotKeeps x (x.abortPush f p all) :=
  .trans (y := { x with
    engine.flight := some { f with tag := none, deadline := none, push := some { p with aborting := true, abortAll := all } } })
    (repush_keeps hf hp rfl) (withdraw_keeps _)

theorem takeAbort_leads {f : Flight} (hf : (s.slot i).engine.flight = some f) (all : Bool) : Leads s (takeAbort i all f s) := by
  unfold takeAbort
  split
  · next p hp =>
    split
    · exact .modSlot (f := fun x => x.abortPush f p all) (abortPush_keeps hf hp all) ⟨by rw [hf]; rfl, rfl, rfl⟩
    · exact endByHand_leads hf .aborted
  · exact endByHand_leads hf .aborted

theorem abortable_flight {e : Engine} {f : Flight} (h : e.abortable = some f) : e.flight = some f ∧ f.aborting = false := by
  unfold Engine.abortable at h
  split at h
  · next g hg =>
    split at h
    · exact nomatch h
    · next ha => exact ⟨hg.trans h, by rw [← Option.some.inj h]; simpa using ha⟩
  · exact nomatch h

/-- What scope ALL does before the step in flight is aborted (R21). -/
theorem abortScope_leads (s : State) (i : Slot) (all : Bool) :
    Leads s (if all then s.modSlot i (fun x => x.doomQueue .aborted) else s, []) ∧
      ((if all then s.modSlot i (fun x => x.doomQueue .aborted) else s).slot i).engine.flight = (s.slot i).engine.flight := by
  cases all with
  | true =>
    rw [if_pos rfl]
    exact ⟨.modSlot (doomQueue_keeps _ _) (doomQueue_sameQueue _ _), by simp [SlotState.doomQueue]⟩
  | false =>
    rw [if_neg nofun]
    exact ⟨.refl s, Eq.refl _⟩

theorem abortRequest_closes (s : State) (i : Slot) (body : List Byte) : Closes s (abortRequest i body s).1 := by
  unfold abortRequest
  split
  · exact .refl s
  next all _ =>
  dsimp only
  obtain ⟨hdoom, hflight⟩ := abortScope_leads s i all
  generalize (if all then s.modSlot i (fun x => x.doomQueue .aborted) else s) = s1 at hdoom hflight ⊢
  split
  · next f hf =>
    dsimp only
    exact (hdoom.silently (takeAbort_leads (hflight.trans (abortable_flight hf).1) all)).startAll
  · exact hdoom.closes

theorem handOut_length (entries : List ListEntry) : ∀ n budget, (handOut n budget entries).2.length ≤ entries.length := by
  induction entries with
  | nil => exact fun _ _ => le_rfl
  | cons e es ih =>
    intro n budget
    unfold handOut
    split
    · exact Nat.succ_le_succ (ih _ _)
    split
    · exact le_rfl
    split
    · exact (ih _ _).trans (Nat.le_succ _)
    · exact le_rfl

/-- Where no record is handed out, as many stay. -/
theorem handOut_length_of_nil (entries : List ListEntry) : ∀ n budget, (handOut n budget entries).1 = [] →
    (handOut n budget entries).2.length = entries.length := by
  induction entries with
  | nil => exact fun _ _ _ => rfl
  | cons e es ih =>
    intro n budget h
    unfold handOut at h ⊢
    split at h
    · next htx =>
      rw [if_pos htx]
      exact congrArg Nat.succ (ih _ _ h)
    next htx =>
    rw [if_neg htx]
    split at h
    · rfl
    split at h
    · exact nomatch h
    · next hfit =>
      dsimp only
      rw [if_neg hfit]

theorem settle_keeps {done : List ListEntry} (hdone : done.length ≤ x.engine.done.length) :
    SlotKeeps x (SlotState.settleStepDone { x with engine.done := done }) := by
  obtain ⟨p, hp⟩ := settleStepDone_eq { x with engine.done := done }
  rw [hp]
  exact relist_keeps x hdone p _ _

theorem resultsRequest_closes (s : State) (i : Slot) (body : List Byte) : Closes s (resultsRequest i body s).1 := by
  unfold resultsRequest
  dsimp only
  split
  · exact .refl s
  generalize hr : handOut (if byteNat body 0 = 0 then (s.slot i).engine.done.length else byteNat body 0) (1024 - 3)
    (s.slot i).engine.done = r
  have hlength : r.2.length ≤ (s.slot i).engine.done.length := hr ▸ handOut_length _ _ _
  split
  · next hnil =>
    dsimp only
    refine .modSlot (settle_keeps hlength) ?_
    obtain ⟨p, hp⟩ := settleStepDone_eq { s.slot i with engine.done := r.2 }
    rw [hp]
    exact ⟨rfl, rfl, by rw [← hr] at hnil ⊢; exact handOut_length_of_nil _ _ _ hnil⟩
  · have hsettle : Leads s (s.modSlot i fun x => SlotState.settleStepDone { x with engine.done := r.2 }, [i]) :=
      .of_keeps (.modSlot (settle_keeps hlength)) (.of_slot fun j hj => by rw [State.modSlot_slot_ne _ _ _ _ hj]) rfl rfl
    dsimp only
    exact hsettle.startAll

theorem ringUsed_drop (ring : List CaptureRecord) (n : Nat) : ringUsed (ring.drop n) ≤ ringUsed ring := by
  unfold ringUsed
  rw [List.map_drop]
  exact (List.drop_sublist _ _).sum_le_sum fun _ _ => Nat.zero_le _

theorem faultCleared_keeps (hstate : x.power.state = .fault) : SlotKeeps x { x with power.state := .off } := by
  have hs : x.power.state.railOn = false ∧ x.power.state ≠ .run := by rw [hstate]; decide
  refine .of_engine rfl rfl le_rfl (fun h => nomatch (show false = true from h)) id fun hl => ?_
  obtain ⟨hq, htx, hwaiting, hasm⟩ := hl.1 hs.1
  exact lawful_of_off rfl hq htx hwaiting hasm (hl.no_talk hs.2)

theorem clearFault_closes (s : State) (i : Slot) : Closes s (clearFault i s).1 := by
  unfold clearFault
  split
  · next hstate =>
    dsimp only
    exact .modSlot (faultCleared_keeps hstate) (.of_engine rfl)
  · exact .refl s

theorem cleared_lawful (x : SlotState) : x.cleared.Lawful :=
  lawful_of_off rfl ⟨rfl, rfl, rfl, rfl, rfl, rfl, rfl⟩ rfl rfl rfl fun f hf => nomatch (show none = some f from hf)

theorem cleared_bounds (x : SlotState) : SlotBounds x x.cleared :=
  ⟨fun _ => Nat.zero_le _, fun _ => Nat.zero_le _, fun _ => Nat.zero_le _⟩

/-- A slot is cleared, with its wait entry and the references of its steps (R28, R141, R149). -/
theorem discard_keeps (hslots : t.slots = (s.setSlot i (s.slot i).cleared).slots) (hlid : t.lid = s.lid) (hlink : t.link = s.link)
    (hwait : t.waitList = (s.removeEntry i).waitList) (hstore : t.store = s.store.dropRefs (s.slot i).engine.queue) : Keeps s t := by
  refine ⟨.of_slot hslots hlid hlink (hstore ▸ Store.dropRefs_bytes _ _) (cleared_bounds _)
    (fun _ h => nomatch (show false = true from h)) fun h => ?_,
    .of_slot hslots (fun _ _ => cleared_lawful _) (hwait ▸ List.filter_sublist)
      fun _ e he hi => absurd hi (not_mem_removeEntry (hwait ▸ he))⟩
  unfold State.Accounted
  rw [hstore]
  refine Store.Accounted.dropRefs _ h fun o => ?_
  have hsum := pushesOf_of_slot hslots o
  have hnone : (s.slot i).cleared.pushesOf o = 0 := by unfold SlotState.pushesOf; exact Eq.refl _
  unfold SlotState.pushesOf at hsum hnone
  omega

/-- The SLOT reset, less the mark on the frame in transmission. -/
def State.discarded (s : State) (i : Slot) : State :=
  { (s.modSlot i SlotState.cleared).arbiterDrop i with store := s.store.dropRefs (s.slot i).engine.queue }

theorem resetSlot_eq (s : State) (i : Slot) :
    resetSlot i s = { s.discarded i with link := { s.link with tx := s.link.tx.map (TxFrame.voidFor i) } } := by
  unfold resetSlot State.discarded
  exact Eq.refl _

theorem resetSlot_keeps (s : State) (i : Slot) : Keeps s (resetSlot i s) := by
  have hslot : Keeps s (s.discarded i) := discard_keeps (Eq.refl _) (Eq.refl _) (Eq.refl _) (Eq.refl _) (Eq.refl _)
  rw [resetSlot_eq]
  exact hslot.trans (.of_link id id)

theorem slotReset_closes (s : State) (i : Slot) : Closes s (slotReset i s).1 := by
  have hopens : Opens s [] (resetSlot i s) := fun j hj => by
    rw [resetSlot_eq] at hj
    change ((s.modSlot i SlotState.cleared).slot j).engine.canStart = true at hj
    rw [State.modSlot_slot] at hj
    split at hj
    · exact nomatch hj
    · exact .inr hj
  have hwalk := Leads.walk (resetSlot_keeps s i) hopens
  unfold slotReset
  dsimp only at hwalk ⊢
  exact hwalk.startAll

theorem slotOwner_closes (k : SlotRequest) (i : Slot) (body : List Byte) (s : State) : Closes s (slotOwner k i body s).1 := by
  cases k with
  | slotConfig => exact slotConfig_closes s i body
  | slotFilter => exact slotFilter_closes s i body
  | slotTrigger => exact slotTrigger_closes s i body
  | slotBlock => exact slotBlock_closes s i body
  | step => exact stepRequest_closes s i body
  | abort => exact abortRequest_closes s i body
  | results => exact resultsRequest_closes s i body
  | slotStatus =>
    dsimp only [slotOwner, slotStatus]
    exact .modSlot (notices_keeps _ _) (.of_engine rfl)
  | captureRead => exact .refl s
  | captureRelease =>
    dsimp only [slotOwner, captureRelease]
    exact .modSlot (release_ring_keeps _ (ringUsed_drop _ _)) (.of_engine rfl)
  | clearFault => exact clearFault_closes s i
  | slotReset => exact slotReset_closes s i

theorem act_closes (f : Frame) (s : State) : Closes s (act f s).1 := by
  unfold act
  split
  · exact .of_link id id
  · exact .refl s
  · exact cellOwner_closes _ _ s
  · exact slotOwner_closes _ _ _ s

end Sys2Proof.Machine
end

