-- ==== Sys2Proof/Proofs/LinkKeeps.lean ====
section
/-! PROOF. The host link keeps every invariant, and with it every command, an expiry and a tick: the invariants of Safety.lean are kept by
every step, and no step leaves anything waiting in vain. -/

namespace Sys2Proof.Machine

variable {s t : State} {i : Slot} {x : SlotState}

/-! ### What an owner leaves of the reply buffer -/

/-- No slot's owner touches the reply buffer. -/
theorem slotOwner_replies (k : SlotRequest) (i : Slot) (body : List Byte) (s : State) :
    (slotOwner k i body s).1.link.replies = s.link.replies := by
  cases k with
  | slotConfig => unfold slotOwner slotConfig; dsimp only; split <;> [rfl; split <;> rfl]
  | slotFilter => unfold slotOwner slotFilter; dsimp only; split <;> rfl
  | slotTrigger => unfold slotOwner slotTrigger; dsimp only; split <;> [rfl; split <;> [rfl; split <;> rfl]]
  | slotBlock => unfold slotOwner slotBlock; dsimp only; split <;> rfl
  | step =>
    unfold slotOwner stepRequest
    dsimp only
    split <;> [rfl; split <;> [rfl; split <;> [rfl; split <;> [rfl; skip]]]]
    dsimp only
    split
    · rw [(startAll_sameCell _ _).link]; rfl
    · rfl
  | abort =>
    unfold slotOwner abortRequest
    dsimp only
    split
    · rfl
    next all _ =>
    have hl : (if all then s.modSlot i (fun x => x.doomQueue .aborted) else s).link = s.link := by split <;> rfl
    generalize (if all then s.modSlot i (fun x => x.doomQueue .aborted) else s) = s1 at hl ⊢
    split
    · dsimp only
      rw [(startAll_sameCell _ _).link, (takeAbort_sameCell _ _ _ _).link, hl]
    · rw [hl]
  | results =>
    unfold slotOwner resultsRequest
    dsimp only
    split
    · rfl
    generalize handOut _ _ _ = r
    dsimp only
    split
    · rfl
    · rw [(startAll_sameCell _ _).link]; rfl
  | slotStatus => rfl
  | captureRead => rfl
  | captureRelease => rfl
  | clearFault => unfold slotOwner clearFault; dsimp only; split <;> rfl
  | slotReset =>
    unfold slotOwner slotReset
    dsimp only
    rw [(startAll_sameCell _ _).link, (walk_sameCell _).link]
    rfl

/-- The owners of the cell's requests leave the reply buffer as it is, but for CELL_RESET, which has no reply. -/
theorem cellOwner_replies (k : CellRequest) (body : List Byte) (s : State) (hk : k ≠ .cellReset) :
    (cellOwner k body s).1.link.replies = s.link.replies := by
  cases k with
  | cellInfo => rfl
  | cellStatus => rfl
  | cellReset => exact absurd rfl hk
  | noticeSet => unfold cellOwner noticeSet; dsimp only; split <;> [rfl; split <;> rfl]
  | guardWrite => unfold cellOwner guardWrite; dsimp only; split <;> [rfl; split <;> rfl]
  | guardRead => unfold cellOwner guardRead; dsimp only; split <;> rfl
  | guardDefault => unfold cellOwner guardDefault; dsimp only; split <;> [rfl; split <;> rfl]
  | limitWrite => unfold cellOwner limitWrite; dsimp only; split <;> rfl
  | limitRead => unfold cellOwner limitRead; dsimp only; split <;> rfl
  | objOpen => unfold cellOwner objOpen; dsimp only; split <;> [rfl; split <;> [rfl; split <;> [rfl; split <;> rfl]]]
  | objData =>
    unfold cellOwner objData
    dsimp only
    split <;> [rfl; split <;> [rfl; split <;> [rfl; split <;> [rfl; split <;> rfl]]]]
  | objSeal => unfold cellOwner objSeal; dsimp only; split <;> [rfl; split <;> [rfl; split <;> [rfl; split <;> rfl]]]
  | objDelete => unfold cellOwner objDelete; dsimp only; split <;> [rfl; split <;> rfl]
  | objList => rfl
  | instrStatus => rfl

/-- A request that is answered leaves the reply buffer for its reply to join. -/
theorem act_replies {f : Frame} (h : checkRequest f ≠ .cell .cellReset) : (act f s).1.link.replies = s.link.replies := by
  unfold act
  split
  · rfl
  · rfl
  · next k hk => exact cellOwner_replies k f.body s fun hr => h (hr ▸ hk)
  · next k i _ => exact slotOwner_replies k i f.body s

/-! ### The inbound buffer -/

/-- A frame cut off and the bytes after it are no more than the bytes it was cut from. -/
theorem cutOne_size {bytes rest : List Byte} {f : Frame} (h : cutOne bytes = .ok (f, rest)) : f.size + rest.length ≤ bytes.length := by
  unfold cutOne at h
  dsimp only at h
  split at h
  · exact nomatch h
  split at h
  · exact nomatch h
  split at h
  · exact nomatch h
  · obtain ⟨rfl, rfl⟩ := Prod.mk.inj (Except.ok.inj h)
    simp only [Frame.size, List.length_take, List.length_drop]
    omega

theorem cutFrom_size (n : Nat) : ∀ bytes : List Byte, ((cutFrom n bytes).1.map Frame.size).sum ≤ bytes.length := by
  induction n with
  | zero => exact fun _ => Nat.zero_le _
  | succ n ih =>
    intro bytes
    unfold cutFrom
    split
    · exact Nat.zero_le _
    split
    · exact Nat.zero_le _
    split
    · exact Nat.zero_le _
    · next f rest hcut =>
      have := cutOne_size hcut
      have := ih rest
      simp only [List.map_cons, List.sum_cons]
      omega

theorem noteBadFrame_closes (e : Option BadFrame) (s : State) : Closes s (noteBadFrame e s) := by
  cases e with
  | none => exact .refl s
  | some e => cases e <;> exact .of_link id id

/-- Frames that fit join the inbound buffer. -/
theorem joinInbound_closes {fs : List Frame} (hfits : s.link.inboundUsed + (fs.map Frame.size).sum ≤ 4096) :
    Closes s { s with link.inbound := s.link.inbound ++ fs } := by
  refine .of_link id fun _ => ?_
  simp only [Link.inboundUsed, List.map_append, List.sum_append]
  exact hfits

theorem acceptTransfer_closes {bytes : List Byte} (hfits : s.link.fits bytes.length = true) : Closes s (acceptTransfer bytes s) := by
  have hused : s.link.inboundUsed + bytes.length ≤ 4096 := of_decide_eq_true hfits
  have hsize : ((cutTransfer bytes).1.map Frame.size).sum ≤ bytes.length := cutFrom_size _ _
  exact (joinInbound_closes (by omega)).trans (noteBadFrame_closes _ _)

theorem acceptHeld_closes (s : State) : Closes s (acceptHeld s) := by
  unfold acceptHeld
  split
  · split
    · next hfits =>
      have hheld : Closes s { s with link.held := none } := .of_link id id
      exact hheld.trans (acceptTransfer_closes hfits)
    · exact .refl s
  · exact .refl s

/-! ### Intake -/

/-- A request is acted on and its reply, for which there was room, joins the reply buffer. -/
theorem answerRequest_closes {f : Frame} (htake : s.link.canTake f = true) : Closes s (joinReply f (act f s).2 (act f s).1) := by
  have hact := act_closes f s
  by_cases hreset : checkRequest f = .cell .cellReset
  · have hnone : (act f s).2 = none := by unfold act; rw [hreset]; rfl
    rw [hnone]
    exact hact
  · have hroom : s.link.replies.length < 8 := by
      simp only [Link.canTake, hreset, decide_false, Bool.or_false] at htake
      exact of_decide_eq_true htake
    have hsame := act_replies (s := s) hreset
    generalize act f s = r at hact hsame ⊢
    unfold joinReply
    split
    · refine hact.trans (.of_link (fun _ => ?_) id)
      rw [hsame, List.length_append]
      exact hroom
    · exact hact

theorem takeRequest_closes {f : Frame} {rest : List Frame} (hin : s.link.inbound = f :: rest) (htake : s.link.canTake f = true) :
    Closes s (takeRequest f rest s) := by
  have hfree : Closes s { s with link.inbound := rest } := .of_link id fun h => by
    have : ((rest.map Frame.size).sum : Nat) ≤ s.link.inboundUsed := by
      simp only [Link.inboundUsed, hin, List.map_cons, List.sum_cons]
      omega
    exact this.trans h
  exact (hfree.trans (answerRequest_closes (s := { s with link.inbound := rest }) htake)).trans (acceptHeld_closes _)

theorem takeRequests_closes (n : Nat) : ∀ s : State, Closes s (takeRequests n s) := by
  induction n with
  | zero => exact uplink_closes
  | succ n ih =>
    intro s
    unfold takeRequests
    split
    · exact uplink_closes s
    · next hin =>
      split
      · next htake => exact ((takeRequest_closes hin htake).trans (uplink_closes _)).trans (ih _)
      · exact uplink_closes s

theorem intake_closes (s : State) : Closes s (intake s) := takeRequests_closes _ s

theorem presentTransfer_closes (bytes : List Byte) (s : State) : Closes s (presentTransfer bytes s) := by
  unfold presentTransfer
  split
  · exact .refl s
  split
  · next hfits => exact (acceptTransfer_closes hfits).trans (intake_closes _)
  · exact .of_link id id

theorem sendRequest_closes (kind : Byte) (r : Request) (s : State) : Closes s (sendRequest kind r s) := by
  unfold sendRequest
  dsimp only
  split
  · split
    · exact .refl s
    split
    · next hfits =>
      refine (joinInbound_closes ?_).trans (intake_closes _)
      rw [List.map_singleton, List.sum_singleton]
      exact of_decide_eq_true hfits
    · exact .of_link id id
  · exact presentTransfer_closes _ s

/-! ### The bus reset and the frame taken -/

theorem restoreNotice_keeps (x : SlotState) (k : SlotNotice) (mask : PortMask) : SlotKeeps x (x.restoreNotice k mask) := by
  have hlength : (unmarkRecords x.engine.done).length ≤ x.engine.done.length := by simp [unmarkRecords]
  cases k with
  | stepDone => exact .of_engine rfl rfl hlength id id id
  | _ => exact .of_engine rfl rfl le_rfl id id id

theorem restoreNotice_sameQueue (x : SlotState) (k : SlotNotice) (mask : PortMask) : SameQueue x (x.restoreNotice k mask) := by
  cases k with
  | stepDone => exact ⟨rfl, rfl, List.length_map _⟩
  | _ => exact .of_engine rfl

theorem abandonFrame_closes (s : State) : Closes s (abandonFrame s) := by
  unfold abandonFrame
  split
  · exact .refl s
  next t _ =>
  have hfree : Closes s { s with link.tx := none } := .of_link id id
  dsimp only
  split
  · exact hfree
  · exact .of_link id id
  · split
    · exact hfree
    · exact .of_link id id
  · split
    · exact hfree
    · exact hfree.trans (.modSlot (restoreNotice_keeps _ _ _) (restoreNotice_sameQueue _ _ _))

theorem busReset_closes (s : State) : Closes s (busReset s) :=
  (abandonFrame_closes s).trans (.of_link (fun _ => Nat.zero_le _) fun _ => Nat.zero_le _)

/-- The record in transmission leaves the list of a slot. -/
theorem dropSent_keeps (x : SlotState) : SlotKeeps x { x with engine.done := dropSent x.engine.done } :=
  .of_engine rfl rfl (List.length_filter_le _ _) id id id

theorem completeFrame_closes (t : TxFrame) (s : State) : Closes s (completeFrame t s) := by
  have hfree : Closes s { s with link.tx := none } := .of_link id id
  unfold completeFrame
  dsimp only
  split
  · refine .of_link (fun h => ?_) id
    rw [List.length_tail]
    omega
  · next i _ _ =>
    have hdrop : Leads s (State.modSlot { s with link.tx := none } i fun x => { x with engine.done := dropSent x.engine.done }, [i]) :=
      .of_keeps (hfree.toKeeps.trans (.modSlot (dropSent_keeps _)))
        (.of_slot fun j hj => by rw [State.modSlot_slot_ne _ _ _ _ hj]; rfl) rfl rfl
    exact hdrop.startAll
  all_goals exact hfree

theorem frameTaken_closes (s : State) :
    Closes s (match s.link.tx with
      | some t => intake (completeFrame t s)
      | none => s) := by
  split
  · exact (completeFrame_closes _ s).trans (intake_closes _)
  · exact .refl s

theorem usbConfigured_closes (s : State) :
    Closes s (if s.link.usb = .configured then s else uplink { s with link.usb := .configured }) := by
  split
  · exact .refl s
  · have husb : Closes s { s with link.usb := .configured } := .of_link id id
    exact husb.trans (uplink_closes _)

/-! ### Every command and every step -/

theorem exec_closes (c : Instr) (s : State) : ∃ u, exec c s = .next u ∧ Closes s u := by
  have ifStart (p : Prop) [Decidable p] (i : Slot) : Closes s (if p then finish [i] s else s) := by
    split
    · exact ((Leads.refl s).mono (List.nil_subset [i])).finish
    · exact .refl s
  have ifSample (p : Prop) [Decidable p] (i : Slot) (a v : AdcCode) : Closes s (if p then takeSample i a v s else s) := by
    split
    · exact takeSample_closes s i a v
    · exact .refl s
  cases c with
  | powerOnReset => exact ⟨_, rfl, powerOn_closes s⟩
  | cellInfo r | cellStatus r | cellReset r | noticeSet r | guardWrite r | guardRead r | guardDefault r | limitWrite r | limitRead r
  | objOpen r | objData r | objSeal r | objDelete r | objList r | instrStatus r | slotConfig r | slotFilter r | slotTrigger r
  | slotBlock r | stepRequest r | abort r | results r | slotStatus r | captureRead r | captureRelease r | clearFault r | slotReset r =>
    exact ⟨_, rfl, sendRequest_closes _ r s⟩
  | unknownKind kind r => exact ⟨_, rfl, sendRequest_closes kind r s⟩
  | outTransfer bytes => exact ⟨_, rfl, presentTransfer_closes bytes s⟩
  | usbConfigured => exact ⟨_, rfl, usbConfigured_closes s⟩
  | busReset => exact ⟨_, rfl, busReset_closes s⟩
  | frameTaken => exact ⟨_, rfl, frameTaken_closes s⟩
  | uplinkChoice => exact ⟨_, rfl, uplink_closes s⟩
  | stepStart i => exact ⟨_, rfl, ifStart _ i⟩
  | drain i => exact ⟨_, rfl, ifStart _ i⟩
  | abortingComplete i => exact ⟨_, rfl, abortingComplete_closes s i⟩
  | stepDeadlineExpiry i => exact ⟨_, rfl, stepDeadline_closes s i⟩
  | measureDurationEnd i => exact ⟨_, rfl, measureEnd_closes s i⟩
  | pressDurationEnd i => exact ⟨_, rfl, pressEnd_closes s i⟩
  | settleEnd i => exact ⟨_, rfl, settleEnd_closes s i⟩
  | pressRelease i => exact ⟨_, rfl, pressRelease_closes s i⟩
  | bootWaitExpiry i => exact ⟨_, rfl, bootWaitExpiry_closes s i⟩
  | leaveRun i => exact ⟨_, rfl, leaveRun_closes s i⟩
  | parkHoldExpiry i => exact ⟨_, rfl, parkHoldExpiry_closes s i⟩
  | sample i a v => exact ⟨_, rfl, takeSample_closes s i a v⟩
  | overcurrentTrip i a v => exact ⟨_, rfl, ifSample _ i a v⟩
  | undervoltTrip i a v => exact ⟨_, rfl, ifSample _ i a v⟩
  | lidInputOpens => exact ⟨_, rfl, lidInputOpens_closes s⟩
  | lidInputCloses => exact ⟨_, rfl, lidInputCloses_closes s⟩
  | lidRecognisedOpen =>
    refine ⟨_, rfl, ?_⟩
    split
    · exact openLid_closes s
    · exact .refl s
  | waitDeadlineExpiry i => exact ⟨_, rfl, waitDeadline_closes s i⟩
  | holdExpiry p => exact ⟨_, rfl, holdExpiry_closes s p⟩
  | grant i => exact ⟨_, rfl, grant_closes s i⟩
  | wake i b e => exact ⟨_, rfl, wake_closes s i b e⟩
  | lineReceived i e => exact ⟨_, rfl, receiveByte_closes s i _ e⟩
  | itemSent i => exact ⟨_, rfl, execItemSent_closes s i⟩
  | transmitWaitingItem i => exact ⟨_, rfl, transmitWaitingItem_closes s i⟩
  | byteReceived i b e => exact ⟨_, rfl, receiveByte_closes s i b e⟩

theorem closes_of_exec {c : Instr} (h : exec c s = .next t) : Closes s t := by
  obtain ⟨u, hu, hcloses⟩ := exec_closes c s
  rw [hu] at h
  exact Host.Outcome.next.inj h ▸ hcloses

/-- Every step keeps every invariant, and leaves nothing waiting in vain. -/
theorem closes_of_step (h : step s = .next t) : Closes s t := by
  unfold step at h
  split at h
  · next rest _ =>
    have hpop : Closes s { s with pending := rest } := .of_rest rfl rfl rfl rfl rfl rfl
    exact hpop.trans (closes_of_exec h)
  · unfold idle at h
    split at h
    · exact closes_of_exec h
    · exact Host.Outcome.next.inj h ▸ .of_rest rfl rfl rfl rfl rfl rfl

/-! ### The obligations -/

/-- Settles O55: the invariant is carried through every operation by `Keeps`. -/
theorem everyStepKeepsTheLidSafe : Obligations.EveryStepKeepsTheLidSafe := by
  unfold Obligations.EveryStepKeepsTheLidSafe
  exact fun s t hsafe hstep => (closes_of_step hstep).lidSafe hsafe

/-- Settles O56: both laws together are the lawfulness of every slot, which `Keeps` carries under the law of the wait list. -/
theorem everyStepKeepsTheLineLaw : Obligations.EveryStepKeepsTheLineLaw := by
  unfold Obligations.EveryStepKeepsTheLineLaw
  intro s t hwaiters hquiet hline hstep
  exact t.lawful_iff.mp ((closes_of_step hstep).lawful hwaiters (s.lawful_iff.mpr ⟨hquiet, hline⟩))

/-- Settles O57: the five bounds are carried through every operation by `Keeps`. -/
theorem everyStepKeepsTheBounds : Obligations.EveryStepKeepsTheBounds := by
  unfold Obligations.EveryStepKeepsTheBounds
  intro s t hstep
  obtain ⟨⟨⟨-, queue, list, ring, replies, inbound, -, -⟩, -⟩, -⟩ := closes_of_step hstep
  exact ⟨queue, list, ring, replies, inbound⟩

/-- Settles O58: the two accounts together are `Store.Accounted`, which `Keeps` carries. -/
theorem everyStepKeepsTheStoreAccounts : Obligations.EveryStepKeepsTheStoreAccounts := by
  unfold Obligations.EveryStepKeepsTheStoreAccounts
  intro s t hstep
  have hcloses := closes_of_step hstep
  exact ⟨hcloses.pool, fun hpages hrefs => t.accounted_iff.mp (hcloses.accounts (s.accounted_iff.mpr ⟨hpages, hrefs⟩))⟩

/-- Settles O59: the three laws together are `State.Settled`, which `Closes` carries. -/
theorem everyStepLeavesNothingWaitingInVain : Obligations.EveryStepLeavesNothingWaitingInVain := by
  unfold Obligations.EveryStepLeavesNothingWaitingInVain
  intro s t hwaiters hheads hentries hstep
  obtain ⟨waiters, heads, entries⟩ := (closes_of_step hstep).settles ⟨hwaiters, hheads, hentries⟩
  exact ⟨waiters, heads, entries⟩

/-- Settles O60: after reset nothing is queued, nothing runs and nothing waits. -/
theorem resetMeetsTheInvariants : Obligations.ResetMeetsTheInvariants := by
  unfold Obligations.ResetMeetsTheInvariants
  have h := reset_cleared
  obtain ⟨hquiet, hline⟩ := State.reset.lawful_iff.mp h.lawful
  obtain ⟨hpages, hrefs⟩ := State.reset.accounted_iff.mp h.accounted
  exact ⟨h.lidSafe, hquiet, hline, h.queueBounded, h.listBounded, h.ringBounded, Nat.zero_le _, h.inboundBounded, Store.reset_wf,
    hpages, hrefs, h.waiters, h.settled.heads, h.settled.entries⟩

end Sys2Proof.Machine
end

