-- ==== Sys2Proof/Proofs/Fields.lean ====
section
/-! PROOF. Fields of bodies: a byte or a little-endian field read where it stands, and the enumerations' codes in both directions. -/

namespace Sys2Proof.Machine

/-! ### Reading a body -/

@[simp] theorem byteAt_cons_zero (b : Byte) (bs : List Byte) : byteAt (b :: bs) 0 = b := rfl
@[simp] theorem byteAt_cons_succ (b : Byte) (bs : List Byte) (k : Nat) : byteAt (b :: bs) (k + 1) = byteAt bs k := by simp [byteAt]
@[simp] theorem byteNat_cons_zero (b : Byte) (bs : List Byte) : byteNat (b :: bs) 0 = b.toNat := rfl
@[simp] theorem byteNat_cons_succ (b : Byte) (bs : List Byte) (k : Nat) : byteNat (b :: bs) (k + 1) = byteNat bs k := by simp [byteNat]

theorem byteAt_append_right {front : List Byte} {k : Nat} (h : front.length ≤ k) (rest : List Byte) :
    byteAt (front ++ rest) k = byteAt rest (k - front.length) := by
  simp [byteAt, List.getElem?_append_right h]

@[simp] theorem byteAt_le_append {w k : Nat} (n : Nat) (rest : List Byte) (h : w ≤ k) : byteAt (le w n ++ rest) k = byteAt rest (k - w) := by
  rw [byteAt_append_right (by rwa [le_length]), le_length]

@[simp] theorem byteNat_le_append {w k : Nat} (n : Nat) (rest : List Byte) (h : w ≤ k) : byteNat (le w n ++ rest) k = byteNat rest (k - w) :=
  congrArg BitVec.toNat (byteAt_le_append n rest h)

@[simp] theorem field_cons_succ (b : Byte) (bs : List Byte) (o w : Nat) : field (b :: bs) (o + 1) w = field bs o w := rfl

@[simp] theorem field_le_append (w n : Nat) (rest : List Byte) : field (le w n ++ rest) 0 w = n % 256 ^ w := by
  unfold field
  rw [List.drop_zero, List.take_left' (le_length w n), leNat_le]

@[simp] theorem field_le (w n : Nat) : field (le w n) 0 w = n % 256 ^ w := by
  have := field_le_append w n []
  rwa [List.append_nil] at this

@[simp] theorem field_le_skip {w o : Nat} (n v : Nat) (rest : List Byte) (h : w ≤ o) : field (le w n ++ rest) o v = field rest (o - w) v := by
  unfold field
  rw [List.drop_append, List.drop_eq_nil_of_le (by rwa [le_length]), List.nil_append, le_length]

/-! ### Numbers as indices and booleans -/

@[simp] theorem finOf_val {n : Nat} (k : Fin n) : finOf n k.val = some k := by simp [finOf]

theorem finOf_of_le {n k : Nat} (h : n ≤ k) : finOf n k = none := by simp [finOf, Nat.not_lt.mpr h]

theorem finOf_eq_some_iff {n k : Nat} {i : Fin n} : finOf n k = some i ↔ k = i.val := by
  unfold finOf
  split
  · rw [Option.some.injEq, Fin.ext_iff]
  · next h => exact ⟨fun hn => (nomatch hn), fun hk => absurd (hk ▸ i.isLt) h⟩

@[simp] theorem boolOf_boolCode (b : Bool) : boolOf (boolCode b) = some b := by cases b <;> rfl

theorem boolOf_of_lt {n : Nat} (h : 1 < n) : boolOf n = none := by
  match n, h with
  | n + 2, _ => rfl

theorem boolCode_lt (b : Bool) : boolCode b < 256 := by cases b <;> decide

theorem byte_toNat_fin {n : Nat} (k : Fin n) (h : n ≤ 256) : (byte k.val).toNat = k.val := byteNat_byte _ (k.isLt.trans_le h)

@[simp] theorem byte_toNat_boolCode (b : Bool) : (byte (boolCode b)).toNat = boolCode b := byteNat_byte _ (boolCode_lt b)

theorem byte_self (b : Byte) : byte b.toNat = b := BitVec.eq_of_toNat_eq (byteNat_byte _ b.isLt)

/-! ### Enumerations -/

@[simp] theorem Metric.ofCode_code (m : Metric) : Metric.ofCode m.code = some m := by cases m <;> rfl
@[simp] theorem LimitClass.ofCode_code (c : LimitClass) : LimitClass.ofCode c.code = some c := by cases c <;> rfl
@[simp] theorem GuardAction.ofCode_code (a : GuardAction) : GuardAction.ofCode a.code = some a := by cases a <;> rfl

theorem Metric.ofCode_of_lt {n : Nat} (h : 5 < n) : Metric.ofCode n = none := by
  match n, h with
  | n + 6, _ => rfl

theorem LimitClass.ofCode_of_lt {n : Nat} (h : 1 < n) : LimitClass.ofCode n = none := by
  match n, h with
  | n + 2, _ => rfl

theorem GuardAction.ofCode_of_lt {n : Nat} (h : 1 < n) : GuardAction.ofCode n = none := by
  match n, h with
  | n + 2, _ => rfl

theorem Metric.code_lt (m : Metric) : m.code < 256 := by cases m <;> decide
theorem LimitClass.code_lt (c : LimitClass) : c.code < 256 := by cases c <;> decide
theorem GuardAction.code_lt (a : GuardAction) : a.code < 256 := by cases a <;> decide

@[simp] theorem Metric.byte_code_toNat (m : Metric) : (byte m.code).toNat = m.code := byteNat_byte _ m.code_lt
@[simp] theorem LimitClass.byte_code_toNat (c : LimitClass) : (byte c.code).toNat = c.code := byteNat_byte _ c.code_lt
@[simp] theorem GuardAction.byte_code_toNat (a : GuardAction) : (byte a.code).toNat = a.code := byteNat_byte _ a.code_lt

/-! ### Requests of the two addressings -/

variable {s t : State} {r : Request}

/-- The length of a body that a request allows, and the answer of its owner. -/
theorem cell_next {k : CellRequest} (h : s.LinkReady) {body : List Byte} (hr : r.toCell body)
    (hl : k.lengthOk body.length = true) {c : ReplyCode} {rest : List Byte} {p : State × List Byte}
    (hk : cellOwner k body s = (p.1, some p.2)) (hp : p = (t, replyBody c rest)) {code : Byte} (hcode : k.code ||| 0x80#8 = code) :
    (.next (sendRequest k.code r s) : Host.Outcome State Fault Refusal) = .next (answer code r c rest t) := by
  rw [← hcode]
  exact congrArg Host.Outcome.next (cell_answer s k r h hr hl (by rw [hk, hp]))

theorem slot_next {k : SlotRequest} {i : Slot} (h : s.LinkReady) {body : List Byte} (hr : r.toSlot i body)
    (hl : k.lengthOk body = true) {c : ReplyCode} {rest : List Byte}
    (hp : slotOwner k i body s = (t, replyBody c rest)) {code : Byte} (hcode : k.code ||| 0x80#8 = code) :
    (.next (sendRequest k.code r s) : Host.Outcome State Fault Refusal) = .next (answer code r c rest t) := by
  rw [← hcode]
  exact congrArg Host.Outcome.next (slot_answer s k i r h hr hl hp)

end Sys2Proof.Machine
end

