-- ==== Sys2Proof/Proofs/CellRequests.lean ====
section
/-! PROOF. The requests of the cell that report, set a notice, write the guard or write the limit table. -/

namespace Sys2Proof.Machine

variable {s : State} {r : Request}

/-! ### Reports -/

theorem alert_iff (s : State) : s.alert = true ↔ ∃ i : Slot, (s.slot i).power.state = .fault := by
  simp [State.alert, mem_allSlots]

theorem Engine.queueCount_ne_zero_iff (e : Engine) : e.queueCount ≠ 0 ↔ e.flight ≠ none ∨ e.waiting ≠ [] := by
  cases hf : e.flight <;> simp [Engine.queueCount, Engine.queue, hf]

theorem active_iff (s : State) : s.active = true ↔ ∃ i : Slot, (s.slot i).engine.flight ≠ none ∨ (s.slot i).engine.waiting ≠ [] := by
  simp [State.active, mem_allSlots, Engine.queueCount_ne_zero_iff]

/-- Settles O2. -/
theorem cellInfoAndStatusReport : Obligations.CellInfoAndStatusReport := by
  unfold Obligations.CellInfoAndStatusReport
  intro s r h hr
  exact ⟨cell_next (k := .cellInfo) h hr rfl rfl rfl rfl, cell_next (k := .cellStatus) h hr rfl rfl rfl rfl, alert_iff s, active_iff s⟩

/-- Settles O14. -/
theorem objListAndInstrStatusReport : Obligations.ObjListAndInstrStatusReport := by
  unfold Obligations.ObjListAndInstrStatusReport
  intro s r h hr
  refine ⟨cell_next (k := .objList) h hr rfl rfl ?_ rfl, cell_next (k := .instrStatus) h hr rfl rfl ?_ rfl⟩
  · have hitem (x : ObjectRecord) : objectItem x = [byte x.state.code] ++ le 4 x.length ++ le 4 x.fill ++ le 2 x.pages.length ++ le 2 x.refs
        ++ le 2 ((x.check.map BitVec.toNat).getD 0) := by
      unfold objectItem
      cases x.check <;> simp
    simp only [objList, hitem]
  · have hport (p : Port) : portBytes s.time s.ports[p] = (match s.ports[p] with
        | some h => [byte h.slot.val] ++ le 4 (h.deadline - s.time).toNat
        | none => [0xFF#8, 0xFF#8, 0xFF#8, 0xFF#8, 0xFF#8]) := by
      cases s.ports[p] <;> rfl
    have hentry (e : WaitEntry) : e.bytes s.time = [byte e.slot.val, byte e.mask.toNat] ++ le 4 (e.deadline - s.time).toNat := rfl
    simp only [instrStatus, allPorts, hport, funext hentry, List.append_assoc, List.singleton_append] <;> rfl

/-! ### NOTICE_SET (R175, R189) -/

theorem noticeIndex_byte (k : Fin 8) : noticeIndex (byte (0x61 + k.val)).toNat = some k := by
  revert k; decide

theorem byte_of_noticeIndex {target : Byte} {k : Fin 8} (h : noticeIndex target.toNat = some k) : target = byte (0x61 + k.val) := by
  unfold noticeIndex at h
  split at h
  · next hle =>
    have := finOf_eq_some_iff.mp h
    rw [← this, Nat.add_sub_cancel' hle, byte_self]
  · exact nomatch h

theorem clampNat_fifteen (v : Nat) : clampNat v 0 15 = min v 15 := by unfold clampNat; omega

theorem okOr_clamped (v : Nat) : okOr (decide (15 < v)) = if v ≤ 15 then ReplyCode.ok else ReplyCode.clamped := by
  unfold okOr
  by_cases h : v ≤ 15
  · simp [h]
  · simp [h, Nat.not_le.mp h]

/-- Settles O4. -/
theorem noticeSetSetsOneValue : Obligations.NoticeSetSetsOneValue := by
  unfold Obligations.NoticeSetSetsOneValue
  intro s r target v h hr
  refine ⟨fun ht => ?_, fun k hk => ?_, fun hzero hno => ?_⟩
  · refine cell_next (k := .noticeSet) h hr rfl rfl ?_ rfl
    simp [noticeSet, clampNat_fifteen, okOr_clamped, ht]
  · refine cell_next (k := .noticeSet) h hr rfl rfl ?_ rfl
    have hne : target.toNat ≠ 0 := by
      have := k.isLt
      rw [hk, byteNat_byte _ (by omega)]
      omega
    have hindex : noticeIndex target.toNat = some k := hk ▸ noticeIndex_byte k
    simp [noticeSet, clampNat_fifteen, okOr_clamped, hne, hindex]
  · refine cell_next (k := .noticeSet) h hr rfl rfl ?_ rfl
    have hne : target.toNat ≠ 0 := fun ht => hzero (BitVec.eq_of_toNat_eq ht)
    have hindex : noticeIndex target.toNat = none := Option.eq_none_iff_forall_ne_some.mpr fun k hk => hno k (byte_of_noticeIndex hk)
    simp [noticeSet, hne, hindex]

/-! ### The guard -/

@[simp] theorem GuardEntry.bytes_length (k : Fin 8) (e : GuardEntry) : (e.bytes k).length = 11 := by simp [GuardEntry.bytes]

/-- A guard entry's layout reads back. -/
theorem guardEntryOf_bytes (k : Fin 8) {e : GuardEntry} (h : e.codeLo.toNat ≤ e.codeHi.toNat) : guardEntryOf (e.bytes k) = some (k, e) := by
  have hlo := e.codeLo.isLt
  have hhi := e.codeHi.isLt
  have hslots := e.slots.isLt
  have hk := byte_toNat_fin k (by decide)
  unfold guardEntryOf GuardEntry.bytes
  simp [hk, Nat.mod_eq_of_lt hlo, Nat.mod_eq_of_lt hhi, Nat.mod_eq_of_lt hslots, Nat.not_lt.mpr h]

/-- A malformed body names no guard entry. -/
theorem guardEntryOf_malformed {body : List Byte} (h : 7 < byteNat body 0 ∨ 1 < byteNat body 1 ∨ field body 4 2 < field body 2 2 ∨
    1 < byteNat body 9 ∨ 1 < byteNat body 10) : guardEntryOf body = none := by
  unfold guardEntryOf
  split
  · next hk hvalid haction hlocked =>
    rcases h with h | h | h | h | h
    · rw [finOf_of_le h] at hk; exact nomatch hk
    · rw [boolOf_of_lt h] at hvalid; exact nomatch hvalid
    · exact if_pos h
    · rw [GuardAction.ofCode_of_lt h] at haction; exact nomatch haction
    · rw [boolOf_of_lt h] at hlocked; exact nomatch hlocked
  · rfl

/-- Settles O5. -/
theorem guardWriteReplacesAnUnlockedEntry : Obligations.GuardWriteReplacesAnUnlockedEntry := by
  unfold Obligations.GuardWriteReplacesAnUnlockedEntry
  intro s r h
  refine ⟨fun k e hr hle => ?_, fun hr hlength hbad => ?_⟩
  · split
    · next hlocked =>
      refine cell_next (k := .guardWrite) h hr (by simp [CellRequest.lengthOk]) rfl ?_ rfl
      rw [guardWrite, guardEntryOf_bytes k hle]
      exact if_pos hlocked
    · next hlocked =>
      refine cell_next (k := .guardWrite) h hr (by simp [CellRequest.lengthOk]) rfl ?_ rfl
      rw [guardWrite, guardEntryOf_bytes k hle]
      exact if_neg hlocked
  · refine cell_next (k := .guardWrite) h hr (by simp [CellRequest.lengthOk, hlength]) rfl ?_ rfl
    simp [guardWrite, guardEntryOf_malformed hbad]

theorem lockedEntries_ne_zero_iff (s : State) : s.lockedEntries ≠ 0 ↔ ∃ k : Fin 8, s.guard[k].locked = true := by
  unfold State.lockedEntries
  rw [Nat.ne_zero_iff_zero_lt, List.length_pos_iff_exists_mem]
  constructor
  · rintro ⟨e, he⟩
    obtain ⟨hmem, hlocked⟩ := List.mem_filter.mp he
    obtain ⟨k, hk, rfl⟩ := Vector.mem_iff_getElem.mp (Vector.mem_toList_iff.mp hmem)
    exact ⟨⟨k, hk⟩, hlocked⟩
  · rintro ⟨k, hk⟩
    exact ⟨s.guard[k], List.mem_filter.mpr ⟨Vector.mem_toList_iff.mpr (Vector.getElem_mem k.isLt), hk⟩⟩

/-- Settles O6. -/
theorem guardReadAndDefault : Obligations.GuardReadAndDefault := by
  unfold Obligations.GuardReadAndDefault
  intro s r b h hr
  refine ⟨fun k hk => ?_, fun hb => ?_, fun a ha => ?_, fun hb => ?_⟩
  · refine cell_next (k := .guardRead) h hr rfl rfl ?_ rfl
    have hnat : b.toNat = k.val := hk ▸ byte_toNat_fin k (by decide)
    simp [guardRead, hnat, State.lockedEntries]
  · refine cell_next (k := .guardRead) h hr rfl rfl ?_ rfl
    simp [guardRead, finOf_of_le hb]
  · have hnat : b.toNat = a.code := by rw [ha, GuardAction.byte_code_toNat]
    split
    · next hlocked =>
      refine cell_next (k := .guardDefault) h hr rfl rfl ?_ rfl
      simp [guardDefault, hnat, (lockedEntries_ne_zero_iff s).mpr hlocked]
    · next hlocked =>
      refine cell_next (k := .guardDefault) h hr rfl rfl ?_ rfl
      have hzero : s.lockedEntries = 0 := by_contra fun hne => hlocked ((lockedEntries_ne_zero_iff s).mp hne)
      simp [guardDefault, hzero, ha]
  · refine cell_next (k := .guardDefault) h hr rfl rfl ?_ rfl
    simp [guardDefault, GuardAction.ofCode_of_lt hb]

theorem GuardEntry.covers_iff (e : GuardEntry) (code : BitVec 16) (i : Slot) : e.covers code i = true ↔
    e.valid = true ∧ e.codeLo.toNat ≤ code.toNat ∧ code.toNat ≤ e.codeHi.toNat ∧ e.slots.getLsbD i.val = true := by
  simp [GuardEntry.covers]

/-- Settles O7: a search in index order finds the first entry that meets its condition. -/
theorem guardDecidesByTheFirstCoveringEntry : Obligations.GuardDecidesByTheFirstCoveringEntry := by
  unfold Obligations.GuardDecidesByTheFirstCoveringEntry
  intro s code i
  refine ⟨fun k hk hbefore => ?_, fun hno => ?_⟩
  · have hfind : s.guard.toList.find? (fun e => e.covers code i) = some s.guard[k] := by
      rw [List.find?_eq_some_iff_getElem]
      refine ⟨(GuardEntry.covers_iff _ _ _).mpr hk, k.val, by simp, by simp, fun j hj => ?_⟩
      have hj8 : j < 8 := hj.trans k.isLt
      have := mt (GuardEntry.covers_iff _ _ _).mp (hbefore ⟨j, hj8⟩ hj)
      simpa using this
    unfold State.guardDecision
    rw [hfind]
  · have hfind : s.guard.toList.find? (fun e => e.covers code i) = none := by
      rw [List.find?_eq_none]
      intro e he hcovers
      obtain ⟨k, hk, rfl⟩ := Vector.mem_iff_getElem.mp (Vector.mem_toList_iff.mp he)
      exact hno ⟨k, hk⟩ ((GuardEntry.covers_iff _ _ _).mp hcovers)
    unfold State.guardDecision
    rw [hfind]

/-! ### The limit table -/

@[simp] theorem LimitEntry.bytes_length (k : Fin 64) (e : LimitEntry) : (e.bytes k).length = 14 := by simp [LimitEntry.bytes]

theorem field_leInt_append (z : Int) (rest : List Byte) : field (leInt 4 z ++ rest) 0 4 = leNat (leInt 4 z) := by
  unfold field
  rw [List.drop_zero, List.take_left' (leInt_length 4 z)]

theorem field_leInt_skip {o : Nat} (z : Int) (v : Nat) (rest : List Byte) (h : 4 ≤ o) :
    field (leInt 4 z ++ rest) o v = field rest (o - 4) v := field_le_skip _ v rest h

theorem byteNat_leInt_append {k : Nat} (z : Int) (rest : List Byte) (h : 4 ≤ k) :
    byteNat (leInt 4 z ++ rest) k = byteNat rest (k - 4) := byteNat_le_append _ rest h

/-- A limit entry's layout reads back. -/
theorem limitEntryOf_bytes (k : Fin 64) {e : LimitEntry} (hlo : -2147483648 ≤ e.lo) (hle : e.lo ≤ e.hi) (hhi : e.hi ≤ 2147483647)
    (hthreshold : e.threshold ≤ 255) (hne : e.threshold ≠ 254) : limitEntryOf (e.bytes k) = some (k, e) := by
  have hk := byte_toNat_fin k (by decide)
  have hset := byte_toNat_fin e.set (by decide)
  have hth : (byte e.threshold).toNat = e.threshold := byteNat_byte _ (by omega)
  have hlow := signedOf_leInt e.lo hlo (hle.trans hhi)
  have hhigh := signedOf_leInt e.hi (hlo.trans hle) hhi
  unfold limitEntryOf LimitEntry.bytes
  simp [hk, hset, hth, byteNat_leInt_append, field_leInt_append, field_leInt_skip, hlow, hhigh, Int.not_lt.mpr hle, hne]

/-- A malformed body names no limit entry. -/
theorem limitEntryOf_malformed {body : List Byte} (h : 63 < byteNat body 0 ∨ 1 < byteNat body 1 ∨ 15 < byteNat body 2 ∨
    5 < byteNat body 3 ∨ byteNat body 12 = 254 ∨ 1 < byteNat body 13 ∨
    signedOf 4 (field body 8 4) < signedOf 4 (field body 4 4)) : limitEntryOf body = none := by
  unfold limitEntryOf
  split
  · next hk hvalid hset hmetric hcls =>
    rcases h with h | h | h | h | h | h | h
    · rw [finOf_of_le h] at hk; exact nomatch hk
    · rw [boolOf_of_lt h] at hvalid; exact nomatch hvalid
    · rw [finOf_of_le h] at hset; exact nomatch hset
    · rw [Metric.ofCode_of_lt h] at hmetric; exact nomatch hmetric
    · exact if_pos (.inr h)
    · rw [LimitClass.ofCode_of_lt h] at hcls; exact nomatch hcls
    · exact if_pos (.inl h)
  · rfl

/-- Settles O8. -/
theorem limitWriteAndRead : Obligations.LimitWriteAndRead := by
  unfold Obligations.LimitWriteAndRead
  intro s r h
  refine ⟨fun k e hr hlo hle hhi hthreshold hne => ?_, fun hr hlength hbad => ?_, fun k hr => ?_, fun b hr hb => ?_⟩
  · refine cell_next (k := .limitWrite) h hr (by simp [CellRequest.lengthOk]) rfl ?_ rfl
    simp [limitWrite, limitEntryOf_bytes k hlo hle hhi hthreshold hne]
  · refine cell_next (k := .limitWrite) h hr (by simp [CellRequest.lengthOk, hlength]) rfl ?_ rfl
    simp [limitWrite, limitEntryOf_malformed hbad]
  · refine cell_next (k := .limitRead) h hr rfl rfl ?_ rfl
    simp [limitRead, byte_toNat_fin k (by decide)]
  · refine cell_next (k := .limitRead) h hr rfl rfl ?_ rfl
    simp [limitRead, finOf_of_le hb]

end Sys2Proof.Machine
end

