-- ==== Sys2Proof/Proofs/StoreRequests.lean ====
section
/-! PROOF. The requests of the payload store, and that bytes written into an object's pages read back. -/

namespace Sys2Proof.Machine

variable {s : State} {r : Request}

/-- A byte that is the code of an index names it. -/
theorem finOf_byte {n : Nat} (k : Fin n) (h : n ≤ 256) : finOf n (byte k.val).toNat = some k := by
  rw [byte_toNat_fin k h, finOf_val]

/-- Settles O9. -/
theorem objOpenAllocatesPages : Obligations.ObjOpenAllocatesPages := by
  unfold Obligations.ObjOpenAllocatesPages
  intro s r h
  refine ⟨fun o length hlength hr => ?_, fun body hr hlength hbad => ?_⟩
  · have hfield : field (byte o.val :: le 4 length) 1 4 = length := by
      rw [field_cons_succ, field_le]
      exact Nat.mod_eq_of_lt hlength
    have ho : finOf 16 (byteNat (byte o.val :: le 4 length) 0) = some o := finOf_byte o (by decide)
    have hnext {c : ReplyCode} {rest : List Byte} {t : State} (hopen : objOpen (byte o.val :: le 4 length) s = (t, replyBody c rest)) :
        exec (.objOpen r) s = .next (answer 0x90#8 r c rest t) := cell_next (k := .objOpen) h hr (by simp [CellRequest.lengthOk]) rfl hopen rfl
    unfold objOpen at hnext
    rw [hfield, ho] at hnext
    dsimp only at hnext ⊢
    split
    · next hbad => exact hnext (if_pos hbad)
    next hbad =>
    rw [if_neg hbad] at hnext
    split
    · next hstate => exact hnext (if_pos hstate)
    next hstate =>
    rw [if_neg hstate] at hnext
    split
    · next hfull => exact hnext (if_pos hfull)
    next hfull =>
    refine hnext ((if_neg (show ¬ s.store.free.length < pagesFor length from hfull)).trans ?_)
    rw [List.length_drop]
    rfl
  · refine cell_next (k := .objOpen) h hr (by simp [CellRequest.lengthOk, hlength]) rfl ?_ rfl
    simp [objOpen, finOf_of_le hbad]

/-- Settles O10. -/
theorem objDataWritesAtTheFillLevel : Obligations.ObjDataWritesAtTheFillLevel := by
  unfold Obligations.ObjDataWritesAtTheFillLevel
  intro s r h
  refine ⟨fun o offset data hoffset hmin hmax hr => ?_, fun body hr hmin hmax hbad => ?_⟩
  · have hfield : field (byte o.val :: (le 4 offset ++ data)) 1 4 = offset := by
      rw [field_cons_succ, field_le_append]
      exact Nat.mod_eq_of_lt hoffset
    have hdata : (byte o.val :: (le 4 offset ++ data)).drop 5 = data := by
      rw [List.drop_succ_cons, List.drop_left' (le_length 4 offset)]
    have ho : finOf 16 (byteNat (byte o.val :: (le 4 offset ++ data)) 0) = some o := finOf_byte o (by decide)
    have hnext {c : ReplyCode} {rest : List Byte} {t : State}
        (hdata : objData (byte o.val :: (le 4 offset ++ data)) s = (t, replyBody c rest)) :
        exec (.objData r) s = .next (answer 0x91#8 r c rest t) :=
      cell_next (k := .objData) h hr (by simp [CellRequest.lengthOk]; omega) rfl hdata rfl
    unfold objData at hnext
    rw [hfield, hdata, ho] at hnext
    dsimp only at hnext ⊢
    split
    · next hempty => exact hnext (if_pos hempty)
    next hempty =>
    rw [if_neg hempty] at hnext
    split
    · next hstate => exact hnext (if_pos hstate)
    next hstate =>
    rw [if_neg hstate] at hnext
    split
    · next hfill => exact hnext (if_pos hfill)
    next hfill =>
    rw [if_neg hfill] at hnext
    split
    · next hlong => exact hnext (if_pos hlong)
    next hlong =>
    rw [if_neg hlong] at hnext
    rw [not_not.mp hfill] at hnext ⊢
    exact hnext rfl
  · refine cell_next (k := .objData) h hr (by simp [CellRequest.lengthOk, hmin, hmax]) rfl ?_ rfl
    simp [objData, finOf_of_le hbad]

/-! ### Bytes in pages (R143, R145) -/

/-- Two bytes of one object lie at two addresses. -/
theorem byteAddress_injective {pages : List Nat} (hnd : pages.Nodup) {j k : Nat} (hj : j < 256 * pages.length) (hk : k < 256 * pages.length)
    (h : byteAddress pages j = byteAddress pages k) : j = k := by
  unfold byteAddress Config.pageSize at h
  have hjp : j / 256 < pages.length := by omega
  have hkp : k / 256 < pages.length := by omega
  rw [List.getD_eq_getElem _ _ hjp, List.getD_eq_getElem _ _ hkp] at h
  have hpage : pages[j / 256] = pages[k / 256] := by omega
  have := (List.Nodup.getElem_inj_iff hnd).mp hpage
  omega

/-- The bytes written stand where they were written. -/
theorem writePages_read {pages : List Nat} (hnd : pages.Nodup) (data : List Byte) : ∀ (offset : Nat) (m : Memory), m.wf = true →
    offset + data.length ≤ 256 * pages.length → ∀ k (hk : k < data.length),
      (writePages pages offset data m).read (byteAddress pages (offset + k)) = data[k] := by
  induction data with
  | nil => exact fun _ _ _ _ k hk => absurd hk (Nat.not_lt_zero k)
  | cons b bs ih =>
    intro offset m hm hfits k hk
    rw [List.length_cons] at hfits
    have hwrite := Memory.write_wf m (byteAddress pages offset) b hm
    cases k with
    | zero =>
      rw [writePages, writePages_read_ne pages _ bs _ _ hwrite fun j hj h => ?_, Nat.add_zero, Memory.read_write _ _ _ _ hm, if_pos rfl]
      · rfl
      · have := byteAddress_injective hnd (by omega) (by omega) h
        omega
    | succ k =>
      have hrest := ih (offset + 1) _ hwrite (by omega) k (by simpa using hk)
      rw [writePages, List.getElem_cons_succ, show offset + (k + 1) = offset + 1 + k by omega]
      exact hrest

/-- Settles O11: the bytes of one object lie at different addresses, so no later write of the run touches an earlier one. -/
theorem writtenPagesReadBack : Obligations.WrittenPagesReadBack := by
  unfold Obligations.WrittenPagesReadBack
  intro pages offset data m hm hnd hfits
  refine ⟨List.ext_getElem (by simp [readPages]) fun k _ hk => ?_, fun a ha => ?_⟩
  · simp only [readPages, List.getElem_map, List.getElem_range]
    exact writePages_read hnd data offset m hm hfits k hk
  · exact writePages_read_ne pages a data offset m hm fun k hk h => ha k hk h.symm

/-! ### OBJ_SEAL and OBJ_DELETE (R146, R147, R150) -/

/-- Settles O12. -/
theorem objSealSeals : Obligations.ObjSealSeals := by
  unfold Obligations.ObjSealSeals
  intro s r b h hr
  refine ⟨fun o hb => ?_, fun hb => ?_⟩
  · have ho : finOf 16 (byteNat [b] 0) = some o := hb ▸ finOf_byte o (by decide)
    have hnext {c : ReplyCode} {rest : List Byte} {t : State} (hseal : objSeal [b] s = (t, replyBody c rest)) :
        exec (.objSeal r) s = .next (answer 0x92#8 r c rest t) := cell_next (k := .objSeal) h hr rfl rfl hseal rfl
    unfold objSeal at hnext
    rw [ho] at hnext
    dsimp only at hnext ⊢
    split
    · next hempty => exact hnext (if_pos hempty)
    next hempty =>
    rw [if_neg hempty] at hnext
    split
    · next hstate => exact hnext (if_pos hstate)
    next hstate =>
    rw [if_neg hstate] at hnext
    split
    · next hfill => exact hnext (if_pos hfill)
    next hfill =>
    rw [if_neg hfill] at hnext
    exact hnext rfl
  · refine cell_next (k := .objSeal) h hr rfl rfl ?_ rfl
    simp [objSeal, finOf_of_le hb]

theorem deleteReply_freed (t : Store) (o : Fin 16) : deleteReply (t.freeObject o) o =
    replyBody .ok (byte 0 :: (le 2 0 ++ le 2 (t.free.length + (t.object o).pages.length))) := by
  unfold deleteReply
  rw [Store.freeObject_object_same]
  unfold Store.freeObject
  dsimp only
  rw [List.length_append]
  rfl

theorem deleteReply_condemned (t : Store) (o : Fin 16) {x : ObjectRecord} (h : t.object o = x) (hstate : x.state = .condemned) :
    deleteReply t o = replyBody .ok (byte 3 :: (le 2 x.refs ++ le 2 t.free.length)) := by
  unfold deleteReply
  rw [h, hstate]
  rfl

/-- Settles O13. -/
theorem objDeleteFreesOrCondemns : Obligations.ObjDeleteFreesOrCondemns := by
  unfold Obligations.ObjDeleteFreesOrCondemns
  intro s r b h hr
  refine ⟨fun o hb => ?_, fun hb => ?_⟩
  · have ho : finOf 16 (byteNat [b] 0) = some o := hb ▸ finOf_byte o (by decide)
    have hnext {c : ReplyCode} {rest : List Byte} {t : State} (hdelete : objDelete [b] s = (t, replyBody c rest)) :
        exec (.objDelete r) s = .next (answer 0x93#8 r c rest t) := cell_next (k := .objDelete) h hr rfl rfl hdelete rfl
    have hfreed : ({ s with store := s.store.freeObject o }, deleteReply (s.store.freeObject o) o) =
        (({ s with store := { s.store with
          objects := s.store.objects.set o ⟨.empty, 0, 0, [], 0, none⟩
          free := s.store.free ++ (s.store.object o).pages } } : State),
          replyBody .ok (byte 0 :: (le 2 0 ++ le 2 (s.store.free.length + (s.store.object o).pages.length)))) := by
      rw [deleteReply_freed]
      rfl
    unfold objDelete at hnext
    rw [ho] at hnext
    dsimp only at hnext ⊢
    split
    · next hstate =>
      rw [hstate] at hnext
      exact hnext rfl
    · next hstate =>
      rw [hstate] at hnext
      exact hnext hfreed
    · next hstate =>
      rw [hstate] at hnext
      dsimp only at hnext
      split
      · next hrefs =>
        rw [if_pos hrefs] at hnext
        exact hnext hfreed
      · next hrefs =>
        rw [if_neg hrefs] at hnext
        refine hnext ?_
        rw [deleteReply_condemned _ _ (Store.putObject_object_same _ _ _) rfl]
        rfl
    · next hstate =>
      rw [hstate] at hnext
      refine hnext ?_
      rw [deleteReply_condemned _ _ rfl hstate]
  · refine cell_next (k := .objDelete) h hr rfl rfl ?_ rfl
    simp [objDelete, finOf_of_le hb]

end Sys2Proof.Machine
end

