-- ==== Sys2Proof/Proofs/SlotSettings.lean ====
section
/-! PROOF. The requests that set a slot's settings or read its state. -/

namespace Sys2Proof.Machine

variable {s t : State} {r : Request} {i : Slot} {x : SlotState}

/-! ### SLOT_CONFIG (R195) -/

theorem Baud.ofValue_eq_some_iff {n : Nat} {b : Baud} : Baud.ofValue n = some b ↔ b.value = n := by
  unfold Baud.ofValue
  constructor
  · intro h
    split at h
    · next hn => cases h; exact hn.symm
    split at h
    · next hn => cases h; exact hn.symm
    split at h
    · next hn => cases h; exact hn.symm
    split at h
    · next hn => cases h; exact hn.symm
    · exact nomatch h
  · rintro rfl
    cases b <;> rfl

theorem Baud.ofValue_eq_none_iff {n : Nat} : Baud.ofValue n = none ↔ n ∉ [115200, 460800, 921600, 3000000] := by
  constructor
  · intro h hmem
    have hnot (b : Baud) : b.value ≠ n := fun hb => by rw [Baud.ofValue_eq_some_iff.mpr hb] at h; exact nomatch h
    rcases List.mem_cons.mp hmem with rfl | hmem
    · exact hnot .b115200 rfl
    rcases List.mem_cons.mp hmem with rfl | hmem
    · exact hnot .b460800 rfl
    rcases List.mem_cons.mp hmem with rfl | hmem
    · exact hnot .b921600 rfl
    · exact hnot .b3000000 (List.mem_singleton.mp hmem).symm
  · intro h
    simp only [List.mem_cons, List.not_mem_nil, or_false, not_or] at h
    obtain ⟨h1, h2, h3, h4⟩ := h
    simp [Baud.ofValue, h1, h2, h3, h4]

/-- The presence bits, as the model and as the statement read them. -/
theorem presence_bit (n : Nat) {k : Nat} (h : k < 16) : (BitVec.ofNat 16 n).getLsbD k = n.testBit k := by
  rw [BitVec.getLsbD_ofNat, decide_eq_true h, Bool.true_and]

theorem setting_fst (p : Bool) (held v lo hi : Nat) : (setting p held v lo hi).1 = if p then max lo (min v hi) else held := by
  cases p <;> rfl

theorem setting_snd {p : Bool} {held v lo hi : Nat} (h : lo ≤ hi) : (setting p held v lo hi).2 = false ↔ (p = true → lo ≤ v ∧ v ≤ hi) := by
  cases p with
  | false => simp [setting]
  | true =>
    rw [show (setting true held v lo hi).2 = decide (clampNat v lo hi ≠ v) from rfl, decide_eq_false_iff_not, not_not,
      forall_prop_of_true rfl, clampNat]
    omega

theorem offsetSetting_fst (p : Bool) (held v : Int) : (offsetSetting p held v).1 = if p then max (-64) (min v 63) else held := by
  cases p <;> rfl

theorem offsetSetting_snd {p : Bool} {held v : Int} : (offsetSetting p held v).2 = false ↔ (p = true → -64 ≤ v ∧ v ≤ 63) := by
  cases p with
  | false => simp [offsetSetting]
  | true =>
    rw [show (offsetSetting true held v).2 = decide (clampInt v (-64) 63 ≠ v) from rfl, decide_eq_false_iff_not, not_not,
      forall_prop_of_true rfl, clampInt]
    omega

/-- No present field is clamped exactly where each lies in its range. -/
theorem configure_snd (x : SlotState) (body : List Byte) :
    let within (k offset lo hi : Nat) : Prop := (field body 0 2).testBit k = true → lo ≤ field body offset 2 ∧ field body offset 2 ≤ hi
    (x.configure body).2 = false ↔ within 1 6 512 2048 ∧
      ((field body 0 2).testBit 2 = true → -64 ≤ signedOf 2 (field body 8 2) ∧ signedOf 2 (field body 8 2) ≤ 63) ∧ within 3 10 100 4000 ∧
      within 4 12 3000 4500 ∧ within 5 14 100 8000 ∧ within 6 16 500 60000 ∧ within 7 18 1 500 := by
  dsimp only
  unfold SlotState.configure
  dsimp only
  simp only [Bool.or_eq_false_iff, and_assoc]
  rw [setting_snd (by decide), offsetSetting_snd, setting_snd (by decide), setting_snd (by decide), setting_snd (by decide),
    setting_snd (by decide), setting_snd (by decide)]
  simp only [presence_bit (field body 0 2) (by decide : 1 < 16), presence_bit (field body 0 2) (by decide : 2 < 16),
    presence_bit (field body 0 2) (by decide : 3 < 16), presence_bit (field body 0 2) (by decide : 4 < 16),
    presence_bit (field body 0 2) (by decide : 5 < 16), presence_bit (field body 0 2) (by decide : 6 < 16),
    presence_bit (field body 0 2) (by decide : 7 < 16)]

/-- The slot with every present field applied. -/
theorem configure_fst (x : SlotState) (body : List Byte) {baud : Baud} (hpresent : (field body 0 2).testBit 0 = true → baud.value = field body 2 4)
    (habsent : ¬ (field body 0 2).testBit 0 = true → baud = x.line.baud) :
    let number (k held offset lo hi : Nat) : Nat :=
      if (field body 0 2).testBit k then max lo (min (field body offset 2) hi) else held
    (x.configure body).1 = { x with
      line.baud := baud
      sampler := { x.sampler with
        gain := number 1 x.sampler.gain 6 512 2048
        offset := if (field body 0 2).testBit 2 then max (-64) (min (signedOf 2 (field body 8 2)) 63) else x.sampler.offset
        tripLevel := number 3 x.sampler.tripLevel 10 100 4000 }
      power.settings := ⟨number 4 x.power.settings.railVoltage 12 3000 4500, number 5 x.power.settings.pressTime 14 100 8000,
        number 6 x.power.settings.parkHold 16 500 60000, number 7 x.power.settings.parkLevel 18 1 500,
        if (field body 0 2).testBit 8 then BitVec.ofNat 16 (field body 20 2) else x.power.settings.shutdownCode⟩ } := by
  have hbit (k : Nat) (hk : k < 16) := presence_bit (field body 0 2) hk
  have hbaud : (if (field body 0 2).testBit 0 = true then (Baud.ofValue (field body 2 4)).getD x.line.baud else x.line.baud) = baud := by
    split
    · next h => rw [Baud.ofValue_eq_some_iff.mpr (hpresent h), Option.getD_some]
    · next h => exact (habsent h).symm
  dsimp only
  unfold SlotState.configure
  dsimp only
  simp only [setting_fst, offsetSetting_fst, hbit 0 (by decide), hbit 1 (by decide), hbit 2 (by decide), hbit 3 (by decide),
    hbit 4 (by decide), hbit 5 (by decide), hbit 6 (by decide), hbit 7 (by decide), hbit 8 (by decide), hbaud]

/-- Settles O15. -/
theorem slotConfigAppliesThePresentFields : Obligations.SlotConfigAppliesThePresentFields := by
  unfold Obligations.SlotConfigAppliesThePresentFields
  intro s r i body h hr hlength
  have hnext {c : ReplyCode} {rest : List Byte} {t : State} (hconfig : slotConfig i body s = (t, replyBody c rest)) :
      exec (.slotConfig r) s = .next (answer 0xA0#8 r c rest t) :=
    slot_next (k := .slotConfig) h hr (by simp [SlotRequest.lengthOk, hlength]) hconfig rfl
  have hbit (k : Nat) (hk : k < 16) := presence_bit (field body 0 2) hk
  unfold slotConfig at hnext
  dsimp only at hnext ⊢
  rw [hbit 0 (by decide), hbit 1 (by decide), hbit 2 (by decide)] at hnext
  have hmalformed : (512 ≤ field body 0 2 ∨ (field body 0 2).testBit 0 = true ∧ Baud.ofValue (field body 2 4) = none ∨
      (field body 0 2).testBit 1 ≠ (field body 0 2).testBit 2) ↔ (512 ≤ field body 0 2 ∨
      (field body 0 2).testBit 0 = true ∧ field body 2 4 ∉ [115200, 460800, 921600, 3000000] ∨
      ¬ ((field body 0 2).testBit 1 = true ↔ (field body 0 2).testBit 2 = true)) := by
    rw [Baud.ofValue_eq_none_iff, ne_eq, Bool.eq_iff_iff (a := (field body 0 2).testBit 1)]
  have hnew : Baud.ofValue (field body 2 4) ≠ some (s.slot i).line.baud ↔ field body 2 4 ≠ (s.slot i).line.baud.value := by
    rw [ne_eq, Baud.ofValue_eq_some_iff, ne_eq, eq_comm]
  refine ⟨fun hbad => hnext (if_pos (hmalformed.mpr hbad)), fun hgood hpresent hoff hstandby => ?_,
    fun hgood hallowed baud hpresent habsent => ?_⟩
  · rw [if_neg (mt hmalformed.mp hgood)] at hnext
    exact hnext (if_pos ⟨hpresent.1, hnew.mpr hpresent.2, hoff, hstandby⟩)
  · have hnone : ¬ ((field body 0 2).testBit 0 = true ∧ Baud.ofValue (field body 2 4) ≠ some (s.slot i).line.baud ∧
        (s.slot i).power.state ≠ .off ∧ (s.slot i).power.state ≠ .standby) := by
      rintro ⟨hbaud, hvalue, hoff, hstandby⟩
      exact (hallowed ⟨hbaud, hnew.mp hvalue⟩).elim hoff hstandby
    rw [if_neg (mt hmalformed.mp hgood), if_neg hnone] at hnext
    have hslot := configure_fst (s.slot i) body hpresent habsent
    have hclamped := configure_snd (s.slot i) body
    dsimp only at hslot hclamped
    rw [hslot] at hnext
    refine ⟨fun hin => hnext ?_, fun hout => hnext ?_⟩
    · rw [hclamped.mpr hin]
      rfl
    · rw [Bool.eq_true_of_not_eq_false (mt hclamped.mp hout)]
      rfl

/-! ### SLOT_FILTER, SLOT_BLOCK and SLOT_TRIGGER (R49, R58, R61, R196) -/

theorem FilterMode.ofCode_of_lt {n : Nat} (h : 1 < n) : FilterMode.ofCode n = none := by
  obtain ⟨n, rfl⟩ := Nat.exists_eq_add_of_lt h
  rw [show 1 + n + 1 = n + 2 by omega]
  rfl

theorem TriggerMode.ofCode_of_lt {n : Nat} (h : 1 < n) : TriggerMode.ofCode n = none := by
  obtain ⟨n, rfl⟩ := Nat.exists_eq_add_of_lt h
  rw [show 1 + n + 1 = n + 2 by omega]
  rfl

theorem TriggerAction.ofCode_of_lt {n : Nat} (h : 3 < n) : TriggerAction.ofCode n = none := by
  obtain ⟨n, rfl⟩ := Nat.exists_eq_add_of_lt h
  rw [show 3 + n + 1 = n + 4 by omega]
  rfl

/-- A malformed SLOT_TRIGGER is refused, whichever field is at fault. -/
theorem slotTrigger_malformed {body : List Byte}
    (h : 3 < byteNat body 0 ∨ byteNat body 4 = 0 ∨ 24 < byteNat body 4 ∨ 0x0A#8 ∈ (body.drop 5).take (byteNat body 4) ∨
      1 < byteNat body 1 ∨ 1 < byteNat body 2 ∨ 3 < byteNat body 3) : slotTrigger i body s = (s, replyBody .badValue []) := by
  unfold slotTrigger
  dsimp only
  split
  · rfl
  next k hk =>
  split
  · rfl
  next hpattern =>
  split
  · next enabled mode action henabled hmode haction =>
    simp only [lf, not_or] at hpattern
    obtain ⟨hsome, hshort, hline⟩ := hpattern
    rcases h with h | h | h | h | h | h | h
    · rw [finOf_of_le h] at hk; exact nomatch hk
    · exact absurd h hsome
    · exact absurd h hshort
    · exact absurd h hline
    · rw [boolOf_of_lt h] at henabled; exact nomatch henabled
    · rw [TriggerMode.ofCode_of_lt h] at hmode; exact nomatch hmode
    · rw [TriggerAction.ofCode_of_lt h] at haction; exact nomatch haction
  · rfl

/-- Settles O16. -/
theorem slotLineSettingsAreSet : Obligations.SlotLineSettingsAreSet := by
  unfold Obligations.SlotLineSettingsAreSet
  intro s r i h
  refine ⟨fun m c1 c2 c3 c4 k1 k2 k3 k4 hr => ?_, fun b hb hr => ?_, fun k enabled mode action pattern pad hmin hlength hline hr => ?_,
    fun body hr hlength hbad => ?_⟩
  · have hnext {c : ReplyCode} {t : State}
        (hset : slotFilter i [m, c1, c2, c3, c4, k1, k2, k3, k4] s = (t, replyBody c [])) :
        exec (.slotFilter r) s = .next (answer 0xA1#8 r c [] t) := slot_next (k := .slotFilter) h hr rfl hset rfl
    split
    · next hm => subst hm; exact hnext rfl
    split
    · next hm => subst hm; exact hnext rfl
    next hm0 hm1 =>
    have hm : 1 < m.toNat := by
      have h0 : m.toNat ≠ 0 := fun h => hm0 (BitVec.eq_of_toNat_eq h)
      have h1 : m.toNat ≠ 1 := fun h => hm1 (BitVec.eq_of_toNat_eq h)
      omega
    refine hnext ?_
    unfold slotFilter
    rw [byteNat_cons_zero, FilterMode.ofCode_of_lt hm]
  · have hfield : field (le 2 b) 0 2 = b := (field_le 2 b).trans (Nat.mod_eq_of_lt hb)
    have hnext {c : ReplyCode} {rest : List Byte} {t : State} (hset : slotBlock i (le 2 b) s = (t, replyBody c rest)) :
        exec (.slotBlock r) s = .next (answer 0xA3#8 r c rest t) :=
      slot_next (k := .slotBlock) h hr (by simp [SlotRequest.lengthOk]) hset rfl
    unfold slotBlock at hnext
    rw [hfield] at hnext
    have hmem : b ∈ [256, 512, 1024, 2048, 4096] ↔ b = 256 ∨ b = 512 ∨ b = 1024 ∨ b = 2048 ∨ b = 4096 := by simp
    split
    · next hsize => exact hnext (if_pos (hmem.mp hsize))
    · next hsize => exact hnext (if_neg (mt hmem.mpr hsize))
  · have hpattern : (byte pattern.length).toNat = pattern.length := byteNat_byte _ (by omega)
    have htake : (pattern ++ pad).take pattern.length = pattern := List.take_left
    refine slot_next (k := .slotTrigger) h hr ?_ ?_ rfl
    · simp only [SlotRequest.lengthOk, List.length_append, List.length_cons, List.length_nil, decide_eq_true_eq]
      omega
    · have hshape : ¬ (pattern.length = 0 ∨ 24 < pattern.length ∨ lf ∈ pattern) := by
        simp only [not_or]
        exact ⟨by omega, by omega, hline⟩
      simp only [slotOwner, slotTrigger, List.cons_append, List.nil_append, byteNat_cons_zero, byteNat_cons_succ, List.drop_succ_cons,
        List.drop_zero, hpattern, htake, finOf_byte k (by decide : 4 ≤ 256), if_neg hshape]
      cases enabled <;> cases mode <;> cases action <;> rfl
  · exact slot_next (k := .slotTrigger) h hr (by simp [SlotRequest.lengthOk, hlength]) (slotTrigger_malformed hbad) rfl

/-! ### CLEAR_FAULT (R88) -/

/-- Settles O23. -/
theorem clearFaultTakesFaultToOff : Obligations.ClearFaultTakesFaultToOff := by
  unfold Obligations.ClearFaultTakesFaultToOff
  intro s r i h hr
  exact ⟨fun hfault => slot_next (k := .clearFault) h hr rfl (if_pos hfault) rfl,
    fun hfault => slot_next (k := .clearFault) h hr rfl (if_neg hfault) rfl⟩

/-! ### SLOT_STATUS (R177, R200) -/

theorem Engine.queueCount_eq (e : Engine) : e.queueCount = e.flight.toList.length + e.waiting.length := by
  unfold Engine.queueCount Engine.queue
  rw [List.length_append]
  cases e.flight <;> rfl

theorem byte_boolCode (b : Bool) : byte (boolCode b) = if b then 1#8 else 0#8 := by cases b <;> rfl

/-- Settles O21. -/
theorem slotStatusReportsAndClears : Obligations.SlotStatusReportsAndClears := by
  unfold Obligations.SlotStatusReportsAndClears
  intro s r i h hr
  have hnext {rest : List Byte} (hrest : s.statusBytes i = rest) : exec (.slotStatus r) s = .next (answer 0xB0#8 r .ok rest
      (s.modSlot i fun y => { y with notices := { y.notices with lines := false, trigger := false, power := false, fault := false } })) := by
    subst hrest
    exact slot_next (k := .slotStatus) h hr rfl rfl rfl
  refine hnext ?_
  have hflight : flightBytes (s.slot i).engine.flight = (match (s.slot i).engine.flight with
      | some f => le 2 f.step.number.toNat ++ [byte f.step.kind.code]
      | none => [0#8, 0#8, 0xFF#8]) := by
    cases (s.slot i).engine.flight <;> rfl
  have hsample : sampleBytes (s.slot i).sampler.lastSample = (match (s.slot i).sampler.lastSample with
      | some m => le 2 m.1 ++ le 2 m.2
      | none => [0xFF#8, 0xFF#8, 0xFF#8, 0xFF#8]) := by
    cases (s.slot i).sampler.lastSample <;> rfl
  have hwindow : windowBytes ((s.slot i).engine.flight.bind Flight.window) = (match (s.slot i).engine.flight.bind Flight.window with
      | some w => byte (if w.saturated then 3 else 1) :: le 4 w.n
      | none => [0#8, 0#8, 0#8, 0#8, 0#8]) := by
    cases (s.slot i).engine.flight.bind Flight.window with
    | none => rfl
    | some w => cases hw : w.saturated <;> simp [windowBytes, bitSet, hw]
  have hentry : byte (s.waitMask i) = (match s.waitList.find? fun e => decide (e.slot = i) with
      | some e => byte e.mask.toNat
      | none => 0#8) := by
    unfold State.waitMask State.waitEntry
    cases s.waitList.find? fun e => decide (e.slot = i) <;> rfl
  unfold State.statusBytes
  dsimp only
  rw [Engine.queueCount_eq, hflight, hsample, hwindow, byte_boolCode, hentry, portsHeld_toNat]
  simp only [List.append_assoc, List.cons_append, List.nil_append] <;> rfl

/-! ### CAPTURE_READ and CAPTURE_RELEASE (R55, R56, R201) -/

/-- The records handed out fit, and the next one does not. -/
theorem recordsWithin_spec (ring : List CaptureRecord) : ∀ budget, ∃ kept, ring = recordsWithin budget ring ++ kept ∧
    ringUsed (recordsWithin budget ring) ≤ budget ∧ ∀ c ∈ kept.head?, budget < ringUsed (recordsWithin budget ring) + c.cost := by
  induction ring with
  | nil => exact fun budget => ⟨[], rfl, Nat.zero_le _, nofun⟩
  | cons c rest ih =>
    intro budget
    by_cases hcost : c.cost ≤ budget
    · obtain ⟨kept, hsplit, hfits, hnext⟩ := ih (budget - c.cost)
      rw [recordsWithin, if_pos hcost]
      refine ⟨kept, congrArg (c :: ·) hsplit, ?_, fun d hd => ?_⟩
      · rw [show ringUsed (c :: recordsWithin (budget - c.cost) rest) = c.cost + ringUsed (recordsWithin (budget - c.cost) rest) from rfl]
        omega
      · have := hnext d hd
        rw [show ringUsed (c :: recordsWithin (budget - c.cost) rest) = c.cost + ringUsed (recordsWithin (budget - c.cost) rest) from rfl]
        omega
    · rw [recordsWithin, if_neg hcost]
      exact ⟨c :: rest, rfl, Nat.zero_le _, fun d hd => by
        cases hd
        exact (Nat.not_le.mp hcost).trans_le (Nat.le_add_left ..)⟩

/-- Settles O22. -/
theorem captureReadAndRelease : Obligations.CaptureReadAndRelease := by
  unfold Obligations.CaptureReadAndRelease
  intro s r i h
  refine ⟨fun hr => ?_, fun n hn hr => ?_⟩
  · obtain ⟨kept, hsplit, hfits, hnext⟩ := recordsWithin_spec (s.slot i).capture.ring 1000
    refine ⟨recordsWithin 1000 (s.slot i).capture.ring, kept, hsplit, hfits, hnext, ?_⟩
    refine slot_next (k := .captureRead) h hr rfl (congrArg (Prod.mk _) (congrArg (replyBody .ok) ?_)) rfl
    have hbytes (c : CaptureRecord) : c.bytes = le 4 c.time.toNat ++ [match c.kind with
        | .log => 0#8
        | .stale => 1#8, byte (bitSet [c.truncated, c.damaged, c.afterOverrun])] ++ le 2 c.content.length ++ c.content := by
      unfold CaptureRecord.bytes
      cases c.kind <;> rfl
    rw [byte_boolCode, funext hbytes]
    rfl
  · have hfield : field (le 2 n) 0 2 = n := (field_le 2 n).trans (Nat.mod_eq_of_lt hn)
    refine slot_next (k := .captureRelease) h hr (by simp [SlotRequest.lengthOk]) ?_ rfl
    simp only [slotOwner, captureRelease, hfield, List.length_drop]
    refine congrArg (Prod.mk _) (congrArg (replyBody · _) ?_)
    by_cases hle : n ≤ (s.slot i).capture.ring.length
    · rw [if_pos hle, decide_eq_false (Nat.not_lt.mpr hle)]
      rfl
    · rw [if_neg hle, decide_eq_true (Nat.not_le.mp hle)]
      rfl

end Sys2Proof.Machine
end

