-- ==== Sys2Proof/Proofs/EngineEnds.lean ====
section
/-! PROOF. The end of a step in the words of the statements: the outcome, the grades, the record, what it leaves of the slot, and the ends
that an abort and a fault give. -/

namespace Sys2Proof.Machine

variable {s t : State} {r : Request} {i : Slot}

/-! ### The shared operations, written out -/

theorem doomAll_eq (d : Doom) (steps : List StepRecord) :
    doomAll d steps = steps.map fun st => if st.doom = none then { st with doom := some d } else st := by
  refine List.map_congr_left fun st _ => ?_
  cases h : st.doom <;> simp

theorem doomQueue_eq (x : SlotState) (d : Doom) : x.doomQueue d =
    { x with engine.waiting := x.engine.waiting.map fun st => if st.doom = none then { st with doom := some d } else st } := by
  rw [SlotState.doomQueue, doomAll_eq]

theorem withdraw_eq (l : PhoneLine) :
    l.withdraw = { l with txWaiting := if l.txWaiting.map TxItem.owner = some .step then none else l.txWaiting } := by
  unfold PhoneLine.withdraw
  cases h : l.txWaiting <;> simp

theorem disown_eq (l : PhoneLine) : l.disown = { l with
    tx := l.tx.map fun t => if t.owner = .step then { t with owner := .nobody } else t
    txWaiting := if l.txWaiting.map TxItem.owner = some .step then none else l.txWaiting } := by
  unfold PhoneLine.disown
  rw [withdraw_eq]

theorem endingUnder_eq (flight : Option Flight) (e : Ending) :
    endingUnder flight e = if flight.any Flight.aborting then .aborted else e := by
  cases flight <;> rfl

/-! ### The end of a step (R16, R17, R24) -/

theorem gradeSet_eq (limits : Vector LimitEntry 64) (set : Fin 16) (m : Measurement) (reply : Option ReplyPart) :
    gradeSet limits set m reply = ((List.finRange 64).filter fun k : Fin 64 => limits[k].valid && decide (limits[k].set = set)).map
      fun k : Fin 64 => (limits[k].cls, gradeItem m reply k limits[k]) := by
  rw [gradeSet, limitSetEntries, List.filter_map, List.map_map]
  rfl

/-- The grade's outcome, by the entries that do not pass (R123, R124). -/
theorem gradedOutcome_verdict (items : List (LimitClass × GradeItem)) :
    gradedOutcome false false (verdictOf items) =
      if items.any fun g => decide (g.1 = .gate) && decide (g.2.result ≠ .pass) then (.fail, .limit)
      else if items.any fun g => decide (g.1 = .watch) && decide (g.2.result ≠ .pass) then (.advisory, .none) else (.pass, .none) := by
  unfold verdictOf
  split
  · rfl
  split
  · rfl
  · rfl

/-- What a completion does within its slot (R17, R20, R34). -/
theorem complete_eq (x : SlotState) (f : Flight) (r : Record) : x.complete f r = { x with
    engine :=
      { flight := none
        waiting := if f.step.stopOnFail = true ∧ r.outcome = .fail ∧ ¬ (∃ p, f.push = some p ∧ p.abortAll = true) then
            x.engine.waiting.map fun st => if st.doom = none then { st with doom := some .skipped } else st
          else x.engine.waiting
        done := x.engine.done ++ [⟨r, false⟩]
        lamp := lampAfter f.step.lamp r.outcome x.engine.lamp }
    line := { x.line with
      tx := x.line.tx.map fun t => if t.owner = .step then { t with owner := .nobody } else t
      txWaiting := if x.line.txWaiting.map TxItem.owner = some .step then none else x.line.txWaiting }
    notices.stepDone := true } := by
  have hwaiting : (if f.skipsQueue r.outcome = true then doomAll .skipped x.engine.waiting else x.engine.waiting) =
      if f.step.stopOnFail = true ∧ r.outcome = .fail ∧ ¬ (∃ p, f.push = some p ∧ p.abortAll = true) then
        x.engine.waiting.map fun st => if st.doom = none then { st with doom := some .skipped } else st
      else x.engine.waiting := by
    rw [← doomAll_eq]
    exact if_congr (Flight.skipsQueue_iff f r.outcome) rfl rfl
  rw [SlotState.complete, hwaiting, disown_eq]
  rfl

/-- Settles O35. -/
theorem stepCompletionWritesItsRecord : Obligations.StepCompletionWritesItsRecord := by
  unfold Obligations.StepCompletionWritesItsRecord
  intro s i f e hf keeps measured reply graded failing byGrade ended acked record
  have hkeeps : e.keepsWindow = keeps := by cases e <;> rfl
  have hmeasured : closedWindow s.time f e = measured := by unfold closedWindow; rw [hkeeps]
  have hreply : e.replyPart = reply := by cases e <;> rfl
  have hgraded : gradesOf s.limits f e measured = graded := by
    unfold gradesOf
    rw [hreply]
    simp only [gradeSet_eq] <;> rfl
  have hended : e.outcome (verdictOf (graded.getD [])) = ended := by
    have hgrade : gradedOutcome false false (verdictOf (graded.getD [])) = byGrade := gradedOutcome_verdict _
    cases e with
    | normal => exact hgrade
    | detached m => exact hgrade
    | reply status payload =>
      by_cases hstatus : status = 0#8
      · exact (congrArg (gradedOutcome · false _) (decide_eq_false (not_not.mpr hstatus))).trans (hgrade.trans (if_pos hstatus).symm)
      · exact (congrArg (gradedOutcome · false _) (decide_eq_true hstatus)).trans (if_neg hstatus).symm
    | doomed d => cases d <;> rfl
    | _ => rfl
  have hpush : pushSummary f e = record.push := rfl
  have hreleased : e.releasedMask = record.released := by cases e <;> rfl
  have hrecord : completionRecord s.limits s.time f e = record := by
    unfold completionRecord
    simp only [hmeasured, hgraded, hended, hreply, hpush, hreleased] <;> rfl
  rw [endStep_some s i e hf, hrecord]
  simp only [complete_eq] <;> rfl

/-! ### Entry to FAULT (R86) -/

theorem arbiterDrop_eq (s : State) (i : Slot) : s.arbiterDrop i = { s with
    ports := s.ports.map fun h => if h.map Hold.slot = some i then none else h
    waitList := s.waitList.filter fun w => decide (w.slot ≠ i) } := by
  rw [← releaseAll_ports]
  rfl

/-- Settles O41. -/
theorem faultCutsTheSlot : Obligations.FaultCutsTheSlot := by
  unfold Obligations.FaultCutsTheSlot
  intro s i cause e u dropped
  have hcut : (s.modSlot i fun x =>
      let y := (x.cutRail .fault).doomQueue .faulted
      { y with power.cause := cause, notices := (y.notices.put .fault true).put .power true }) = u := by
    simp only [doomQueue_eq] <;> rfl
  have hdrop : (endStep i e u).arbiterDrop i = dropped := by
    rw [arbiterDrop_eq, endStep_ports, endStep_waitList]
    rfl
  unfold enterFault
  rw [endingUnder_eq, hcut]
  change ((walk ((endStep i e u).arbiterDrop i)).1, i :: (walk ((endStep i e u).arbiterDrop i)).2) = _
  rw [hdrop]

end Sys2Proof.Machine
end

