-- ==== Sys2Proof/Proofs/SlotRequestEffects.lean ====
section
/-! PROOF. ABORT, RESULTS and SLOT_RESET in the words of the statements. -/

namespace Sys2Proof.Machine

variable {s t : State} {r : Request} {i : Slot}

/-! ### ABORT (R20 to R23, R76) -/

/-- The scope of an ABORT, before the step in flight is looked at (R20). -/
def State.abortScope (s : State) (i : Slot) (all : Bool) : State :=
  if all then s.modSlot i (fun y => { y with engine.waiting := y.engine.waiting.map fun st =>
    if st.doom = none then { st with doom := some .aborted } else st }) else s

theorem abortScope_eq (s : State) (i : Slot) (all : Bool) :
    (if all then s.modSlot i (fun x => x.doomQueue .aborted) else s) = s.abortScope i all := by
  simp only [State.abortScope, doomQueue_eq]

theorem abortScope_line (s : State) (i : Slot) (all : Bool) : ((s.abortScope i all).slot i).line = (s.slot i).line := by
  unfold State.abortScope
  split
  · rw [State.modSlot_slot_same]
  · rfl

/-- What an abort does when it is taken at once: the other blocks act, the step ends, and the starts follow (R22). -/
theorem endByHand_eq (i : Slot) (f : Flight) (e : Ending) (s : State) : endByHand i f e s = match f.step.kind with
    | .press keys _ => (endStep i e (s.modSlot i fun y => { y with power.keys := y.power.keys &&& ~~~keys }), [i])
    | .power _ _ => (endStep i e (s.modSlot i SlotState.endPowerEarly), [i])
    | .attach _ _ => ((walk (endStep i e (s.removeEntry i))).1, i :: (walk (endStep i e (s.removeEntry i))).2)
    | .exchange _ _ | .push _ | .measure _ | .detach _ | .await _ => (endStep i e s, [i]) := by
  unfold endByHand withdrawStep
  cases f.step.kind <;> rfl

theorem abortPush_eq (y : SlotState) (f : Flight) (p : PushProgress) (all : Bool) : y.abortPush f p all = { y with
    engine.flight := some { f with tag := none, deadline := none, push := some { p with aborting := true, abortAll := all } }
    line.txWaiting := if y.line.txWaiting.map TxItem.owner = some .step then none else y.line.txWaiting } := by
  rw [SlotState.abortPush, withdraw_eq]

/-- Settles O19. -/
theorem abortTakesTheStepInFlight : Obligations.AbortTakesTheStepInFlight := by
  unfold Obligations.AbortTakesTheStepInFlight
  intro s r i h
  refine ⟨fun all hr => ?_, fun b hr hb => ?_⟩
  · have hall : boolOf (byteNat [if all then 1#8 else 0#8] 0) = some all := by cases all <;> rfl
    have hnext {c : ReplyCode} {rest : List Byte} {t : State}
        (habort : abortRequest i [if all then 1#8 else 0#8] s = (t, replyBody c rest)) :
        exec (.abort r) s = .next (answer 0xA9#8 r c rest t) := slot_next (k := .abort) h hr rfl habort rfl
    unfold abortRequest at hnext
    rw [hall] at hnext
    dsimp only at hnext ⊢
    rw [abortScope_eq] at hnext
    refine ⟨fun hflight => hnext ?_, fun f p hf hp hpush hleaving => hnext ?_, fun f hf haborting hnow => hnext ?_⟩
    · have hnone : (s.slot i).engine.abortable = none := by
        unfold Engine.abortable
        split
        · next f hf => exact if_pos (hflight f hf)
        · rfl
      rw [hnone]
      rfl
    · have hsome : (s.slot i).engine.abortable = some f := by
        simp [Engine.abortable, hf, Flight.aborting, hp, hpush]
      rw [hsome]
      have htake : takeAbort i all f (s.abortScope i all) = ((s.abortScope i all).modSlot i fun y => y.abortPush f p all, []) := by
        unfold takeAbort
        rw [hp, abortScope_line, hleaving]
        exact if_pos rfl
      dsimp only
      rw [htake, startAll_nil]
      simp only [abortPush_eq] <;> rfl
    · have hsome : (s.slot i).engine.abortable = some f := by
        simp [Engine.abortable, hf, haborting]
      have htake : takeAbort i all f (s.abortScope i all) = endByHand i f .aborted (s.abortScope i all) := by
        unfold takeAbort
        split
        · next p hp =>
          rw [abortScope_line, hnow.resolve_left (by rw [hp]; exact nofun)]
          rfl
        · rfl
      rw [hsome]
      dsimp only
      rw [htake, endByHand_eq]
      cases f.step.kind <;> rfl
  · refine slot_next (k := .abort) h hr rfl ?_ rfl
    have hnone : boolOf (byteNat [b] 0) = none := boolOf_of_lt (by exact hb)
    unfold slotOwner abortRequest
    dsimp only
    rw [hnone]

/-! ### RESULTS (R25, R26, R199) -/

/-- The bytes a run of records takes. -/
def recordBytes (entries : List ListEntry) : Nat := (entries.map fun e => e.record.bytes.length).sum

/-- Records in transmission are passed over. -/
theorem handOut_sending {sending : List ListEntry} (hsending : ∀ e ∈ sending, e.inTx = true) (n budget : Nat) (waiting : List ListEntry) :
    handOut n budget (sending ++ waiting) = ((handOut n budget waiting).1, sending ++ (handOut n budget waiting).2) := by
  induction sending with
  | nil => rfl
  | cons e es ih =>
    rw [List.cons_append, handOut.eq_def]
    dsimp only
    rw [if_pos (hsending e List.mem_cons_self), ih fun d hd => hsending d (List.mem_cons_of_mem e hd)]
    rfl

/-- The records handed out are the oldest, up to the count and up to the first that does not fit. -/
theorem handOut_waiting (waiting : List ListEntry) : (∀ e ∈ waiting, e.inTx = false) → ∀ n budget, ∃ given kept, waiting = given ++ kept ∧
    handOut n budget waiting = (given.map ListEntry.record, kept) ∧ given.length ≤ n ∧ recordBytes given ≤ budget ∧
    (given.length = n ∨ kept = [] ∨ ∃ e ∈ kept.head?, budget < recordBytes given + e.record.bytes.length) := by
  induction waiting with
  | nil => exact fun _ n budget => ⟨[], [], rfl, rfl, Nat.zero_le n, Nat.zero_le budget, .inr (.inl rfl)⟩
  | cons e es ih =>
    intro hwaiting n budget
    have hidle : ¬ e.inTx = true := by rw [hwaiting e List.mem_cons_self]; exact nofun
    cases n with
    | zero => exact ⟨[], e :: es, rfl, by rw [handOut, if_neg hidle]; rfl, le_rfl, Nat.zero_le budget, .inl rfl⟩
    | succ n =>
      by_cases hfit : e.record.bytes.length ≤ budget
      · obtain ⟨given, kept, hsplit, hout, hcount, hsize, hstop⟩ :=
          ih (fun d hd => hwaiting d (List.mem_cons_of_mem e hd)) n (budget - e.record.bytes.length)
        have hbytes : recordBytes (e :: given) = e.record.bytes.length + recordBytes given := rfl
        refine ⟨e :: given, kept, congrArg (e :: ·) hsplit, ?_, Nat.succ_le_succ hcount, by omega, ?_⟩
        · rw [handOut, if_neg hidle]
          dsimp only
          rw [if_pos hfit, hout]
          rfl
        · refine hstop.imp (congrArg Nat.succ) (Or.imp_right ?_)
          rintro ⟨d, hd, hover⟩
          exact ⟨d, hd, by omega⟩
      · refine ⟨[], e :: es, rfl, ?_, Nat.zero_le _, Nat.zero_le _, .inr (.inr ⟨e, rfl, ?_⟩)⟩
        · rw [handOut, if_neg hidle]
          exact if_neg hfit
        · exact (Nat.not_le.mp hfit).trans_le (Nat.le_add_left ..)

/-- STEP_DONE stays pending while a record waits (R25). -/
theorem settleStepDone_split {x : SlotState} {sending kept : List ListEntry} (hdone : x.engine.done = sending ++ kept)
    (hsending : ∀ e ∈ sending, e.inTx = true) (hkept : ∀ e ∈ kept, e.inTx = false) :
    x.settleStepDone = { x with notices.stepDone := if kept = [] then false else x.notices.stepDone } := by
  have hall : x.engine.done.all ListEntry.inTx = true ↔ kept = [] := by
    rw [hdone, List.all_eq_true]
    refine ⟨fun h => List.eq_nil_iff_forall_not_mem.mpr fun e he => ?_, fun h e he => ?_⟩
    · exact nomatch (hkept e he).symm.trans (h e (List.mem_append_right _ he))
    · rw [h, List.append_nil] at he
      exact hsending e he
  unfold SlotState.settleStepDone
  by_cases h : kept = []
  · rw [if_pos (hall.mpr h), if_pos h]
    rfl
  · rw [if_neg (mt hall.mp h), if_neg h]

/-- Settles O20. -/
theorem resultsHandsOutTheOldestRecords : Obligations.ResultsHandsOutTheOldestRecords := by
  unfold Obligations.ResultsHandsOutTheOldestRecords
  intro s r i h
  refine ⟨fun n hn hr sending waiting hdone hsending hwaiting => ?_, fun b hr hb => ?_⟩
  · have hcount : byteNat [byte n] 0 = n := byteNat_byte n (by omega)
    obtain ⟨given, kept, hsplit, hout, hgiven, hsize, hstop⟩ :=
      handOut_waiting waiting hwaiting (if n = 0 then (s.slot i).engine.done.length else n) 1021
    have hkept : ∀ e ∈ kept, e.inTx = false := fun e he => hwaiting e (hsplit ▸ List.mem_append_right _ he)
    have hlength : (s.slot i).engine.done.length = sending.length + (given.length + kept.length) := by
      rw [hdone, hsplit, List.length_append, List.length_append]
    refine ⟨given, kept, hsplit, fun hn0 => by rwa [if_neg hn0] at hgiven, Nat.add_le_of_le_sub' (by decide) hsize, ?_, ?_⟩
    · rcases hstop with hstop | hstop | ⟨e, he, hover⟩
      · by_cases hn0 : n = 0
        · rw [if_pos hn0, hlength] at hstop
          exact .inr (.inl (List.length_eq_zero_iff.mp (by omega)))
        · rw [if_neg hn0] at hstop
          exact .inl ⟨hn0, hstop⟩
      · exact .inr (.inl hstop)
      · exact .inr (.inr ⟨e, he, show 1024 < 3 + recordBytes given + e.record.bytes.length by omega⟩)
    · refine slot_next (k := .results) h hr rfl ?_ rfl
      have hresult : handOut (if n = 0 then (s.slot i).engine.done.length else n) (1024 - 3) (s.slot i).engine.done =
          (given.map ListEntry.record, sending ++ kept) := by
        rw [hdone] at hout ⊢
        rw [handOut_sending hsending, show 1024 - 3 = 1021 from rfl, hout]
      have hstate : (s.modSlot i fun x => SlotState.settleStepDone { x with engine.done := sending ++ kept }) =
          s.modSlot i fun x => { x with
            engine.done := sending ++ kept
            notices.stepDone := if kept = [] then false else x.notices.stepDone } :=
        congrArg (s.setSlot i) (settleStepDone_split (x := { s.slot i with engine.done := sending ++ kept }) rfl hsending hkept)
      unfold slotOwner resultsRequest
      dsimp only
      rw [hcount, if_neg (by omega), hresult]
      dsimp only
      rw [hstate, List.length_map, List.length_append, List.flatMap_map]
      simp only [List.map_eq_nil_iff]
  · refine slot_next (k := .results) h hr rfl ?_ rfl
    exact if_pos (show 8 < b.toNat from hb)

/-! ### SLOT_RESET (R28, R141, R149, R154, R182) -/

/-- An object after d of its references have been dropped: a CONDEMNED one whose last reference goes is freed (R149). -/
def ObjectRecord.dropped (x : ObjectRecord) (d : Nat) : ObjectRecord :=
  if x.state = .condemned ∧ 0 < d ∧ x.refs ≤ d then .empty else { x with refs := x.refs - d }

/-- The pages that these drops free. -/
def ObjectRecord.droppedPages (x : ObjectRecord) (d : Nat) : List Nat :=
  if x.state = .condemned ∧ 0 < d ∧ x.refs ≤ d then x.pages else []

theorem ObjectRecord.dropped_zero (x : ObjectRecord) : x.dropped 0 = x := if_neg nofun

theorem ObjectRecord.droppedPages_zero (x : ObjectRecord) : x.droppedPages 0 = [] := if_neg nofun

/-- One drop, then d more. -/
theorem ObjectRecord.dropped_succ (x : ObjectRecord) (d : Nat) : x.dropped (d + 1) = (x.dropped 1).dropped d ∧
    x.droppedPages (d + 1) = x.droppedPages 1 ++ (x.dropped 1).droppedPages d := by
  have hempty : ¬ (ObjectRecord.empty.state = .condemned ∧ 0 < d ∧ ObjectRecord.empty.refs ≤ d) := nofun
  unfold ObjectRecord.dropped ObjectRecord.droppedPages
  by_cases hlast : x.state = .condemned ∧ 0 < 1 ∧ x.refs ≤ 1
  · have hall : x.state = .condemned ∧ 0 < d + 1 ∧ x.refs ≤ d + 1 := ⟨hlast.1, Nat.succ_pos d, hlast.2.2.trans (by omega)⟩
    rw [if_pos hall, if_pos hall, if_pos hlast, if_pos hlast, if_neg hempty, if_neg hempty, List.append_nil]
    exact ⟨congrArg (ObjectRecord.mk .empty 0 0 [] · none) (Nat.zero_sub d).symm, rfl⟩
  · rw [if_neg hlast, if_neg hlast, List.nil_append]
    have hiff : (x.state = .condemned ∧ 0 < d + 1 ∧ x.refs ≤ d + 1) ↔ (x.state = .condemned ∧ 0 < d ∧ x.refs - 1 ≤ d) := by
      refine and_congr_right fun hstate => ?_
      have : ¬ x.refs ≤ 1 := fun h => hlast ⟨hstate, Nat.one_pos, h⟩
      omega
    refine ⟨if_congr hiff rfl ?_, if_congr hiff rfl rfl⟩
    rw [Nat.sub_sub, Nat.add_comm 1 d]

theorem dropRef_object (t : Store) (o p : Fin 16) : (t.dropRef o).object p = (t.object p).dropped (if p = o then 1 else 0) := by
  by_cases hp : p = o
  · subst hp
    rw [if_pos rfl]
    unfold Store.dropRef ObjectRecord.dropped
    dsimp only
    by_cases hlast : (t.object p).state = .condemned ∧ (t.object p).refs ≤ 1
    · rw [if_pos hlast, if_pos ⟨hlast.1, Nat.one_pos, hlast.2⟩, Store.freeObject_object_same]
    · rw [if_neg hlast, if_neg fun h => hlast ⟨h.1, h.2.2⟩, Store.putObject_object_same]
  · rw [if_neg hp, ObjectRecord.dropped_zero, Store.dropRef_object_ne t hp]

theorem dropRef_free (t : Store) (o : Fin 16) : (t.dropRef o).free = t.free ++ (t.object o).droppedPages 1 := by
  unfold Store.dropRef ObjectRecord.droppedPages
  dsimp only
  by_cases hlast : (t.object o).state = .condemned ∧ (t.object o).refs ≤ 1
  · rw [if_pos hlast, if_pos ⟨hlast.1, Nat.one_pos, hlast.2⟩]
    rfl
  · rw [if_neg hlast, if_neg fun h => hlast ⟨h.1, h.2.2⟩]
    exact (List.append_nil _).symm

/-- How many steps of a list are PUSH steps of an object. -/
def pushCount (steps : List StepRecord) (o : Fin 16) : Nat := (steps.filter fun st => decide (st.kind = .push o)).length

/-- What a list of discarded steps leaves of the store (R28, R149). -/
theorem dropRefs_spec (steps : List StepRecord) : ∀ t : Store,
    (∀ o, (t.dropRefs steps).object o = (t.object o).dropped (pushCount steps o)) ∧
    (t.dropRefs steps).free.Perm (t.free ++ (List.finRange 16).flatMap fun o => (t.object o).droppedPages (pushCount steps o)) := by
  induction steps with
  | nil =>
    intro t
    refine ⟨fun o => ((t.object o).dropped_zero).symm, ?_⟩
    have hnone : ((List.finRange 16).flatMap fun o => (t.object o).droppedPages (pushCount [] o)) = [] :=
      List.flatMap_eq_nil_iff.mpr fun o _ => (t.object o).droppedPages_zero
    rw [hnone, List.append_nil]
    exact .refl _
  | cons st steps ih =>
    intro t
    have hsame (hkind : ∀ o, st.kind ≠ .push o) (o : Fin 16) : pushCount (st :: steps) o = pushCount steps o := by
      unfold pushCount
      rw [List.filter_cons_of_neg (by simpa using hkind o)]
    cases hkind : st.kind with
    | push o =>
      have hcons : t.dropRefs (st :: steps) = (t.dropRef o).dropRefs steps := by
        rw [Store.dropRefs, List.foldl_cons, hkind]
        rfl
      have hcount (p : Fin 16) : pushCount (st :: steps) p = pushCount steps p + if p = o then 1 else 0 := by
        unfold pushCount
        rw [List.filter_cons, hkind]
        by_cases hp : p = o
        · rw [if_pos (by simp [hp]), if_pos hp, List.length_cons]
        · rw [if_neg (by simpa using Ne.symm hp), if_neg hp, Nat.add_zero]
      obtain ⟨hobject, hfree⟩ := ih (t.dropRef o)
      rw [hcons]
      refine ⟨fun p => ?_, hfree.trans ?_⟩
      · rw [hobject, dropRef_object, hcount]
        by_cases hp : p = o
        · rw [if_pos hp]
          exact (ObjectRecord.dropped_succ _ _).1.symm
        · rw [if_neg hp, ObjectRecord.dropped_zero, Nat.add_zero]
      · obtain ⟨rest, hbefore, hafter⟩ := perm_flatMap_of_eq_off (List.nodup_finRange 16) (List.mem_finRange o)
          (g := fun p => ((t.dropRef o).object p).droppedPages (pushCount steps p))
          (h := fun p => (t.object p).droppedPages (pushCount (st :: steps) p)) fun p _ hp => by
            rw [dropRef_object, if_neg hp, ObjectRecord.dropped_zero, hcount, if_neg hp, Nat.add_zero]
        have hone : (t.object o).droppedPages (pushCount (st :: steps) o) =
            (t.object o).droppedPages 1 ++ ((t.dropRef o).object o).droppedPages (pushCount steps o) := by
          rw [hcount, if_pos rfl, (ObjectRecord.dropped_succ _ _).2, dropRef_object, if_pos rfl]
        rw [dropRef_free, List.append_assoc]
        refine (((hbefore.append_left _).trans ?_).trans hafter.symm).append_left _
        rw [hone, List.append_assoc]
    | _ =>
      have hnone : ∀ o, st.kind ≠ .push o := by rw [hkind]; exact nofun
      have hcons : t.dropRefs (st :: steps) = t.dropRefs steps := by
        rw [Store.dropRefs, List.foldl_cons, hkind]
        rfl
      rw [hcons]
      simp only [hsame hnone]
      exact ih t

theorem zeroHits_eq (ts : Vector Trigger 4) : zeroHits ts = ts.map fun t => { t with hits := 0 } := by
  refine Vector.ext fun k hk => ?_
  rw [Vector.getElem_map]
  interval_cases k <;> rfl

theorem cleared_eq (x : SlotState) : x.cleared = { x with
    engine := ⟨none, [], [], .off⟩
    line := { x.line with tx := none, txWaiting := none, assembler := Assembler.empty, nextTag := 1#8 }
    capture := { x.capture with ring := [], overrun := false, triggers := x.capture.triggers.map fun t => { t with hits := 0 } }
    power := { x.power with
      state := .off, phase := .none, target := none, settle := none, keys := 0#3, pressRelease := none, bootWait := none
      lineSinceRelease := false, parkHold := none, cause := ⟨false, false⟩, woke := false, interlock := false, forced := false }
    sampler := { x.sampler with lastSample := none, overcurrent := 0, undervolt := 0, parkHistory := [] }
    notices := ⟨false, false, false, false, false, false, false⟩
    granted := 0#4
    expired := 0#4 } := by
  rw [SlotState.cleared, zeroHits_eq]
  rfl

/-- Settles O24. -/
theorem slotResetDiscardsTheSlot : Obligations.SlotResetDiscardsTheSlot := by
  unfold Obligations.SlotResetDiscardsTheSlot
  intro s r i h hr
  obtain ⟨hobject, hfree⟩ := dropRefs_spec (s.slot i).engine.queue s.store
  have hslots : (resetSlot i s).slots = (s.modSlot i SlotState.cleared).slots := by rw [resetSlot_eq]; exact Eq.refl _
  have hslot (j : Slot) : (resetSlot i s).slot j = (s.modSlot i SlotState.cleared).slot j := by
    unfold State.slot
    rw [hslots]
  have hports : (resetSlot i s).ports = s.ports.map fun h => if h.map Hold.slot = some i then none else h := by
    rw [resetSlot_eq]
    exact releaseAll_ports (s.modSlot i SlotState.cleared) i
  have hlink : (resetSlot i s).link = { s.link with tx := s.link.tx.map (TxFrame.voidFor i) } := by rw [resetSlot_eq]
  have hstore : (resetSlot i s).store = s.store.dropRefs (s.slot i).engine.queue := by rw [resetSlot_eq]; exact Eq.refl _
  refine ⟨resetSlot i s, slot_next (k := .slotReset) h hr rfl rfl rfl, fun j hj => ?_, ?_, fun p => ?_, ?_, fun o => ?_, ?_, ?_, ?_,
    ?_, ?_, ?_, ?_, ?_, ?_, ?_⟩
  · rw [hslot, State.modSlot_slot_ne _ _ _ _ hj]
  · rw [hslot, State.modSlot_slot_same, cleared_eq]
  · simp [hports]
  · rw [resetSlot_eq]; exact Eq.refl _
  · rw [hstore]; exact hobject o
  · rw [hstore]; exact hfree
  · rw [hstore]; exact Store.dropRefs_bytes _ _
  · rw [hlink]
    refine congrArg (fun tx => ({ s.link with tx := tx } : Link)) (congrArg (Option.map · s.link.tx) (funext fun t => ?_))
    unfold TxFrame.voidFor
    cases t.source <;> rfl
  all_goals rw [resetSlot_eq]; exact Eq.refl _

end Sys2Proof.Machine
end

