-- ==== Sys2Proof/Proofs/StepRequest.lean ====
section
/-! PROOF. STEP: what a body that asks for an allowed step is read as, and which bodies are refused (R1, R197, R198). -/

namespace Sys2Proof.Machine

variable {s t : State} {r : Request} {i : Slot}

/-! ### Bodies that are refused -/

theorem stepKindOf_code {body : List Byte} {k : StepKind} {c : Bool} (h : stepKindOf body = some (k, c)) : k.code = byteNat body 2 := by
  unfold stepKindOf at h
  dsimp only at h
  split at h
  · next hk =>
    split at h
    · cases h; exact hk.symm
    · exact nomatch h
  · next hk =>
    obtain ⟨o, _, ho⟩ := Option.map_eq_some_iff.mp h
    cases ho; exact hk.symm
  · next hk =>
    split at h
    · split at h
      · exact nomatch h
      · cases h; exact hk.symm
    · exact nomatch h
  · next hk => cases h; exact hk.symm
  · next hk =>
    split at h
    · exact nomatch h
    · cases h; exact hk.symm
  · next hk =>
    split at h
    · exact nomatch h
    · cases h; exact hk.symm
  · next hk =>
    split at h
    · exact nomatch h
    · cases h; exact hk.symm
  · next hk =>
    obtain ⟨o, _, ho⟩ := Option.map_eq_some_iff.mp h
    cases ho; exact hk.symm
  · exact nomatch h

theorem StepKind.code_le (k : StepKind) : k.code ≤ 7 := by cases k <;> simp [StepKind.code]

theorem StepKind.mayCarryLimits_eq_false {k : StepKind} (h : k.code = 5 ∨ k.code = 6) : k.mayCarryLimits = false := by
  cases k <;> simp_all [StepKind.code, StepKind.mayCarryLimits]

theorem Target.ofCode_of_lt {n : Nat} (h : 4 < n) : Target.ofCode n = none := by
  obtain ⟨n, rfl⟩ := Nat.exists_eq_add_of_lt h
  rw [show 4 + n + 1 = n + 5 by omega]
  rfl

theorem KeyCombo.ofCode_of_lt {n : Nat} (h : 2 < n) : KeyCombo.ofCode n = Option.none := by
  obtain ⟨n, rfl⟩ := Nat.exists_eq_add_of_lt h
  rw [show 2 + n + 1 = n + 3 by omega]
  rfl

/-- Bad kind parameters (R198). -/
def badParameters (body : List Byte) : Prop :=
  let kind := byteNat body 2
  let p := byteNat body 9
  (kind = 0 ∧ (200 < byteNat body 11 ∨ ∃ b ∈ body.drop 12, ¬ (0x20 ≤ b.toNat ∧ b.toNat ≤ 0x7E))) ∨
    (kind = 1 ∧ 15 < p) ∨ (kind = 2 ∧ (4 < p ∨ 2 < byteNat body 10 ∨ (byteNat body 10 ≠ 0 ∧ p ≠ 3))) ∨
    (kind = 4 ∧ (p = 0 ∨ 7 < p)) ∨ (kind = 5 ∧ (p = 0 ∨ 15 < p)) ∨ (kind = 6 ∧ 15 < p) ∨ (kind = 7 ∧ 3 < p)

theorem all_isPrintable_iff (bs : List Byte) : bs.all isPrintable = true ↔ ∀ b ∈ bs, 0x20 ≤ b.toNat ∧ b.toNat ≤ 0x7E := by
  simp [isPrintable]

theorem stepKindOf_exchange {body : List Byte} (h : byteNat body 2 = 0) : stepKindOf body =
    let argument := (body.drop 12).take (byteNat body 11)
    if byteNat body 11 ≤ 200 ∧ argument.all isPrintable = true then some (.exchange (BitVec.ofNat 16 (field body 9 2)) argument, false)
    else none := by
  simp only [stepKindOf, h]

theorem stepKindOf_push {body : List Byte} (h : byteNat body 2 = 1) :
    stepKindOf body = (finOf 16 (byteNat body 9)).map fun o => (.push o, false) := by
  simp only [stepKindOf, h]

theorem stepKindOf_power {body : List Byte} (h : byteNat body 2 = 2) : stepKindOf body =
    match Target.ofCode (byteNat body 9), KeyCombo.ofCode (byteNat body 10) with
    | some t, some k => if k ≠ .none ∧ t ≠ .run then none else some (.power t k, false)
    | _, _ => none := by
  simp only [stepKindOf, h] <;> rfl

theorem stepKindOf_measure {body : List Byte} (h : byteNat body 2 = 3) : stepKindOf body =
    some (.measure (clampNat (field body 9 4) 1 600000), decide (clampNat (field body 9 4) 1 600000 ≠ field body 9 4)) := by
  simp only [stepKindOf, h]

theorem stepKindOf_press {body : List Byte} (h : byteNat body 2 = 4) : stepKindOf body =
    if byteNat body 9 = 0 ∨ 8 ≤ byteNat body 9 then none
    else some (.press (BitVec.ofNat 3 (byteNat body 9)) (clampNat (field body 10 4) 50 10000),
      decide (clampNat (field body 10 4) 50 10000 ≠ field body 10 4)) := by
  simp only [stepKindOf, h]

theorem stepKindOf_attach {body : List Byte} (h : byteNat body 2 = 5) : stepKindOf body =
    if byteNat body 9 = 0 ∨ 16 ≤ byteNat body 9 then none
    else some (.attach (BitVec.ofNat 4 (byteNat body 9)) (clampNat (field body 10 4) 100 600000),
      decide (clampNat (field body 10 4) 100 600000 ≠ field body 10 4)) := by
  simp only [stepKindOf, h]

theorem stepKindOf_detach {body : List Byte} (h : byteNat body 2 = 6) : stepKindOf body =
    if 16 ≤ byteNat body 9 then none else some (.detach (BitVec.ofNat 4 (byteNat body 9)), false) := by
  simp only [stepKindOf, h]

theorem stepKindOf_await {body : List Byte} (h : byteNat body 2 = 7) :
    stepKindOf body = (finOf 4 (byteNat body 9)).map fun k => (.await k, false) := by
  simp only [stepKindOf, h]

theorem Target.run_of_ofCode {n : Nat} (h : Target.ofCode n = some .run) : n = 3 := by
  unfold Target.ofCode at h
  split at h <;> first | rfl | exact nomatch h

theorem KeyCombo.none_of_ofCode {n : Nat} {k : KeyCombo} (h : KeyCombo.ofCode n = some k) (hk : k = .none) : n = 0 := by
  subst hk
  unfold KeyCombo.ofCode at h
  split at h <;> first | rfl | exact nomatch h

theorem stepKindOf_bad {body : List Byte} (hlength : byteNat body 2 = 0 → body.length = 12 + byteNat body 11) (h : badParameters body) :
    stepKindOf body = none := by
  rcases h with ⟨hk, h⟩ | ⟨hk, h⟩ | ⟨hk, h⟩ | ⟨hk, h⟩ | ⟨hk, h⟩ | ⟨hk, h⟩ | ⟨hk, h⟩
  · rw [stepKindOf_exchange hk]
    refine if_neg fun ⟨hshort, hall⟩ => ?_
    rw [List.take_of_length_le (by rw [List.length_drop, hlength hk]; omega), all_isPrintable_iff] at hall
    rcases h with h | ⟨b, hb, hbad⟩
    · omega
    · exact hbad (hall b hb)
  · rw [stepKindOf_push hk, finOf_of_le h]
    rfl
  · rw [stepKindOf_power hk]
    split
    · next target keys htarget hkeys =>
      rcases h with h | h | ⟨hsome, hrun⟩
      · rw [Target.ofCode_of_lt h] at htarget
        exact nomatch htarget
      · rw [KeyCombo.ofCode_of_lt h] at hkeys
        exact nomatch hkeys
      · exact if_pos ⟨fun hnone => hsome (KeyCombo.none_of_ofCode hkeys hnone),
          fun hr => hrun (Target.run_of_ofCode (hr ▸ htarget))⟩
    · rfl
  · rw [stepKindOf_press hk]
    exact if_pos h
  · rw [stepKindOf_attach hk]
    exact if_pos h
  · rw [stepKindOf_detach hk]
    exact if_pos h
  · rw [stepKindOf_await hk, finOf_of_le h]
    rfl

/-- The parts of a body that is read as a step (R1 check 1). -/
theorem stepOf_eq_some {body : List Byte} {st : StepRecord × Bool} (h : stepOf body = some st) :
    ∃ kind clamped set, stepKindOf body = some (kind, clamped) ∧ limitSetOf (byteNat body 8) = some set ∧ byteNat body 3 < 4 ∧
      (set = none ∨ kind.mayCarryLimits = true) := by
  unfold stepOf at h
  dsimp only at h
  split at h
  · next kind clamped set hkind hset =>
    split at h
    · exact nomatch h
    · next hgood =>
      refine ⟨kind, clamped, set, hkind, hset, by omega, ?_⟩
      cases set with
      | none => exact .inl rfl
      | some k => exact .inr (Bool.eq_true_of_not_eq_false fun hfalse => hgood (.inr ⟨rfl, hfalse⟩))
  · exact nomatch h

theorem stepLengthOk_iff (body : List Byte) : stepLengthOk body = true ↔ stepLengthAllowed body := by
  unfold stepLengthOk stepLengthAllowed
  generalize byteNat body 2 = k
  by_cases hk : k ≤ 7
  · interval_cases k <;> simp [and_assoc]
  · obtain ⟨n, rfl⟩ := Nat.exists_eq_add_of_lt (Nat.not_le.mp hk)
    rw [show 7 + n + 1 = n + 8 by omega]
    simp

/-- Settles O18. -/
theorem stepRefusesBadFields : Obligations.StepRefusesBadFields := by
  unfold Obligations.StepRefusesBadFields
  intro s r i body h hr hlength kind p hbad
  have hstep : stepOf body = none := by
    cases hst : stepOf body with
    | none => rfl
    | some st =>
    obtain ⟨kind', clamped, set, hkind, hset, hflags, hcarry⟩ := stepOf_eq_some hst
    have hcode := stepKindOf_code hkind
    have hle := kind'.code_le
    rcases hbad with hbad | hbad | ⟨hbad, habsent⟩ | ⟨habsent, hno⟩ | hbad
    · exact absurd hbad (by omega)
    · exact absurd hbad (by omega)
    · rw [limitSetOf, if_neg habsent, finOf_of_le hbad] at hset
      exact nomatch hset
    · rw [limitSetOf, if_neg habsent] at hset
      obtain ⟨set', _, rfl⟩ := Option.map_eq_some_iff.mp hset
      rw [StepKind.mayCarryLimits_eq_false (hcode ▸ hno)] at hcarry
      exact absurd hcarry (by simp)
    · rw [stepKindOf_bad hlength.2.2.1 hbad] at hkind
      exact nomatch hkind
  refine slot_next (k := .step) h hr ((stepLengthOk_iff body).mpr hlength) ?_ rfl
  unfold slotOwner stepRequest
  dsimp only
  rw [hstep]

/-! ### Bodies of steps (R197, R198) -/

/-- The body up to the kind parameters is nine bytes. -/
theorem StepRecord.body_eq (st : StepRecord) : st.body =
    (le 2 st.number.toNat ++ ([byte st.kind.code, byte (bitSet [st.stopOnFail, st.lamp])] ++ (le 4 st.timeout
      ++ ([match st.limitSet with
        | some set => byte set.val
        | none => 0xFF#8] ++ st.kind.fields)))) := by
  unfold StepRecord.body
  simp only [List.append_assoc] <;> rfl

variable {st : StepRecord}

theorem body_number : field st.body 0 2 = st.number.toNat := by
  rw [StepRecord.body_eq, field_le_append]
  exact Nat.mod_eq_of_lt st.number.isLt

theorem body_kind : byteNat st.body 2 = st.kind.code := by
  rw [StepRecord.body_eq, byteNat_le_append _ _ le_rfl]
  exact byteNat_byte _ (st.kind.code_le.trans_lt (by decide))

theorem body_flags : byteAt st.body 3 = byte (bitSet [st.stopOnFail, st.lamp]) := by
  rw [StepRecord.body_eq, byteAt_le_append _ _ (by decide)]
  rfl

theorem body_timeout (h : st.timeout < 4294967296) : field st.body 4 4 = st.timeout := by
  rw [StepRecord.body_eq, field_le_skip _ _ _ (by decide)]
  exact (field_le_append 4 _ _).trans (Nat.mod_eq_of_lt h)

theorem body_limit : limitSetOf (byteNat st.body 8) = some st.limitSet := by
  have hbyte : byteAt st.body 8 = match st.limitSet with
      | some set => byte set.val
      | none => 0xFF#8 := by
    rw [StepRecord.body_eq, byteAt_le_append _ _ (by decide)]
    exact byteAt_le_append (k := 4) _ _ le_rfl
  unfold byteNat
  rw [hbyte]
  cases st.limitSet with
  | none => rfl
  | some set =>
    dsimp only
    rw [byteNat_byte _ (by omega), limitSetOf, if_neg (by omega), finOf_val]
    rfl

/-- Behind the nine bytes come the kind parameters. -/
theorem body_drop : st.body.drop 9 = st.kind.fields := by
  rw [StepRecord.body]
  exact List.drop_left' (by simp)

theorem body_field (o w : Nat) : field st.body (9 + o) w = field st.kind.fields o w := by
  rw [← body_drop, field, field, List.drop_drop]

theorem body_byteNat (o : Nat) : byteNat st.body (9 + o) = byteNat st.kind.fields o := by
  rw [← body_drop, byteNat, byteNat, byteAt, byteAt, List.getD_eq_getElem?_getD, List.getD_eq_getElem?_getD, List.getElem?_drop]

theorem body_length : st.body.length = 9 + st.kind.fields.length := by
  simp [StepRecord.body]
  omega

/-- The kind parameters are read as they were written, clamped (R1, R198). -/
theorem stepKindOf_body (h : st.kind.allowed) : stepKindOf st.body = some (st.kind.clamped, decide (st.kind.clamped ≠ st.kind)) := by
  have hcode := body_kind (st := st)
  have hfirst := body_byteNat (st := st) 0
  have hsecond := body_byteNat (st := st) 1
  have hthird := body_byteNat (st := st) 2
  have hnumber := body_field (st := st) 0
  have hlate := body_field (st := st) 1
  have hdrop := congrArg (List.drop 3) (body_drop (st := st))
  rw [List.drop_drop] at hdrop
  cases hk : st.kind with
  | exchange code argument =>
    rw [hk] at hcode hthird hnumber hdrop h
    have hcount : byteNat st.body 11 = argument.length :=
      (hthird.trans (byteNat_le_append _ _ le_rfl)).trans (byteNat_byte _ (by have := h.1; omega))
    have hargument : (st.body.drop 12).take (byteNat st.body 11) = argument := by
      rw [hdrop, hcount]
      exact List.take_of_length_le le_rfl
    have hword : field st.body 9 2 = code.toNat := (hnumber 2).trans ((field_le_append 2 _ _).trans (Nat.mod_eq_of_lt code.isLt))
    rw [stepKindOf_exchange hcode]
    dsimp only
    rw [hargument, hcount, if_pos ⟨h.1, (all_isPrintable_iff argument).mpr h.2⟩, hword, BitVec.ofNat_toNat, BitVec.setWidth_eq]
    simp [StepKind.clamped]
  | push o =>
    rw [hk] at hcode hfirst
    rw [stepKindOf_push hcode, hfirst]
    exact (congrArg (Option.map _) (finOf_byte o (by decide))).trans (by simp [StepKind.clamped])
  | power target keys =>
    rw [hk] at hcode hfirst hsecond h
    rw [stepKindOf_power hcode, hfirst, hsecond]
    cases target <;> cases keys <;> first | rfl | exact nomatch h nofun
  | measure d =>
    rw [hk] at hcode hnumber h
    have hd : field st.body 9 4 = d := (hnumber 4).trans ((field_le 4 d).trans (Nat.mod_eq_of_lt h))
    rw [stepKindOf_measure hcode, hd]
    exact congrArg (fun b => some (StepKind.measure (clampNat d 1 600000), b))
      (decide_eq_decide.mpr (by simp [StepKind.clamped, clampNat]))
  | press keys d =>
    rw [hk] at hcode hfirst hlate h
    have hd : field st.body 10 4 = d := (hlate 4).trans ((field_le 4 d).trans (Nat.mod_eq_of_lt h.2))
    have hkeys : byteNat st.body 9 = keys.toNat := hfirst.trans (byteNat_byte _ (keys.isLt.trans (by decide)))
    have hsome : ¬ (keys.toNat = 0 ∨ 8 ≤ keys.toNat) :=
      not_or.mpr ⟨fun h0 => h.1 (BitVec.eq_of_toNat_eq h0), Nat.not_le.mpr keys.isLt⟩
    rw [stepKindOf_press hcode, hd, hkeys, if_neg hsome, BitVec.ofNat_toNat, BitVec.setWidth_eq]
    exact congrArg (fun b => some (StepKind.press keys (clampNat d 50 10000), b))
      (decide_eq_decide.mpr (by simp [StepKind.clamped, clampNat]))
  | attach ports d =>
    rw [hk] at hcode hfirst hlate h
    have hd : field st.body 10 4 = d := (hlate 4).trans ((field_le 4 d).trans (Nat.mod_eq_of_lt h.2))
    have hports : byteNat st.body 9 = ports.toNat := hfirst.trans (byteNat_byte _ (ports.isLt.trans (by decide)))
    have hsome : ¬ (ports.toNat = 0 ∨ 16 ≤ ports.toNat) :=
      not_or.mpr ⟨fun h0 => h.1 (BitVec.eq_of_toNat_eq h0), Nat.not_le.mpr ports.isLt⟩
    rw [stepKindOf_attach hcode, hd, hports, if_neg hsome, BitVec.ofNat_toNat, BitVec.setWidth_eq]
    exact congrArg (fun b => some (StepKind.attach ports (clampNat d 100 600000), b))
      (decide_eq_decide.mpr (by simp [StepKind.clamped, clampNat]))
  | detach ports =>
    rw [hk] at hcode hfirst
    have hports : byteNat st.body 9 = ports.toNat := hfirst.trans (byteNat_byte _ (ports.isLt.trans (by decide)))
    rw [stepKindOf_detach hcode, hports, if_neg (Nat.not_le.mpr ports.isLt), BitVec.ofNat_toNat, BitVec.setWidth_eq]
    simp [StepKind.clamped]
  | await k =>
    rw [hk] at hcode hfirst
    rw [stepKindOf_await hcode, hfirst]
    exact (congrArg (Option.map _) (finOf_byte k (by decide))).trans (by simp [StepKind.clamped])

theorem StepKind.clamped_mayCarryLimits (k : StepKind) : k.clamped.mayCarryLimits = k.mayCarryLimits := by cases k <;> rfl

theorem StepRecord.clamped_eq_iff (st : StepRecord) :
    st.clamped = st ↔ st.kind.clamped = st.kind ∧ max 10 (min st.timeout 600000) = st.timeout :=
  ⟨fun h => ⟨congrArg StepRecord.kind h, congrArg StepRecord.timeout h⟩, fun ⟨hkind, htimeout⟩ => by
    rw [StepRecord.clamped, hkind, htimeout]⟩

theorem body_lengthAllowed (h : st.allowed) : stepLengthAllowed st.body := by
  obtain ⟨hkind, -⟩ := h
  have hthird := body_byteNat (st := st) 2
  unfold stepLengthAllowed
  rw [body_length, body_kind]
  cases hk : st.kind with
  | exchange code argument =>
    rw [hk] at hthird hkind
    have hcount : byteNat st.body 11 = argument.length :=
      (hthird.trans (byteNat_le_append _ _ le_rfl)).trans (byteNat_byte _ (by have := hkind.1; omega))
    have hshort := hkind.1
    rw [hcount]
    simp [StepKind.code, StepKind.fields]
    omega
  | _ => simp [StepKind.code, StepKind.fields]

/-- A STEP body is read as the step it was written from, its numbers clamped (R1, R197, R198). -/
theorem stepOf_body (h : st.allowed) : stepOf st.body = some (st.clamped, decide (st.clamped ≠ st)) := by
  obtain ⟨hkind, htimeout, hdoom, hlimits⟩ := h
  have hflags : (byteAt st.body 3).getLsbD 0 = st.stopOnFail ∧ (byteAt st.body 3).getLsbD 1 = st.lamp ∧ byteNat st.body 3 < 4 := by
    rw [byteNat, body_flags]
    cases st.stopOnFail <;> cases st.lamp <;> decide
  obtain ⟨hstop, hlamp, hfour⟩ := hflags
  have hcarry : ¬ (4 ≤ byteNat st.body 3 ∨ (st.limitSet.isSome = true ∧ st.kind.clamped.mayCarryLimits = false)) := by
    rintro (hbig | ⟨hset, hno⟩)
    · omega
    · rw [StepKind.clamped_mayCarryLimits] at hno
      have hcode : st.kind.code = 5 ∨ st.kind.code = 6 := by
        cases hk : st.kind <;> simp_all [StepKind.mayCarryLimits, StepKind.code]
      rw [hlimits hcode] at hset
      exact nomatch hset
  unfold stepOf
  rw [stepKindOf_body hkind, body_limit]
  dsimp only
  rw [if_neg hcarry, body_timeout htimeout, body_number, BitVec.ofNat_toNat, BitVec.setWidth_eq, hstop, hlamp]
  refine congrArg some (Prod.ext ?_ ?_)
  · rw [← hdoom]
    rfl
  · rw [← Bool.decide_or]
    refine decide_eq_decide.mpr ?_
    rw [ne_eq, ne_eq, ne_eq, StepRecord.clamped_eq_iff, not_and_or]
    rfl

/-! ### STEP (R1, R3, R148) -/

theorem okOr_decide_ne {α : Type} [DecidableEq α] (a b : α) : okOr (decide (a ≠ b)) = if a = b then .ok else .clamped := by
  by_cases h : a = b
  · rw [if_pos h, decide_eq_false (not_not.mpr h)]
    rfl
  · rw [if_neg h, decide_eq_true h]
    rfl

/-- Checks 4 and 5 of R1. -/
theorem objectCheck_eq (t : Store) (k : StepKind) :
    ((∃ o, k = .push o ∧ (t.object o).state ∈ [ObjectState.empty]) → objectCheck t k.clamped = some .noObject) ∧
    ((∃ o, k = .push o ∧ (t.object o).state ∈ [ObjectState.filling, .condemned]) → objectCheck t k.clamped = some .objectState) ∧
    ((¬ ∃ o, k = .push o ∧ (t.object o).state ∈ [ObjectState.empty, .filling, .condemned]) → objectCheck t k.clamped = none) := by
  cases k with
  | push o =>
    unfold StepKind.clamped objectCheck
    dsimp only
    cases hstate : (t.object o).state <;> simp [hstate]
  | _ => exact ⟨fun ⟨_, h, _⟩ => (nomatch h), fun ⟨_, h, _⟩ => (nomatch h), fun _ => rfl⟩

/-- Settles O17. -/
theorem stepAppendsTheStep : Obligations.StepAppendsTheStep := by
  unfold Obligations.StepAppendsTheStep
  intro s r i st h hst hr x objectIs u code
  have hnext {c : ReplyCode} {rest : List Byte} {t : State} (hstep : stepRequest i st.body s = (t, replyBody c rest)) :
      exec (.stepRequest r) s = .next (answer 0xA8#8 r c rest t) := by
    refine slot_next (k := .step) h hr ((stepLengthOk_iff st.body).mpr (body_lengthAllowed hst)) hstep rfl
  obtain ⟨hempty, hother, hgood⟩ := objectCheck_eq s.store st.kind
  unfold stepRequest at hnext
  rw [stepOf_body hst] at hnext
  dsimp only at hnext
  refine ⟨fun hfault => hnext (if_pos hfault), fun hfault hfull => ?_, fun hfault hroom => ?_⟩
  · rw [if_neg (show ¬ (s.slot i).power.state = .fault from hfault)] at hnext
    exact hnext (if_pos hfull)
  · rw [if_neg (show ¬ (s.slot i).power.state = .fault from hfault),
      if_neg (show ¬ Config.queuePlaces ≤ (s.slot i).engine.queueCount from Nat.not_le.mpr hroom)] at hnext
    refine ⟨fun hobject => ?_, fun hobject => ?_, fun hobject => ?_⟩
    · rw [show st.clamped.kind = st.kind.clamped from rfl, hempty hobject] at hnext
      exact hnext rfl
    · rw [show st.clamped.kind = st.kind.clamped from rfl, hother hobject] at hnext
      exact hnext rfl
    · rw [show st.clamped.kind = st.kind.clamped from rfl, hgood hobject] at hnext
      have hstate : ({ s.modSlot i (fun y => { y with engine.waiting := y.engine.waiting ++ [st.clamped] }) with
          store := s.store.withStep st.kind.clamped } : State) = u := by
        have hstore : s.store.withStep st.kind.clamped = u.store := by
          cases hk : st.kind <;> simp only [u, hk] <;> rfl
        rw [hstore]
      dsimp only at hnext
      rw [hstate, okOr_decide_ne] at hnext
      exact hnext rfl

end Sys2Proof.Machine
end

