-- ==== Sys2Proof/Proofs/LinkTransfers.lean ====
section
/-! PROOF. What the host sends: the link's checks of a request, frames in transfers, transfers accepted or held off, and intake. -/

namespace Sys2Proof.Machine

variable {s t : State} {r : Request} {i : Slot}

/-! ### The link's checks (R170, R186) -/

/-- A request row is the sending of its one frame. -/
theorem exec_request {c : Instr} {kind : Byte} (hr : c.request = some r) (hk : c.kindByte = some kind) :
    exec c s = .next (sendRequest kind r s) := by
  cases c <;> first | (cases hr; cases hk; rfl) | exact nomatch hr

theorem requestCodes_eq : requestCodes = allRequestKinds.map RequestKind.code := rfl

theorem requestKind_eq_none_iff (kind : Byte) : requestKind kind = none ↔ kind ∉ requestCodes := by
  rw [requestKind, List.find?_eq_none, requestCodes_eq, List.mem_map]
  simp

theorem requestKind_of_mem {kind : Byte} (h : kind ∈ requestCodes) : ∃ k, requestKind kind = some k ∧ k.code = kind := by
  cases hk : requestKind kind with
  | none => exact absurd h ((requestKind_eq_none_iff kind).mp hk)
  | some k => exact ⟨k, rfl, by simpa using List.find?_some hk⟩

theorem CellRequest.code_lt (k : CellRequest) : k.code.toNat < 0x20 := by cases k <;> decide

theorem SlotRequest.le_code (k : SlotRequest) : ¬ k.code.toNat < 0x20 := by cases k <;> decide

theorem CellRequest.lengthOk_iff (k : CellRequest) (body : List Byte) : k.lengthOk body.length = true ↔ lengthAllowed k.code body := by
  cases k <;> simp [CellRequest.lengthOk, lengthAllowed, CellRequest.code]

theorem SlotRequest.lengthOk_iff (k : SlotRequest) (body : List Byte) : k.lengthOk body = true ↔ lengthAllowed k.code body := by
  cases k with
  | step => rw [SlotRequest.lengthOk, stepLengthOk_iff]; simp [lengthAllowed, SlotRequest.code]
  | _ => simp [SlotRequest.lengthOk, lengthAllowed, SlotRequest.code]

theorem slotOf_eq_none_iff (b : Byte) : slotOf b = none ↔ ¬ b.toNat < 24 := by
  unfold slotOf
  split <;> simp_all

theorem slotOf_of_lt {b : Byte} (h : b.toNat < 24) : ∃ j, slotOf b = some j := by
  cases hs : slotOf b with
  | none => exact absurd h ((slotOf_eq_none_iff b).mp hs)
  | some j => exact ⟨j, rfl⟩

theorem checkRequest_of_cell {f : Frame} {k : CellRequest} (hk : requestKind f.kind = some (.cell k)) : checkRequest f =
    if f.slot ≠ 0xFF#8 then .refused .badSlot
    else if k.lengthOk f.body.length = false then .refused .badLength
    else if f.flags ≠ 0#8 then .refused .badValue
    else .cell k := by
  unfold checkRequest
  rw [hk]

theorem checkRequest_of_badSlot {f : Frame} {k : SlotRequest} (hk : requestKind f.kind = some (.slot k)) (hs : slotOf f.slot = none) :
    checkRequest f = .refused .badSlot := by
  unfold checkRequest
  rw [hk]
  dsimp only
  rw [hs]

theorem checkRequest_of_slot {f : Frame} {k : SlotRequest} {j : Slot} (hk : requestKind f.kind = some (.slot k))
    (hs : slotOf f.slot = some j) : checkRequest f =
    if k.lengthOk f.body = false then .refused .badLength
    else if f.flags ≠ 0#8 then .refused .badValue
    else .slot k j := by
  unfold checkRequest
  rw [hk]
  dsimp only
  rw [hs]

/-- The frame of a request row. -/
def frameOf (kind : Byte) (r : Request) : Frame := ⟨kind, r.tag, r.slot, r.flags, r.body⟩

/-- A request that the checks refuse is answered with the code of the check (R170, R171). -/
theorem refused_next {kind : Byte} (h : s.LinkReady) (hb : r.body.length ≤ 1024) {code : ReplyCode} (hcode : code ≠ .unknownKind)
    (hc : checkRequest (frameOf kind r) = .refused code) : sendRequest kind r s = answer (kind ||| 0x80#8) r code [] s := by
  have hact : act (frameOf kind r) s = (s, some (replyBody code [])) := by
    unfold act
    rw [hc]
    split
    · next heq => cases heq; exact absurd rfl hcode
    · next heq => cases heq; rfl
    · next heq => exact nomatch heq
    · next heq => exact nomatch heq
  rw [sendRequest_ready s kind r h hb]
  change uplink (joinReply (frameOf kind r) (act (frameOf kind r) s).2 (act (frameOf kind r) s).1) = _
  rw [hact]
  rfl

/-- Settles O25. -/
theorem requestsAreCheckedInOrder : Obligations.RequestsAreCheckedInOrder := by
  unfold Obligations.RequestsAreCheckedInOrder
  intro s c kind r h hr hk hb slotOk
  rw [exec_request hr hk]
  refine ⟨fun hkind => ?_, fun hkind hslot => ?_, fun hkind hslot hlength => ?_, fun hkind hslot hlength hflags => ?_⟩
  · have hc : checkRequest (frameOf kind r) = .refused .unknownKind := by
      unfold checkRequest
      rw [show (frameOf kind r).kind = kind from rfl, (requestKind_eq_none_iff kind).mpr hkind]
    have hact : act (frameOf kind r) s = ({ s with link.unknownSeen := true }, some (replyBody .unknownKind [kind])) := by
      unfold act
      rw [hc]
      rfl
    rw [sendRequest_ready s kind r h hb]
    change Host.Outcome.next (uplink (joinReply (frameOf kind r) (act (frameOf kind r) s).2 (act (frameOf kind r) s).1)) = _
    rw [hact]
    rfl
  all_goals
    obtain ⟨k, hk, rfl⟩ := requestKind_of_mem hkind
    refine congrArg Host.Outcome.next (refused_next h hb nofun ?_)
  · cases k with
    | cell k => exact (checkRequest_of_cell hk).trans (if_pos fun heq => hslot ((if_pos k.code_lt).mpr heq))
    | slot k =>
      have hnone : slotOf r.slot = none := (slotOf_eq_none_iff r.slot).mpr fun hlt => hslot ((if_neg k.le_code).mpr hlt)
      exact checkRequest_of_badSlot hk hnone
  · cases k with
    | cell k =>
      have hcell : r.slot = 0xFF#8 := (if_pos k.code_lt).mp hslot
      have hbad : k.lengthOk r.body.length = false := Bool.eq_false_of_not_eq_true (mt (k.lengthOk_iff r.body).mp hlength)
      exact (checkRequest_of_cell hk).trans ((if_neg (not_not.mpr hcell)).trans (if_pos hbad))
    | slot k =>
      obtain ⟨j, hj⟩ := slotOf_of_lt ((if_neg k.le_code).mp hslot)
      have hbad : k.lengthOk r.body = false := Bool.eq_false_of_not_eq_true (mt (k.lengthOk_iff r.body).mp hlength)
      exact (checkRequest_of_slot hk hj).trans (if_pos hbad)
  · cases k with
    | cell k =>
      have hcell : r.slot = 0xFF#8 := (if_pos k.code_lt).mp hslot
      have hgood : ¬ k.lengthOk r.body.length = false := by rw [(k.lengthOk_iff r.body).mpr hlength]; exact nofun
      exact (checkRequest_of_cell hk).trans ((if_neg (not_not.mpr hcell)).trans ((if_neg hgood).trans (if_pos hflags)))
    | slot k =>
      obtain ⟨j, hj⟩ := slotOf_of_lt ((if_neg k.le_code).mp hslot)
      have hgood : ¬ k.lengthOk r.body = false := by rw [(k.lengthOk_iff r.body).mpr hlength]; exact nofun
      exact (checkRequest_of_slot hk hj).trans ((if_neg hgood).trans (if_pos hflags))

/-! ### Frames in transfers (R167, R168, R183) -/

theorem requestFrame_eq (kind : Byte) (r : Request) : requestFrame kind r = (frameOf kind r).encode := by
  unfold requestFrame Frame.encode Frame.checked Frame.size frameOf
  simp only [List.append_assoc]

theorem Frame.checked_length (f : Frame) : f.checked.length = f.size - 2 := by
  simp [Frame.checked, Frame.size]
  omega

theorem Frame.encode_length (f : Frame) : f.encode.length = f.size := by
  simp [Frame.encode, Frame.checked_length, Frame.size]
  omega

/-- The bytes of a frame, field by field. -/
theorem Frame.encode_append (f : Frame) (rest : List Byte) : f.encode ++ rest =
    le 2 f.size ++ (f.kind :: f.tag :: f.slot :: f.flags :: (f.body ++ (le 2 (crc16 f.checked).toNat ++ rest))) := by
  unfold Frame.encode
  conv_lhs => enter [1, 1]; unfold Frame.checked
  simp only [List.append_assoc, List.cons_append, List.nil_append]

/-- A frame at the head of a run of bytes is cut off it. -/
theorem cutOne_encode (f : Frame) (hb : f.body.length ≤ 1024) (rest : List Byte) : cutOne (f.encode ++ rest) = .ok (f, rest) := by
  have hsize : f.size = 8 + f.body.length := rfl
  have hn : field (f.encode ++ rest) 0 2 = f.size := by
    rw [Frame.encode_append, field_le_append]
    exact Nat.mod_eq_of_lt (by omega)
  have hlength : ¬ (f.encode ++ rest).length < f.size := by
    rw [List.length_append, Frame.encode_length]
    omega
  have hchecked : (f.encode ++ rest).take (f.size - 2) = f.checked := by
    rw [Frame.encode, List.append_assoc]
    exact List.take_left' f.checked_length
  have hcrc : field (f.encode ++ rest) (f.size - 2) 2 = (crc16 f.checked).toNat := by
    rw [Frame.encode, List.append_assoc, ← f.checked_length]
    exact field_append f.checked rest 2 _ (crc16 f.checked).isLt
  have hbyte (k : Nat) : byteAt (f.encode ++ rest) (2 + k) = byteAt (f.kind :: f.tag :: f.slot :: f.flags ::
      (f.body ++ (le 2 (crc16 f.checked).toNat ++ rest))) k := by
    rw [Frame.encode_append, byteAt_le_append _ _ (by omega), Nat.add_sub_cancel_left]
  have hbody : ((f.encode ++ rest).drop 6).take (f.size - 8) = f.body := by
    rw [Frame.encode_append, show f.size - 8 = f.body.length by omega]
    exact List.take_left
  have hrest : (f.encode ++ rest).drop f.size = rest := by
    exact List.drop_left' f.encode_length
  unfold cutOne
  dsimp only
  rw [hn, if_neg (by omega), if_neg hlength, hchecked, hcrc, BitVec.ofNat_toNat, BitVec.setWidth_eq, if_neg (not_not.mpr rfl), hbody,
    hrest, hbyte 0, hbyte 1, hbyte 2, hbyte 3]
  rfl

/-- Frames at the head of a run of bytes are cut off it, whatever the bound on the cuts, as long as it is one for the bytes. -/
theorem cutFrom_frames (tail : List Byte) (fs : List Frame) : (∀ f ∈ fs, f.body.length ≤ 1024) → ∀ n,
    (fs.flatMap Frame.encode ++ tail).length ≤ n → ∃ m, tail.length ≤ m ∧
      cutFrom n (fs.flatMap Frame.encode ++ tail) = (fs ++ (cutFrom m tail).1, (cutFrom m tail).2) := by
  induction fs with
  | nil => exact fun _ n hn => ⟨n, hn, rfl⟩
  | cons f fs ih =>
    intro hb n hn
    rw [List.flatMap_cons, List.append_assoc] at hn ⊢
    have hsize : 8 ≤ f.size := Nat.le_add_right 8 _
    rw [List.length_append, Frame.encode_length] at hn
    cases n with
    | zero => omega
    | succ n =>
      obtain ⟨m, hm, hcut⟩ := ih (fun g hg => hb g (List.mem_cons_of_mem f hg)) n (by omega)
      refine ⟨m, hm, ?_⟩
      have hlength : (f.encode ++ (fs.flatMap Frame.encode ++ tail)).length = f.size + (fs.flatMap Frame.encode ++ tail).length := by
        rw [List.length_append, Frame.encode_length]
      have hsome : f.encode ++ (fs.flatMap Frame.encode ++ tail) ≠ [] := by
        rw [← List.length_pos_iff_ne_nil, hlength]
        omega
      rw [cutFrom, if_neg hsome, if_neg (by rw [hlength]; omega), cutOne_encode f (hb f List.mem_cons_self)]
      dsimp only
      rw [hcut]
      rfl

/-- A run of bytes whose first frame is bad gives no frame. -/
theorem cutFrom_bad {n : Nat} {bytes : List Byte} (hsome : bytes ≠ []) (hn : bytes.length ≤ n) {e : BadFrame}
    (h : (bytes.length < 8 ∧ e = .length) ∨ (8 ≤ bytes.length ∧ cutOne bytes = .error e)) : cutFrom n bytes = ([], some e) := by
  have hpos := List.length_pos_iff_ne_nil.mpr hsome
  cases n with
  | zero => omega
  | succ n =>
    rw [cutFrom, if_neg hsome]
    rcases h with ⟨hshort, rfl⟩ | ⟨hlong, hcut⟩
    · rw [if_pos hshort]
    · rw [if_neg (Nat.not_lt.mpr hlong), hcut]

/-- Settles O27. -/
theorem transfersCarryTheirFrames : Obligations.TransfersCarryTheirFrames := by
  unfold Obligations.TransfersCarryTheirFrames
  intro fs tail hb frames bytes n
  have hframes : frames = fs.map fun f => frameOf f.1 f.2 := rfl
  have hbytes : bytes = frames.flatMap Frame.encode ++ tail := by
    rw [hframes, List.flatMap_map]
    simp only [← requestFrame_eq]
    rfl
  have hbodies : ∀ f ∈ frames, f.body.length ≤ 1024 := by
    rw [hframes]
    intro f hf
    obtain ⟨g, hg, rfl⟩ := List.mem_map.mp hf
    exact hb g hg
  obtain ⟨m, hm, hcut⟩ := cutFrom_frames tail frames hbodies bytes.length (by rw [hbytes])
  have hcut' : cutTransfer bytes = (frames ++ (cutFrom m tail).1, (cutFrom m tail).2) := by
    unfold cutTransfer
    rw [← hcut, hbytes]
  rw [hcut']
  refine ⟨fun hnil => ?_, fun hsome hbad => ?_, fun hlong hmin hmax hfits hcrc => ?_⟩
  · have hempty : cutFrom m tail = ([], none) := by
      subst hnil
      cases m <;> rfl
    rw [hempty, List.append_nil]
  · have hempty : cutFrom m tail = ([], some .length) := by
      refine cutFrom_bad hsome hm ?_
      by_cases hshort : tail.length < 8
      · exact .inl ⟨hshort, rfl⟩
      · refine .inr ⟨Nat.not_lt.mp hshort, ?_⟩
        unfold cutOne
        dsimp only
        by_cases hrange : n < 8 ∨ 1032 < n
        · exact if_pos hrange
        · exact (if_neg hrange).trans (if_pos (by omega))
    rw [hempty, List.append_nil]
  · have hempty : cutFrom m tail = ([], some .crc) := by
      refine cutFrom_bad (fun hnil => by rw [hnil] at hlong; exact absurd hlong (by decide)) hm (.inr ⟨hlong, ?_⟩)
      exact (if_neg (by omega)).trans ((if_neg (Nat.not_lt.mpr hfits)).trans (if_pos hcrc))
    rw [hempty, List.append_nil]

/-! ### Transfers accepted or held off (R165, R166) -/

/-- A transfer of one frame is cut into it. -/
theorem cutTransfer_encode (f : Frame) (hb : f.body.length ≤ 1024) : cutTransfer f.encode = ([f], none) := by
  obtain ⟨m, -, hcut⟩ := cutFrom_frames [] [f] (fun g hg => List.mem_singleton.mp hg ▸ hb) f.encode.length (by simp)
  rw [List.flatMap_singleton, List.append_nil] at hcut
  rw [cutTransfer, hcut]
  cases m <;> rfl

/-- Settles O26. -/
theorem oneFrameTransferIsTheRequest : Obligations.OneFrameTransferIsTheRequest := by
  unfold Obligations.OneFrameTransferIsTheRequest
  intro s c kind r hr hk hb
  rw [exec_request hr hk, requestFrame_eq]
  refine congrArg Host.Outcome.next ?_
  have hlength := (frameOf kind r).encode_length
  have hsize : (frameOf kind r).size = 8 + r.body.length := rfl
  have hlong : ¬ Config.inboundBytes < (frameOf kind r).encode.length := by
    rw [hlength, hsize, Config.inboundBytes]
    omega
  have haccept : acceptTransfer (frameOf kind r).encode s = { s with link.inbound := s.link.inbound ++ [frameOf kind r] } := by
    unfold acceptTransfer
    rw [cutTransfer_encode (frameOf kind r) hb]
    rfl
  unfold presentTransfer sendRequest
  dsimp only
  rw [if_pos hb, hlength, haccept]
  refine if_congr ?_ rfl rfl
  rw [← hlength, or_iff_left hlong]

/-- What a bad frame does to the link (R167). -/
theorem noteBadFrame_eq (e : Option BadFrame) (s : State) : noteBadFrame e s = { s with link := { s.link with
    linkLength := s.link.linkLength || decide (e = some .length)
    linkCrc := s.link.linkCrc || decide (e = some .crc)
    linkError := s.link.linkError || e.isSome } } := by
  cases e with
  | none => simp [noteBadFrame]
  | some e => cases e <;> simp [noteBadFrame, State.markLinkError]

theorem Link.fits_iff (l : Link) (n : Nat) : l.fits n = true ↔ (l.inbound.map fun f => 8 + f.body.length).sum + n ≤ 4096 :=
  decide_eq_true_iff

theorem acceptTransfer_eq (bytes : List Byte) (s : State) : acceptTransfer bytes s = { s with link := { s.link with
    inbound := s.link.inbound ++ (cutTransfer bytes).1
    linkLength := s.link.linkLength || decide ((cutTransfer bytes).2 = some .length)
    linkCrc := s.link.linkCrc || decide ((cutTransfer bytes).2 = some .crc)
    linkError := s.link.linkError || (cutTransfer bytes).2.isSome } } := noteBadFrame_eq _ _

/-- Settles O28. -/
theorem transfersAreAcceptedOrHeldOff : Obligations.TransfersAreAcceptedOrHeldOff := by
  unfold Obligations.TransfersAreAcceptedOrHeldOff
  intro s bytes used
  have hpresented (hu : s.link.usb = .configured) (hh : s.link.held = none) (hl : bytes.length ≤ 4096) :
      ¬ (s.link.usb = .notConfigured ∨ s.link.held.isSome = true ∨ Config.inboundBytes < bytes.length) := by
    rw [hu, hh]
    rintro (h | h | h)
    · exact nomatch h
    · exact nomatch h
    · exact absurd hl (Nat.not_le.mpr h)
  refine ⟨fun hnot => ?_, fun hu hh hl hfull => ?_, fun hu hh hl hroom => ?_⟩ <;>
    refine congrArg Host.Outcome.next ?_
  · exact if_pos (hnot.imp id (Or.imp_left Option.isSome_iff_ne_none.mpr))
  · exact (if_neg (hpresented hu hh hl)).trans (if_neg fun hfits => absurd ((s.link.fits_iff _).mp hfits) (Nat.not_le.mpr hfull))
  · refine (if_neg (hpresented hu hh hl)).trans ((if_pos ((s.link.fits_iff _).mpr hroom)).trans ?_)
    rw [acceptTransfer_eq]

/-! ### Intake (R166, R169) -/

/-- What the host has sent stands as it stood. -/
def SentSame (s t : State) : Prop := t.link.held = s.link.held ∧ t.link.inbound = s.link.inbound

/-- No owner of a cell request touches what the host has sent but CELL_RESET, which discards it (R179). -/
theorem cellOwner_link (k : CellRequest) (body : List Byte) (s : State) (hk : k ≠ .cellReset) :
    SentSame s (cellOwner k body s).1 := by
  have hsame : SentSame s s := ⟨rfl, rfl⟩
  cases k with
  | cellReset => exact absurd rfl hk
  | noticeSet => unfold cellOwner noticeSet; dsimp only; split <;> [exact hsame; split <;> exact hsame]
  | guardWrite => unfold cellOwner guardWrite; dsimp only; split <;> [exact hsame; split <;> exact hsame]
  | guardRead => unfold cellOwner guardRead; dsimp only; split <;> exact hsame
  | guardDefault => unfold cellOwner guardDefault; dsimp only; split <;> [exact hsame; split <;> exact hsame]
  | limitWrite => unfold cellOwner limitWrite; dsimp only; split <;> exact hsame
  | limitRead => unfold cellOwner limitRead; dsimp only; split <;> exact hsame
  | objOpen =>
    unfold cellOwner objOpen
    dsimp only
    split <;> [exact hsame; split <;> [exact hsame; split <;> [exact hsame; split <;> exact hsame]]]
  | objData =>
    unfold cellOwner objData
    dsimp only
    split <;> [exact hsame; split <;> [exact hsame; split <;> [exact hsame; split <;> [exact hsame; split <;> exact hsame]]]]
  | objSeal =>
    unfold cellOwner objSeal
    dsimp only
    split <;> [exact hsame; split <;> [exact hsame; split <;> [exact hsame; split <;> exact hsame]]]
  | objDelete => unfold cellOwner objDelete; dsimp only; split <;> [exact hsame; split <;> exact hsame]
  | _ => exact hsame

/-- What the host has sent, after a request has been acted on: as it was, or discarded by a CELL_RESET. -/
theorem act_link (f : Frame) (s : State) : SentSame s (act f s).1 ∨ (act f s).1.link.held = none ∧ (act f s).1.link.inbound = [] := by
  unfold act
  split
  · exact .inl ⟨rfl, rfl⟩
  · exact .inl ⟨rfl, rfl⟩
  · next k _ =>
    by_cases hk : k = .cellReset
    · subst hk; exact .inr ⟨rfl, rfl⟩
    · exact .inl (cellOwner_link k f.body s hk)
  · next k i _ => exact .inl (slotOwner_link s k i f.body)

/-- What intake has before it: the requests in the buffer and the bytes of a transfer held off. -/
def State.intakeLeft (s : State) : Nat := s.link.inbound.length + (s.link.held.getD []).length

/-- A transfer holds no more requests than bytes. -/
theorem cutTransfer_length_le (bytes : List Byte) : (cutTransfer bytes).1.length ≤ bytes.length := by
  have hsize := cutFrom_size bytes.length bytes
  have hcount (fs : List Frame) : fs.length ≤ (fs.map Frame.size).sum := by
    induction fs with
    | nil => exact le_rfl
    | cons f fs ih =>
      have : 8 ≤ f.size := Nat.le_add_right 8 _
      rw [List.length_cons, List.map_cons, List.sum_cons]
      omega
  exact (hcount _).trans hsize

theorem acceptHeld_left (s : State) : (acceptHeld s).intakeLeft ≤ s.intakeLeft := by
  unfold acceptHeld
  split
  · next bytes hheld =>
    split
    · have := cutTransfer_length_le bytes
      rw [acceptTransfer_eq]
      simp only [State.intakeLeft, List.length_append, hheld, Option.getD_none, Option.getD_some, List.length_nil]
      omega
    · exact le_rfl
  · exact le_rfl

theorem joinReply_left (f : Frame) (body : Option (List Byte)) (s : State) : (joinReply f body s).intakeLeft = s.intakeLeft := by
  rw [State.intakeLeft, joinReply_inbound, joinReply_held, State.intakeLeft]

/-- Taking a request leaves intake less to do. -/
theorem takeRequest_left {f : Frame} {rest : List Frame} (hin : s.link.inbound = f :: rest) :
    (uplink (takeRequest f rest s)).intakeLeft < s.intakeLeft := by
  have huplink : (uplink (takeRequest f rest s)).intakeLeft = (takeRequest f rest s).intakeLeft := by
    obtain ⟨hinbound, hheld⟩ := uplink_inbound (takeRequest f rest s)
    rw [State.intakeLeft, State.intakeLeft, hinbound, hheld]
  have hact : (act f { s with link.inbound := rest }).1.intakeLeft ≤ rest.length + (s.link.held.getD []).length := by
    unfold State.intakeLeft
    rcases act_link f { s with link.inbound := rest } with ⟨hheld, hinbound⟩ | ⟨hheld, hinbound⟩
    · rw [hheld, hinbound]
    · rw [hheld, hinbound]
      exact Nat.zero_le _
  have haccept := acceptHeld_left (joinReply f (act f { s with link.inbound := rest }).2 (act f { s with link.inbound := rest }).1)
  rw [joinReply_left] at haccept
  rw [huplink, takeRequest]
  dsimp only
  refine (haccept.trans hact).trans_lt ?_
  rw [State.intakeLeft, hin, List.length_cons]
  omega

/-- Beyond what is left to do, the bound on the takings does not matter. -/
theorem takeRequests_enough (n : Nat) : ∀ (m : Nat) (s : State), s.intakeLeft < n → s.intakeLeft < m →
    takeRequests n s = takeRequests m s := by
  induction n with
  | zero => exact fun m s h => absurd h (Nat.not_lt_zero _)
  | succ n ih =>
    intro m s hn hm
    cases m with
    | zero => exact absurd hm (Nat.not_lt_zero _)
    | succ m =>
      unfold takeRequests
      split
      · rfl
      next f rest hin =>
      split
      · have hless := takeRequest_left hin
        exact ih m _ (by omega) (by omega)
      · rfl

theorem intake_nil (h : s.link.inbound = []) : intake s = uplink s := by
  unfold intake takeRequests
  rw [h]

theorem intake_waits {f : Frame} {rest : List Frame} (hin : s.link.inbound = f :: rest) (h : s.link.canTake f = false) :
    intake s = uplink s := by
  unfold intake takeRequests
  rw [hin]
  exact if_neg (by rw [h]; exact nofun)

theorem intake_takes {f : Frame} {rest : List Frame} (hin : s.link.inbound = f :: rest) (h : s.link.canTake f = true) :
    intake s = intake (uplink (takeRequest f rest s)) := by
  have hless := takeRequest_left hin
  have hone : intake s = takeRequests s.intakeLeft (uplink (takeRequest f rest s)) := by
    conv_lhs => unfold intake takeRequests
    rw [hin]
    dsimp only
    rw [if_pos h, ← hin]
    rfl
  rw [hone]
  exact takeRequests_enough _ _ _ hless (Nat.lt_succ_self _)

theorem joinReply_eq (f : Frame) (body : Option (List Byte)) (s : State) : joinReply f body s = { s with link.replies :=
    s.link.replies ++ (body.toList.map fun b => ⟨f.kind ||| 0x80#8, f.tag, f.slot, 0#8, b⟩) } := by
  cases body with
  | none => simp [joinReply]
  | some b => rfl

theorem Link.canTake_iff (l : Link) (f : Frame) : l.canTake f = true ↔ l.replies.length < 8 ∨ checkRequest f = .cell .cellReset := by
  rw [Link.canTake, Bool.or_eq_true]
  exact or_congr decide_eq_true_iff decide_eq_true_iff

/-- Settles O29. -/
theorem intakeTakesTheOldestRequestFirst : Obligations.IntakeTakesTheOldestRequestFirst := by
  unfold Obligations.IntakeTakesTheOldestRequestFirst
  intro s
  refine ⟨intake_nil, fun f rest hin => ⟨fun hfull hreset => ?_, fun hroom => ?_⟩⟩
  · refine intake_waits hin (Bool.eq_false_of_not_eq_true fun h => ?_)
    exact ((s.link.canTake_iff f).mp h).elim (Nat.not_lt.mpr hfull) hreset
  intro done replied fits
  have htake : intake s = intake (uplink (acceptHeld replied)) := by
    rw [intake_takes hin ((s.link.canTake_iff f).mpr hroom), takeRequest]
    dsimp only
    rw [joinReply_eq]
  rw [htake]
  refine ⟨fun hnone => ?_, fun bytes hbytes hfits => ?_⟩
  · have hstay : acceptHeld replied = replied := by
      unfold acceptHeld
      split
      · next bytes hheld => exact if_neg fun h => hnone bytes hheld ((replied.link.fits_iff _).mp h)
      · rfl
    rw [hstay]
  · have haccept : acceptHeld replied = acceptTransfer bytes { replied with link.held := none } := by
      unfold acceptHeld
      rw [show replied.link.held = some bytes from hbytes]
      exact if_pos ((replied.link.fits_iff _).mpr hfits)
    rw [haccept]

end Sys2Proof.Machine
end

