-- ==== Sys2Proof/Proofs/LinkEffects.lean ====
section
/-! PROOF. The uplink's choice, the content of notices, the events of the USB side, and the two resets of the whole cell. -/

namespace Sys2Proof.Machine

variable {s t : State} {r : Request} {i : Slot}

/-! ### The choice (R172) -/

/-- The place of a notice in the order in which ties are decided. -/
def NoticeName.rank : NoticeName → Nat
  | .linkError => 0
  | .ofSlot i k => 1 + 7 * i.val + k.index.val

theorem allNames_rank : allNames.map NoticeName.rank = List.range 169 := by decide +kernel

theorem mem_allNames (n : NoticeName) : n ∈ allNames := by
  cases n with
  | linkError => exact List.mem_cons_self
  | ofSlot i k =>
    refine List.mem_cons_of_mem _ (List.mem_flatMap.mpr ⟨i, mem_allSlots i, List.mem_map.mpr ⟨k, ?_, rfl⟩⟩)
    cases k <;> decide

theorem allNames_sorted : allNames.Pairwise fun m n => m.rank < n.rank := by
  rw [← List.pairwise_map (f := NoticeName.rank) (R := (· < ·)), allNames_rank]
  exact List.pairwise_lt_range

/-- Whether n goes before m: by priority, then by the order of ties. -/
def Link.before (l : Link) (n m : NoticeName) : Prop :=
  l.priorityOf m < l.priorityOf n ∨ (l.priorityOf m = l.priorityOf n ∧ n.rank < m.rank)

theorem bestOf_mem {l : Link} {m : NoticeName} : ∀ {ns : List NoticeName}, bestOf l ns = some m → m ∈ ns := by
  intro ns
  induction ns with
  | nil => exact nofun
  | cons n ns ih =>
    intro h
    unfold bestOf at h
    split at h
    · cases h
      exact List.mem_cons_self
    next k hk =>
    split at h
    · cases h
      exact List.mem_cons_self
    · cases h
      exact List.mem_cons_of_mem n (ih hk)

/-- The notice that goes before every other of an ordered list is the best of it. -/
theorem bestOf_eq {l : Link} {n : NoticeName} : ∀ {ns : List NoticeName}, ns.Pairwise (fun m n => m.rank < n.rank) → n ∈ ns →
    (∀ m ∈ ns, m ≠ n → l.before n m) → bestOf l ns = some n := by
  intro ns
  induction ns with
  | nil => exact nofun
  | cons a ns ih =>
    intro hsorted hn hbest
    obtain ⟨hfirst, hrest⟩ := List.pairwise_cons.mp hsorted
    unfold bestOf
    by_cases han : n = a
    · subst han
      split
      · rfl
      next m hm =>
      have hmem := bestOf_mem hm
      have hne : m ≠ n := fun h => absurd (hfirst m hmem) (by rw [h]; exact Nat.lt_irrefl _)
      refine if_pos ?_
      exact (hbest m (List.mem_cons_of_mem n hmem) hne).elim Nat.le_of_lt fun h => h.1.le
    · have hmem : n ∈ ns := (List.mem_cons.mp hn).resolve_left han
      rw [ih hrest hmem fun m hm => hbest m (List.mem_cons_of_mem a hm)]
      refine if_neg fun hle => ?_
      rcases hbest a List.mem_cons_self (Ne.symm han) with h | ⟨h, hrank⟩
      · omega
      · exact absurd (hfirst n hmem) (by omega)

theorem eligible_iff (s : State) (n : NoticeName) :
    s.eligible n = true ↔ s.isPending n = true ∧ s.link.threshold < s.link.priorityOf n := by
  rw [State.eligible, Bool.and_eq_true, decide_eq_true_eq]

/-- Settles O30. -/
theorem uplinkChoosesInOrder : Obligations.UplinkChoosesInOrder := by
  unfold Obligations.UplinkChoosesInOrder
  intro s free rank eligible
  refine ⟨fun h => congrArg Host.Outcome.next (if_pos h), fun h => congrArg Host.Outcome.next (if_neg (by rw [h]; exact nofun)), rfl,
    fun hbusy => ?_, fun c hfree hhello => ?_, fun f fs hfree hhello hreplies => ?_, fun hfree hhello hreplies => ⟨fun hnone => ?_,
    fun n hn hbest => ?_⟩⟩ <;> refine congrArg Host.Outcome.next ?_
  · exact if_neg hbusy
  · rw [uplink_hello s hfree.1 hfree.2 hhello]
    rfl
  · rw [uplink_reply s hfree.1 hfree.2 hhello hreplies]
    rfl
  · refine uplink_nothing s hhello hreplies ?_
    have hempty : allNames.filter s.eligible = [] := List.filter_eq_nil_iff.mpr fun n _ h => hnone n ((eligible_iff s n).mp h)
    rw [State.bestNotice, hempty]
    rfl
  · refine uplink_notice s hfree.1 hfree.2 hhello hreplies (bestOf_eq (allNames_sorted.filter _) ?_ fun m hm hne => ?_)
    · exact List.mem_filter.mpr ⟨mem_allNames n, (eligible_iff s n).mpr hn⟩
    · exact hbest m ((eligible_iff s m).mp (List.mem_filter.mp hm).2) hne

/-! ### Notices (R174, R176, R204) -/

theorem markOldest_sending {sending : List ListEntry} (hsending : ∀ d ∈ sending, d.inTx = true) {e : ListEntry} (he : e.inTx = false)
    (waiting : List ListEntry) : markOldest (sending ++ e :: waiting) = sending ++ { e with inTx := true } :: waiting := by
  induction sending with
  | nil => exact if_neg (by rw [he]; exact nofun)
  | cons d sending ih =>
    rw [List.cons_append, markOldest, if_pos (hsending d List.mem_cons_self), ih fun g hg => hsending g (List.mem_cons_of_mem d hg)]
    rfl

theorem oldestRecord_sending {sending : List ListEntry} (hsending : ∀ d ∈ sending, d.inTx = true) {e : ListEntry} (he : e.inTx = false)
    (waiting : List ListEntry) : oldestRecord (sending ++ e :: waiting) = some e.record := by
  have hnone : sending.find? (fun d => !d.inTx) = none := List.find?_eq_none.mpr fun d hd => by rw [hsending d hd]; decide
  rw [oldestRecord, List.find?_append, hnone, Option.none_or, List.find?_cons_of_pos (by rw [he]; decide)]
  rfl

/-- Settles O31. -/
theorem noticeContentIsFixedAtTheChoice : Obligations.NoticeContentIsFixedAtTheChoice := by
  unfold Obligations.NoticeContentIsFixedAtTheChoice
  intro s i x sent
  refine ⟨fun sending e waiting hdone hsending he hwaiting => ?_, ?_, rfl, rfl, rfl, rfl, rfl, rfl⟩
  · have hmark : markOldest x.engine.done = sending ++ { e with inTx := true } :: waiting := by
      rw [hdone, markOldest_sending hsending he]
    have hsplit : (sending ++ { e with inTx := true } :: waiting : List ListEntry) = (sending ++ [{ e with inTx := true }]) ++ waiting := by
      rw [List.append_assoc]
      rfl
    have hchosen : x.noticeChosen .stepDone = { x with
        engine.done := sending ++ { e with inTx := true } :: waiting
        notices.stepDone := if waiting = [] then false else x.notices.stepDone } := by
      unfold SlotState.noticeChosen
      rw [hmark]
      refine settleStepDone_split hsplit (fun d hd => ?_) hwaiting
      rcases List.mem_append.mp hd with hd | hd
      · exact hsending d hd
      · rw [List.mem_singleton.mp hd]
    have hbody : x.noticeBody .stepDone = e.record.bytes := by
      unfold SlotState.noticeBody
      rw [hdone, oldestRecord_sending hsending he]
    change (s.setSlot i (x.noticeChosen .stepDone)).transmit ⟨byte SlotNotice.stepDone.code, 0#8, byte i.val, 0#8, x.noticeBody .stepDone⟩
      (.slotNotice .stepDone i 0#4) = _
    rw [hchosen, hbody]
    rfl
  · have hbody : x.noticeBody .lines = le 2 x.capture.ring.length ++ le 2 (x.capture.ring.map fun c => 8 + c.content.length).sum
        ++ [if x.capture.overrun then 1#8 else 0#8] := by
      unfold SlotState.noticeBody
      rw [byte_boolCode]
      rfl
    rw [← hbody]
    rfl

/-! ### The events of the USB side (R173, R180, R181) -/

/-- Settles O32. -/
theorem busResetRestoresTheAbandonedFrame : Obligations.BusResetRestoresTheAbandonedFrame := by
  unfold Obligations.BusResetRestoresTheAbandonedFrame
  intro s cut
  refine ⟨fun hnone => congrArg Host.Outcome.next ?_, fun t ht => congrArg Host.Outcome.next ?_⟩
  · unfold busReset abandonFrame
    rw [hnone]
    exact congrArg (fun tx => ({ s with link := { s.link with
      usb := .notConfigured, inbound := [], held := none, replies := [], tx := tx } } : State)) hnone
  · unfold busReset abandonFrame
    rw [ht]
    dsimp only
    cases t.source with
    | reply => rfl
    | hello c => rfl
    | linkError => dsimp only; split <;> rfl
    | slotNotice k i mask =>
      dsimp only
      split
      · rfl
      · cases k <;> rfl

/-- Settles O33. -/
theorem frameTakenCompletesTheTransmission : Obligations.FrameTakenCompletesTheTransmission := by
  unfold Obligations.FrameTakenCompletesTheTransmission
  intro s
  refine ⟨fun hnone => congrArg Host.Outcome.next ?_, fun t ht => congrArg Host.Outcome.next ?_⟩
  · rw [hnone]
  · rw [ht]
    dsimp only
    unfold completeFrame
    cases t.source with
    | slotNotice k i mask => cases k <;> rfl
    | _ => rfl

/-! ### The resets of the whole cell (R179, R182) -/

theorem trigger_reset (k : Fin 4) : SlotState.reset.capture.triggers[k] = ⟨false, [], .atStart, .count, 0⟩ := by
  fin_cases k <;> rfl

/-- Settles O34. -/
theorem powerOnResetLeavesTheResetState : Obligations.PowerOnResetLeavesTheResetState := by
  unfold Obligations.PowerOnResetLeavesTheResetState
  intro s
  refine ⟨powerOn s, rfl, rfl, rfl, rfl, fun p => ?_, fun k => ?_, fun k => ?_, rfl, fun o => ?_, ?_, rfl, fun i => ?_⟩
  · fin_cases p <;> rfl
  · simp [powerOn, State.reset, LimitEntry.reset]
  · simp [powerOn, State.reset, GuardEntry.reset]
  · simp [powerOn, State.reset, Store.object, Store.reset, ObjectRecord.empty]
  · have hfree : (powerOn s).store.free = List.range 512 := Store.reset_free
    rw [hfree]
  · rw [powerOn_slot]
    exact ⟨rfl, rfl, rfl, rfl, rfl, trigger_reset, rfl, ⟨rfl, rfl, rfl, rfl, rfl, rfl, rfl⟩, rfl, rfl, rfl, rfl, rfl, rfl, rfl, rfl, rfl⟩

/-- A CELL_RESET that reaches an empty inbound buffer is carried out, whatever the replies, and the arbiter chooses (R169, R179). -/
theorem cellReset_next (hu : s.link.usb = .configured) (hh : s.link.held = none) (hi : s.link.inbound = []) (hr : r.toCell []) :
    exec (.cellReset r) s = .next (uplink (cellReset s)) := by
  obtain ⟨hslot, hflags, hbody⟩ := hr
  have hcheck : checkRequest (frameOf 0x03#8 r) = .cell .cellReset := by
    refine (checkRequest_of_cell (k := .cellReset) (requestKind_cell .cellReset)).trans ?_
    unfold frameOf
    dsimp only
    rw [hslot, hflags, hbody]
    rfl
  have hsent : sendRequest 0x03#8 r s = intake { s with link.inbound := [frameOf 0x03#8 r] } := by
    have hfits : s.link.fits (frameOf 0x03#8 r).size = true := by
      rw [Link.fits_iff, hi, Frame.size, show (frameOf 0x03#8 r).body = [] from hbody]
      decide
    refine (if_pos (by rw [hbody]; decide)).trans ((if_neg (by rw [hu, hh]; exact nofun)).trans ((if_pos hfits).trans ?_))
    rw [hi]
    rfl
  have hsame : ({ s with link := { s.link with inbound := [] } } : State) = s := by rw [← hi]
  have hact : act (frameOf 0x03#8 r) s = (cellReset s, none) := by
    unfold act
    rw [hcheck]
    rfl
  have htake : takeRequest (frameOf 0x03#8 r) [] { s with link.inbound := [frameOf 0x03#8 r] } = cellReset s := by
    refine (congrArg (fun u => acceptHeld (joinReply (frameOf 0x03#8 r) (act (frameOf 0x03#8 r) u).2 (act (frameOf 0x03#8 r) u).1))
      hsame).trans ?_
    rw [hact]
    rfl
  refine congrArg Host.Outcome.next ?_
  rw [hsent, intake_takes (s := { s with link.inbound := [frameOf 0x03#8 r] }) rfl ((Link.canTake_iff _ _).mpr (.inr hcheck)), htake,
    intake_nil, uplink_uplink]
  exact (uplink_inbound (cellReset s)).1

/-- The settings and tables are kept (R182). -/
theorem cellReset_kept (s : State) : (cellReset s).limits = s.limits ∧ (cellReset s).guard = s.guard ∧
    (cellReset s).guardDefault = s.guardDefault ∧ (cellReset s).freeCount = s.freeCount ∧ (cellReset s).pending = s.pending := by
  have hcell := mapSlots_sameCell SlotState.cleared s
  unfold cellReset
  generalize mapSlots SlotState.cleared s = u at hcell ⊢
  exact ⟨hcell.limits, hcell.guard, hcell.guardDefault, hcell.freeCount, hcell.pending⟩

theorem cellReset_lid (s : State) : (cellReset s).lid = { s.lid with deadline := s.lid.deadline.map fun d => d - s.time } := by
  unfold cellReset
  exact Eq.refl _

theorem cellReset_link (s : State) : (cellReset s).link = { s.link with
    inbound := []
    held := none
    replies := match s.link.tx with
      | some t => if t.source = .reply then s.link.replies.take 1 else []
      | none => []
    tx := s.link.tx.map fun t => { t with voided := true }
    hello := some .commanded
    linkError := false } := by
  unfold cellReset
  exact Eq.refl _

/-- Settles O3. -/
theorem cellResetResetsEveryBlock : Obligations.CellResetResetsEveryBlock := by
  unfold Obligations.CellResetResetsEveryBlock
  intro s r hu hh hi hr
  have hbytes : (cellReset s).store.bytes = s.store.bytes := by unfold cellReset; exact Eq.refl _
  obtain ⟨hlimits, hguard, hdefault, hfree, hpending⟩ := cellReset_kept s
  refine ⟨cellReset s, cellReset_next hu hh hi hr, ?_, ?_, ?_, ?_, ?_, ?_, ?_, ?_, ?_, ?_, ?_, ?_, ?_, fun i => ?_⟩
  · rfl
  · rfl
  · rfl
  · exact hlimits
  · exact hguard
  · exact hdefault
  · exact hfree
  · exact hpending
  · exact (cellReset_cleared s).objects
  · rw [(cellReset_cleared s).free]
  · exact hbytes
  · exact cellReset_lid s
  · exact cellReset_link s
  · rw [cellReset_slot]
    refine ⟨rfl, rfl, rfl, rfl, rfl, fun k => ?_, rfl, ⟨rfl, rfl, rfl, rfl, rfl, rfl, rfl⟩, rfl, rfl, rfl, rfl, rfl, rfl, rfl, rfl, rfl, rfl⟩
    fin_cases k <;> rfl

end Sys2Proof.Machine
end

