-- ==== Sys2Proof/Proofs/Deadlines.lean ====
section
/-! PROOF. When a deadline is due, what the block does by itself, and what every due deadline sets off. -/

namespace Sys2Proof.Machine

variable {s t : State} {r : Request} {i : Slot} {f : Flight}

/-! ### Due deadlines -/

theorem due_iff {now d : Time} : Time.due now d = true ↔ (now - d).toNat < 2147483648 := decide_eq_true_iff

theorem expired_iff {now : Time} {d : Option Time} : Time.expired now d = true ↔ ∃ t, d = some t ∧ (now - t).toNat < 2147483648 := by
  cases d with
  | none => exact ⟨nofun, nofun⟩
  | some d => exact due_iff.trans ⟨fun h => ⟨d, rfl, h⟩, fun ⟨_, ht, h⟩ => by cases ht; exact h⟩

theorem expired_some {now d : Time} : Time.expired now (some d) = true ↔ (now - d).toNat < 2147483648 := due_iff

theorem lidDue_iff (s : State) : s.lidDue = true ↔
    s.lid.state = .closed ∧ ∃ t, s.lid.deadline = some t ∧ (s.time - t).toNat < 2147483648 := by
  rw [State.lidDue, Bool.and_eq_true, decide_eq_true_eq, expired_iff]

theorem settleDue_iff (s : State) (i : Slot) : s.settleDue i = true ↔ (s.slot i).power.state = .standby ∧
    (s.slot i).power.phase = .settling ∧ ∃ t, (s.slot i).power.settle = some t ∧ (s.time - t).toNat < 2147483648 := by
  rw [State.settleDue, Bool.and_eq_true, decide_eq_true_eq, expired_iff, and_assoc]

theorem pressReleaseDue_iff (s : State) (i : Slot) : s.pressReleaseDue i = true ↔ (s.slot i).power.state = .starting ∧
    (s.slot i).power.phase = .pressing ∧ ∃ t, (s.slot i).power.pressRelease = some t ∧ (s.time - t).toNat < 2147483648 := by
  rw [State.pressReleaseDue, Bool.and_eq_true, decide_eq_true_eq, expired_iff, and_assoc]

theorem bootWaitDue_iff (s : State) (i : Slot) : s.bootWaitDue i = true ↔ (s.slot i).power.state = .starting ∧
    (s.slot i).power.phase = .bootWait ∧ ∃ t, (s.slot i).power.bootWait = some t ∧ (s.time - t).toNat < 2147483648 := by
  rw [State.bootWaitDue, Bool.and_eq_true, decide_eq_true_eq, expired_iff, and_assoc]

theorem parkHoldDue_iff (s : State) (i : Slot) : s.parkHoldDue i = true ↔ (s.slot i).power.state = .parking ∧
    ∃ t, (s.slot i).power.parkHold = some t ∧ (s.time - t).toNat < 2147483648 := by
  rw [State.parkHoldDue, Bool.and_eq_true, decide_eq_true_eq, expired_iff]

theorem StepKind.wholeStep_iff (k : StepKind) : k.wholeStep = true ↔ k.code ∈ [0, 1, 7] := by
  cases k <;> simp [StepKind.wholeStep, StepKind.code]

/-- The step in flight of one of these kinds has a due deadline. -/
def State.FlightDue (s : State) (i : Slot) (kinds : List Nat) : Prop :=
  ∃ f, (s.slot i).engine.flight = some f ∧ f.step.kind.code ∈ kinds ∧ ∃ t, f.deadline = some t ∧ (s.time - t).toNat < 2147483648

theorem not_flightDue_none {P : Flight → Prop} : ¬ ∃ f, (none : Option Flight) = some f ∧ P f := by
  rintro ⟨f, hf, -⟩
  exact nomatch hf

theorem stepDeadlineDue_iff (s : State) (i : Slot) : s.stepDeadlineDue i = true ↔ s.FlightDue i [0, 1, 7] := by
  unfold State.stepDeadlineDue State.FlightDue
  cases (s.slot i).engine.flight with
  | none => exact iff_of_false Bool.false_ne_true not_flightDue_none
  | some f =>
    dsimp only
    rw [Bool.and_eq_true, StepKind.wholeStep_iff, expired_iff]
    exact ⟨fun h => ⟨f, rfl, h⟩, fun ⟨_, hf, h⟩ => by cases hf; exact h⟩

theorem measureEndDue_iff (s : State) (i : Slot) : s.measureEndDue i = true ↔ s.FlightDue i [3] := by
  unfold State.measureEndDue State.FlightDue
  cases (s.slot i).engine.flight with
  | none => exact iff_of_false Bool.false_ne_true not_flightDue_none
  | some f =>
    have hiff : (match f.step.kind with
        | .measure _ => Time.expired s.time f.deadline
        | _ => false) = true ↔ f.step.kind.code ∈ [3] ∧ Time.expired s.time f.deadline = true := by
      cases f.step.kind <;> simp [StepKind.code]
    rw [expired_iff] at hiff
    exact hiff.trans ⟨fun h => ⟨f, rfl, h⟩, fun ⟨_, hf, h⟩ => by cases hf; exact h⟩

theorem pressEndDue_iff (s : State) (i : Slot) : (s.pressEndDue i).isSome = true ↔ s.FlightDue i [4] := by
  unfold State.pressEndDue State.FlightDue
  cases (s.slot i).engine.flight with
  | none => exact iff_of_false Bool.false_ne_true not_flightDue_none
  | some f =>
    have hiff : (match f.step.kind with
        | .press keys _ => if Time.expired s.time f.deadline then some keys else none
        | _ => none).isSome = true ↔ f.step.kind.code ∈ [4] ∧ Time.expired s.time f.deadline = true := by
      cases f.step.kind <;> simp [StepKind.code]
    refine hiff.trans ((and_congr_right fun _ => expired_iff).trans ?_)
    exact ⟨fun h => ⟨f, rfl, h⟩, fun ⟨_, hf, h⟩ => by cases hf; exact h⟩

theorem waitDue_iff (s : State) (i : Slot) : s.waitDue i = true ↔
    ∃ e, s.waitList.find? (fun w => decide (w.slot = i)) = some e ∧ (s.time - e.deadline).toNat < 2147483648 := by
  unfold State.waitDue State.waitEntry
  cases s.waitList.find? (fun w => decide (w.slot = i)) with
  | none => exact ⟨nofun, nofun⟩
  | some e => exact due_iff.trans ⟨fun h => ⟨e, rfl, h⟩, fun ⟨_, he, h⟩ => by cases he; exact h⟩

theorem holdDue_of_due {p : Port} {h : Hold} (hp : s.ports[p] = some h) (hdue : (s.time - h.deadline).toNat < 2147483648) :
    s.holdDue p = some h.slot := by
  unfold State.holdDue
  rw [hp]
  exact if_pos (due_iff.mpr hdue)

theorem holdDue_isSome_iff (s : State) (p : Port) : (s.holdDue p).isSome = true ↔
    ∃ h, s.ports[p] = some h ∧ (s.time - h.deadline).toNat < 2147483648 := by
  unfold State.holdDue
  cases s.ports[p] with
  | none => exact ⟨nofun, nofun⟩
  | some h =>
    dsimp only
    refine Iff.trans ?_ (due_iff.trans ⟨fun hdue => ⟨h, rfl, hdue⟩, fun ⟨_, hh, hdue⟩ => by cases hh; exact hdue⟩)
    split <;> simp_all

/-! ### The block by itself -/

/-- The command's event comes about: its deadline is due. -/
def State.ComesAbout (s : State) (c : Instr) : Prop :=
  match c with
  | .lidRecognisedOpen => s.lidDue = true
  | .settleEnd i => s.settleDue i = true
  | .pressRelease i => s.pressReleaseDue i = true
  | .bootWaitExpiry i => s.bootWaitDue i = true
  | .parkHoldExpiry i => s.parkHoldDue i = true
  | .stepDeadlineExpiry i => s.stepDeadlineDue i = true
  | .measureDurationEnd i => s.measureEndDue i = true
  | .pressDurationEnd i => (s.pressEndDue i).isSome = true
  | .waitDeadlineExpiry i => s.waitDue i = true
  | .holdExpiry p => (s.holdDue p).isSome = true
  | _ => False

theorem slotExpiry_comesAbout {c : Instr} (h : s.slotExpiry i = some c) : s.ComesAbout c := by
  unfold State.slotExpiry at h
  iterate 8 (split at h; · next hdue => cases h; exact hdue)
  exact nomatch h

theorem slotExpiry_none (h : s.slotExpiry i = none) : ¬ s.settleDue i = true ∧ ¬ s.pressReleaseDue i = true ∧ ¬ s.bootWaitDue i = true ∧
    ¬ s.parkHoldDue i = true ∧ ¬ s.stepDeadlineDue i = true ∧ ¬ s.measureEndDue i = true ∧ ¬ (s.pressEndDue i).isSome = true ∧
    ¬ s.waitDue i = true := by
  unfold State.slotExpiry at h
  simpa only [ite_eq_right_iff, reduceCtorEq, imp_false, ite_eq_iff, and_false, false_or, and_true, and_assoc] using h

theorem dueExpiry_comesAbout {c : Instr} (h : s.dueExpiry = some c) : s.ComesAbout c := by
  unfold State.dueExpiry at h
  split at h
  · next hlid => cases h; exact hlid
  split at h
  · next d hslot =>
    cases h
    obtain ⟨i, -, hi⟩ := List.exists_of_findSome?_eq_some hslot
    exact slotExpiry_comesAbout hi
  · obtain ⟨p, -, hp⟩ := List.exists_of_findSome?_eq_some h
    unfold State.portExpiry at hp
    split at hp
    · next hdue => cases hp; exact hdue
    · exact nomatch hp

theorem not_comesAbout_of_none (h : s.dueExpiry = none) (c : Instr) : ¬ s.ComesAbout c := by
  unfold State.dueExpiry at h
  split at h
  · exact nomatch h
  next hlid =>
  split at h
  · exact nomatch h
  next hslots =>
  have hslot (i : Slot) := slotExpiry_none (List.findSome?_eq_none_iff.mp hslots i (mem_allSlots i))
  cases c with
  | lidRecognisedOpen => exact hlid
  | settleEnd i => obtain ⟨h, -⟩ := hslot i; exact h
  | pressRelease i => obtain ⟨-, h, -⟩ := hslot i; exact h
  | bootWaitExpiry i => obtain ⟨-, -, h, -⟩ := hslot i; exact h
  | parkHoldExpiry i => obtain ⟨-, -, -, h, -⟩ := hslot i; exact h
  | stepDeadlineExpiry i => obtain ⟨-, -, -, -, h, -⟩ := hslot i; exact h
  | measureDurationEnd i => obtain ⟨-, -, -, -, -, h, -⟩ := hslot i; exact h
  | pressDurationEnd i => obtain ⟨-, -, -, -, -, -, h, -⟩ := hslot i; exact h
  | waitDeadlineExpiry i => obtain ⟨-, -, -, -, -, -, -, h⟩ := hslot i; exact h
  | holdExpiry p =>
    have hport := List.findSome?_eq_none_iff.mp h p (List.mem_finRange p)
    intro hdue
    rw [State.portExpiry, if_pos (show (s.holdDue p).isSome = true from hdue)] at hport
    exact nomatch hport
  | _ => exact id

theorem step_of_pending {c : Instr} {rest : List Instr} (h : s.pending = c :: rest) : step s = exec c { s with pending := rest } := by
  unfold step
  rw [h]

theorem step_of_idle (h : s.pending = []) : step s = idle s := by
  unfold step
  rw [h]

/-- Settles O1. -/
theorem stepRunsTheFrontCommand : Obligations.StepRunsTheFrontCommand := by
  unfold Obligations.StepRunsTheFrontCommand
  refine ⟨fun s c rest h => step_of_pending h, fun s hidle => ?_⟩
  intro due armedDue flightDue comesAbout
  have habout (c : Instr) : s.ComesAbout c ↔ comesAbout c := by
    cases c with
    | lidRecognisedOpen => exact lidDue_iff s
    | settleEnd i => exact settleDue_iff s i
    | pressRelease i => exact pressReleaseDue_iff s i
    | bootWaitExpiry i => exact bootWaitDue_iff s i
    | parkHoldExpiry i => exact parkHoldDue_iff s i
    | stepDeadlineExpiry i => exact stepDeadlineDue_iff s i
    | measureDurationEnd i => exact measureEndDue_iff s i
    | pressDurationEnd i => exact pressEndDue_iff s i
    | waitDeadlineExpiry i => exact waitDue_iff s i
    | holdExpiry p => exact holdDue_isSome_iff s p
    | _ => exact Iff.rfl
  rw [step_of_idle hidle, idle]
  cases hdue : s.dueExpiry with
  | none => exact ⟨fun _ => rfl, fun ⟨c, hc⟩ => absurd ((habout c).mpr hc) (not_comesAbout_of_none hdue c)⟩
  | some c =>
    have hc := (habout c).mp (dueExpiry_comesAbout hdue)
    exact ⟨fun hnone => absurd hc (hnone c), fun _ => ⟨c, hc, rfl⟩⟩

/-! ### The step engine's deadlines (R9, R10, R14) -/

/-- The step in flight with its deadline: due as one of these kinds exactly when it is of them and the deadline is due. -/
theorem flightDue_iff {kinds : List Nat} {d : Time} (hf : (s.slot i).engine.flight = some f) (hd : f.deadline = some d)
    (hkind : f.step.kind.code ∈ kinds) : s.FlightDue i kinds ↔ (s.time - d).toNat < 2147483648 := by
  constructor
  · rintro ⟨g, hg, -, t, ht, hdue⟩
    cases hf.symm.trans hg
    cases hd.symm.trans ht
    exact hdue
  · exact fun hdue => ⟨f, hf, hkind, d, hd, hdue⟩

/-- Settles O40. -/
theorem stepDeadlinesEndTheirSteps : Obligations.StepDeadlinesEndTheirSteps := by
  unfold Obligations.StepDeadlinesEndTheirSteps
  intro s i f d hf hd due
  refine ⟨fun hkind => ?_, fun hkind => ?_, fun keys ms hkind => ?_⟩
  · have hdue : s.stepDeadlineDue i = true ↔ due :=
      (stepDeadlineDue_iff s i).trans (flightDue_iff hf hd (by rcases hkind with h | h | h <;> rw [h] <;> decide))
    exact ⟨fun h => congrArg Host.Outcome.next (if_pos (hdue.mpr h)), fun h => congrArg Host.Outcome.next (if_neg (mt hdue.mp h))⟩
  · have hdue : s.measureEndDue i = true ↔ due := (measureEndDue_iff s i).trans (flightDue_iff hf hd (by rw [hkind]; decide))
    exact ⟨fun h => congrArg Host.Outcome.next (if_pos (hdue.mpr h)), fun h => congrArg Host.Outcome.next (if_neg (mt hdue.mp h))⟩
  · have hdue : s.pressEndDue i = if Time.expired s.time (some d) then some keys else none := by
      unfold State.pressEndDue
      rw [hf]
      dsimp only
      rw [hkind, hd]
    refine ⟨fun h => congrArg Host.Outcome.next ?_, fun h => congrArg Host.Outcome.next ?_⟩
    · rw [hdue, if_pos (expired_some.mpr h)]
    · rw [hdue, if_neg (mt expired_some.mp h)]

/-! ### The arbiter's deadlines and grants (R131 to R134) -/

theorem waitEntry_split {before after : List WaitEntry} {e : WaitEntry} (hlist : s.waitList = before ++ e :: after) (he : e.slot = i)
    (hbefore : ∀ w ∈ before, w.slot ≠ i) : s.waitEntry i = some e := by
  have hnone : before.find? (fun w => decide (w.slot = i)) = none :=
    List.find?_eq_none.mpr fun w hw h => hbefore w hw (of_decide_eq_true h)
  rw [State.waitEntry, hlist, List.find?_append, hnone, Option.none_or]
  exact List.find?_cons_of_pos (p := fun w : WaitEntry => decide (w.slot = i)) (decide_eq_true he)

/-- The ports that older entries name. -/
theorem olderMask_getLsbD {before after : List WaitEntry} {e : WaitEntry} (he : e.slot = i) (hbefore : ∀ w ∈ before, w.slot ≠ i)
    (p : Port) : (olderMask i (before ++ e :: after)).getLsbD p.val = before.any fun w => w.mask.getLsbD p.val := by
  induction before with
  | nil => exact (congrArg (fun m : PortMask => m.getLsbD p.val) (if_pos he)).trans BitVec.getLsbD_zero
  | cons w before ih =>
    rw [List.cons_append, olderMask, if_neg (hbefore w List.mem_cons_self), BitVec.getLsbD_or,
      ih fun v hv => hbefore v (List.mem_cons_of_mem w hv)]
    rfl

theorem oneMask_getLsbD (p q : Port) : (1#4 <<< p.val : PortMask).getLsbD q.val = decide (q = p) := by
  revert p q
  decide

theorem putPorts_one (p : Port) (x : Option Hold) (ps : Vector (Option Hold) 4) : putPorts (1#4 <<< p.val) x ps = ps.set p x := by
  refine Vector.ext fun k hk => ?_
  refine (putPorts_get _ x ps ⟨k, hk⟩).trans ?_
  rw [oneMask_getLsbD, Vector.getElem_set]
  by_cases hp : (⟨k, hk⟩ : Port) = p
  · rw [if_pos (decide_eq_true hp), if_pos (congrArg Fin.val hp).symm]
  · rw [if_neg (by rw [decide_eq_false hp]; exact nofun), if_neg fun h => hp (Fin.ext h.symm)]
    rfl

/-- Settles O46. -/
theorem arbiterExpiresAndGrants : Obligations.ArbiterExpiresAndGrants := by
  unfold Obligations.ArbiterExpiresAndGrants
  intro s i
  refine ⟨fun before e after hlist he hbefore => ⟨fun hdue => congrArg Host.Outcome.next ?_, fun hfree => congrArg Host.Outcome.next ?_⟩,
    fun p h hp hdue => congrArg Host.Outcome.next ?_, fun hw => walk_noEntryWaits hw i⟩
  · have hdue' : s.waitDue i = true := by
      unfold State.waitDue
      rw [waitEntry_split hlist he hbefore]
      exact due_iff.mpr hdue
    exact if_pos hdue'
  · have hgrant : s.grantDue i = some e := by
      unfold State.grantDue
      rw [waitEntry_split hlist he hbefore]
      refine if_pos ((e.grantable_iff _ _).mpr fun p hp => ?_)
      obtain ⟨hnone, holder⟩ := hfree p hp
      rw [freeMask_getLsbD, hnone, hlist, olderMask_getLsbD he hbefore]
      exact ⟨rfl, List.any_eq_false.mpr fun w hw => by rw [holder w hw]; exact nofun⟩
    rw [hgrant]
    dsimp only
    unfold grantEntry
    dsimp only
    rw [putPorts_eq_ofFn, he]
    rfl
  · rw [holdDue_of_due hp hdue]
    dsimp only
    rw [putPorts_one]
    rfl

end Sys2Proof.Machine
end

