-- ==== Sys2Proof/Proofs/PowerMoves.lean ====
section
/-! PROOF. The power controller: its deadlines, the samples, and what the moves of a POWER step make of the slot. -/

namespace Sys2Proof.Machine

variable {s t : State} {r : Request} {i : Slot} {f : Flight}

/-! ### The POWER step in flight -/

theorem finish_nil (s : State) : finish [] s = uplink s := congrArg uplink (startAll_nil s)

theorem powerStep_of_power {x : SlotState} {target : Target} {keys : KeyCombo} (hf : x.engine.flight = some f)
    (hk : f.step.kind = .power target keys) : x.powerStep = some (keys, f.step.timeout) := by
  rw [SlotState.powerStep, hf]
  simp [Flight.powerParams, hk]

/-- A POWER step's target is reached: it completes (R74). -/
theorem targetReached_of_power {target : Target} {keys : KeyCombo} (hf : (s.slot i).engine.flight = some f)
    (hk : f.step.kind = .power target keys) : targetReached i s = (endStep i .normal s, [i]) :=
  if_pos (by rw [powerStep_of_power hf hk]; rfl)

/-- The same after a change that leaves the step in flight. -/
theorem targetReached_setSlot {x : SlotState} {target : Target} {keys : KeyCombo} (hf : x.engine.flight = some f)
    (hk : f.step.kind = .power target keys) : targetReached i (s.setSlot i x) = (endStep i .normal (s.setSlot i x), [i]) :=
  targetReached_of_power (by rw [State.setSlot_slot_same]; exact hf) hk

/-! ### The controller's deadlines (R72, R79, R81, R85) -/

/-- The voltage the settle check compares (R72). -/
def State.settleVoltage (s : State) (i : Slot) : Nat :=
  match (s.slot i).sampler.lastSample with
  | some m => m.2
  | none => Config.openSettleVoltage s.freeCount

/-- The state with the free value used up that the settle check has taken. -/
def State.settleUsed (s : State) (i : Slot) : State :=
  if (s.slot i).sampler.lastSample = none then { s with freeCount := s.freeCount + 1 } else s

theorem settleUsed_slot (s : State) (i : Slot) : (s.settleUsed i).slot i = s.slot i := by
  unfold State.settleUsed
  split <;> rfl

theorem settleUsed_time (s : State) (i : Slot) : (s.settleUsed i).time = s.time := by
  unfold State.settleUsed
  split <;> rfl

theorem settleCheck_eq (s : State) (i : Slot) : settleCheck i s =
    let r := if s.settleVoltage i < (s.slot i).power.settings.railVoltage * 9 / 10 then enterFault i ⟨false, true⟩ (s.settleUsed i)
      else settlePassed i (s.settleUsed i)
    finish r.2 r.1 := by
  have hused : (match (s.slot i).sampler.lastSample with
      | some _ => s
      | none => { s with freeCount := s.freeCount + 1 }) = s.settleUsed i := by
    unfold State.settleUsed
    cases (s.slot i).sampler.lastSample with
    | none => rw [if_pos rfl]
    | some m => rw [if_neg nofun]
  rw [← hused]
  rfl

/-- The power of a slot whose settle check has passed (R72). -/
def Power.settled (p : Power) : Power := { p with phase := .settled, settle := none }

theorem settlePassed_none (h : (s.slot i).power.target = none) :
    settlePassed i s = (s.setSlot i { s.slot i with power := (s.slot i).power.settled }, []) := by
  simp only [settlePassed, Power.settled, h]

theorem settlePassed_standby (h : (s.slot i).power.target = some .standby) : settlePassed i s =
    targetReached i (s.setSlot i { s.slot i with power := { (s.slot i).power.settled with target := none } }) := by
  simp only [settlePassed, Power.settled, h]

theorem settlePassed_listen (h : (s.slot i).power.target = some .listen) : settlePassed i s = targetReached i (s.setSlot i
    { s.slot i with power := { (s.slot i).power.settled with state := .listen, phase := .none, target := none } }) := by
  simp only [settlePassed, Power.settled, h]

theorem settlePassed_run (h : (s.slot i).power.target = some .run) : settlePassed i s =
    (s.setSlot i ({ s.slot i with power := (s.slot i).power.settled }.enterStarting s.time
      (((s.slot i).powerStep.map Prod.fst).getD .none)), []) := by
  simp only [settlePassed, Power.settled, h]

/-- Settles O43. -/
theorem powerDeadlinesMoveTheSlot : Obligations.PowerDeadlinesMoveTheSlot := by
  unfold Obligations.PowerDeadlinesMoveTheSlot
  intro s i d hdue p powering moved
  refine ⟨fun hstate hphase hsettle => ?_, fun f target keys hpower => ⟨fun hstate hphase hpress => ?_, fun hstate hphase hboot => ?_,
    fun hstate hpark => ?_⟩⟩
  · intro t voltage settled
    have hcheck : exec (.settleEnd i) s = .next (settleCheck i s) :=
      congrArg Host.Outcome.next (if_pos ((settleDue_iff s i).mpr ⟨hstate, hphase, d, hsettle, hdue⟩))
    rw [hcheck, settleCheck_eq]
    dsimp only
    refine ⟨fun hlow => ?_, fun hhigh => ?_⟩
    · rw [if_pos (show s.settleVoltage i < (s.slot i).power.settings.railVoltage * 9 / 10 from hlow)]
      rfl
    · rw [if_neg (show ¬ s.settleVoltage i < (s.slot i).power.settings.railVoltage * 9 / 10 from Nat.not_lt.mpr hhigh)]
      have hslot := settleUsed_slot s i
      have hmoved (q : Power) : moved t q = t.setSlot i { s.slot i with power := q } := by
        rw [← hslot]
        rfl
      have hreached {f : Flight} {target : Target} {keys : KeyCombo} (hpower : powering f target keys) {q : Power} :
          targetReached i ((s.settleUsed i).setSlot i { s.slot i with power := q }) =
            (endStep i .normal ((s.settleUsed i).setSlot i { s.slot i with power := q }), [i]) :=
        targetReached_setSlot (x := { s.slot i with power := q }) hpower.1 hpower.2
      refine ⟨fun htarget => ?_, fun f target keys hpower => ⟨fun htarget => ?_, fun htarget => ?_, fun htarget => ?_⟩⟩
      · rw [settlePassed_none (by rw [hslot]; exact htarget), hmoved, hslot]
        dsimp only
        rw [finish_nil]
        rfl
      · rw [settlePassed_standby (by rw [hslot]; exact htarget), hmoved, hslot, hreached hpower]
        rfl
      · rw [settlePassed_listen (by rw [hslot]; exact htarget), hmoved, hslot, hreached hpower]
        rfl
      · rw [settlePassed_run (by rw [hslot]; exact htarget), hmoved, hslot, settleUsed_time]
        dsimp only
        rw [finish_nil, powerStep_of_power hpower.1 hpower.2, show settled.target = some .run from htarget]
        cases keys <;> rfl
  · refine congrArg Host.Outcome.next ((if_pos ((pressReleaseDue_iff s i).mpr ⟨hstate, hphase, d, hpress, hdue⟩)).trans ?_)
    refine congrArg (s.setSlot i) ?_
    change (s.slot i).releasePress s.time (((s.slot i).powerStep.map Prod.snd).getD 0) = _
    rw [powerStep_of_power hpower.1 hpower.2]
    rfl
  · refine congrArg Host.Outcome.next ((if_pos ((bootWaitDue_iff s i).mpr ⟨hstate, hphase, d, hboot, hdue⟩)).trans ?_)
    exact if_pos (by rw [powerStep_of_power hpower.1 hpower.2]; rfl)
  · refine congrArg Host.Outcome.next ((if_pos ((parkHoldDue_iff s i).mpr ⟨hstate, d, hpark, hdue⟩)).trans ?_)
    unfold endPark
    rw [targetReached_of_power (f := f) (by rw [State.modSlot_slot_same]; exact hpower.1) hpower.2]
    rfl

theorem modSlot_of_setSlot (s : State) (i : Slot) (x : SlotState) (g : SlotState → SlotState) :
    (s.setSlot i x).modSlot i g = s.setSlot i (g x) := by
  rw [State.modSlot, State.setSlot_slot_same, State.setSlot_setSlot]

/-! ### Samples (R96 to R103, R106, R84) -/

theorem railOn_iff (p : PowerState) : p.railOn = true ↔ p ≠ .off ∧ p ≠ .fault := by
  cases p <;> simp [PowerState.railOn]

theorem railOn_eq_false_iff (p : PowerState) : p.railOn = false ↔ ¬ (p ≠ .off ∧ p ≠ .fault) := by
  rw [← railOn_iff, Bool.not_eq_true]

theorem parkAdd_eq (history : List Nat) (current : Nat) :
    parkAdd history current = (if history.length < 100 then history else history.drop 1) ++ [current] := by
  unfold parkAdd
  split <;> rfl

theorem parkQuiet_iff (history : List Nat) (level : Nat) :
    parkQuiet history level = true ↔ history.length = 100 ∧ history.sum < level * 100 := by
  rw [parkQuiet, Bool.and_eq_true, decide_eq_true_eq, decide_eq_true_eq]

theorem StepKind.power_of_code {k : StepKind} (h : k.code = 2) : ∃ target keys, k = .power target keys := by
  cases k with
  | power target keys => exact ⟨target, keys, rfl⟩
  | _ => exact absurd h (by simp [StepKind.code])

/-- Settles O42. -/
theorem sampleMovesTheDetectors : Obligations.SampleMovesTheDetectors := by
  unfold Obligations.SampleMovesTheDetectors
  intro s i c v x current voltage overs unders y railOn history isQuiet
  have hrail : x.power.state.railOn = false ↔ ¬ railOn := railOn_eq_false_iff _
  have hy : x.takeSample c v = y := rfl
  have hovers : x.nextOvercurrent c = overs := rfl
  have hunders : x.nextUndervolt v = unders := rfl
  have hoff (h : ¬ railOn) : takeSample i c v s = s := if_pos (hrail.mpr h)
  have htrips (h : railOn) (htrip : overs = 4 ∨ unders = 20) : takeSample i c v s =
      let r := enterFault i ⟨decide (overs = 4), decide (unders = 20)⟩ (s.setSlot i y)
      finish r.2 r.1 := (if_neg fun hf => hrail.mp hf h).trans (if_pos htrip)
  refine ⟨fun h => congrArg Host.Outcome.next (hoff h), fun h htrip => ?_, fun h hover hunder => ?_, fun hnot => ?_, fun hnot => ?_⟩
  · refine ⟨congrArg Host.Outcome.next (htrips h htrip), fun hover => ?_, fun hunder => ?_⟩
    · exact congrArg Host.Outcome.next ((if_pos hover).trans (htrips h htrip))
    · exact congrArg Host.Outcome.next ((if_pos hunder).trans (htrips h htrip))
  · intro z
    have hz : y.parkSample current = z := by
      show (if y.power.state = .parking then { y with sampler.parkHistory := parkAdd y.sampler.parkHistory current } else y) = z
      rw [parkAdd_eq]
    have hengine : z.engine = x.engine := by
      by_cases hpark : x.power.state = .parking
      · rw [show z = { y with sampler.parkHistory := history } from if_pos hpark]
      · rw [show z = y from if_neg hpark]
    have hquiet : (z.power.state = .parking ∧ parkQuiet z.sampler.parkHistory z.power.parkLevel = true) ↔ isQuiet := by
      rw [parkQuiet_iff]
      by_cases hpark : x.power.state = .parking
      · rw [show z = { y with sampler.parkHistory := history } from if_pos hpark]
      · rw [show z = y from if_neg hpark]
        exact iff_of_false (fun hq => hpark hq.1) fun hq => hpark hq.1
    have hstep : takeSample i c v s =
        if (y.parkSample current).power.state = .parking ∧
          parkQuiet (y.parkSample current).sampler.parkHistory (y.parkSample current).power.parkLevel = true then
          (let r := endPark i false (s.setSlot i (y.parkSample current))
           finish r.2 r.1)
        else s.setSlot i ((y.parkSample current).windowSample current) :=
      (if_neg fun hf => hrail.mp hf h).trans (if_neg (not_or.mpr ⟨hover, hunder⟩))
    rw [hz] at hstep
    refine ⟨fun f hq hf hcode => congrArg Host.Outcome.next ?_, fun hq => congrArg Host.Outcome.next ?_⟩
    · obtain ⟨target, keys, hkind⟩ := StepKind.power_of_code hcode
      rw [hstep, if_pos (hquiet.mpr hq)]
      unfold endPark
      rw [targetReached_of_power (f := f) (by
        rw [State.modSlot_slot_same, State.setSlot_slot_same]
        exact (congrArg Engine.flight hengine).trans hf) hkind]
      rw [show z = { y with sampler.parkHistory := history } from if_pos hq.1]
      exact congrArg (fun t => finish [i] (endStep i .normal t))
        (show (s.setSlot i { y with sampler.parkHistory := history }).modSlot i _ = _ by
          rw [modSlot_of_setSlot]; rfl)
    · rw [hstep, if_neg fun hp => hq (hquiet.mp hp)]
      refine congrArg (s.setSlot i) ?_
      change { z with engine.flight := z.engine.flight.map _ } = _
      rw [hengine]
      rfl
  · by_cases hover : overs = 4
    · exact congrArg Host.Outcome.next ((if_pos hover).trans (hoff (hnot.resolve_right (not_not.mpr hover))))
    · exact congrArg Host.Outcome.next (if_neg hover)
  · by_cases hunder : unders = 20
    · exact congrArg Host.Outcome.next ((if_pos hunder).trans (hoff (hnot.resolve_right (not_not.mpr hunder))))
    · exact congrArg Host.Outcome.next (if_neg hunder)

end Sys2Proof.Machine
end

