-- ==== Sys2Proof/Proofs/Starts.lean ====
section
/-! PROOF. The start of a head: what each kind begins, which heads complete in their start event, and what the moves of a POWER step do at its
start. -/

namespace Sys2Proof.Machine

variable {s t u : State} {i : Slot} {x : SlotState} {st : StepRecord} {rest : List StepRecord}

/-! ### One turn of the run of starts -/

theorem HeadReady.canStart (h : HeadReady x st rest) : x.engine.canStart = true := Engine.canStart_of h.idle h.head h.place

/-- The run of starts goes on from the first head, where the turn names as many slots as steps have left their queues. -/
theorem startAll_turn (hc : (s.slot i).engine.canStart = true)
    (hfuel : (startHead i s).2.length + (startHead i s).1.queuedSteps = s.queuedSteps) :
    startAll [i] s = startAll (startHead i s).2 (startHead i s).1 := by
  unfold startAll
  rw [show ([i] : List Slot).length + s.queuedSteps = s.queuedSteps + 1 from Nat.add_comm 1 _, hfuel]
  conv_lhs => unfold runStarts
  dsimp only
  rw [if_pos hc, List.append_nil]

theorem headDoomed_of (h : HeadReady (s.slot i) st rest) : s.headDoomed i = st.doom.isSome := by
  rw [State.headDoomed, h.head]

theorem exec_stepStart_ready (h : HeadReady (s.slot i) st rest) (hd : st.doom = none) :
    exec (.stepStart i) s = .next (finish [i] s) :=
  congrArg Host.Outcome.next (if_pos ⟨h.canStart, by rw [headDoomed_of h, hd]; rfl⟩)

/-- A head that starts and completes nothing (R4). -/
theorem exec_stepStart_goesOn (h : HeadReady (s.slot i) st rest) (hd : st.doom = none)
    (hk : startKind i st (s.beginHead i st rest) = (u, [])) : exec (.stepStart i) s = .next (uplink u) := by
  rw [exec_stepStart_ready h hd, finish, startAll_single h.canStart ((startHead_of_kind h.head hd).trans hk)]

/-- A head whose start names the slots `work` goes on there (R3). -/
theorem exec_stepStart_turn {work : List Slot} (h : HeadReady (s.slot i) st rest) (hd : st.doom = none)
    (hk : startKind i st (s.beginHead i st rest) = (u, work)) (hfuel : work.length + u.queuedSteps = s.queuedSteps) :
    exec (.stepStart i) s = .next (finish work u) := by
  have hhead : startHead i s = (u, work) := (startHead_of_kind h.head hd).trans hk
  rw [exec_stepStart_ready h hd, finish, startAll_turn h.canStart (by rw [hhead]; exact hfuel), hhead, finish]

/-- The head as the step in flight leaves as many steps queued, whatever else of its slot changes. -/
theorem setSlot_queuedSteps (h : HeadReady (s.slot i) st rest) {f : Flight} (hf : x.engine.flight = some f)
    (hw : x.engine.waiting = rest) : (s.setSlot i x).queuedSteps = s.queuedSteps := by
  have hsum := queuedSteps_of_slot (s := s) (t := s.setSlot i x) (i := i) (y := x) rfl
  have : x.engine.queueCount = (s.slot i).engine.queueCount := by
    simp [Engine.queueCount, Engine.queue, h.idle, h.head, hf, hw]
  omega

/-- A head that completes in its start event (R4, R8). -/
theorem exec_stepStart_ends {e : Ending} {f : Flight} (h : HeadReady (s.slot i) st rest) (hd : st.doom = none)
    (hf : x.engine.flight = some f) (hw : x.engine.waiting = rest)
    (hk : startKind i st (s.beginHead i st rest) = (endStep i e (s.setSlot i x), [i])) :
    exec (.stepStart i) s = .next (finish [i] (endStep i e (s.setSlot i x))) := by
  have hflight : ((s.setSlot i x).slot i).engine.flight.isSome = true := by
    rw [State.setSlot_slot_same, hf]
    rfl
  refine exec_stepStart_turn h hd hk ?_
  rw [← setSlot_queuedSteps h hf hw, ← endStep_queuedSteps e hflight]
  exact Nat.add_comm 1 _

/-- A doomed head drains (R5). -/
theorem exec_drain_ready {d : Doom} (h : HeadReady (s.slot i) st rest) (hd : st.doom = some d) :
    exec (.drain i) s = .next (finish [i] (endStep i (.doomed d) (s.beginHead i st rest))) := by
  have hhead := startHead_of_doom h.head hd
  have hflight : ((s.beginHead i st rest).slot i).engine.flight.isSome = true := by
    rw [beginHead_slot]
    rfl
  have hfuel : (startHead i s).2.length + (startHead i s).1.queuedSteps = s.queuedSteps := by
    rw [hhead, ← beginHead_queuedSteps h, ← endStep_queuedSteps (.doomed d) hflight]
    exact Nat.add_comm 1 _
  refine congrArg Host.Outcome.next ((if_pos ⟨h.canStart, by rw [headDoomed_of h, hd]; rfl⟩).trans ?_)
  rw [finish, startAll_turn h.canStart hfuel, hhead, finish]

/-! ### What the start of a kind reads and writes -/

theorem limitWindow_eq (st : StepRecord) (now : Time) :
    limitWindow st now = if st.limitSet = none then none else some ⟨0, 0, 0, 0, now, false⟩ := by
  unfold limitWindow
  cases st.limitSet <;> rfl

/-- Taking the next tag and handing over an item (R30, R33). -/
theorem takeTag_handOver (l : PhoneLine) (item : TxItem) : l.takeTag.handOver item = { l with
    nextTag := if l.nextTag = 0xFF#8 then 1#8 else l.nextTag + 1#8
    tx := if l.tx = none then some item else l.tx
    txWaiting := if l.tx = none then l.txWaiting else some item } := by
  obtain ⟨baud, size, tag, tx, waiting, assembler⟩ := l
  cases tx <;> rfl

theorem commandLine_eq (tag : Byte) (code : BitVec 16) (argument : List Byte) : commandLine tag code argument =
    [0x21#8] ++ hexOf 2 tag.toNat ++ hexOf 4 code.toNat ++ (if argument = [] then [] else 0x20#8 :: argument) ++ [0x0D#8, 0x0A#8] := rfl

theorem startKind_exchange {code : BitVec 16} {argument : List Byte} (hk : st.kind = .exchange code argument) :
    startKind i st u = startExchange i st code argument u := by rw [startKind, hk]
theorem startKind_push {o : Fin 16} (hk : st.kind = .push o) : startKind i st u = startPush i st o u := by rw [startKind, hk]
theorem startKind_power {target : Target} {keys : KeyCombo} (hk : st.kind = .power target keys) :
    startKind i st u = startPower i st target keys u := by rw [startKind, hk]
theorem startKind_measure {ms : Nat} (hk : st.kind = .measure ms) : startKind i st u = startMeasure i ms u := by rw [startKind, hk]
theorem startKind_press {keys : KeyMask} {ms : Nat} (hk : st.kind = .press keys ms) :
    startKind i st u = startPress i st keys ms u := by rw [startKind, hk]
theorem startKind_attach {mask : PortMask} {hold : Nat} (hk : st.kind = .attach mask hold) :
    startKind i st u = startAttach i st mask hold u := by rw [startKind, hk]
theorem startKind_detach {mask : PortMask} (hk : st.kind = .detach mask) :
    startKind i st u = startDetach i mask u := by rw [startKind, hk]
theorem startKind_await {k : Fin 4} (hk : st.kind = .await k) : startKind i st u = startAwait i st k u := by rw [startKind, hk]

/-! ### POWER (R8, R74) -/

section
variable {target : Target} {keys : KeyCombo}

/-- The step in flight takes its window (R104). -/
def State.openPowerWindow (s : State) (i : Slot) (st : StepRecord) (target : Target) : State :=
  s.modFlight i fun f => { f with window := powerWindow st target s.time }

theorem startPower_reached (hr : (u.slot i).power.state.reaches target = true) :
    startPower i st target keys u = (endStep i .normal u, [i]) := if_pos hr

theorem startPower_interlocked (hr : (u.slot i).power.state.reaches target = false) (hl : u.lid.state = .opened)
    (hn : target.needsRail = true) : startPower i st target keys u = failStart i .interlocked u :=
  (if_neg (by rw [hr]; decide)).trans (if_pos ⟨hl, hn⟩)

/-- Past the target reached and the lid, the power state decides (R8). -/
theorem startPower_byState (hr : (u.slot i).power.state.reaches target = false)
    (hl : ¬ (u.lid.state = .opened ∧ target.needsRail = true)) : startPower i st target keys u =
    match (u.slot i).power.state with
    | .off => ((u.modSlot i fun y => y.railOn u.time target).openPowerWindow i st target, [])
    | .standby =>
      if target.needsRail = false then takeMove i .off u
      else if (u.slot i).power.phase = .settling then
        ((u.modSlot i fun y => { y with power.target := some target }).openPowerWindow i st target, [])
      else if target = .run then ((u.modSlot i fun y => y.enterStarting u.time keys).openPowerWindow i st target, [])
      else takeMove i target u
    | .run =>
      if target = .standby then failStart i .state u
      else if (u.slot i).line.tx.isSome then
        (u.modSlot i fun y => { y with power := { y.power with target := some target, phase := .leaving } }, [])
      else takeMove i target u
    | .listen =>
      if target = .standby then failStart i .state u
      else if target = .run then
        targetReached i (u.modSlot i fun y => { y with power := { y.power with state := .run, phase := .none, target := none } })
      else takeMove i target u
    | .starting | .parking | .fault => failStart i .state u :=
  (if_neg (by rw [hr]; decide)).trans ((if_neg hl).trans rfl)

end

/-! ### The kinds that begin (R6, R7, R9, R10, R13, R71) -/

/-- Settles O36. -/
theorem stepStartBeginsItsKind : Obligations.StepStartBeginsItsKind := by
  unfold Obligations.StepStartBeginsItsKind
  intro s i st rest hidle hhead hplace hdoom x armed empty window begun sending
  have hready : HeadReady (s.slot i) st rest := ⟨hidle, hhead, hplace⟩
  have hbegin : s.beginHead i st rest = s.setSlot i (x.begun st rest s.time) := rfl
  have hslot : (s.beginHead i st rest).slot i = x.begun st rest s.time := beginHead_slot
  have hwindow : limitWindow st s.time = window := limitWindow_eq st s.time
  have hstart {y : SlotState} (hk : startKind i st (s.beginHead i st rest) = (s.setSlot i y, [])) :
      exec (.stepStart i) s = .next (uplink (s.setSlot i y)) := exec_stepStart_goesOn hready hdoom hk
  have hmod (g : SlotState → SlotState) : (s.beginHead i st rest).modSlot i g = s.setSlot i (g (x.begun st rest s.time)) :=
    modSlot_of_setSlot s i _ g
  refine ⟨fun code argument hk hrun hallow => hstart ?_, fun o hk hrun hsize => ?_, fun ms hk => hstart ?_,
    fun keys ms hk hstate => hstart ?_, fun k hk henabled => hstart ?_, fun target keys hk hoff hpark hstate hlid => ?_⟩
  · rw [startKind_exchange hk, startExchange, if_neg (by rw [hslot]; exact not_not.mpr hrun),
      if_neg (by rw [show (s.beginHead i st rest).guardDecision code i = .allow from hallow]; decide), hmod]
    refine congrArg (fun y => (s.setSlot i y, [])) ?_
    dsimp only
    rw [takeTag_handOver, show (s.beginHead i st rest).time = s.time from rfl, hwindow]
    rfl
  · intro length size
    refine hstart ?_
    rw [startKind_push hk, startPush]
    dsimp only
    rw [if_neg (by rw [hslot]; exact not_not.mpr hrun), if_neg (by rw [hslot]; exact hsize), hmod]
    refine congrArg (fun y => (s.setSlot i y, [])) ?_
    rw [takeTag_handOver, show (s.beginHead i st rest).time = s.time from rfl, hwindow, blockItem, blockLength, Nat.zero_mul, Nat.sub_zero]
    rfl
  · rw [startKind_measure hk, startMeasure, State.modFlight, hmod]
    rfl
  · rw [startKind_press hk, startPress, if_neg (by rw [hslot]; exact fun hn => hstate.elim hn.1 hn.2), State.modFlight, State.modSlot_modSlot, hmod,
      show (s.beginHead i st rest).time = s.time from rfl, hwindow]
    rfl
  · rw [startKind_await hk, startAwait, if_neg (by rw [hslot]; exact fun hf => nomatch hf.symm.trans henabled), State.modFlight, hmod,
      show (s.beginHead i st rest).time = s.time from rfl, hwindow]
    rfl
  · intro y
    refine hstart ?_
    have hpower : ((s.beginHead i st rest).slot i).power.state = .off := by rw [hslot]; exact hstate
    have hreach : ((s.beginHead i st rest).slot i).power.state.reaches target = false := by
      rw [hpower]
      cases target with
      | off => exact absurd rfl hoff
      | park => exact absurd rfl hpark
      | _ => rfl
    have hclosed : ¬ ((s.beginHead i st rest).lid.state = .opened ∧ target.needsRail = true) := fun ho =>
      nomatch hlid.symm.trans ho.1
    rw [startKind_power hk, startPower_byState hreach hclosed, hpower]
    dsimp only
    rw [State.openPowerWindow, State.modFlight, State.modSlot_modSlot, hmod]
    refine congrArg (fun y => (s.setSlot i y, [])) ?_
    dsimp only
    rw [powerWindow, State.modSlot_time, show (s.beginHead i st rest).time = s.time from rfl, hwindow]
    rfl

/-! ### The heads that complete in their start event (R4 to R8, R10, R11, R13) -/

theorem reaches_iff (p : PowerState) (target : Target) : p.reaches target = true ↔
    (p, target) ∈ [(PowerState.off, Target.off), (.off, .park), (.standby, .standby), (.listen, .listen), (.run, .run)] := by
  cases p <;> cases target <;> simp [PowerState.reaches]

theorem needsRail_iff (target : Target) : target.needsRail = true ↔ target ≠ .off ∧ target ≠ .park := by
  cases target <;> simp [Target.needsRail]

/-- A head for which the start condition of R3 does not hold stays. -/
theorem exec_start_blocked (h : (s.slot i).engine.canStart ≠ true) :
    exec (.stepStart i) s = .next s ∧ exec (.drain i) s = .next s :=
  ⟨congrArg Host.Outcome.next (if_neg fun hc => h hc.1), congrArg Host.Outcome.next (if_neg fun hc => h hc.1)⟩

theorem startPower_refused {target : Target} {keys : KeyCombo} (hr : (u.slot i).power.state.reaches target = false)
    (hl : ¬ (u.lid.state = .opened ∧ target.needsRail = true))
    (h : (u.slot i).power.state ∈ [PowerState.starting, .parking, .fault] ∨
      (target = .standby ∧ ((u.slot i).power.state = .run ∨ (u.slot i).power.state = .listen))) :
    startPower i st target keys u = failStart i .state u := by
  rw [startPower_byState hr hl]
  rcases h with h | ⟨rfl, h | h⟩
  · revert h
    cases (u.slot i).power.state <;> simp
  · rw [h]
    exact if_pos rfl
  · rw [h]
    exact if_pos rfl

/-- Settles O37. -/
theorem failedAndDoomedHeadsCompleteAtStart : Obligations.FailedAndDoomedHeadsCompleteAtStart := by
  unfold Obligations.FailedAndDoomedHeadsCompleteAtStart
  intro s i x
  refine ⟨fun st rest hidle hhead hplace => ?_, fun h => exec_start_blocked fun hc => ?_⟩
  · intro u fails
    have hready : HeadReady (s.slot i) st rest := ⟨hidle, hhead, hplace⟩
    have hbegin : s.beginHead i st rest = u := rfl
    have hslot : u.slot i = x.begun st rest s.time := beginHead_slot
    refine ⟨fun reason hdoom hfails => exec_stepStart_ends hready hdoom rfl rfl ?_, fun d hdoom => ⟨exec_drain_ready hready hdoom, ?_⟩,
      fun hdoom => congrArg Host.Outcome.next (if_neg fun hc => ?_)⟩
    · show startKind i st u = failStart i reason u
      cases hk : st.kind with
      | exchange code argument =>
        simp only [fails, hk] at hfails
        rw [startKind_exchange hk]
        by_cases hrun : x.power.state = .run
        · rw [if_neg (not_not.mpr hrun)] at hfails
          obtain ⟨hdeny, rfl⟩ := hfails
          exact (if_neg (by rw [hslot]; exact not_not.mpr hrun)).trans (if_pos hdeny)
        · rw [if_pos hrun] at hfails
          rw [hfails]
          exact if_pos (by rw [hslot]; exact hrun)
      | push o =>
        simp only [fails, hk] at hfails
        rw [startKind_push hk]
        by_cases hrun : x.power.state = .run
        · rw [if_neg (not_not.mpr hrun)] at hfails
          obtain ⟨hsize, rfl⟩ := hfails
          exact (if_neg (by rw [hslot]; exact not_not.mpr hrun)).trans (if_pos (by rw [hslot]; exact hsize))
        · rw [if_pos hrun] at hfails
          rw [hfails]
          exact if_pos (by rw [hslot]; exact hrun)
      | power target keys =>
        simp only [fails, hk] at hfails
        rw [startKind_power hk]
        have hstate : (u.slot i).power.state = x.power.state := by rw [hslot]; rfl
        by_cases hreach : x.power.state.reaches target = true
        · rw [if_pos ((reaches_iff _ _).mp hreach)] at hfails
          exact hfails.elim
        rw [if_neg (mt (reaches_iff _ _).mpr hreach)] at hfails
        rw [Bool.not_eq_true, ← hstate] at hreach
        by_cases hlid : s.lid.state = .opened ∧ target ≠ .off ∧ target ≠ .park
        · rw [if_pos hlid] at hfails
          rw [hfails]
          exact startPower_interlocked hreach hlid.1 ((needsRail_iff target).mpr hlid.2)
        · rw [if_neg hlid, ← hstate] at hfails
          obtain ⟨hrefused, rfl⟩ := hfails
          exact startPower_refused hreach (fun h => hlid ⟨h.1, (needsRail_iff target).mp h.2⟩) hrefused
      | press keys ms =>
        simp only [fails, hk] at hfails
        obtain ⟨hrun, hlisten, rfl⟩ := hfails
        rw [startKind_press hk]
        exact if_pos (by rw [hslot]; exact ⟨hrun, hlisten⟩)
      | attach ports hold =>
        simp only [fails, hk] at hfails
        obtain ⟨⟨p, hp, hheld⟩, rfl⟩ := hfails
        rw [startKind_attach hk]
        refine if_pos fun hzero => ?_
        have hbit := (portMask_eq_zero_iff _).mp hzero p
        rw [BitVec.getLsbD_and, hp, portsHeld_getLsbD, Bool.and_true] at hbit
        exact of_decide_eq_false hbit hheld
      | await k =>
        simp only [fails, hk] at hfails
        obtain ⟨hoff, rfl⟩ := hfails
        rw [startKind_await hk]
        exact if_pos (by rw [hslot]; exact hoff)
      | measure ms => simp only [fails, hk] at hfails
      | detach ports => simp only [fails, hk] at hfails
    · exact congrArg Host.Outcome.next (if_neg fun hc => by rw [headDoomed_of hready, hdoom] at hc; exact nomatch hc.2)
    · rw [headDoomed_of hready, hdoom] at hc
      exact nomatch hc.2
  · obtain ⟨hflight, hwaiting, hplace⟩ := (Engine.canStart_iff _).mp hc
    rcases h with h | h | h
    · exact h hflight
    · exact hwaiting h
    · have : 8 ≤ (s.slot i).engine.done.length := h
      omega

end Sys2Proof.Machine
end

