-- ==== Sys2Proof/Proofs/PowerStarts.lean ====
section
/-! PROOF. The moves a POWER step makes at its start, and the start of ATTACH and DETACH. -/

namespace Sys2Proof.Machine

variable {s t u : State} {i : Slot} {x : SlotState} {st : StepRecord} {rest : List StepRecord} {target : Target} {keys : KeyCombo}

/-! ### The moves (R74, R75, R83) -/

/-- The shutdown line goes out at once on an IDLE transmitter (R158). -/
theorem shutdownLine_eq {l : PhoneLine} (h : l.tx = none) (code : BitVec 16) :
    l.takeTag.handOver ⟨.controller, .line (commandLine l.nextTag code [])⟩ = { l with
      nextTag := if l.nextTag = 0xFF#8 then 1#8 else l.nextTag + 1#8
      tx := some ⟨.controller, .line ([0x21#8] ++ hexOf 2 l.nextTag.toNat ++ hexOf 4 code.toNat ++ [0x0D#8, 0x0A#8])⟩ } := by
  rw [takeTag_handOver, if_pos h, if_pos h, commandLine_eq, if_pos rfl, List.append_nil]

/-- Entry to PARKING with the transmitter IDLE (R83, R158). -/
theorem enterParking_setSlot (s : State) (i : Slot) (x : SlotState) (h : x.line.tx = none) :
    enterParking i (s.setSlot i x) = s.setSlot i { x with
      power := { x.power with
        state := .parking, phase := .none, parkLevel := x.power.settings.parkLevel
        parkHold := some (s.time + BitVec.ofNat 32 x.power.settings.parkHold) }
      sampler.parkHistory := []
      line := if s.guardDecision x.power.settings.shutdownCode i = .allow then
          { x.line with
            nextTag := if x.line.nextTag = 0xFF#8 then 1#8 else x.line.nextTag + 1#8
            tx := some ⟨.controller, .line ([0x21#8] ++ hexOf 2 x.line.nextTag.toNat ++ hexOf 4 x.power.settings.shutdownCode.toNat
              ++ [0x0D#8, 0x0A#8])⟩ }
        else x.line } := by
  unfold enterParking
  rw [State.setSlot_slot_same, modSlot_of_setSlot]
  refine congrArg (s.setSlot i) ?_
  rw [show (s.setSlot i x).guardDecision x.power.settings.shutdownCode i = s.guardDecision x.power.settings.shutdownCode i from rfl]
  simp only [decide_eq_true_eq, shutdownLine_eq h]
  rfl

/-- Settles O38. -/
theorem powerStepStartsItsMove : Obligations.PowerStepStartsItsMove := by
  unfold Obligations.PowerStepStartsItsMove
  intro s i st rest target keys hidle hhead hplace hdoom hkind x begun window cut passes waits lidAllows
  have hready : HeadReady (s.slot i) st rest := ⟨hidle, hhead, hplace⟩
  have hslot : (s.beginHead i st rest).slot i = begun none := beginHead_slot
  have hstate : ((s.beginHead i st rest).slot i).power.state = x.power.state := by rw [hslot]
  have hwindow : powerWindow st target s.time = window := by
    rw [powerWindow, limitWindow_eq]
    by_cases ht : target = .run
    · simp only [window, ht, if_true, ne_eq, not_true, or_false]
    · exact (if_neg ht).trans (if_pos (.inr ht)).symm
  have hmod (g : SlotState → SlotState) : (s.beginHead i st rest).modSlot i g = s.setSlot i (g (begun none)) :=
    modSlot_of_setSlot s i _ g
  have hstart : startKind i st (s.beginHead i st rest) = startPower i st target keys (s.beginHead i st rest) := startKind_power hkind
  have hpass {y : SlotState} (hf : y.engine.flight = some (Flight.begun st s.time)) (hw : y.engine.waiting = rest)
      (hm : startPower i st target keys (s.beginHead i st rest) = targetReached i (s.setSlot i y)) : passes y :=
    exec_stepStart_ends hready hdoom hf hw (hstart.trans (hm.trans (targetReached_setSlot hf hkind)))
  have hwait {y : SlotState} (hm : startPower i st target keys (s.beginHead i st rest) = (s.setSlot i y, [])) : waits y :=
    exec_stepStart_goesOn hready hdoom (hstart.trans hm)
  have hopen (hl : lidAllows) : ¬ ((s.beginHead i st rest).lid.state = .opened ∧ target.needsRail = true) := fun h =>
    (hl h.1).elim ((needsRail_iff target).mp h.2).1 ((needsRail_iff target).mp h.2).2
  have hby {p : PowerState} (hp : x.power.state = p) (hr : p.reaches target = false) (hl : lidAllows) :=
    startPower_byState (u := s.beginHead i st rest) (st := st) (keys := keys) (i := i) (target := target)
      (by rw [hstate, hp]; exact hr) (hopen hl)
  refine ⟨fun hreach => ?_, fun htarget hp => ?_, fun htarget hp => ?_, fun htarget hp htx => ?_, fun hp hphase htarget hl => ?_,
    fun hp htarget htx hl => ?_, fun hp htarget hl => ?_, fun htarget hp htx => ?_, fun hp hrun hstandby htx hl => ?_,
    fun hp hphase htarget hl => ?_, fun hp hphase htarget hl => ?_⟩
  · refine exec_stepStart_ends hready hdoom rfl rfl (hstart.trans (startPower_reached ?_))
    rw [hstate]
    exact (reaches_iff _ _).mpr hreach
  · refine hpass (y := cut (begun none)) rfl rfl ?_
    have hn : target.needsRail = false := by rcases htarget with rfl | rfl <;> rfl
    rw [hby hp (by rcases htarget with rfl | rfl <;> rfl) fun _ => htarget, hstate, hp]
    dsimp only
    rw [if_pos hn, takeMove]
    rw [hmod]
    rfl
  · subst htarget
    refine hpass (y := cut (begun none)) rfl rfl ?_
    rw [hby hp rfl fun _ => .inl rfl, hstate, hp]
    dsimp only
    rw [if_neg nofun, if_neg nofun, takeMove]
    rw [hmod]
    rfl
  · subst htarget
    refine hpass (y := cut (begun none)) rfl rfl ?_
    rw [hby hp rfl fun _ => .inl rfl, hstate, hp]
    dsimp only
    rw [if_neg nofun, if_neg (by rw [hslot]; rw [show (begun none).line.tx = none from htx]; decide), takeMove]
    rw [hmod]
    rfl
  · subst htarget
    refine hpass (y := { begun none with power := { x.power with state := .listen, phase := .none, target := none } }) rfl rfl ?_
    rw [hby hp rfl hl, hstate, hp]
    dsimp only
    rw [if_neg nofun, if_neg (by rw [hslot]; exact hphase), if_neg nofun, takeMove]
    dsimp only
    rw [hmod]
  · subst htarget
    refine hpass (y := { begun none with power := { x.power with state := .listen, phase := .none, target := none } }) rfl rfl ?_
    rw [hby hp rfl hl, hstate, hp]
    dsimp only
    rw [if_neg nofun, if_neg (by rw [hslot]; rw [show (begun none).line.tx = none from htx]; decide), takeMove]
    dsimp only
    rw [hmod]
  · subst htarget
    refine hpass (y := { begun none with power := { x.power with state := .run, phase := .none, target := none } }) rfl rfl ?_
    rw [hby hp rfl hl, hstate, hp]
    dsimp only
    rw [if_neg nofun, if_pos rfl, hmod]
  · subst htarget
    intro code
    refine hwait ?_
    have hpark : takeMove i .park (s.beginHead i st rest) = (enterParking i (s.setSlot i
        { begun none with power := { x.power with target := some .park } }), []) := by
      rw [takeMove, hmod]
    have hmove : startPower i st .park keys (s.beginHead i st rest) = takeMove i .park (s.beginHead i st rest) := by
      rcases hp with hp | hp
      · rw [hby hp rfl fun _ => .inr rfl, hstate, hp]
        exact (if_neg nofun).trans (if_neg (by rw [hslot, show (begun none).line.tx = none from htx]; decide))
      · rw [hby hp rfl fun _ => .inr rfl, hstate, hp]
        exact (if_neg nofun).trans (if_neg nofun)
    rw [hmove, hpark, enterParking_setSlot s i { begun none with power := { x.power with target := some .park } } htx]
  · refine hwait ?_
    rw [hby hp (by cases target <;> first | rfl | exact absurd rfl hrun) hl, hstate, hp]
    dsimp only
    rw [if_neg hstandby, if_pos (by rw [hslot]; exact Option.isSome_iff_ne_none.mpr htx), hmod]
  · refine hwait ?_
    rw [hby hp (by rcases htarget with rfl | rfl <;> rfl) hl, hstate, hp]
    dsimp only
    rw [if_neg (by rcases htarget with rfl | rfl <;> nofun), if_pos (by rw [hslot]; exact hphase), State.openPowerWindow, State.modFlight,
      State.modSlot_modSlot, hmod]
    rw [← hwindow]
    rfl
  · subst htarget
    refine hwait ?_
    rw [hby hp rfl hl, hstate, hp]
    dsimp only
    rw [if_neg nofun, if_neg (by rw [hslot]; exact hphase), if_pos rfl, State.openPowerWindow, State.modFlight, State.modSlot_modSlot, hmod]
    rw [← hwindow]
    rfl

/-! ### ATTACH and DETACH (R11, R12, R130, R135) -/

/-- A mask of four bits is the bits it is built from. -/
theorem bitSet_getLsbD (f : Port → Bool) (p : Port) : (BitVec.ofNat 4 (bitSet ((List.finRange 4).map f))).getLsbD p.val = f p := by
  have hcases : ∀ a b c d : Bool, ∀ q : Port,
      (BitVec.ofNat 4 (bitSet [a, b, c, d])).getLsbD q.val = [a, b, c, d][q.val]'(q.isLt) := by decide
  refine (hcases (f 0) (f 1) (f 2) (f 3) p).trans ?_
  fin_cases p <;> rfl

theorem releasePorts_eq {mask : PortMask} {out : Port → Bool} (h : ∀ p, mask.getLsbD p.val = out p)
    (hheld : ∀ p, out p = true → s.ports[p].map Hold.slot = some i) :
    s.releasePorts i mask = { s with ports := Vector.ofFn fun p : Fin 4 => if out p then none else s.ports[p] } := by
  rw [State.releasePorts, putPorts_eq_ofFn]
  refine congrArg (fun f : Fin 4 → Option Hold => { s with ports := Vector.ofFn f }) (funext fun p => ?_)
  rw [BitVec.getLsbD_and, h, portsHeld_getLsbD]
  cases hout : out p with
  | false => rfl
  | true => rw [hheld p hout]; simp

/-- Settles O39. -/
theorem attachAndDetachStart : Obligations.AttachAndDetachStart := by
  unfold Obligations.AttachAndDetachStart
  intro s i st rest hw hidle hhead hplace hdoom u holds
  have hready : HeadReady (s.slot i) st rest := ⟨hidle, hhead, hplace⟩
  have hbegin : s.beginHead i st rest = u := rfl
  have hqueued : u.queuedSteps = s.queuedSteps := beginHead_queuedSteps hready
  have hflight : (u.slot i).engine.flight = some (Flight.begun st s.time) :=
    congrArg (fun x : SlotState => x.engine.flight) (beginHead_slot (s := s) (i := i) (st := st) (rest := rest))
  have hbit (p : Port) : (u.portsHeld i).getLsbD p.val = holds p := portsHeld_getLsbD u i p
  refine ⟨fun ports hold hk hfree => ?_, fun ports hk => ?_⟩
  · intro w
    have hzero : u.portsHeld i &&& ports = 0#4 := (portMask_eq_zero_iff _).mpr fun p => by
      rw [BitVec.getLsbD_and, hbit]
      cases hp : ports.getLsbD p.val with
      | false => exact Bool.and_false _
      | true => rw [hfree p hp]; rfl
    refine exec_stepStart_turn hready hdoom ((startKind_attach hk).trans (if_neg (not_not.mpr hzero))) ?_
    exact (walk_queuedSteps ((joinWaitList_keeps hready hk _).waiters hw)).trans hqueued
  · intro out released ended
    have hreleased : (if ports = 0#4 then 0xF#4 else ports) &&& u.portsHeld i = released := portMask_ext fun p => by
      rw [bitSet_getLsbD, BitVec.getLsbD_and, hbit, Bool.and_comm]
      refine congrArg (holds p && ·) ?_
      by_cases hp : ports = 0#4
      · rw [if_pos hp, decide_eq_true hp]
        fin_cases p <;> rfl
      · rw [if_neg hp, decide_eq_false hp]
        rfl
    have hended : endStep i (.detached released) (u.releasePorts i released) = ended :=
      congrArg (endStep i (.detached released)) (releasePorts_eq (bitSet_getLsbD out) fun p hout =>
        of_decide_eq_true (Bool.and_eq_true_iff.mp hout).1)
    have hspent : ended.queuedSteps + 1 = s.queuedSteps := by
      rw [← hended, ← hqueued]
      exact endStep_queuedSteps (s := u.releasePorts i released) _ (Option.isSome_iff_exists.mpr ⟨_, hflight⟩)
    have hwaiters : ended.WaitersInFlight := by
      have hcode : Keeps s u := beginHead_keeps hready (by simp [hk, StepKind.code])
      rw [← hended]
      have hends : Keeps (u.releasePorts i released) (endStep i (.detached released) (u.releasePorts i released)) :=
        endStep_keeps_of_kind _ hflight (by simp [Flight.begun, hk, StepKind.code]) (by simp [Flight.begun, hk, StepKind.code])
      exact ((hcode.trans (Keeps.of_ports _ _)).trans hends).waiters hw
    have hstart : startKind i st u = if released = 0#4 then (ended, [i]) else ((walk ended).1, i :: (walk ended).2) := by
      rw [startKind_detach hk, startDetach, hreleased, hended]
    refine ⟨fun hnone => ?_, fun hsome => ?_⟩
    · exact exec_stepStart_turn hready hdoom (hstart.trans (if_pos hnone)) ((Nat.add_comm 1 _).trans hspent)
    · refine exec_stepStart_turn hready hdoom (hstart.trans (if_neg hsome)) ?_
      rw [List.length_cons, Nat.add_right_comm, walk_queuedSteps hwaiters]
      exact hspent

end Sys2Proof.Machine
end

