-- ==== Sys2Proof/Proofs/SentItems.lean ====
section
/-! PROOF. The item sent, and what waited for it. -/

namespace Sys2Proof.Machine

variable {s t u : State} {i : Slot} {f : Flight} {item : TxItem}

/-! ### The rows (R33, R23, R75) -/

theorem exec_itemSent (h : (s.slot i).line.tx = some item) :
    exec (.itemSent i) s = .next (finish (itemSent i item s).2 (itemSent i item s).1) := by
  refine congrArg Host.Outcome.next ?_
  rw [h]

theorem exec_transmitWaitingItem {w : TxItem} (h : (s.slot i).line.tx = some item) (hw : (s.slot i).line.txWaiting = some w) :
    exec (.transmitWaitingItem i) s = .next (finish (itemSent i item s).2 (itemSent i item s).1) := by
  refine congrArg Host.Outcome.next ?_
  rw [h, hw]

theorem exec_abortingComplete (h : (s.slot i).line.tx = some item) (hf : (s.slot i).engine.flight = some f) (ha : f.aborting = true) :
    exec (.abortingComplete i) s = .next (finish (itemSent i item s).2 (itemSent i item s).1) := by
  refine congrArg Host.Outcome.next ((if_pos (by rw [hf]; exact ha)).trans ?_)
  rw [h]

theorem exec_leaveRun (h : (s.slot i).line.tx = some item) (hrun : (s.slot i).power.state = .run) (hl : (s.slot i).power.phase = .leaving)
    (hw : (s.slot i).line.txWaiting = none) :
    exec (.leaveRun i) s = .next (finish (itemSent i item s).2 (itemSent i item s).1) := by
  refine congrArg Host.Outcome.next ((if_pos ⟨hrun, hl, hw⟩).trans ?_)
  rw [h]

/-! ### The item sent -/

/-- With nothing waiting behind it, the transmitter becomes IDLE (R33). -/
theorem nextItem_of_none {l : PhoneLine} (h : l.txWaiting = none) : l.nextItem = { l with tx := none } := by
  rw [PhoneLine.nextItem, h, ← h]

/-- An item that is no block of an aborting PUSH ends no step. -/
theorem itemSent_quiet (h : ∀ f, (s.slot i).engine.flight = some f → f.aborting = false) :
    itemSent i item s = leaveIfIdle i (s.modSlot i fun x => { x with line := x.line.nextItem }) := by
  have hquiet : ((s.slot i).engine.flight.map Flight.aborting).getD false = false := by
    cases hf : (s.slot i).engine.flight with
    | none => rfl
    | some f => exact h f hf
  rw [itemSent, hquiet, Bool.and_false]
  rfl

/-- The block of an aborting PUSH has been sent: the step ends (R23). -/
theorem itemSent_aborting (hf : (s.slot i).engine.flight = some f) (ha : f.aborting = true) (ho : item.owner = .step) :
    itemSent i item s =
      let r := leaveIfIdle i ((endStep i .aborted s).modSlot i fun x => { x with line := x.line.nextItem })
      (r.1, i :: r.2) := by
  rw [itemSent, hf, ho]
  simp only [Option.map_some, ha]
  rfl

theorem leaveIfIdle_stays (h : (s.slot i).power.phase ≠ .leaving) : leaveIfIdle i s = (s, []) := if_neg fun hl => h hl.2.2

theorem leaveIfIdle_moves {target : Target} (htx : (s.slot i).line.tx = none) (hrun : (s.slot i).power.state = .run)
    (hl : (s.slot i).power.phase = .leaving) (ht : (s.slot i).power.target = some target) :
    leaveIfIdle i s = takeMove i target s := by
  refine (if_pos ⟨htx, hrun, hl⟩).trans ?_
  rw [ht]

/-- Settles O44. -/
theorem itemSentMovesTheTransmitter : Obligations.ItemSentMovesTheTransmitter := by
  unfold Obligations.ItemSentMovesTheTransmitter
  intro s i item htx x idle
  refine ⟨fun hphase hquiet => ?_, fun f hphase hf ha ho hw => ?_, fun f target keys hrun hl ht hw hf hk hpush => ?_⟩
  · have hsent : finish (itemSent i item s).2 (itemSent i item s).1 = uplink (s.modSlot i fun y => { y with
        line := { y.line with tx := y.line.txWaiting, txWaiting := none } }) := by
      rw [itemSent_quiet hquiet, leaveIfIdle_stays (by rw [State.modSlot_slot_same]; exact hphase)]
      exact finish_nil _
    refine ⟨(exec_itemSent htx).trans (congrArg Host.Outcome.next hsent), fun w hw => ?_⟩
    rw [exec_transmitWaitingItem htx hw, hsent]
    refine congrArg (fun y => Host.Outcome.next (uplink (s.setSlot i y))) ?_
    change { x with line := { x.line with tx := x.line.txWaiting, txWaiting := none } } = _
    rw [hw]
  · intro sent
    have hslot : (endStep i .aborted s).slot i = x.complete f (completionRecord s.limits s.time f .aborted) := endStep_slot_same _ _ _ hf
    have hnext : (endStep i .aborted s).modSlot i (fun y => { y with line := y.line.nextItem }) = sent := by
      have hnone : ((endStep i .aborted s).slot i).line.txWaiting = none := by
        rw [hslot, complete_eq]
        change (if x.line.txWaiting.map TxItem.owner = some .step then none else x.line.txWaiting) = none
        rw [hw]
        rfl
      exact congrArg (fun l => (endStep i .aborted s).setSlot i { (endStep i .aborted s).slot i with line := l }) (nextItem_of_none hnone)
    have hsent : itemSent i item s = (sent, [i]) := by
      rw [itemSent_aborting hf ha ho, hnext, leaveIfIdle_stays]
      rw [State.modSlot_slot_same, hslot, complete_eq]
      exact hphase
    exact ⟨by rw [exec_itemSent htx, hsent], by rw [exec_abortingComplete htx hf ha, hsent]⟩
  · have hquiet : ∀ g, x.engine.flight = some g → g.aborting = false := fun g hg => by
      rw [← Option.some.inj (hf.symm.trans hg), Flight.aborting, hpush]
    have hsent : itemSent i item s = takeMove i target (s.setSlot i { x with line := idle }) := by
      rw [itemSent_quiet hquiet]
      have hnext : (s.modSlot i fun y => { y with line := y.line.nextItem }) = s.setSlot i { x with line := idle } := by
        refine congrArg (s.setSlot i) ?_
        change { x with line := { x.line with tx := x.line.txWaiting, txWaiting := none } } = _
        rw [hw]
      rw [hnext]
      exact leaveIfIdle_moves (by rw [State.setSlot_slot_same]) (by rw [State.setSlot_slot_same]; exact hrun)
        (by rw [State.setSlot_slot_same]; exact hl) (by rw [State.setSlot_slot_same]; exact ht)
    have hexec {v : State} {work : List Slot} (h : takeMove i target (s.setSlot i { x with line := idle }) = (v, work)) :
        exec (.itemSent i) s = .next (finish work v) ∧ exec (.leaveRun i) s = .next (finish work v) := by
      rw [exec_itemSent htx, exec_leaveRun htx hrun hl hw, hsent, h]
      exact ⟨rfl, rfl⟩
    refine ⟨fun htarget => ?_, fun htarget => ?_, fun htarget => ?_⟩
    · subst htarget
      intro u
      refine hexec ?_
      rw [takeMove, modSlot_of_setSlot]
      exact targetReached_setSlot hf hk
    · subst htarget
      intro u
      refine hexec ?_
      rw [takeMove, modSlot_of_setSlot]
      exact targetReached_setSlot hf hk
    · subst htarget
      intro code u
      rw [← finish_nil]
      refine hexec ?_
      rw [takeMove, modSlot_of_setSlot]
      refine congrArg (·, []) ?_
      have htarget : ({ x.power with target := some .park } : Power) = x.power := by rw [← ht]
      dsimp only
      rw [htarget]
      exact enterParking_setSlot s i { x with line := idle } rfl

end Sys2Proof.Machine
end

