-- ==== Sys2Proof/Proofs/LidMoves.lean ====
section
/-! PROOF. The lid's input, and what its recognised opening does to every slot, to the ports, the wait list and the store. -/

namespace Sys2Proof.Machine

variable {s t u : State} {i j : Slot} {f : Flight}

/-! ### The opening in one slot (R91) -/

/-- A slot whose rail the lid cuts, before its step ends. -/
def SlotState.lidClosedOff (x : SlotState) : SlotState :=
  { x with
    engine.waiting := x.engine.waiting.map fun st => if st.doom = none then { st with doom := some .interlocked } else st
    line := { x.line with tx := none, txWaiting := none, assembler := ⟨[], false, false, false⟩ }
    sampler := { x.sampler with overcurrent := 0, undervolt := 0, parkHistory := [] }
    power := { x.power with
      state := .off, phase := .none, target := none, settle := none, keys := 0#3, pressRelease := none, bootWait := none
      parkHold := none, interlock := true }
    notices.power := true }

/-- How the step in flight of a slot ends that the lid cuts (R91, R23). -/
def SlotState.lidEnding (x : SlotState) : Ending := if x.engine.flight.any Flight.aborting then .aborted else .interlocked

theorem lidCut_on (h : (s.slot i).power.state.railOn = true) : lidCut i s =
    { endStep i (s.slot i).lidEnding (s.modSlot i SlotState.lidClosedOff) with
      ports := s.ports.map fun h => if h.map Hold.slot = some i then none else h
      waitList := s.waitList.filter fun w => decide (w.slot ≠ i) } := by
  have hcut (x : SlotState) : (let y := (x.cutRail .off).doomQueue .interlocked
      { y with power.interlock := true, notices := y.notices.put .power true }) = x.lidClosedOff := by
    rw [doomQueue_eq]
    rfl
  refine (if_pos h).trans ?_
  rw [arbiterDrop_eq, endingUnder_eq, endStep_ports, endStep_waitList]
  simp only [hcut]
  rfl

theorem lidCut_fault (h : (s.slot i).power.state = .fault) :
    lidCut i s = s.modSlot i fun x => { x with power.interlock := true, notices.power := true } :=
  (if_neg (by rw [h]; decide)).trans (if_pos h)

theorem lidCut_off (h : (s.slot i).power.state = .off) : lidCut i s = s :=
  (if_neg (by rw [h]; decide)).trans (if_neg (by rw [h]; decide))

theorem endStep_slot_congr {e : Ending} (hslot : t.slot i = s.slot i) (htime : t.time = s.time) (hlimits : t.limits = s.limits) :
    (endStep i e t).slot i = (endStep i e s).slot i := by
  cases hf : (s.slot i).engine.flight with
  | none => rw [endStep_none s i e hf, endStep_none t i e (hslot ▸ hf), hslot]
  | some f => rw [endStep_slot_same s i e hf, endStep_slot_same t i e (hslot ▸ hf), hslot, htime, hlimits]

/-- What the opening makes of a slot comes from the slot, the time and the limits alone. -/
theorem lidCut_slot_congr (hslot : t.slot i = s.slot i) (htime : t.time = s.time) (hlimits : t.limits = s.limits) :
    (lidCut i t).slot i = (lidCut i s).slot i := by
  cases hrail : (s.slot i).power.state.railOn with
  | true =>
    rw [lidCut_on hrail, lidCut_on (by rw [hslot]; exact hrail), hslot]
    exact endStep_slot_congr (by rw [State.modSlot_slot_same, State.modSlot_slot_same, hslot]) htime hlimits
  | false =>
    by_cases hfault : (s.slot i).power.state = .fault
    · rw [lidCut_fault hfault, lidCut_fault (by rw [hslot]; exact hfault), State.modSlot_slot_same, State.modSlot_slot_same, hslot]
    · have hoff {v : State} (h : v.slot i = s.slot i) : lidCut i v = v :=
        (if_neg (by rw [h, hrail]; decide)).trans (if_neg (by rw [h]; exact hfault))
      rw [hoff hslot, hoff rfl, hslot]

theorem lidCut_railOff_rest (h : (s.slot i).power.state.railOn = false) :
    (lidCut i s).ports = s.ports ∧ (lidCut i s).waitList = s.waitList ∧ (lidCut i s).store = s.store := by
  unfold lidCut
  dsimp only
  rw [if_neg (by rw [h]; decide)]
  split <;> exact ⟨rfl, rfl, rfl⟩

/-- What the end of a step does to the store (R17). -/
theorem endStep_store (s : State) (i : Slot) (e : Ending) : (endStep i e s).store = match (s.slot i).engine.flight with
    | some f => s.store.afterStep f.step.kind
    | none => s.store := by
  cases hf : (s.slot i).engine.flight with
  | none => rw [endStep_none s i e hf]
  | some f => rw [endStep_some s i e hf]

/-! ### The opening in every slot -/

/-- What the store is after the steps in flight of the slots in `l` have ended (R91, R17). -/
def storeAfterLid (s : State) (l : List Slot) (m : Store) : Store :=
  l.foldl (fun m i => match (s.slot i).engine.flight with
    | some f => m.afterStep f.step.kind
    | none => m) m

/-- From `s` to `t` the lid's opening has acted on the slots in `l`. -/
structure LidOpened (l : List Slot) (s t : State) : Prop where
  acted : ∀ i ∈ l, t.slot i = (lidCut i s).slot i
  others : ∀ i ∉ l, t.slot i = s.slot i
  freed : ∀ (p : Port) (h : Hold), s.ports[p] = some h → h.slot ∈ l → (s.slot h.slot).power.state.railOn = true → t.ports[p] = none
  held : ∀ p : Port, (∀ h, s.ports[p] = some h → h.slot ∈ l → (s.slot h.slot).power.state.railOn = false) → t.ports[p] = s.ports[p]
  waitList : t.waitList = s.waitList.filter fun w => !(decide (w.slot ∈ l) && (s.slot w.slot).power.state.railOn)
  store : t.store = storeAfterLid s (l.filter fun i => (s.slot i).power.state.railOn) s.store

theorem lidCut_opened (s : State) (i : Slot) : LidOpened [i] s (lidCut i s) := by
  have hacted : ∀ j ∈ [i], (lidCut i s).slot j = (lidCut j s).slot j := fun j hj => by rw [List.mem_singleton.mp hj]
  have hothers : ∀ j ∉ [i], (lidCut i s).slot j = s.slot j := fun j hj => lidCut_slot_ne fun h => hj (List.mem_singleton.mpr h)
  cases hrail : (s.slot i).power.state.railOn with
  | true =>
    have hport (p : Port) : (lidCut i s).ports[p] = if s.ports[p].map Hold.slot = some i then none else s.ports[p] := by
      rw [lidCut_on hrail]
      exact Vector.getElem_map _ _
    refine ⟨hacted, hothers, fun p h hp hslot _ => ?_, fun p hp => ?_, ?_, ?_⟩
    · rw [hport, hp]
      exact if_pos (congrArg some (List.mem_singleton.mp hslot))
    · rw [hport]
      refine if_neg fun hi => ?_
      obtain ⟨h, hsome, hslot⟩ := Option.map_eq_some_iff.mp hi
      have hfalse := hp h hsome (List.mem_singleton.mpr hslot)
      rw [hslot, hrail] at hfalse
      exact nomatch hfalse
    · rw [lidCut_on hrail]
      refine List.filter_congr fun w _ => ?_
      by_cases hw : w.slot = i
      · simp [hw, hrail]
      · simp [hw]
    · rw [show ([i].filter fun j => (s.slot j).power.state.railOn) = [i] by simp [hrail], lidCut_on hrail]
      refine (endStep_store _ i _).trans ?_
      rw [State.modSlot_slot_same]
      rfl
  | false =>
    obtain ⟨hports, hwait, hstore⟩ := lidCut_railOff_rest hrail
    refine ⟨hacted, hothers, fun p h _ hslot hon => ?_, fun p _ => by rw [hports], ?_, ?_⟩
    · rw [List.mem_singleton.mp hslot, hrail] at hon
      exact nomatch hon
    · rw [hwait]
      refine (List.filter_eq_self.mpr fun w _ => ?_).symm
      by_cases hw : w.slot = i
      · simp [hw, hrail]
      · simp [hw]
    · rw [show ([i].filter fun j => (s.slot j).power.state.railOn) = [] by simp [hrail], hstore]
      rfl

theorem LidOpened.cons {l : List Slot} (hi : i ∉ l) (h : LidOpened [i] s t) (htime : t.time = s.time) (hlimits : t.limits = s.limits)
    (k : LidOpened l t u) : LidOpened (i :: l) s u := by
  have hsame {j : Slot} (hj : j ∈ l) : t.slot j = s.slot j := h.others j fun hm => hi (List.mem_singleton.mp hm ▸ hj)
  refine ⟨fun j hj => ?_, fun j hj => ?_, fun p o hp hslot hon => ?_, fun p hp => ?_, ?_, ?_⟩
  · rcases List.mem_cons.mp hj with rfl | hj
    · rw [k.others j hi, h.acted j List.mem_cons_self]
    · rw [k.acted j hj, lidCut_slot_congr (hsame hj) htime hlimits]
  · rw [List.mem_cons, not_or] at hj
    rw [k.others j hj.2, h.others j fun hm => hj.1 (List.mem_singleton.mp hm)]
  · by_cases hji : o.slot = i
    · have hnone : t.ports[p] = none := h.freed p o hp (List.mem_singleton.mpr hji) hon
      rw [k.held p fun g hg => (by rw [hnone] at hg; exact nomatch hg), hnone]
    · have hl := (List.mem_cons.mp hslot).resolve_left hji
      have hkept : t.ports[p] = s.ports[p] := h.held p fun g hg hm => by
        rw [hp] at hg
        exact absurd (Option.some.inj hg ▸ List.mem_singleton.mp hm) hji
      exact k.freed p o (hkept.trans hp) hl (by rw [hsame hl]; exact hon)
  · have hkept : t.ports[p] = s.ports[p] := h.held p fun g hg hm =>
      hp g hg (List.mem_cons.mpr (.inl (List.mem_singleton.mp hm)))
    rw [k.held p fun g hg hm => ?_, hkept]
    rw [hsame hm]
    exact hp g (hkept ▸ hg) (List.mem_cons_of_mem i hm)
  · rw [k.waitList, h.waitList, List.filter_filter]
    refine List.filter_congr fun w _ => ?_
    by_cases hl : w.slot ∈ l
    · have hne : w.slot ≠ i := fun e => hi (e ▸ hl)
      simp [hl, hne, hsame hl]
    · simp [hl]
  · have hfilter : (l.filter fun j => (t.slot j).power.state.railOn) = l.filter fun j => (s.slot j).power.state.railOn :=
      List.filter_congr fun j hj => by rw [hsame hj]
    rw [k.store, h.store, hfilter]
    change _ = storeAfterLid s (([i] ++ l).filter fun j => (s.slot j).power.state.railOn) s.store
    rw [List.filter_append, storeAfterLid, storeAfterLid, storeAfterLid, List.foldl_append]
    refine List.foldl_ext _ _ _ fun m j hj => ?_
    rw [hsame (List.mem_filter.mp hj).1]

theorem foldl_lidCut_opened (l : List Slot) (hnd : l.Nodup) : ∀ s : State, LidOpened l s (l.foldl (fun u i => lidCut i u) s) := by
  induction l with
  | nil =>
    exact fun s => ⟨fun _ h => (nomatch h), fun _ _ => rfl, fun _ _ _ h => (nomatch h), fun _ _ => rfl, by simp, rfl⟩
  | cons i l ih =>
    intro s
    rw [List.nodup_cons] at hnd
    have hcell := foldl_lidCut_sameCell [i] s
    exact (lidCut_opened s i).cons hnd.1 hcell.time hcell.limits (ih hnd.2 (lidCut i s))

/-! ### The input and the recognition (R90, R91) -/

/-- Settles O45. -/
theorem lidOpensAndCloses : Obligations.LidOpensAndCloses := by
  unfold Obligations.LidOpensAndCloses
  intro s
  refine ⟨fun hin hlid => congrArg Host.Outcome.next ?_, fun hin => congrArg Host.Outcome.next (if_pos hin),
    fun hlid => congrArg Host.Outcome.next (if_neg (by rw [hlid]; decide)),
    fun hlid => congrArg Host.Outcome.next (if_pos hlid), fun d hlid hd hdue => ?_⟩
  · refine (if_neg (by rw [hin]; decide)).trans ?_
    rw [if_pos hlid]
    dsimp only
    rw [hlid]
    rfl
  · intro railOn cut ending
    have hrail (i : Slot) : (s.slot i).power.state.railOn = true ↔ railOn i := railOn_iff _
    have hoff (i : Slot) : (s.slot i).power.state.railOn = false ↔ ¬ railOn i := railOn_eq_false_iff _
    have hdecide (i : Slot) : decide (railOn i) = (s.slot i).power.state.railOn := by
      rw [Bool.eq_iff_iff, decide_eq_true_iff, hrail]
    have hslots : (allSlots.filter fun i => decide (railOn i)) = allSlots.filter fun i => (s.slot i).power.state.railOn :=
      List.filter_congr fun i _ => hdecide i
    obtain ⟨acted, -, freed, held, waitList, store⟩ := foldl_lidCut_opened allSlots allSlots_nodup s
    have hcell := foldl_lidCut_sameCell allSlots s
    have hfold : openLid s = _ := congrArg
      (fun v => finish ((allSlots.filter fun i => (s.slot i).power.state.railOn) ++ (walk v).2) (walk v).1)
      (foldl_lidCut_cell allSlots { s.lid with state := .opened, deadline := none } { s.link with linkError := true } s)
    rw [← hslots] at hfold
    rw [show List.finRange 24 = allSlots from rfl]
    generalize allSlots.foldl (fun u i => lidCut i u) s = v at acted freed held waitList store hcell hfold
    refine ⟨{ v with lid := { s.lid with state := .opened, deadline := none }, link := { s.link with linkError := true } },
      congrArg Host.Outcome.next ((if_pos ((lidDue_iff s).mpr ⟨hlid, d, hd, hdue⟩)).trans hfold), rfl, rfl,
      fun i hi => ?_, fun i hi => ?_, fun i hi => ?_, fun p h hp hon => freed p h hp (mem_allSlots _) ((hrail _).mpr hon),
      fun p hp => held p fun h hh _ => (hoff _).mpr (hp h hh), ?_, ?_, hcell.time, hcell.limits, hcell.guard, hcell.guardDefault,
      hcell.freeCount, hcell.pending⟩
    · refine (acted i (mem_allSlots i)).trans ?_
      rw [lidCut_on ((hrail i).mpr hi)]
      rfl
    · refine (acted i (mem_allSlots i)).trans ?_
      rw [lidCut_fault hi, State.modSlot_slot_same]
    · refine (acted i (mem_allSlots i)).trans ?_
      rw [lidCut_off hi]
    · refine waitList.trans (List.filter_congr fun w _ => ?_)
      rw [decide_eq_true (mem_allSlots w.slot), Bool.true_and, ← hdecide, decide_not]
    · refine store.trans ?_
      rw [← hslots]
      rfl

end Sys2Proof.Machine
end

