-- ==== Sys2Proof/Proofs/ReceivedLines.lean ====
section
/-! PROOF. The received byte, the line an LF ends, and its class. -/

namespace Sys2Proof.Machine

variable {s t u : State} {i : Slot} {f : Flight} {b : Byte} {framingError : Bool}

/-! ### The received byte (R36 to R39, R89) -/

theorem receiveByte_lost (h : (s.slot i).power.state = .off ∨ (s.slot i).power.state = .fault ∨
    ((s.slot i).power.state = .standby ∧ (s.slot i).power.phase = .settling)) : receiveByte i b framingError s = s := by
  rcases h with h | h | ⟨h, hphase⟩
  · rw [receiveByte, h]
  · rw [receiveByte, h]
  · rw [receiveByte, h]
    exact if_pos hphase

theorem receiveByte_runs (h : (s.slot i).power.state ∈ [PowerState.starting, .run, .listen, .parking]) :
    receiveByte i b framingError s = assemble i b framingError s := by
  unfold receiveByte
  revert h
  cases (s.slot i).power.state <;> simp

theorem receiveByte_wakes (h : (s.slot i).power.state = .standby) (hphase : (s.slot i).power.phase ≠ .settling) :
    receiveByte i b framingError s = wakeUp i b framingError s := by
  rw [receiveByte, h]
  exact if_neg hphase

theorem exec_wake_stays (h : ¬ ((s.slot i).power.state = .standby ∧ (s.slot i).power.phase ≠ .settling)) :
    exec (.wake i b framingError) s = .next s := congrArg Host.Outcome.next (if_neg h)

/-- Settles O47. -/
theorem receivedBytesJoinTheLine : Obligations.ReceivedBytesJoinTheLine := by
  unfold Obligations.ReceivedBytesJoinTheLine
  intro s i b framingError x pushed wakes
  refine ⟨fun h => ⟨congrArg Host.Outcome.next (receiveByte_lost h), exec_wake_stays fun hw => ?_,
    congrArg Host.Outcome.next (receiveByte_lost h)⟩, fun h => ⟨exec_wake_stays fun hw => ?_, fun hb => ?_⟩,
    fun h hphase => ⟨fun hb => ?_, ?_⟩, rfl⟩
  · rcases h with h | h | h
    · exact nomatch h.symm.trans hw.1
    · exact nomatch h.symm.trans hw.1
    · exact hw.2 h.2
  · rw [show (s.slot i).power.state = x.power.state from rfl] at hw
    rw [hw.1] at h
    revert h
    decide
  · exact congrArg Host.Outcome.next ((receiveByte_runs h).trans (if_neg hb))
  · have hwakes : wakeUp i b framingError s = wakes := by
      refine congrArg uplink ((if_neg hb).trans ?_)
      rw [State.modSlot_modSlot]
      rfl
    exact ⟨congrArg Host.Outcome.next ((receiveByte_wakes h hphase).trans hwakes),
      congrArg Host.Outcome.next ((if_pos ⟨h, hphase⟩).trans hwakes)⟩
  · exact congrArg Host.Outcome.next ((if_pos ⟨h, hphase⟩).trans (receiveByte_wakes h hphase).symm)

/-! ### Reply lines (R41) -/

theorem hexVal_lt {b : Byte} {n : Nat} (h : hexVal b = some n) : n < 16 := by
  unfold hexVal at h
  dsimp only at h
  split at h
  · have := Option.some.inj h; omega
  · split at h
    · have := Option.some.inj h; omega
    · split at h
      · have := Option.some.inj h; omega
      · exact nomatch h

theorem hexNumber_pair (p q : Byte) (n : Nat) :
    hexNumber [p, q] = some n ↔ ∃ a b, hexVal p = some a ∧ hexVal q = some b ∧ n = 16 * a + b := by
  unfold hexNumber
  cases hp : hexVal p with
  | none => simp [hp]
  | some a =>
    cases hq : hexVal q with
    | none => simp [hp, hq]
    | some b => simp [hp, hq, eq_comm]

/-- A line is a well-formed reply line that says `tag`, `status` and `payload` (R41). -/
def Line.IsReply (l : Line) (tag status : Nat) (payload : List Byte) : Prop :=
  l.damaged = false ∧ ∃ t1 t2 s1 s2 a1 a2 b1 b2, hexVal t1 = some a1 ∧ hexVal t2 = some a2 ∧ hexVal s1 = some b1 ∧ hexVal s2 = some b2 ∧
    tag = 16 * a1 + a2 ∧ status = 16 * b1 + b2 ∧
    ((l.content = [0x3D#8, t1, t2, s1, s2] ∧ payload = []) ∨
      (l.content = [0x3D#8, t1, t2, s1, s2, 0x20#8] ++ payload ∧ ∀ b ∈ payload, 0x20 ≤ b.toNat ∧ b.toNat ≤ 0x7E))

theorem isReply_lt {l : Line} {tag status : Nat} {payload : List Byte} (h : l.IsReply tag status payload) : tag < 256 ∧ status < 256 := by
  obtain ⟨-, t1, t2, s1, s2, a1, a2, b1, b2, h1, h2, h3, h4, rfl, rfl, -⟩ := h
  have := hexVal_lt h1
  have := hexVal_lt h2
  have := hexVal_lt h3
  have := hexVal_lt h4
  omega

theorem phoneReply_of_isReply {l : Line} {tag status : Nat} {payload : List Byte} (h : l.IsReply tag status payload) :
    phoneReply l = some ⟨tag, status, payload⟩ := by
  obtain ⟨hd, t1, t2, s1, s2, a1, a2, b1, b2, h1, h2, h3, h4, htag, hstatus, h⟩ := h
  have ht := (hexNumber_pair t1 t2 tag).mpr ⟨a1, a2, h1, h2, htag⟩
  have hs := (hexNumber_pair s1 s2 status).mpr ⟨b1, b2, h3, h4, hstatus⟩
  refine (if_neg (by rw [hd]; decide)).trans ?_
  rcases h with ⟨hc, rfl⟩ | ⟨hc, hprint⟩
  · rw [hc]
    dsimp only
    rw [ht, hs]
    rfl
  · rw [hc]
    dsimp only [List.cons_append, List.nil_append]
    rw [ht, hs]
    exact (if_neg (not_not.mpr rfl)).trans (if_pos ⟨rfl, (all_isPrintable_iff payload).mpr hprint⟩)

theorem isReply_of_phoneReply {l : Line} {r : PhoneReply} (h : phoneReply l = some r) : l.IsReply r.tag r.status r.payload := by
  unfold phoneReply at h
  split at h
  · exact nomatch h
  · next hd =>
    refine ⟨Bool.not_eq_true _ ▸ hd, ?_⟩
    split at h
    · next m t1 t2 s1 s2 rest hcontent =>
      split at h
      · next tag status ht hs =>
        obtain ⟨a1, a2, h1, h2, htag⟩ := (hexNumber_pair t1 t2 tag).mp ht
        obtain ⟨b1, b2, h3, h4, hstatus⟩ := (hexNumber_pair s1 s2 status).mp hs
        split at h
        · exact nomatch h
        · next hm =>
          rw [not_not.mp hm] at hcontent
          split at h
          · obtain rfl := Option.some.inj h
            exact ⟨t1, t2, s1, s2, a1, a2, b1, b2, h1, h2, h3, h4, htag, hstatus, .inl ⟨hcontent, rfl⟩⟩
          · next sp payload =>
            split at h
            · next hprint =>
              obtain rfl := Option.some.inj h
              refine ⟨t1, t2, s1, s2, a1, a2, b1, b2, h1, h2, h3, h4, htag, hstatus, .inr ⟨?_, ?_⟩⟩
              · rw [hcontent, hprint.1]
                rfl
              · exact (all_isPrintable_iff payload).mp hprint.2
            · exact nomatch h
      · exact nomatch h
    · exact nomatch h

/-! ### The class of a line (R42) -/

theorem classify_log {flight : Option Flight} {line : PhoneLine} {l : Line} (h : ¬ ∃ tag status payload, l.IsReply tag status payload) :
    classify flight line l = .log := by
  unfold classify
  cases hr : phoneReply l with
  | none => rfl
  | some r => exact absurd ⟨_, _, _, isReply_of_phoneReply hr⟩ h

variable {flight : Option Flight} {line : PhoneLine} {l : Line} {tag status : Nat} {payload : List Byte}

/-- A reply that no step waits for (R42). -/
theorem classify_stale (h : l.IsReply tag status payload) (hno : ¬ ∃ f, flight = some f ∧ f.tag = some (byte tag)) :
    classify flight line l = .stale := by
  rw [classify, phoneReply_of_isReply h]
  cases flight with
  | none => rfl
  | some f => exact if_pos fun ht => hno ⟨f, rfl, ht⟩

theorem classify_exchange {code : BitVec 16} {argument : List Byte} (h : l.IsReply tag status payload) (hf : f.tag = some (byte tag))
    (hk : f.step.kind = .exchange code argument) : classify (some f) line l = .matched (byte status) payload := by
  rw [classify, phoneReply_of_isReply h]
  refine (if_neg (not_not.mpr hf)).trans ?_
  rw [hk]

theorem classify_push {o : Fin 16} {p : PushProgress} (h : l.IsReply tag status payload) (hf : f.tag = some (byte tag))
    (hk : f.step.kind = .push o) (hp : f.push = some p) : classify (some f) line l =
      if ackNumber payload = some p.current ∧ line.stepWaits = false then .ack (byte status) else .stale := by
  rw [classify, phoneReply_of_isReply h]
  refine (if_neg (not_not.mpr hf)).trans ?_
  rw [hk, hp]

theorem ackNumber_iff (payload : List Byte) (n : Nat) : ackNumber payload = some n ↔ payload.length = 4 ∧ hexNumber payload = some n := by
  unfold ackNumber
  split
  · next h => exact (and_iff_right h).symm
  · next h => exact iff_of_false nofun fun hn => h hn.1

theorem stepWaits_iff (line : PhoneLine) : line.stepWaits = false ↔ line.txWaiting.map TxItem.owner ≠ some .step := by
  unfold PhoneLine.stepWaits
  cases line.txWaiting with
  | none => simp
  | some t => simp

/-! ### The delivery (R38, R43, R45 to R47) -/

theorem handOver_eq (l : PhoneLine) (item : TxItem) : l.handOver item = { l with
    tx := if l.tx = none then some item else l.tx
    txWaiting := if l.tx = none then l.txWaiting else some item } := by
  obtain ⟨baud, size, tag, tx, waiting, assembler⟩ := l
  cases tx <;> rfl

theorem pushAck_failed {o : Fin 16} {p : PushProgress} {b : Byte} (hf : (s.slot i).engine.flight = some f) (hk : f.step.kind = .push o)
    (hp : f.push = some p) (hb : b ≠ 0#8) : pushAck i b s = (endStep i (.ackFailed b) s, [i]) := by
  rw [pushAck, hf]
  dsimp only
  rw [hk, hp]
  exact if_pos hb

theorem pushAck_last {o : Fin 16} {p : PushProgress} (hf : (s.slot i).engine.flight = some f) (hk : f.step.kind = .push o)
    (hp : f.push = some p) (hlast : p.count ≤ p.current + 1) : pushAck i 0#8 s =
      (endStep i .normal (s.modFlight i fun g => { g with push := some { p with acked := p.current + 1 } }), [i]) := by
  rw [pushAck, hf]
  dsimp only
  rw [hk, hp]
  exact (if_neg (not_not.mpr rfl)).trans (if_pos hlast)

theorem pushAck_next {o : Fin 16} {p : PushProgress} (hf : (s.slot i).engine.flight = some f) (hk : f.step.kind = .push o)
    (hp : f.push = some p) (hmore : p.current + 1 < p.count) : pushAck i 0#8 s =
      (s.modSlot i fun x => { x with
        engine.flight := some { f with push := some { p with current := p.current + 1, acked := p.current + 1 } }
        line := x.line.handOver (blockItem (s.store.object o) (f.tag.getD 0#8) p.blockSize (p.current + 1)) }, []) := by
  rw [pushAck, hf]
  dsimp only
  rw [hk, hp]
  exact (if_neg (not_not.mpr rfl)).trans (if_neg (by omega))

/-- The slot as a line leaves it: its assembler empty, and awake (R38, R89). -/
def SlotState.lineTaken (x : SlotState) : SlotState :=
  let emptied : SlotState := { x with line.assembler := ⟨[], false, false, false⟩ }
  if x.power.state = .standby then
    { emptied with
      power := { x.power with state := .listen, phase := .none, woke := true }
      notices.power := true }
  else emptied

theorem assemble_lf (i : Slot) (framingError : Bool) (s : State) : assemble i lf framingError s =
    let r := deliver i ((s.slot i).line.assembler.line framingError) (s.modSlot i fun x => { x with line.assembler := ⟨[], false, false, false⟩ })
    finish r.2 r.1 := if_pos rfl

/-- The LF hands its line to its one receiver. -/
theorem exec_lineReceived (framingError : Bool) (h : (s.slot i).power.state ∈ [PowerState.starting, .run, .listen, .parking] ∨
      ((s.slot i).power.state = .standby ∧ (s.slot i).power.phase ≠ .settling)) :
    exec (.lineReceived i framingError) s =
      let r := deliver i ((s.slot i).line.assembler.line framingError) (s.setSlot i (s.slot i).lineTaken)
      .next (finish r.2 r.1) := by
  refine congrArg Host.Outcome.next ?_
  rcases h with h | ⟨h, hphase⟩
  · rw [receiveByte_runs h]
    have htaken : (s.slot i).lineTaken = { s.slot i with line.assembler := ⟨[], false, false, false⟩ } :=
      if_neg fun hs => by rw [hs] at h; revert h; decide
    rw [htaken, assemble_lf]
    rfl
  · have htaken : (s.slot i).lineTaken = { s.slot i with
        line.assembler := ⟨[], false, false, false⟩
        power := { (s.slot i).power with state := .listen, phase := .none, woke := true }
        notices.power := true } := if_pos h
    rw [receiveByte_wakes h hphase, htaken, wakeUp, assemble_lf, State.modSlot_modSlot, State.modSlot_slot_same]
    exact uplink_uplink _

theorem assembler_line_eq (a : Assembler) (framingError : Bool) : a.line framingError =
    ⟨if a.long = false ∧ a.kept.getLast? = some 0x0D#8 then a.kept.dropLast else a.kept, a.long && !a.beyondCr,
      a.damaged || framingError⟩ := by
  rw [Assembler.line]
  refine congrArg (fun c => Line.mk c _ _) ?_
  cases a.long with
  | true => rfl
  | false =>
    by_cases h : a.kept.getLast? = some 0x0D#8
    · exact (if_pos h).trans (if_pos ⟨rfl, h⟩).symm
    · exact (if_neg h).trans (if_neg fun hn => h hn.2).symm

/-- Settles O48. -/
theorem linesAreClassified : Obligations.LinesAreClassified := by
  unfold Obligations.LinesAreClassified
  intro s i framingError hstate x a content l isReply emptied u captured matched
  have hline : x.line.assembler.line framingError = l := assembler_line_eq _ _
  have hexec : exec (.lineReceived i framingError) s = .next (finish (deliver i l u).2 (deliver i l u).1) := by
    rw [exec_lineReceived framingError hstate]
    dsimp only
    rw [hline]
    rfl
  have hslot : u.slot i = x.lineTaken := State.setSlot_slot_same _ _ _
  have hflight : (u.slot i).engine.flight = x.engine.flight := by
    rw [hslot, SlotState.lineTaken]
    split <;> rfl
  have htx : (u.slot i).line.txWaiting = x.line.txWaiting := by
    rw [hslot, SlotState.lineTaken]
    split <;> rfl
  have hlog (h : classify (u.slot i).engine.flight (u.slot i).line l = .log) : captured .log := by
    rw [show captured .log = (exec (.lineReceived i framingError) s = _) from rfl, hexec, deliver, h]
  have hstale (h : classify (u.slot i).engine.flight (u.slot i).line l = .stale) : captured .stale := by
    rw [show captured .stale = (exec (.lineReceived i framingError) s = _) from rfl, hexec, deliver, h]
  refine ⟨fun h => hlog (classify_log h), fun tag status payload h => ⟨fun hno => hstale (classify_stale h (by rw [hflight]; exact hno)),
    fun f hm => ?_⟩⟩
  obtain ⟨hf, htag⟩ := hm
  obtain ⟨htag256, hstatus256⟩ := isReply_lt h
  refine ⟨fun code argument hk => ?_, fun o p hk hp => ?_⟩
  · rw [hexec, deliver, hflight, hf, classify_exchange h htag hk]
    rfl
  · intro names
    have hpush := classify_push (line := (u.slot i).line) h htag hk hp
    have hnames : (ackNumber payload = some p.current ∧ (u.slot i).line.stepWaits = false) ↔ names := by
      rw [ackNumber_iff, stepWaits_iff, htx, and_assoc]
    have hack (hn : names) : exec (.lineReceived i framingError) s =
        .next (finish (pushAck i (byte status) u).2 (pushAck i (byte status) u).1) := by
      rw [hexec, deliver, hflight, hf, hpush, if_pos (hnames.mpr hn)]
    have huf : (u.slot i).engine.flight = some f := hflight.trans hf
    refine ⟨fun hn => ?_, fun hn hs => ?_, fun hn hs hlast => ?_, fun hn hs hmore => ?_⟩
    · rw [hflight, hf, hpush, if_neg fun hh => hn (hnames.mp hh)] at hstale
      exact hstale rfl
    · have hb : byte status ≠ 0#8 := fun hb => hs (by
        have := congrArg BitVec.toNat hb
        simp [byte] at this
        omega)
      rw [hack hn, pushAck_failed huf hk hp hb]
      rfl
    · subst hs
      rw [hack hn, show byte 0 = 0#8 from rfl, pushAck_last huf hk hp hlast]
      refine congrArg (fun y => Host.Outcome.next (finish [i] (endStep i .normal (u.setSlot i y)))) ?_
      dsimp only
      rw [huf]
      rfl
    · subst hs
      intro k length block
      rw [hack hn, show byte 0 = 0#8 from rfl, pushAck_next huf hk hp hmore, finish_nil]
      refine congrArg (fun y => Host.Outcome.next (uplink (u.setSlot i y))) ?_
      dsimp only
      rw [handOver_eq]
      have hblock : blockItem (u.store.object o) (f.tag.getD 0#8) p.blockSize (p.current + 1) = block := by
        have hbyte : (byte tag).toNat = tag := (BitVec.toNat_ofNat tag 8).trans (Nat.mod_eq_of_lt htag256)
        rw [htag, blockItem, blockHeader]
        dsimp only [Option.getD_some]
        rw [show (BitVec.ofNat 8 tag : Byte).toNat = tag from hbyte]
        rfl
      rw [hblock]

end Sys2Proof.Machine
end

