-- ==== Sys2Proof/Proofs/CapturedLines.lean ====
section
/-! PROOF. A line in the Capture Unit: the triggers, the filter, the ring, and the steps and boots a line ends. -/

namespace Sys2Proof.Machine

variable {s t u : State} {i : Slot} {f : Flight} {x y : SlotState} {l : Line}

/-! ### Triggers and the filter (R59, R60, R62, R63) -/

theorem occursIn_iff (pattern content : List Byte) : occursIn pattern content = true ↔ pattern <:+: content := by
  induction content with
  | nil => rw [occursIn, List.isPrefixOf_iff_prefix, List.prefix_nil, List.infix_nil]
  | cons b bs ih => rw [occursIn, Bool.or_eq_true, List.isPrefixOf_iff_prefix, ih, List.infix_cons_iff]

theorem hitsOn_iff (t : Trigger) (content : List Byte) : t.hitsOn content = true ↔ t.enabled = true ∧
    match t.mode with
      | .atStart => t.pattern <+: content
      | .anywhere => t.pattern <:+: content := by
  unfold Trigger.hitsOn
  rw [Bool.and_eq_true]
  cases t.mode with
  | atStart => exact and_congr_right fun _ => List.isPrefixOf_iff_prefix
  | anywhere => exact and_congr_right fun _ => occursIn_iff _ _

theorem countHits_get (content : List Byte) (ts : Vector Trigger 4) (k : Fin 4) : (countHits content ts)[k] = ts[k].after content := by
  fin_cases k <;> rfl

theorem any_triggers_iff (p : Trigger → Bool) (ts : Vector Trigger 4) : ts.toList.any p = true ↔ ∃ k : Fin 4, p ts[k] = true := by
  rw [List.any_eq_true]
  refine ⟨fun ⟨t, ht, hp⟩ => ?_, fun ⟨k, hp⟩ => ⟨ts[k], ?_, hp⟩⟩
  · obtain ⟨k, hk, rfl⟩ := Vector.mem_iff_getElem.mp (Vector.mem_toList_iff.mp ht)
    exact ⟨⟨k, hk⟩, hp⟩
  · exact Vector.mem_toList_iff.mpr (Vector.getElem_mem _)

theorem anyHit_iff (action : TriggerAction) (ts : Vector Trigger 4) (content : List Byte) :
    anyHit action ts content = true ↔ ∃ k : Fin 4, ts[k].hitsOn content = true ∧ ts[k].action = action := by
  rw [anyHit, any_triggers_iff]
  simp only [Bool.and_eq_true, decide_eq_true_eq]

theorem bootTriggerEnabled_iff (ts : Vector Trigger 4) :
    bootTriggerEnabled ts = true ↔ ∃ k : Fin 4, ts[k].enabled = true ∧ ts[k].action = .boot := by
  rw [bootTriggerEnabled, any_triggers_iff]
  simp only [Bool.and_eq_true, decide_eq_true_eq]

theorem maskedEqual_iff (v code mask : Byte) : (v ^^^ code) &&& ~~~mask = 0#8 ↔
    ∀ bit < 8, mask.getLsbD bit = false → v.getLsbD bit = code.getLsbD bit := by
  have hbits (bit : Nat) (hbit : bit < 8) : ((v ^^^ code) &&& ~~~mask).getLsbD bit =
      (Bool.xor (v.getLsbD bit) (code.getLsbD bit) && !mask.getLsbD bit) := by
    rw [BitVec.getLsbD_and, BitVec.getLsbD_xor, BitVec.getLsbD_not, decide_eq_true hbit, Bool.true_and]
  refine ⟨fun h bit hbit hm => ?_, fun h => BitVec.eq_of_getLsbD_eq fun bit hbit => ?_⟩
  · have := hbits bit hbit
    rw [h, hm, BitVec.getLsbD_zero, Bool.not_false, Bool.and_true] at this
    exact bne_eq_false_iff_eq.mp this.symm
  · rw [hbits bit hbit, BitVec.getLsbD_zero]
    cases hm : mask.getLsbD bit with
    | true => exact Bool.and_false _
    | false => rw [h bit hbit hm, Bool.xor_self]; rfl

theorem byteMatches_iff (b : Option Byte) (code mask : Byte) : byteMatches b code mask = true ↔
    ∀ v ∈ b, ∀ bit < 8, mask.getLsbD bit = false → v.getLsbD bit = code.getLsbD bit := by
  cases b with
  | none => simp [byteMatches]
  | some v => simp [byteMatches, maskedEqual_iff]

/-- Byte n of a content agrees with byte k of the code wherever the mask does not cover a bit (R59). -/
def Filter.Agrees (f : Filter) (content : List Byte) (n k : Nat) : Prop :=
  ∀ b ∈ content[n]?, ∀ bit < 8, (f.mask.toList.getD k 0#8).getLsbD bit = false →
    b.getLsbD bit = (f.code.toList.getD k 0#8).getLsbD bit

/-- The filter accepts a content whose uncovered bits agree with a code (R59, R60). -/
theorem accepts_iff (f : Filter) (content : List Byte) : f.accepts content = true ↔ match f.mode with
      | .single => f.Agrees content 0 0 ∧ f.Agrees content 1 1 ∧ f.Agrees content 2 2 ∧ f.Agrees content 3 3
      | .dual => (f.Agrees content 0 0 ∧ f.Agrees content 1 1) ∨ (f.Agrees content 0 2 ∧ f.Agrees content 1 3) := by
  have hget (v : Vector Byte 4) (k : Nat) (hk : k < 4) : v.toList.getD k 0#8 = v[k] := by
    rw [List.getD_eq_getElem _ _ (by simpa using hk), Vector.getElem_toList]
  have hagree (n k : Nat) (hk : k < 4) : f.Agrees content n k ↔ byteMatches content[n]? f.code[k] f.mask[k] = true := by
    rw [byteMatches_iff, Filter.Agrees, hget _ k hk, hget _ k hk]
  unfold Filter.accepts
  cases f.mode with
  | single =>
    simp only [Bool.and_eq_true, and_assoc]
    rw [hagree 0 0, hagree 1 1, hagree 2 2, hagree 3 3]
  | dual =>
    simp only [Bool.or_eq_true, Bool.and_eq_true]
    rw [hagree 0 0, hagree 1 1, hagree 0 2, hagree 1 3]

/-! ### The ring (R51 to R54) -/

/-- A line offered to the ring is stored whole or discarded whole (R53, R54). -/
theorem offer_eq (y : SlotState) (now : Time) (kind : CaptureKind) (l : Line) : y.offer (captureRecord now kind l) =
    if (y.capture.ring.map fun c => 8 + c.content.length).sum + (8 + l.content.length) ≤ 4096 then
      { y with
        capture.ring := y.capture.ring ++ [⟨now, kind, l.truncated, l.damaged, y.capture.overrun, l.content⟩]
        capture.overrun := false
        notices.lines := y.notices.lines || decide (y.capture.ring = []) }
    else { y with capture.overrun := true, notices.lines := true } := by
  have hnotices : (if y.capture.ring = [] then y.notices.put .lines true else y.notices) =
      { y.notices with lines := y.notices.lines || decide (y.capture.ring = []) } := by
    by_cases h : y.capture.ring = []
    · rw [if_pos h, decide_eq_true h, Bool.or_true]
      rfl
    · rw [if_neg h, decide_eq_false h, Bool.or_false]
  unfold SlotState.offer
  rw [hnotices]
  rfl

/-! ### The banner, the awaited hit and the FAIL_STEP hit (R64 to R67) -/

theorem bootWaiting_iff (x : SlotState) : x.bootWaiting = true ↔ x.power.state = .starting ∧ x.power.phase = .bootWait := by
  rw [SlotState.bootWaiting, decide_eq_true_iff]

theorem isBanner_iff (x : SlotState) (kind : CaptureKind) (content : List Byte) : x.isBanner kind content = true ↔
    x.power.state = .starting ∧ x.power.phase = .bootWait ∧
      (((∃ k : Fin 4, x.capture.triggers[k].enabled = true ∧ x.capture.triggers[k].action = .boot) ∧ kind = .log ∧
          ∃ k : Fin 4, x.capture.triggers[k].hitsOn content = true ∧ x.capture.triggers[k].action = .boot) ∨
        ((¬ ∃ k : Fin 4, x.capture.triggers[k].enabled = true ∧ x.capture.triggers[k].action = .boot) ∧
          x.power.lineSinceRelease = false)) := by
  rw [SlotState.isBanner, Bool.and_eq_true, bootWaiting_iff, and_assoc, ← bootTriggerEnabled_iff, ← anyHit_iff]
  refine and_congr_right fun _ => and_congr_right fun _ => ?_
  cases bootTriggerEnabled x.capture.triggers <;> simp

theorem awaitHit_iff {x : SlotState} (hf : x.engine.flight = some f) (content : List Byte) : x.awaitHit content = true ↔
    ∃ k, f.step.kind = .await k ∧ x.capture.triggers[k].hitsOn content = true := by
  rw [SlotState.awaitHit, hf]
  cases hk : f.step.kind <;> simp [hk]

variable {kind : CaptureKind} {content : List Byte}

/-- A FAIL_STEP trigger hits a captured line (R65). -/
def SlotState.failHit (x : SlotState) (kind : CaptureKind) (content : List Byte) : Bool :=
  decide (kind = .log) && anyHit .failStep x.capture.triggers content

theorem failHit_iff (x : SlotState) (kind : CaptureKind) (content : List Byte) : x.failHit kind content = true ↔
    kind = .log ∧ ∃ k : Fin 4, x.capture.triggers[k].hitsOn content = true ∧ x.capture.triggers[k].action = .failStep := by
  rw [SlotState.failHit, Bool.and_eq_true, decide_eq_true_iff, anyHit_iff]

theorem lineActions_banner (h : x.isBanner kind content = true) (hp : x.powerStep.isSome = true) : lineActions i x kind content s =
    (endStep i (if x.failHit kind content then .trigger else .normal) (s.modSlot i SlotState.boot), [i]) :=
  (if_pos h).trans (if_pos hp)

theorem lineActions_awaited (h : x.isBanner kind content = false) (ha : kind = .log ∧ x.awaitHit content = true) :
    lineActions i x kind content s = (endStep i .normal s, [i]) :=
  (if_neg (by rw [h]; decide)).trans (if_pos (by rw [ha.1, ha.2]; rfl))

theorem lineActions_fails (h : x.isBanner kind content = false) (ha : ¬ (kind = .log ∧ x.awaitHit content = true))
    (hfail : x.failHit kind content = true) : lineActions i x kind content s = match x.engine.flight with
      | some f => if f.aborting then (s, []) else endByHand i f .trigger s
      | none => (s, []) :=
  (if_neg (by rw [h]; decide)).trans ((if_neg (by rwa [Bool.and_eq_true, decide_eq_true_iff])).trans (if_pos hfail))

theorem lineActions_quiet (h : x.isBanner kind content = false) (ha : ¬ (kind = .log ∧ x.awaitHit content = true))
    (hfail : x.failHit kind content = false) : lineActions i x kind content s = (s, []) :=
  (if_neg (by rw [h]; decide)).trans ((if_neg (by rwa [Bool.and_eq_true, decide_eq_true_iff])).trans
    (if_neg (by rw [show (decide (kind = .log) && anyHit .failStep x.capture.triggers content) = false from hfail]; decide)))

theorem awaitHit_idle (h : x.engine.flight = none) : x.awaitHit content = false := by rw [SlotState.awaitHit, h]

/-- Settles O50. -/
theorem linesEndStepsAndBoots : Obligations.LinesEndStepsAndBoots := by
  unfold Obligations.LinesEndStepsAndBoots
  intro s i kind l x u hit bootTrigger banner awaited booted
  have hbanner : x.isBanner kind l.content = true ↔ banner := isBanner_iff x kind l.content
  have hno (h : ¬ banner) : x.isBanner kind l.content = false := Bool.eq_false_iff.mpr (mt hbanner.mp h)
  have hfail : x.failHit kind l.content = true ↔ hit .failStep := failHit_iff x kind l.content
  have hquiet (h : ¬ hit .failStep) : x.failHit kind l.content = false := Bool.eq_false_iff.mpr (mt hfail.mp h)
  have hawait (f : Flight) (hf : x.engine.flight = some f) : (kind = .log ∧ x.awaitHit l.content = true) ↔ awaited f :=
    and_congr_right fun _ => awaitHit_iff hf l.content
  refine ⟨fun hf hb => ?_, fun f hf => ⟨fun hb hcode => ?_, fun hb ha => ?_, fun hb ha hh => ?_, fun hb ha hh => ?_⟩⟩
  · have hidle : ¬ (kind = .log ∧ x.awaitHit l.content = true) := fun h => by
      rw [awaitHit_idle hf] at h
      exact nomatch h.2
    cases hh : x.failHit kind l.content with
    | false => exact lineActions_quiet (hno hb) hidle hh
    | true => refine (lineActions_fails (hno hb) hidle hh).trans ?_; rw [hf]
  · obtain ⟨target, keys, hk⟩ := StepKind.power_of_code hcode
    have hstep : x.powerStep.isSome = true := by rw [powerStep_of_power hf hk]; rfl
    have hline := lineActions_banner (s := u) (i := i) (hbanner.mpr hb) hstep
    refine ⟨fun hh => ?_, fun hh => ?_⟩
    · rw [hfail.mpr hh] at hline
      exact hline
    · rw [hquiet hh] at hline
      exact hline
  · exact lineActions_awaited (hno hb) ((hawait f hf).mpr ha)
  · have hline := lineActions_fails (s := u) (i := i) (hno hb) (mt (hawait f hf).mp ha) (hfail.mpr hh)
    rw [hf] at hline
    refine ⟨fun habort => hline.trans (if_pos habort), fun habort => ?_⟩
    have hend : captureLine i kind l s = endByHand i f .trigger u := hline.trans (if_neg (by rw [habort]; decide))
    rw [endByHand_eq] at hend
    cases hk : f.step.kind <;> rw [hk] at hend <;> exact hend
  · exact lineActions_quiet (hno hb) (mt (hawait f hf).mp ha) (hquiet hh)

/-! ### The Capture Unit's own part (R57, R63) -/

/-- The slot once a line in the boot wait has used up "the first line" (R66). -/
def SlotState.lineSeen (x : SlotState) : SlotState :=
  { x with power.lineSinceRelease := x.power.lineSinceRelease || x.bootWaiting }

theorem lineSeen_eq (h : x.bootWaiting = false) : x.lineSeen = x := by
  rw [SlotState.lineSeen, h, Bool.or_false]

theorem captureUpdate_stale (x : SlotState) (now : Time) (l : Line) :
    x.captureUpdate now .stale l = x.lineSeen.offer (captureRecord now .stale l) := rfl

theorem captureUpdate_log (x : SlotState) (now : Time) (l : Line) : x.captureUpdate now .log l =
    let y := { x.lineSeen with
      capture.triggers := countHits l.content x.capture.triggers
      notices.trigger := x.notices.trigger || anyHit .note x.capture.triggers l.content }
    if x.capture.filter.accepts l.content then y.offer (captureRecord now .log l) else y := by
  have hnotices : (if anyHit .note x.capture.triggers l.content then x.notices.put .trigger true else x.notices) =
      { x.notices with trigger := x.notices.trigger || anyHit .note x.capture.triggers l.content } := by
    cases anyHit .note x.capture.triggers l.content with
    | true => rw [if_pos rfl, Bool.or_true]; rfl
    | false => rw [if_neg (by decide), Bool.or_false]
  unfold SlotState.captureUpdate
  dsimp only
  rw [hnotices]
  rfl

/-- Settles O49. -/
theorem captureCountsAndStoresLines : Obligations.CaptureCountsAndStoresLines := by
  unfold Obligations.CaptureCountsAndStoresLines
  intro s i l x bootWaiting hits agree accepted used offered seen
  have hseen : x.lineSeen = seen := rfl
  have hhits (t : Trigger) : t.hitsOn l.content = true ↔ hits t := hitsOn_iff t l.content
  have haccepts : x.capture.filter.accepts l.content = true ↔ accepted := accepts_iff _ _
  have hnotWaiting (h : ¬ bootWaiting) : x.bootWaiting = false := Bool.eq_false_iff.mpr (mt (bootWaiting_iff x).mp h)
  have hnoBanner (h : ¬ bootWaiting) (kind : CaptureKind) : x.isBanner kind l.content = false := by
    rw [SlotState.isBanner, hnotWaiting h]
    rfl
  refine ⟨offer_eq _ _ _ _, fun h => ?_, fun after hafter noted hnoted => ?_, fun h hstay => ?_⟩
  · refine (lineActions_quiet (hnoBanner h .stale) (fun ha => nomatch ha.1) rfl).trans ?_
    refine congrArg (fun y => (s.setSlot i y, [])) ?_
    change x.captureUpdate s.time .stale l = _
    rw [captureUpdate_stale, lineSeen_eq (hnotWaiting h)]
    exact offer_eq _ _ _ _
  · intro y
    have hcounts : countHits l.content x.capture.triggers = after := by
      refine Vector.ext fun k hk => (countHits_get l.content x.capture.triggers ⟨k, hk⟩).trans ?_
      obtain ⟨hhit, hmiss⟩ := hafter ⟨k, hk⟩
      by_cases h : hits x.capture.triggers[(⟨k, hk⟩ : Fin 4)]
      · exact (if_pos ((hhits _).mpr h)).trans (hhit h).symm
      · exact (if_neg (mt (hhits _).mp h)).trans (hmiss h).symm
    have hnote : anyHit .note x.capture.triggers l.content = noted := by
      rw [Bool.eq_iff_iff, hnoted, anyHit_iff]
      exact exists_congr fun k => and_congr_left fun _ => hhits _
    have hlog := captureUpdate_log x s.time l
    rw [hcounts, hnote] at hlog
    refine ⟨fun ha => ?_, fun ha => ?_⟩
    · exact hlog.trans ((if_pos (haccepts.mpr ha)).trans (offer_eq _ _ _ _))
    · exact hlog.trans (if_neg (mt haccepts.mp ha))
  · have hawait : ¬ (CaptureKind.log = .log ∧ x.awaitHit l.content = true) := fun ⟨_, ha⟩ => by
      obtain ⟨f, k, hf, hk⟩ := awaitHit_flight ha
      obtain ⟨j, hj, hhit⟩ := (awaitHit_iff hf l.content).mp ha
      rcases hstay with hidle | ⟨-, hawaits⟩
      · exact nomatch hidle.symm.trans hf
      · exact hawaits f j hf hj ((hhits _).mp hhit)
    cases hfail : x.failHit .log l.content with
    | false => exact lineActions_quiet (hnoBanner h .log) hawait hfail
    | true =>
      obtain ⟨-, k, hhit, haction⟩ := (failHit_iff x .log l.content).mp hfail
      rcases hstay with hidle | ⟨hfails, -⟩
      · refine (lineActions_fails (hnoBanner h .log) hawait hfail).trans ?_
        rw [hidle]
        rfl
      · exact absurd haction (hfails k ((hhits _).mp hhit))

end Sys2Proof.Machine
end

