-- ==== Sys2Proof/Proofs/Numbers.lean ====
section
/-! PROOF. The results of a window over its samples, and the items and the verdict of a limit set. -/

namespace Sys2Proof.Machine

/-! ### The window (R104, R106 to R109) -/

/-- What a window holds after the samples added to it, short of the cap (R106). -/
structure WindowHolds (samples : List Nat) (opened : Time) (w : Window) : Prop where
  n : w.n = samples.length
  sum : w.sum = samples.sum
  openTime : w.openTime = opened
  saturated : w.saturated = false
  peak : samples ≠ [] → w.peak ∈ samples ∧ ∀ c ∈ samples, c ≤ w.peak
  min : samples ≠ [] → w.min ∈ samples ∧ ∀ c ∈ samples, w.min ≤ c

theorem windowHolds_add {samples : List Nat} {opened : Time} {w : Window} (h : WindowHolds samples opened w)
    (hcap : samples.length < 6050000) (c : Nat) : WindowHolds (samples ++ [c]) opened (w.add c) := by
  obtain ⟨hn, hsum, hopen, hsat, hpeak, hmin⟩ := h
  have hadd : w.add c = { w with
      n := w.n + 1, sum := w.sum + c
      peak := if w.n = 0 then c else max w.peak c
      min := if w.n = 0 then c else Min.min w.min c } := if_pos (by rw [hn]; exact hcap)
  rw [hadd]
  refine ⟨by simp [hn], by simp [hsum], hopen, hsat, fun _ => ?_, fun _ => ?_⟩
  · by_cases hs : samples = []
    · subst hs
      simp [hn]
    · obtain ⟨hmem, hle⟩ := hpeak hs
      have h0 : w.n ≠ 0 := by rw [hn]; exact mt List.length_eq_zero_iff.mp hs
      simp only [if_neg h0, List.mem_append, List.mem_singleton]
      refine ⟨?_, ?_⟩
      · rcases Nat.le_total w.peak c with hc | hc
        · exact .inr (max_eq_right hc)
        · exact .inl (by rw [max_eq_left hc]; exact hmem)
      · rintro d (hd | rfl)
        · exact (hle d hd).trans (le_max_left _ _)
        · exact le_max_right _ _
  · by_cases hs : samples = []
    · subst hs
      simp [hn]
    · obtain ⟨hmem, hle⟩ := hmin hs
      have h0 : w.n ≠ 0 := by rw [hn]; exact mt List.length_eq_zero_iff.mp hs
      simp only [if_neg h0, List.mem_append, List.mem_singleton]
      refine ⟨?_, ?_⟩
      · rcases Nat.le_total w.min c with hc | hc
        · exact .inl (by rw [min_eq_left hc]; exact hmem)
        · exact .inr (min_eq_right hc)
      · rintro d (hd | rfl)
        · exact (min_le_left _ _).trans (hle d hd)
        · exact min_le_right _ _

theorem windowHolds_foldl (opened : Time) (samples : List Nat) : samples.length ≤ 6050000 →
    WindowHolds samples opened (samples.foldl Window.add ⟨0, 0, 0, 0, opened, false⟩) := by
  induction samples using List.reverseRecOn with
  | nil => exact fun _ => ⟨rfl, rfl, rfl, rfl, fun h => absurd rfl h, fun h => absurd rfl h⟩
  | append_singleton samples c ih =>
    intro hcap
    rw [List.length_append, List.length_singleton] at hcap
    rw [List.foldl_append]
    exact windowHolds_add (ih (by omega)) hcap c

/-- A mean with halves rounded up lies within the bounds of its samples. -/
theorem roundedMean_bounds {samples : List Nat} {lo hi : Nat} (hs : samples ≠ []) (h : ∀ c ∈ samples, lo ≤ c ∧ c ≤ hi) :
    lo ≤ (samples.sum + samples.length / 2) / samples.length ∧ (samples.sum + samples.length / 2) / samples.length ≤ hi := by
  have hpos : 0 < samples.length := List.length_pos_iff.mpr hs
  have hlo : samples.length * lo ≤ samples.sum := List.card_nsmul_le_sum samples lo fun c hc => (h c hc).1
  have hhi : samples.sum ≤ samples.length * hi := List.sum_le_card_nsmul samples hi fun c hc => (h c hc).2
  refine ⟨(Nat.le_div_iff_mul_le hpos).mpr ?_, Nat.le_of_lt_succ ((Nat.div_lt_iff_lt_mul hpos).mpr ?_)⟩
  · rw [Nat.mul_comm]
    omega
  · rw [Nat.succ_mul, Nat.mul_comm]
    omega

/-- Settles O53. -/
theorem windowResultsFollowTheSamples : Obligations.WindowResultsFollowTheSamples := by
  unfold Obligations.WindowResultsFollowTheSamples
  intro samples opened now hcap m
  obtain ⟨hn, hsum, hopen, hsat, hpeak, hmin⟩ := windowHolds_foldl opened samples hcap
  refine ⟨hn, by rw [← hopen]; rfl, hsat, fun hs => if_pos (by rw [hn, hs]; rfl), fun hs => ?_⟩
  obtain ⟨hpmem, hple⟩ := hpeak hs
  obtain ⟨hmmem, hmle⟩ := hmin hs
  have hbounds (c : Nat) (hc : c ∈ samples) := And.intro (hmle c hc) (hple c hc)
  refine ⟨_, _, hpmem, hmmem, hbounds, ?_, roundedMean_bounds hs hbounds⟩
  rw [← hsum, ← hn]
  exact if_neg (by rw [hn]; exact mt List.length_eq_zero_iff.mp hs)

/-! ### REPLY_NUMBER (R119) -/

theorem isDigit_iff (b : Byte) : isDigit b = true ↔ 0x30 ≤ b.toNat ∧ b.toNat ≤ 0x39 := by
  rw [isDigit, Bool.and_eq_true, decide_eq_true_eq, decide_eq_true_eq]

theorem firstNumber_none (payload : List Byte) : ∀ minus, (∀ b ∈ payload, isDigit b = false) → firstNumber minus payload = none := by
  induction payload with
  | nil => exact fun _ _ => rfl
  | cons b bs ih =>
    intro minus h
    rw [firstNumber, if_neg (by rw [h b List.mem_cons_self]; decide)]
    exact ih _ fun c hc => h c (List.mem_cons_of_mem b hc)

/-- Bytes that are no digit only say whether the last of them is a minus. -/
theorem firstNumber_skip (before rest : List Byte) : ∀ minus, (∀ b ∈ before, isDigit b = false) →
    firstNumber minus (before ++ rest) = firstNumber ((before.getLast?.map fun b => decide (b = 0x2D#8)).getD minus) rest := by
  induction before with
  | nil => exact fun _ _ => rfl
  | cons b bs ih =>
    intro minus h
    rw [List.cons_append, firstNumber, if_neg (by rw [h b List.mem_cons_self]; decide),
      ih _ fun c hc => h c (List.mem_cons_of_mem b hc), List.getLast?_cons]
    cases bs.getLast? <;> rfl

/-- A run of digits that ends at its tenth digit or before a byte that is none. -/
theorem digitRun_eq (digits after : List Byte) : ∀ n acc, (∀ b ∈ digits, isDigit b = true) → digits.length ≤ n →
    (digits.length = n ∨ ∀ b ∈ after.head?, isDigit b = false) →
      (digitRun n acc (digits ++ after) : Int) = digits.foldl (fun n b => 10 * n + ((b.toNat : Int) - 0x30)) (acc : Int) := by
  induction digits with
  | nil =>
    intro n acc _ _ hend
    cases n with
    | zero => rfl
    | succ n =>
      cases after with
      | nil => rfl
      | cons b bs =>
        have hb : isDigit b = false := (hend.resolve_left (by simp)) b rfl
        rw [List.nil_append, digitRun, if_neg (by rw [hb]; decide)]
        rfl
  | cons b bs ih =>
    intro n acc hdigits hlength hend
    obtain ⟨m, rfl⟩ : ∃ m, n = m + 1 := ⟨n - 1, by rw [List.length_cons] at hlength; omega⟩
    have hb := hdigits b List.mem_cons_self
    rw [List.cons_append, digitRun, if_pos hb, ih m _ (fun c hc => hdigits c (List.mem_cons_of_mem b hc))
      (by rw [List.length_cons] at hlength; omega) (hend.imp_left fun h => by rw [List.length_cons] at h; omega), List.foldl_cons]
    have := ((isDigit_iff b).mp hb).1
    refine congrArg (bs.foldl _ ·) ?_
    omega

theorem firstNumber_digits {digits after : List Byte} (minus : Bool) (hpos : 1 ≤ digits.length) (hmax : digits.length ≤ 10)
    (hdigits : ∀ b ∈ digits, isDigit b = true) (hend : digits.length = 10 ∨ ∀ b ∈ after.head?, isDigit b = false) :
    firstNumber minus (digits ++ after) =
      let magnitude : Int := digits.foldl (fun n b => 10 * n + ((b.toNat : Int) - 0x30)) 0
      some (if minus then -magnitude else magnitude) := by
  have hrun := digitRun_eq digits after 10 0 hdigits hmax hend
  cases digits with
  | nil => exact absurd hpos (by decide)
  | cons b bs =>
    rw [List.cons_append] at hrun ⊢
    rw [firstNumber, if_pos (hdigits b List.mem_cons_self), hrun]
    rfl

/-- Settles O54. -/
theorem resultsAndVerdictFollowTheTable : Obligations.ResultsAndVerdictFollowTheTable := by
  unfold Obligations.ResultsAndVerdictFollowTheTable
  refine ⟨fun m reply k e => ?_, fun threshold raw sc => ?_, fun items => ?_⟩
  · intro itemIs isDigit
    have hitem {raw : Option Int} (h : rawValue m reply e.metric = raw) : itemIs raw := by
      rw [← h]
      rfl
    have hno (b : Byte) (h : ¬ isDigit b) : Machine.isDigit b = false := Bool.eq_false_iff.mpr (mt (isDigit_iff b).mp h)
    have hnumber (q : ReplyPart) (payload : List Byte) (truncated : Bool) (hq : reply = some q)
        (hp : q.payload = some (payload, truncated)) : ReplyPart.numberPayload reply = some payload := by
      rw [hq]
      exact congrArg (Option.map Prod.fst) hp
    refine ⟨fun mean peak min charge hv => ⟨fun he => ?_, fun he => ?_, fun he => ?_, fun he => ?_⟩, fun hv he => ?_, fun he => ?_,
      fun he => ⟨fun hq => ?_, fun q payload truncated hq hp => ⟨fun hnone => ?_, fun before digits after hpayload hbefore hpos hmax hdigits hend => ?_⟩⟩⟩
    · exact hitem (by rw [he, rawValue, hv]; rfl)
    · exact hitem (by rw [he, rawValue, hv]; rfl)
    · exact hitem (by rw [he, rawValue, hv]; rfl)
    · exact hitem (by rw [he, rawValue, hv]; rfl)
    · refine hitem ?_
      revert he
      cases e.metric <;> simp [rawValue, hv]
    · exact hitem (by rw [he]; rfl)
    · refine hitem ?_
      have hpayload : ReplyPart.numberPayload reply = none := by
        cases reply with
        | none => rfl
        | some q => exact congrArg (Option.map Prod.fst) (hq q rfl)
      rw [he, rawValue, hpayload]
      rfl
    · refine hitem ?_
      rw [he, rawValue, hnumber q payload truncated hq hp, Option.bind_some, replyNumber, firstNumber_none payload false fun b hb => hno b (hnone b hb)]
      rfl
    · intro magnitude number
      refine hitem ?_
      have hfirst : firstNumber false payload = some number := by
        rw [hpayload, List.append_assoc, firstNumber_skip before _ false fun b hb => hno b (hbefore b hb),
          firstNumber_digits _ hpos hmax (fun b hb => (isDigit_iff b).mpr (hdigits b hb)) (hend.imp_right fun h b hb => hno b (h b hb))]
        refine congrArg some ?_
        change (if _ then -magnitude else magnitude) = if _ then -magnitude else magnitude
        cases before.getLast? with
        | none => rfl
        | some b => simp
      rw [he, rawValue, hnumber q payload truncated hq hp, Option.bind_some, replyNumber, hfirst]
      rfl
  · refine ⟨fun h => if_pos h, fun h => ?_, fun hlo hhi hraw => ?_, fun hlo hhi hraw hsc => ?_, fun hlo hhi hraw hsc => ?_⟩
    · exact (if_neg (by omega)).trans (if_pos h)
    · exact (if_neg (by omega)).trans ((if_neg (by omega)).trans (if_pos (by rw [hraw]; rfl)))
    · exact (if_neg (by omega)).trans ((if_neg (by omega)).trans ((if_neg (by simpa using hraw)).trans (if_pos hsc)))
    · exact (if_neg (by omega)).trans ((if_neg (by omega)).trans ((if_neg (by simpa using hraw)).trans (if_neg (by omega))))
  · intro fails
    have hany (c : LimitClass) : (items.any fun p => decide (p.1 = c) && decide (p.2.result ≠ .pass)) = true ↔ fails c := by
      rw [List.any_eq_true]
      refine exists_congr fun g => and_congr_right fun _ => ?_
      rw [Bool.and_eq_true, decide_eq_true_eq, decide_eq_true_eq]
      exact and_congr_right fun _ => by cases g.2.result <;> simp
    refine ⟨fun h => if_pos ((hany .gate).mpr h), fun hg h => ?_, fun hg h => ?_⟩
    · exact (if_neg (mt (hany .gate).mp hg)).trans (if_pos ((hany .watch).mpr h))
    · exact (if_neg (mt (hany .gate).mp hg)).trans (if_neg (mt (hany .watch).mp h))

end Sys2Proof.Machine
end
